-- ==== Sys2Proof/Word.lean ====
section
/-! DEFINITION. The plain value types of the block (spec 00_scope.md rules R11 to R16): words, bytes, real
numbers, samples and the records the buffers hold. Functions over them stand in `Sys2Proof/Machine/`. -/

namespace Sys2Proof

/-- `U32` of rule R11: an unsigned 32-bit value. Every integer register holds one (rule R32). -/
abbrev Word := BitVec 32

/-- `U8` of rule R11. -/
abbrev Byte := BitVec 8

/-- The real number `rad + pis * pi + arg (dx + dy * i)`, kept exactly as plain data. The block's results from rational
samples are closed under this form: `arg` of a rational sample, sums, differences and `wrap` of such (rule R16), and
`cfo * 2 * pi / fs` of rationals (rule R102). In canonical form the direction is `(1, 0)` or a primitive pair with
`0 < dy < dx`, so that equal numbers are equal data. -/
structure RealNum where
  rad : Rat
  pis : Rat
  dx : Int
  dy : Int
deriving DecidableEq, Repr, Inhabited

/-- `Num` of rule R11: a real number as plain data. It is an exact number, one of the real numbers the host supplies
(`host k` is the `k`-th, whatever real it is: `Config.hostInt` and `Config.hostBit`), or what the real operations of
rules R16 and R19 make of such numbers; `angle re im` is the principal argument of `re + im*i`. Log entry 1 (DESIGN
CHOICE): the form. -/
inductive NumVal where
  | exact (r : RealNum)
  | host (k : Nat)
  | sum (a b : NumVal)
  | minus (a : NumVal)
  | prod (a b : NumVal)
  | recip (a : NumVal)
  | angle (re im : NumVal)
deriving DecidableEq, Repr, Inhabited

/-- `Sample` of rule R11: the complex number `re + i*im`. -/
structure Sample where
  re : NumVal
  im : NumVal
deriving DecidableEq, Repr, Inhabited

/-- A `BURST` entry of rule R57: the half-open range `[start, stop)` of `SAMP`. -/
structure Span where
  start : Word
  stop : Word
deriving DecidableEq, Repr, Inhabited

/-- A `MATCH` entry of rule R57: a frequency index and its sample-clock phase. -/
structure Hit where
  pos : Word
  phase : Word
deriving DecidableEq, Repr, Inhabited

/-- A packet record of rule R56. Its fourth field `len` is `Packet.len` below: it is the number of bytes. -/
structure Packet where
  chan : Word
  short : Bool
  bytes : List Byte
deriving DecidableEq, Repr, Inhabited

/-- The `len` field of a packet record (rule R56): `bytes[0 .. len-1]` are all its bytes. -/
def Packet.len (p : Packet) : Nat := p.bytes.length

end Sys2Proof
end

