-- ==== Sys2Proof/Config.lean ====
section
/-! DEFINITION. What an instance of the block fixes (rule R9): the two read-only tables, the build parameters, and the
values the spec leaves open, which are constants without a body. -/

namespace Sys2Proof

/-- The build parameters rule R9 leaves open, which are arguments of the model: the six capacities (D6, U9), and the
entry `WSEQ[127]` of an instance built with `W_LEN = 128` (U5); an instance with `W_LEN = 127` has none. Log entries 3
and 7. -/
structure Build where
  sampCap : Nat
  burstCap : Nat
  candCap : Nat
  matchCap : Nat
  byteCap : Nat
  outCap : Nat
  lastBit : Option Bool
deriving DecidableEq, Repr

/-- What rule R9 and U9 ask of the capacities: `BYTE_CAP >= 260`, and all below 2^31. -/
def Build.legal (b : Build) : Bool :=
  decide (b.sampCap < 2 ^ 31) && decide (b.burstCap < 2 ^ 31) && decide (b.candCap < 2 ^ 31)
    && decide (b.matchCap < 2 ^ 31) && decide (260 ≤ b.byteCap) && decide (b.byteCap < 2 ^ 31)
    && decide (b.outCap < 2 ^ 31)

/-- The instance `Machine.State.reset` is the reset of. Log entry 3 (DESIGN CHOICE): which one. -/
def Config.build : Build := ⟨65536, 1024, 65536, 1024, 512, 1024, none⟩

/-- `WSEQ[0 .. 126]` of rule R52, ten entries a line. Log entry 7: where they come from. -/
def Config.wseq : List Nat :=
  [1, 1, 1, 1, 0, 1, 0, 1, 0, 1]
  ++ [0, 0, 0, 0, 1, 0, 1, 1, 0, 1]
  ++ [1, 1, 1, 0, 0, 1, 1, 1, 0, 0]
  ++ [1, 0, 1, 0, 1, 1, 0, 0, 1, 1]
  ++ [0, 0, 0, 0, 0, 1, 1, 0, 1, 1]
  ++ [0, 1, 0, 1, 1, 1, 0, 1, 0, 0]
  ++ [0, 1, 1, 0, 0, 1, 0, 0, 0, 1]
  ++ [0, 0, 0, 0, 0, 0, 1, 0, 0, 1]
  ++ [0, 0, 1, 1, 0, 1, 0, 0, 1, 1]
  ++ [1, 1, 0, 1, 1, 1, 0, 0, 0, 0]
  ++ [1, 1, 1, 1, 1, 1, 1, 0, 0, 0]
  ++ [1, 1, 1, 0, 1, 1, 0, 0, 0, 1]
  ++ [0, 1, 0, 0, 1, 0, 1]

/-- `CHIDX[0 .. 39]` of rule R53. -/
def Config.chidx : List Nat :=
  [70, 62, 120, 111, 77, 46, 15, 101, 66, 39]
  ++ [31, 26, 80, 83, 125, 89, 10, 35, 8, 54]
  ++ [122, 17, 33, 0, 58, 115, 6, 94, 86, 49]
  ++ [52, 20, 40, 27, 84, 90, 63, 112, 47, 102]

/-- The whitening table of an instance, `WSEQ[0 .. W_LEN-1]` (rules R9, R52). -/
def Build.wseq (b : Build) : List Nat :=
  match b.lastBit with
  | none => Config.wseq
  | some v => Config.wseq ++ [v.toNat]

/-- `W_LEN` (rule R9): 127, or 128 where the instance has the 128th entry (U5). -/
def Build.wLen (b : Build) : Nat :=
  match b.lastBit with
  | none => 127
  | some _ => 128

/-- `WSEQ[idx]`, a Bit. -/
def Build.whitenBit (b : Build) (idx : Nat) : Bool := b.wseq.getD idx 0 == 1

/-- The factors of rule R101, exactly 4/5 and 6/5 (rule R19). -/
def Config.lowFactor : Rat := 4 / 5

def Config.highFactor : Rat := 6 / 5

/-- The largest legal channel (rule R45). -/
def Config.maxChannel : Nat := 39

/-- The real numbers the host supplies: the `k`-th is `hostInt k` plus the sum of `2^-(i+1)` over the places `i` at
which `hostBit k i` is true. Nothing fixes them, so a statement holds whatever reals they are. Log entry 1. -/
opaque Config.hostInt : Nat → Int

opaque Config.hostBit : Nat → Nat → Bool

/-- The eleven buffers of rule R55, to name whose open value is meant. -/
inductive BufferName where
  | samp | sql | burst | freq | bits | raw | cand | hits | rb | dw | out
deriving DecidableEq, Repr

/-- What an element holds that was not written since its contents last became unspecified (rules R60, R87, R311, U3):
any value of its type, a function of the buffer, of how often its contents became unspecified, and of the index.
Log entry 4. -/
opaque Config.freeSample : BufferName → Nat → Nat → Sample

opaque Config.freeSpan : BufferName → Nat → Nat → Span

opaque Config.freeFreq : BufferName → Nat → Nat → NumVal

opaque Config.freeBit : BufferName → Nat → Nat → Bool

opaque Config.freeWord : BufferName → Nat → Nat → Word

opaque Config.freeHit : BufferName → Nat → Nat → Hit

opaque Config.freeByte : BufferName → Nat → Nat → Byte

opaque Config.freePacket : BufferName → Nat → Nat → Packet

end Sys2Proof
end

