-- ==== Sys2Proof/Machine/RealNum.lean ====
section
/-! DEFINITION. Exact arithmetic on `RealNum`, and the sign of a real number from narrowing intervals around it (rules
R16 and R19), with no rounding. -/

namespace Sys2Proof

/-- The number 0. -/
def RealNum.zero : RealNum := ⟨0, 0, 1, 0⟩

/-- A rational number of radians. -/
def RealNum.ofRat (q : Rat) : RealNum := ⟨q, 0, 1, 0⟩

/-- `q * pi`. -/
def RealNum.ofPi (q : Rat) : RealNum := ⟨0, q, 1, 0⟩

/-- A vector other than 0, turned by a multiple of `pi/4` into the octant `0 <= angle < pi/4`: the multiple of `pi` that
was taken off, and the turned vector. The turned-off angle plus the angle of the result is the principal argument. -/
def octant (x y : Int) : Rat × Int × Int :=
  if 0 ≤ y then
    if 0 < x then
      if y < x then (0, x, y) else (1 / 4, x + y, y - x)
    else if 0 < y then
      if -x < y then (1 / 2, y, -x) else (3 / 4, y - x, -x - y)
    else (1, -x, -y)
  else if x < 0 then
    if -y < -x then (-1, -x, -y) else (-3 / 4, -x - y, x - y)
  else if x < -y then (-1 / 2, -y, x)
  else (-1 / 4, x - y, x + y)

/-- The canonical number `arg (x + y*i)` of rule R16, with `arg (0, 0) = 0`. -/
def direction (x y : Int) : RealNum :=
  if x = 0 ∧ y = 0 then RealNum.zero
  else
    let o := octant x y
    let g : Int := Int.gcd o.2.1 o.2.2
    ⟨0, o.1, o.2.1 / g, o.2.2 / g⟩

/-- The canonical form of a number: its direction in the first octant and primitive. -/
def RealNum.normalize (a : RealNum) : RealNum :=
  let d := direction a.dx a.dy
  ⟨a.rad, a.pis + d.pis, d.dx, d.dy⟩

/-- Sum of two numbers in canonical form: the directions multiply as complex numbers. -/
def RealNum.addCanonical (a b : RealNum) : RealNum :=
  let d := direction (a.dx * b.dx - a.dy * b.dy) (a.dx * b.dy + a.dy * b.dx)
  ⟨a.rad + b.rad, a.pis + b.pis + d.pis, d.dx, d.dy⟩

/-- Sum of two numbers, in canonical form. -/
def RealNum.add (a b : RealNum) : RealNum := RealNum.addCanonical a.normalize b.normalize

/-- Negation of a number in canonical form: the direction is conjugated. -/
def RealNum.negCanonical (a : RealNum) : RealNum :=
  let d := direction a.dx (-a.dy)
  ⟨-a.rad, -a.pis + d.pis, d.dx, d.dy⟩

/-- Negation of a number, in canonical form. -/
def RealNum.neg (a : RealNum) : RealNum := RealNum.negCanonical a.normalize

/-- The rational number a number is, where it is one. -/
def RealNum.toRat? (a : RealNum) : Option Rat :=
  let n := RealNum.normalize a
  if n.pis = 0 ∧ n.dx = 1 ∧ n.dy = 0 then some n.rad else none

/-- The first `n` terms of the alternating series `t - t^3/3 + t^5/5 - ...` of the arctangent. -/
def arctanSum (t : Rat) : Nat → Rat
  | 0 => 0
  | n + 1 => arctanSum t n + (-1) ^ n * t ^ (2 * n + 1) / (2 * n + 1 : Nat)

/-- A closed interval of rationals. -/
structure RatInterval where
  lo : Rat
  hi : Rat
deriving DecidableEq, Repr

/-- The arctangent of `t`, `0 <= t <= 1`, lies between an even and an odd partial sum of its series. -/
def arctanInterval (n : Nat) (t : Rat) : RatInterval := ⟨arctanSum t (2 * n), arctanSum t (2 * n + 1)⟩

/-- An interval around `pi`: `16 * arctan (1/5) - 4 * arctan (1/239)`. -/
def piInterval (n : Nat) : RatInterval :=
  let a := arctanInterval n (1 / 5)
  let b := arctanInterval n (1 / 239)
  ⟨16 * a.lo - 4 * b.hi, 16 * a.hi - 4 * b.lo⟩

/-- An interval around the angle of a vector in the first octant; above the slope 1/2 the angle is
`arctan (1/2)` plus the rest, so that the series stays fast. -/
def angleInterval (n : Nat) (x y : Int) : RatInterval :=
  let t : Rat := y / x
  if t ≤ 1 / 2 then arctanInterval n t
  else
    let a := arctanInterval n (1 / 2)
    let b := arctanInterval n ((2 * t - 1) / (2 + t))
    ⟨a.lo + b.lo, a.hi + b.hi⟩

/-- An interval around a canonical number. -/
def RealNum.interval (n : Nat) (a : RealNum) : RatInterval :=
  let p := piInterval n
  let v := angleInterval n a.dx a.dy
  if 0 ≤ a.pis then ⟨a.rad + a.pis * p.lo + v.lo, a.rad + a.pis * p.hi + v.hi⟩
  else ⟨a.rad + a.pis * p.hi + v.lo, a.rad + a.pis * p.lo + v.hi⟩

/-- The sign an interval shows: none where it contains 0. -/
def RatInterval.sign? (v : RatInterval) : Option Ordering :=
  if 0 < v.lo then some .gt else if v.hi < 0 then some .lt else none

/-- The sign of a real number from the intervals `f n` around it: `f (2*n + 1)` is asked after `f n`, until one of them
does not contain 0. It ends for every number other than 0 whose intervals narrow to it; for 0 it has no value. -/
def signSearch (f : Nat → Option RatInterval) (n : Nat) : Option Ordering :=
  match (f n).bind RatInterval.sign? with
  | some o => some o
  | none => signSearch f (2 * n + 1)
partial_fixpoint

/-- The same sign, where one of the listed intervals shows it. -/
def signByRounds (f : Nat → Option RatInterval) : List Nat → Option Ordering
  | [] => none
  | n :: rest => ((f n).bind RatInterval.sign?).or (signByRounds f rest)

/-- The sign of the real number the intervals `f 0`, `f 1`, ... narrow to. The first rounds are a list, so that they can
be evaluated; where no interval ever shows a sign, it is the sign of 0 (rule R19: the order is exact). -/
def searchSign (f : Nat → Option RatInterval) : Ordering :=
  (signByRounds f [2, 4, 8, 16, 32]).getD ((signSearch f 64).getD .eq)

/-- The sign of a canonical number. One without an angle and without a multiple of `pi` is its rational part; one
without a rational part, `pis * pi` plus an angle in `[0, pi/4)`, shows its sign unless `-1/4 < pis < 0`. Every
difference of two frequencies the block computes from rational samples is in these cases; every other number is
compared by intervals. -/
def RealNum.signCanonical (a : RealNum) : Ordering :=
  if a.pis = 0 ∧ a.dy = 0 then compare a.rad 0
  else if a.rad = 0 ∧ a.dy = 0 then compare a.pis 0
  else if a.rad = 0 ∧ 0 ≤ a.pis then .gt
  else if a.rad = 0 ∧ a.pis ≤ -1 / 4 then .lt
  else searchSign fun n => some (RealNum.interval n a)

/-- The sign of a number. -/
def RealNum.sign (a : RealNum) : Ordering := RealNum.signCanonical a.normalize

end Sys2Proof
end

