-- ==== Sys2Proof/Machine/Num.lean ====
section
/-! DEFINITION. The real numbers of rule R11: their operations, their order, and the primitives of rules R16, R17, R19
and R102. An operation whose result is an exact number again computes it; any other result is kept as the operation. -/

namespace Sys2Proof

/-- A rational number. -/
def NumVal.ofRat (q : Rat) : NumVal := .exact (RealNum.ofRat q)

/-- The number 0. -/
def NumVal.zero : NumVal := .exact RealNum.zero

/-- `q * pi`. -/
def NumVal.ofPi (q : Rat) : NumVal := .exact (RealNum.ofPi q)

/-- The rational number a number is, where it is an exact number that is one. -/
def NumVal.toRat? : NumVal → Option Rat
  | .exact r => r.toRat?
  | .host _ | .sum _ _ | .minus _ | .prod _ _ | .recip _ | .angle _ _ => none

/-- The number with its exact numbers in canonical form. -/
def NumVal.normalize : NumVal → NumVal
  | .exact r => .exact r.normalize
  | .host k => .host k
  | .sum a b => .sum a.normalize b.normalize
  | .minus a => .minus a.normalize
  | .prod a b => .prod a.normalize b.normalize
  | .recip a => .recip a.normalize
  | .angle a b => .angle a.normalize b.normalize

/-- A sample with its components in canonical form. -/
def Sample.normalize (s : Sample) : Sample := ⟨s.re.normalize, s.im.normalize⟩

/-- `a + b`. -/
def NumVal.add (a b : NumVal) : NumVal :=
  match a, b with
  | .exact r, .exact q => .exact (r.add q)
  | _, _ => .sum a b

/-- `-a`. -/
def NumVal.neg : NumVal → NumVal
  | .exact r => .exact r.neg
  | a => .minus a

/-- `a - b`; taking the first term from a sum leaves the second. -/
def NumVal.sub (a b : NumVal) : NumVal :=
  match a with
  | .sum x y => if x = b then y else a.add b.neg
  | _ => a.add b.neg

/-- `a * b`. -/
def NumVal.mul (a b : NumVal) : NumVal :=
  match a.toRat?, b.toRat? with
  | some p, some q => .ofRat (p * q)
  | _, _ => .prod a b

/-- The sum of two intervals. -/
def RatInterval.add (v w : RatInterval) : RatInterval := ⟨v.lo + w.lo, v.hi + w.hi⟩

/-- The negation of an interval. -/
def RatInterval.neg (v : RatInterval) : RatInterval := ⟨-v.hi, -v.lo⟩

/-- The product of two intervals. -/
def RatInterval.mul (v w : RatInterval) : RatInterval :=
  ⟨min (min (v.lo * w.lo) (v.lo * w.hi)) (min (v.hi * w.lo) (v.hi * w.hi)),
    max (max (v.lo * w.lo) (v.lo * w.hi)) (max (v.hi * w.lo) (v.hi * w.hi))⟩

/-- The reciprocals of an interval without 0; none for one that contains it. -/
def RatInterval.inv? (v : RatInterval) : Option RatInterval := v.sign?.map fun _ => ⟨v.hi⁻¹, v.lo⁻¹⟩

/-- An interval around the arctangents of an interval. -/
def RatInterval.arctan (n : Nat) (v : RatInterval) : RatInterval :=
  ⟨(RealNum.interval n (direction v.lo.den v.lo.num)).lo, (RealNum.interval n (direction v.hi.den v.hi.num)).hi⟩

/-- An interval around the arctangent of a quotient. -/
def quotientAngle (n : Nat) (y x : Option RatInterval) : Option RatInterval :=
  match y, x.bind RatInterval.inv? with
  | some v, some w => some ((v.mul w).arctan n)
  | _, _ => none

/-- The first `n` places of the `k`-th number of the host, after the point. -/
def hostPlaces (k : Nat) : Nat → Rat
  | 0 => 0
  | n + 1 => hostPlaces k n + if Config.hostBit k n then (1 / 2) ^ (n + 1) else 0

/-- The sign of a number, given the intervals around it. -/
def NumVal.signWithin (a : NumVal) (f : Nat → Option RatInterval) : Ordering :=
  match a with
  | .exact r => r.sign
  | _ => searchSign f

/-- Intervals around a number, narrowing to it as `n` grows. A reciprocal or an angle has none until the intervals it
is made from are narrow enough; the reciprocal of 0, which no rule takes, counts as 0. -/
def NumVal.enclose : NumVal → Nat → Option RatInterval
  | .exact r, n => some (RealNum.interval n r.normalize)
  | .host k, n =>
    some ⟨Config.hostInt k + hostPlaces k n, Config.hostInt k + hostPlaces k n + (1 / 2) ^ n⟩
  | .sum a b, n => (a.enclose n).bind fun v => (b.enclose n).map v.add
  | .minus a, n => (a.enclose n).map RatInterval.neg
  | .prod a b, n => (a.enclose n).bind fun v => (b.enclose n).map v.mul
  | .recip a, n =>
    if a.signWithin a.enclose = .eq then some ⟨0, 0⟩ else (a.enclose n).bind RatInterval.inv?
  | .angle x y, n =>
    match x.signWithin x.enclose, y.signWithin y.enclose with
    | .gt, _ => quotientAngle n (y.enclose n) (x.enclose n)
    | _, .gt => (quotientAngle n (x.enclose n) (y.enclose n)).map fun v =>
        (RealNum.interval n (RealNum.ofPi (1 / 2))).add v.neg
    | _, .lt => (quotientAngle n (x.enclose n) (y.enclose n)).map fun v =>
        (RealNum.interval n (RealNum.ofPi (-1 / 2))).add v.neg
    | .lt, .eq => some (RealNum.interval n (RealNum.ofPi 1))
    | .eq, .eq => some ⟨0, 0⟩

/-- The sign of a number. -/
def NumVal.sign (a : NumVal) : Ordering := a.signWithin a.enclose

/-- The strict comparison `a > b` of rule R19. -/
def NumVal.gt (a b : NumVal) : Bool := (a.sub b).sign == .gt

/-- `a < 0`. -/
def NumVal.isNegative (a : NumVal) : Bool := a.sign == .lt

/-- `a > 0`. -/
def NumVal.isPositive (a : NumVal) : Bool := a.sign == .gt

/-- `arg(s)` of rule R16: the direction of a rational sample, its components brought to one denominator. -/
def argOf (s : Sample) : NumVal :=
  match s.re.toRat?, s.im.toRat? with
  | some x, some y => .exact (direction (x.num * y.den) (y.num * x.den))
  | _, _ => .angle s.re s.im

/-- `wrap(t)` of rule R16 for `-2*pi < t < 2*pi`, in the exact form of rule R17. -/
def wrap (t : NumVal) : NumVal :=
  if t.gt (.ofPi 1) then t.sub (.ofPi 2) else if t.gt (.ofPi (-1)) then t else t.add (.ofPi 2)

/-- `re*re + im*im`, the square of `amp(s)` (rules R16, R17). -/
def amp2 (s : Sample) : NumVal := (s.re.mul s.re).add (s.im.mul s.im)

/-- `amp(s) > t` for `t >= 0`, in the exact form of rule R17. -/
def ampAbove (t : NumVal) (s : Sample) : Bool := (amp2 s).gt (t.mul t)

/-- `amp(s) < t` for `t >= 0`, in the exact form of rule R17. -/
def ampBelow (t : NumVal) (s : Sample) : Bool := (t.mul t).gt (amp2 s)

/-- Rule R102: `cfo * 2 * pi / fs`. -/
def referenceOf (cfo fs : NumVal) : NumVal :=
  match cfo.toRat?, fs.toRat? with
  | some c, some f => .ofPi (c * 2 / f)
  | _, _ => (cfo.mul (.ofPi 2)).mul (.recip fs)

end Sys2Proof
end

