-- ==== Sys2Proof/Machine/Buffer.lean ====
section
/-! DEFINITION. One element-addressed buffer (spec 20_memory.md rules R80, R86, R87) and the operations over it. -/

namespace Sys2Proof

/-- A buffer: the elements written since its contents last became unspecified, in rising index order, and how often they
became unspecified. Log entry 4: an element that is not listed holds an open value that `gen` and the index name. -/
structure Buf (α : Type) where
  gen : Nat
  cells : List (Nat × α)
deriving DecidableEq, Repr

/-- A buffer nothing has written. -/
def Buf.empty {α : Type} : Buf α := ⟨0, []⟩

/-- The element listed at an index. -/
def findCell {α : Type} (i : Nat) : List (Nat × α) → Option α
  | [] => none
  | (j, v) :: rest => if j = i then some v else findCell i rest

/-- The cells from an index up. -/
def dropBelow {α : Type} (i : Nat) : List (Nat × α) → List (Nat × α)
  | [] => []
  | (j, v) :: rest => if j < i then dropBelow i rest else (j, v) :: rest

/-- The cells with one element written. -/
def insertCell {α : Type} (i : Nat) (v : α) : List (Nat × α) → List (Nat × α)
  | [] => [(i, v)]
  | (j, w) :: rest =>
    if i < j then (i, v) :: (j, w) :: rest
    else if i = j then (i, v) :: rest
    else (j, w) :: insertCell i v rest

/-- Consecutive cells from an index up. -/
def numbered {α : Type} (i : Nat) : List α → List (Nat × α)
  | [] => []
  | v :: rest => (i, v) :: numbered (i + 1) rest

/-- `n` consecutive elements from index `i` up; `free` gives what is not listed. -/
def windowCells {α : Type} (free : Nat → α) : Nat → Nat → List (Nat × α) → List α
  | 0, _, _ => []
  | n + 1, i, cells =>
    match dropBelow i cells with
    | [] => free i :: windowCells free n (i + 1) []
    | (j, v) :: rest =>
      if j = i then v :: windowCells free n (i + 1) rest
      else free i :: windowCells free n (i + 1) ((j, v) :: rest)

/-- `MemRead(SPACE:i, 1)` of rule R14; `free` is the open value of an element that is not listed. -/
def Buf.get {α : Type} (free : Nat → Nat → α) (b : Buf α) (i : Nat) : α := (findCell i b.cells).getD (free b.gen i)

/-- `MemRead(SPACE:i, n)` of rule R14. -/
def Buf.window {α : Type} (free : Nat → Nat → α) (b : Buf α) (i n : Nat) : List α :=
  windowCells (free b.gen) n i b.cells

/-- `MemWrite(SPACE:i, 1, v)` of rule R14. -/
def Buf.put {α : Type} (b : Buf α) (i : Nat) (v : α) : Buf α := ⟨b.gen, insertCell i v b.cells⟩

/-- `MemWrite(SPACE:0, n, xs)` of rule R14 by an operation that sets the length register from `oldLen` to `n`, the
number of elements written. If that shortens the buffer, the elements at and above `n` become unspecified (U3; log
entry 5); otherwise they stay. -/
def Buf.fill {α : Type} (b : Buf α) (oldLen : Nat) (xs : List α) : Buf α :=
  if xs.length < oldLen then ⟨b.gen + 1, numbered 0 xs⟩
  else ⟨b.gen, numbered 0 xs ++ dropBelow xs.length b.cells⟩

/-- All contents become unspecified (rule R311, U3). -/
def Buf.forget {α : Type} (b : Buf α) : Buf α := ⟨b.gen + 1, []⟩

/-- Indices strictly rising, from `lo` up. -/
def ascendingFrom {α : Type} (lo : Nat) : List (Nat × α) → Bool
  | [] => true
  | (i, _) :: rest => decide (lo ≤ i) && ascendingFrom (i + 1) rest

/-- The canonical form of a buffer, so that equal buffers are equal data. No listed element can equal what an unlisted
one reads as, because that value is open. -/
def Buf.wf {α : Type} (b : Buf α) : Bool := ascendingFrom 0 b.cells

/-- No element is listed at or above a capacity. -/
def Buf.within {α : Type} (b : Buf α) (cap : Nat) : Bool := b.cells.all fun c => decide (c.1 < cap)

/-- The eleven writable buffers of rule R55; `hits` is `MATCH`. -/
structure Memory where
  samp : Buf Sample
  sql : Buf Sample
  burst : Buf Span
  freq : Buf NumVal
  bits : Buf Bool
  raw : Buf Bool
  cand : Buf Word
  hits : Buf Hit
  rb : Buf Byte
  dw : Buf Byte
  out : Buf Packet
deriving DecidableEq, Repr

/-- All buffers with nothing written. -/
def Memory.empty : Memory :=
  ⟨.empty, .empty, .empty, .empty, .empty, .empty, .empty, .empty, .empty, .empty, .empty⟩

/-- All contents become unspecified (rule R311). -/
def Memory.forget (m : Memory) : Memory :=
  ⟨m.samp.forget, m.sql.forget, m.burst.forget, m.freq.forget, m.bits.forget, m.raw.forget, m.cand.forget,
    m.hits.forget, m.rb.forget, m.dw.forget, m.out.forget⟩

/-- Every buffer is in canonical form. -/
def Memory.wf (m : Memory) : Bool :=
  m.samp.wf && m.sql.wf && m.burst.wf && m.freq.wf && m.bits.wf && m.raw.wf && m.cand.wf && m.hits.wf && m.rb.wf
    && m.dw.wf && m.out.wf

end Sys2Proof
end

