-- ==== Sys2Proof/Machine/State.lean ====
section
/-! DEFINITION. The state of the block (spec 10_state.md), the host's transactions (rule R81), the reasons a step can
stop, and the state after reset (rules R60, R311). -/

namespace Sys2Proof.Machine

/-- A value that crosses the host interface: a register's value or a buffer element (rules R32, R80). -/
inductive Value where
  | word (w : Word)
  | num (n : NumVal)
  | sample (v : Sample)
  | span (v : Span)
  | bit (b : Bool)
  | hit (v : Hit)
  | byte (b : Byte)
  | packet (p : Packet)
deriving DecidableEq, Repr

/-- What the host does to the block: the five transactions of rule R81, and the `Reset` event of rule R310. -/
inductive HostTxn where
  | regRead (index : Nat)
  | regWrite (index : Nat) (v : Value)
  | bufRead (space : Nat) (i : Nat)
  | bufWrite (space : Nat) (i : Nat) (v : Value)
  | cmd (w : Word)
  | reset
deriving DecidableEq, Repr

/-- The block has no fault that stops it: every command word and every host transaction has a defined effect in every
state (rule R325). Fatal conditions are flags in `STATUS` (rule R291), so this type has no constructor. -/
inductive Fault where
deriving DecidableEq, Repr

/-- Why the model gives no next state: nothing in it does (rule R325). -/
inductive Refusal where
  /-- An instruction without a meaning; no arm raises it. Safe. -/
  | notModelled (mnemonic : String)
deriving DecidableEq, Repr

/-- The state of the block: the 35 registers of rule R32, the eleven buffers of rule R55, and three fields of the model's
own: the instance's build parameters (log entry 3) and two that stand for the host interface (log entry 6). -/
structure State where
  /-- The model's own: the build parameters of the instance (rule R9), which nothing changes. -/
  build : Build
  cfgFs : NumVal
  cfgSps : Word
  cfgThresh : NumVal
  thrLo : NumVal
  thrHi : NumVal
  cfgPad : Word
  cfgSkip : Word
  cfgCfo : NumVal
  cfgRef : NumVal
  fdRef : NumVal
  cfgSync : Word
  cfgTol : Word
  cfgChan : Word
  cfgMaxb : Word
  sampLen : Word
  bdCur : Word
  segStart : Word
  segStop : Word
  burstCnt : Word
  freqLen : Word
  fdOff : Word
  bitsLen : Word
  rawLen : Word
  syPos : Word
  syHd : Word
  candCnt : Word
  matchCnt : Word
  rbLen : Word
  dwLen : Word
  outCnt : Word
  status : Word
  err : Word
  cntFound : Word
  cntFailed : Word
  pfDecl : Word
  mem : Memory
  /-- The model's own: the transactions the host will issue, in order (rules R91, R310). -/
  pending : List HostTxn
  /-- The model's own: the values the host's reads returned, in order (rule R81). -/
  replies : List Value
deriving DecidableEq, Repr

/-- The number 0, as reset leaves it in a register. -/
def numZero : NumVal := .exact ⟨0, 0, 1, 0⟩

/-- The state of an instance after reset: rule R60's values, every buffer unwritten, and nothing pending (rules R60,
R311). -/
def State.resetOf (b : Build) : State where
  build := b
  cfgFs := numZero
  cfgSps := 0
  cfgThresh := numZero
  thrLo := numZero
  thrHi := numZero
  cfgPad := 0
  cfgSkip := 2
  cfgCfo := numZero
  cfgRef := numZero
  fdRef := numZero
  cfgSync := 0x8E89BED6
  cfgTol := 2
  cfgChan := 0xFFFFFFFF
  cfgMaxb := 260
  sampLen := 0
  bdCur := 0
  segStart := 0
  segStop := 0
  burstCnt := 0
  freqLen := 0
  fdOff := 0
  bitsLen := 0
  rawLen := 0
  syPos := 0
  syHd := 0
  candCnt := 0
  matchCnt := 0
  rbLen := 0
  dwLen := 0
  outCnt := 0
  status := 0
  err := 0
  cntFound := 0
  cntFailed := 0
  pfDecl := 0
  mem := Memory.empty
  pending := []
  replies := []

/-- The machine right after reset: of the instance log entry 3 names. -/
def State.reset : State := State.resetOf Config.build

end Sys2Proof.Machine
end

