-- ==== Sys2Proof/Machine/Flags.lean ====
section
/-! DEFINITION. `STATUS`, its flags, the fatal conditions and the diagnostic counters (rules R46 to R48, R276, R277,
R300). -/

namespace Sys2Proof.Machine

/-- The flags of `STATUS` (rule R46). -/
inductive Flag where
  | noburst | syncnf | shortClk | shortPkt | invch | cfgerr | range | illcmd | access
deriving DecidableEq, Repr

/-- The bit of `STATUS` a flag is (rule R46). -/
def Flag.bit : Flag → Nat
  | .noburst => 0
  | .syncnf => 1
  | .shortClk => 2
  | .shortPkt => 3
  | .invch => 8
  | .cfgerr => 9
  | .range => 10
  | .illcmd => 11
  | .access => 12

/-- `STATUS` with one bit written. -/
def writeStatusBit (w : Word) (bit : Nat) (v : Bool) : Word :=
  if v then w ||| BitVec.twoPow 32 bit else w &&& ~~~(BitVec.twoPow 32 bit)

/-- `STATUS.F` (rule R14). -/
def State.flag (s : State) (f : Flag) : Bool := s.status.getLsbD f.bit

/-- `STATUS.F <- v` (rule R14). -/
def State.setFlag (s : State) (f : Flag) (v : Bool) : State := { s with status := writeStatusBit s.status f.bit v }

/-- The fatal conditions of rule R277. -/
inductive Fatal where
  | invalidChannel | configError | rangeError | illegalCommand | accessFault
deriving DecidableEq, Repr

/-- The code `ERR[7:0]` holds (rule R277). -/
def Fatal.code : Fatal → Nat
  | .invalidChannel => 1
  | .configError => 2
  | .rangeError => 3
  | .illegalCommand => 4
  | .accessFault => 5

/-- The sticky flag of a fatal condition (rule R277). -/
def Fatal.flag : Fatal → Flag
  | .invalidChannel => .invch
  | .configError => .cfgerr
  | .rangeError => .range
  | .illegalCommand => .illcmd
  | .accessFault => .access

/-- Some fatal flag is 1 (rules R46, R292). -/
def State.fatalPending (s : State) : Bool :=
  s.flag .invch || s.flag .cfgerr || s.flag .range || s.flag .illcmd || s.flag .access

/-- `sat(v) = min(v, 2^32 - 1)` of rules R183 and R300. -/
def sat (v : Nat) : Word := BitVec.ofNat 32 (min v (2 ^ 32 - 1))

/-- `CNT_FOUND <- sat(CNT_FOUND + n)` (rule R300). -/
def State.countFound (s : State) (n : Nat) : State := { s with cntFound := sat (s.cntFound.toNat + n) }

/-- `CNT_FAILED <- sat(CNT_FAILED + 1)` (rule R300). -/
def State.countFailed (s : State) : State := { s with cntFailed := sat (s.cntFailed.toNat + 1) }

end Sys2Proof.Machine
end

