-- ==== Sys2Proof/Machine/Ops.lean ====
section
/-! DEFINITION. The shared operations over registers and buffers: raising a fatal condition and returning from one
(rules R291 to R294), running an operation to its end, and storing a result with its length register. -/

namespace Sys2Proof.Machine

/-- The fatal entry sequence of rule R291: the flag is set, and the code and the source are recorded when no condition
is pending. Nothing else changes. `src` is `w[7:0]` of the command, or 0xFF for a host transaction. -/
def State.raise (s : State) (x : Fatal) (src : Nat) : State :=
  { s.setFlag x.flag true with
    err := if s.err.toNat % 2 ^ 8 = 0 then BitVec.ofNat 32 (x.code + src * 2 ^ 8) else s.err }

/-- The return from a fatal condition, which `CLRST` performs (rules R256, R293). -/
def State.clearStatus (s : State) : State := { s with status := 0, err := 0 }

/-- How an operation ends: at its last line, or at a `raise` with what it had written by then. A primitive operation
raises before its first write (rule R15), a pipeline operation may not (rule R243). -/
inductive Run where
  | done (s : State)
  | raised (x : Fatal) (s : State)
deriving DecidableEq, Repr

/-- `call OP` of rule R15: go on with the next step unless the first one raised. -/
def Run.andThen (r : Run) (f : State → Run) : Run :=
  match r with
  | .done s => f s
  | .raised x s => .raised x s

/-- The command ends: a `raise` takes the fatal entry with the command's own `OPC` (rules R243, R291). -/
def Run.finish (r : Run) (opc : Nat) : Host.Outcome State Fault Refusal :=
  match r with
  | .done s => .next s
  | .raised x s => .next (s.raise x opc)

/-- `FREQ[0 ..] <- xs; x[FREQ_LEN] <- len(xs)`. -/
def State.storeFreq (s : State) (xs : List NumVal) : State :=
  { s with mem := { s.mem with freq := s.mem.freq.fill s.freqLen.toNat xs }, freqLen := BitVec.ofNat 32 xs.length }

/-- `BITS[0 ..] <- xs; x[BITS_LEN] <- len(xs)`. -/
def State.storeBits (s : State) (xs : List Bool) : State :=
  { s with mem := { s.mem with bits := s.mem.bits.fill s.bitsLen.toNat xs }, bitsLen := BitVec.ofNat 32 xs.length }

/-- `RAW[0 ..] <- xs; x[RAW_LEN] <- len(xs)`. -/
def State.storeRaw (s : State) (xs : List Bool) : State :=
  { s with mem := { s.mem with raw := s.mem.raw.fill s.rawLen.toNat xs }, rawLen := BitVec.ofNat 32 xs.length }

/-- `CAND[0 ..] <- xs; x[CAND_CNT] <- len(xs)`. -/
def State.storeCand (s : State) (xs : List Word) : State :=
  { s with mem := { s.mem with cand := s.mem.cand.fill s.candCnt.toNat xs }, candCnt := BitVec.ofNat 32 xs.length }

/-- `MATCH[0 ..] <- xs; x[MATCH_CNT] <- len(xs)`. -/
def State.storeHits (s : State) (xs : List Hit) : State :=
  { s with mem := { s.mem with hits := s.mem.hits.fill s.matchCnt.toNat xs }, matchCnt := BitVec.ofNat 32 xs.length }

/-- `RB[0 ..] <- xs; x[RB_LEN] <- len(xs)`. -/
def State.storeRb (s : State) (xs : List Byte) : State :=
  { s with mem := { s.mem with rb := s.mem.rb.fill s.rbLen.toNat xs }, rbLen := BitVec.ofNat 32 xs.length }

/-- `DW[0 ..] <- xs; x[DW_LEN] <- len(xs)`. -/
def State.storeDw (s : State) (xs : List Byte) : State :=
  { s with mem := { s.mem with dw := s.mem.dw.fill s.dwLen.toNat xs }, dwLen := BitVec.ofNat 32 xs.length }

/-- `SQL[0 ..] <- xs`; `SQL` has no length register of its own (rule R55). -/
def State.storeSql (s : State) (xs : List Sample) : State :=
  { s with mem := { s.mem with sql := s.mem.sql.fill 0 xs } }

/-- `BURST[x[BURST_CNT]] <- v; x[BURST_CNT] <- x[BURST_CNT] + 1`. -/
def State.appendBurst (s : State) (v : Span) : State :=
  { s with mem := { s.mem with burst := s.mem.burst.put s.burstCnt.toNat v }, burstCnt := s.burstCnt + 1 }

/-- `OUT[x[OUT_CNT]] <- p; x[OUT_CNT] <- x[OUT_CNT] + 1`. -/
def State.appendOut (s : State) (p : Packet) : State :=
  { s with mem := { s.mem with out := s.mem.out.put s.outCnt.toNat p }, outCnt := s.outCnt + 1 }

end Sys2Proof.Machine
end

