-- ==== Sys2Proof/Machine/Operands.lean ====
section
/-! DEFINITION. The operand forms: the valid part of each input buffer, sequential, strided and packed reading (rule
R90), and the operand assembly of the sync pattern (rule R100). -/

namespace Sys2Proof.Machine

/-- The open value of an element of `SAMP` or `SQL`, its components in canonical form. -/
def openSample (b : BufferName) (gen i : Nat) : Sample := (Config.freeSample b gen i).normalize

/-- `SAMP[0 .. x[SAMP_LEN]-1]`. -/
def State.samples (s : State) : List Sample := s.mem.samp.window (openSample .samp) 0 s.sampLen.toNat

/-- `SAMP[x[SEG_START] .. x[SEG_STOP]-1]`. -/
def State.segment (s : State) : List Sample :=
  s.mem.samp.window (openSample .samp) s.segStart.toNat (s.segStop.toNat - s.segStart.toNat)

/-- The open value of an element of `FREQ`, in canonical form. -/
def openFreq (gen i : Nat) : NumVal := (Config.freeFreq .freq gen i).normalize

/-- `FREQ[0 .. x[FREQ_LEN]-1]`. -/
def State.freqs (s : State) : List NumVal := s.mem.freq.window openFreq 0 s.freqLen.toNat

/-- `BITS[0 .. x[BITS_LEN]-1]`. -/
def State.bitList (s : State) : List Bool := s.mem.bits.window (Config.freeBit .bits) 0 s.bitsLen.toNat

/-- `RAW[0 .. x[RAW_LEN]-1]`. -/
def State.rawList (s : State) : List Bool := s.mem.raw.window (Config.freeBit .raw) 0 s.rawLen.toNat

/-- `CAND[0 .. x[CAND_CNT]-1]`. -/
def State.candList (s : State) : List Word := s.mem.cand.window (Config.freeWord .cand) 0 s.candCnt.toNat

/-- `BURST[0 .. x[BURST_CNT]-1]`. -/
def State.burstList (s : State) : List Span := s.mem.burst.window (Config.freeSpan .burst) 0 s.burstCnt.toNat

/-- `MATCH[i]`. -/
def State.hitAt (s : State) (i : Nat) : Hit := s.mem.hits.get (Config.freeHit .hits) i

/-- `MATCH[0 .. x[MATCH_CNT]-1]`. -/
def State.hitList (s : State) : List Hit := s.mem.hits.window (Config.freeHit .hits) 0 s.matchCnt.toNat

/-- `RB[0 .. x[RB_LEN]-1]`. -/
def State.rbList (s : State) : List Byte := s.mem.rb.window (Config.freeByte .rb) 0 s.rbLen.toNat

/-- `DW[0 .. x[DW_LEN]-1]`. -/
def State.dwList (s : State) : List Byte := s.mem.dw.window (Config.freeByte .dw) 0 s.dwLen.toNat

/-- `OUT[i]`. -/
def State.packetAt (s : State) (i : Nat) : Packet := s.mem.out.get (Config.freePacket .out) i

/-- Strided reading (rule R90): the elements at `skip`, `skip + stride`, `skip + 2*stride`, ... of a list. -/
def everyNth {α : Type} (stride : Nat) : Nat → List α → List α
  | _, [] => []
  | 0, x :: xs => x :: everyNth stride (stride - 1) xs
  | k + 1, _ :: xs => everyNth stride k xs

/-- The unsigned number whose bit `i` is the `i`-th bit of the list: the earliest bit is bit 0 (rule R83). -/
def bitsToNat : List Bool → Nat
  | [] => 0
  | b :: bs => b.toNat + 2 * bitsToNat bs

/-- `n` bytes from a bit list, eight bits each, the earliest bit of each in bit 0 (rule R83 (c)). -/
def packBytes : Nat → List Bool → List Byte
  | 0, _ => []
  | n + 1, bits => BitVec.ofNat 8 (bitsToNat (bits.take 8)) :: packBytes n (bits.drop 8)

/-- `pat[i] = S[i]`, `i = 0 .. 31` (rule R100). -/
def syncBits (sync : Word) : List Bool := (List.range 32).map fun i => sync.getLsbD i

/-- `pb[k] = S[8k+7 : 8k]`, `k = 0 .. 3` (rule R100). -/
def syncBytes (sync : Word) : List Byte := (List.range 4).map fun k => sync.extractLsb' (8 * k) 8

/-- The least index `n` with `start <= n < len(xs)` and `p xs[n]` (rule R13). -/
def firstFrom {α : Type} (p : α → Bool) (start : Nat) (xs : List α) : Option Nat :=
  ((xs.drop start).findIdx? p).map fun k => start + k

end Sys2Proof.Machine
end

