-- ==== Sys2Proof/Machine/Access.lean ====
section
/-! DEFINITION. The host's register and buffer transactions (spec 10_state.md rule R32, 20_memory.md rules R80 and R81,
46_control_ops.md rule R261, 60_exceptions.md rule R282). -/

namespace Sys2Proof.Machine

/-- The 35 registers of rule R32. -/
inductive Reg where
  | cfgFs | cfgSps | cfgThresh | thrLo | thrHi | cfgPad | cfgSkip | cfgCfo | cfgRef
  | fdRef | cfgSync | cfgTol | cfgChan | cfgMaxb | sampLen | bdCur | segStart | segStop
  | burstCnt | freqLen | fdOff | bitsLen | rawLen | syPos | syHd | candCnt | matchCnt
  | rbLen | dwLen | outCnt | status | err | cntFound | cntFailed | pfDecl
deriving DecidableEq, Repr

/-- The register at an index of rule R32; every other index is reserved. -/
def Reg.ofIndex : Nat → Option Reg
  | 0x00 => some .cfgFs
  | 0x01 => some .cfgSps
  | 0x02 => some .cfgThresh
  | 0x03 => some .thrLo
  | 0x04 => some .thrHi
  | 0x05 => some .cfgPad
  | 0x06 => some .cfgSkip
  | 0x07 => some .cfgCfo
  | 0x08 => some .cfgRef
  | 0x09 => some .fdRef
  | 0x0A => some .cfgSync
  | 0x0B => some .cfgTol
  | 0x0C => some .cfgChan
  | 0x0D => some .cfgMaxb
  | 0x10 => some .sampLen
  | 0x11 => some .bdCur
  | 0x12 => some .segStart
  | 0x13 => some .segStop
  | 0x14 => some .burstCnt
  | 0x15 => some .freqLen
  | 0x16 => some .fdOff
  | 0x17 => some .bitsLen
  | 0x18 => some .rawLen
  | 0x19 => some .syPos
  | 0x1A => some .syHd
  | 0x1B => some .candCnt
  | 0x1C => some .matchCnt
  | 0x1D => some .rbLen
  | 0x1E => some .dwLen
  | 0x1F => some .outCnt
  | 0x20 => some .status
  | 0x21 => some .err
  | 0x22 => some .cntFound
  | 0x23 => some .cntFailed
  | 0x24 => some .pfDecl
  | _ => none

/-- `x[NAME]`, as the host reads it (rule R32). -/
def State.readReg (s : State) : Reg → Value
  | .cfgFs => .num s.cfgFs
  | .cfgSps => .word s.cfgSps
  | .cfgThresh => .num s.cfgThresh
  | .thrLo => .num s.thrLo
  | .thrHi => .num s.thrHi
  | .cfgPad => .word s.cfgPad
  | .cfgSkip => .word s.cfgSkip
  | .cfgCfo => .num s.cfgCfo
  | .cfgRef => .num s.cfgRef
  | .fdRef => .num s.fdRef
  | .cfgSync => .word s.cfgSync
  | .cfgTol => .word s.cfgTol
  | .cfgChan => .word s.cfgChan
  | .cfgMaxb => .word s.cfgMaxb
  | .sampLen => .word s.sampLen
  | .bdCur => .word s.bdCur
  | .segStart => .word s.segStart
  | .segStop => .word s.segStop
  | .burstCnt => .word s.burstCnt
  | .freqLen => .word s.freqLen
  | .fdOff => .word s.fdOff
  | .bitsLen => .word s.bitsLen
  | .rawLen => .word s.rawLen
  | .syPos => .word s.syPos
  | .syHd => .word s.syHd
  | .candCnt => .word s.candCnt
  | .matchCnt => .word s.matchCnt
  | .rbLen => .word s.rbLen
  | .dwLen => .word s.dwLen
  | .outCnt => .word s.outCnt
  | .status => .word s.status
  | .err => .word s.err
  | .cntFound => .word s.cntFound
  | .cntFailed => .word s.cntFailed
  | .pfDecl => .word s.pfDecl

/-- What a host write comes to: it stores, or it is refused with AccessFault. Log entry 9 (DESIGN CHOICE): a value that
is not of the register's or element's type is refused so. -/
inductive Access where
  | stored (s : State)
  | denied
deriving DecidableEq, Repr

/-- A write of any `U32`. -/
def writeWord (v : Value) (f : Word → State) : Access :=
  match v with
  | .word w => .stored (f w)
  | _ => .denied

/-- A write of a length or count register or of `CFG_MAXB`: a value above the capacity is refused (rule R81). -/
def writeLength (cap : Nat) (v : Value) (f : Word → State) : Access :=
  match v with
  | .word w => if w.toNat ≤ cap then .stored (f w) else .denied
  | _ => .denied

/-- A write of any `Num` (rules R32, R34). -/
def writeNum (v : Value) (f : NumVal → State) : Access :=
  match v with
  | .num n => .stored (f n.normalize)
  | _ => .denied

/-- `x[NAME] <- v` by the host; the `RO` registers refuse it (rules R32, R81, R261). -/
def State.writeReg (s : State) (r : Reg) (v : Value) : Access :=
  match r with
  | .cfgFs => writeNum v fun n => { s with cfgFs := n }
  | .cfgSps => writeWord v fun w => { s with cfgSps := w }
  | .cfgThresh => writeNum v fun n => { s with cfgThresh := n }
  | .thrLo => writeNum v fun n => { s with thrLo := n }
  | .thrHi => writeNum v fun n => { s with thrHi := n }
  | .cfgPad => writeWord v fun w => { s with cfgPad := w }
  | .cfgSkip => writeWord v fun w => { s with cfgSkip := w }
  | .cfgCfo => writeNum v fun n => { s with cfgCfo := n }
  | .cfgRef => writeNum v fun n => { s with cfgRef := n }
  | .fdRef => writeNum v fun n => { s with fdRef := n }
  | .cfgSync => writeWord v fun w => { s with cfgSync := w }
  | .cfgTol => writeWord v fun w => { s with cfgTol := w }
  | .cfgChan => writeWord v fun w => { s with cfgChan := w }
  | .cfgMaxb => writeLength s.build.byteCap v fun w => { s with cfgMaxb := w }
  | .sampLen => writeLength s.build.sampCap v fun w => { s with sampLen := w }
  | .bdCur => writeWord v fun w => { s with bdCur := w }
  | .segStart => writeWord v fun w => { s with segStart := w }
  | .segStop => writeWord v fun w => { s with segStop := w }
  | .burstCnt => writeLength s.build.burstCap v fun w => { s with burstCnt := w }
  | .freqLen => writeLength s.build.sampCap v fun w => { s with freqLen := w }
  | .fdOff => writeWord v fun w => { s with fdOff := w }
  | .bitsLen => writeLength s.build.sampCap v fun w => { s with bitsLen := w }
  | .rawLen => writeLength s.build.sampCap v fun w => { s with rawLen := w }
  | .syPos => writeWord v fun w => { s with syPos := w }
  | .syHd => writeWord v fun w => { s with syHd := w }
  | .candCnt => writeLength s.build.candCap v fun w => { s with candCnt := w }
  | .matchCnt => writeLength s.build.matchCap v fun w => { s with matchCnt := w }
  | .rbLen => writeLength s.build.byteCap v fun w => { s with rbLen := w }
  | .dwLen => writeLength s.build.byteCap v fun w => { s with dwLen := w }
  | .outCnt => .denied
  | .status => .denied
  | .err => .denied
  | .cntFound => .denied
  | .cntFailed => .denied
  | .pfDecl => .denied

/-- The thirteen address spaces of rule R80; `hits` is `MATCH`. -/
inductive Space where
  | samp | sql | burst | freq | bits | raw | cand | hits | rb | dw | out | wseq | chidx
deriving DecidableEq, Repr

/-- The space with an identifier of rule R80; 13 and above are reserved. -/
def Space.ofId : Nat → Option Space
  | 0 => some .samp
  | 1 => some .sql
  | 2 => some .burst
  | 3 => some .freq
  | 4 => some .bits
  | 5 => some .raw
  | 6 => some .cand
  | 7 => some .hits
  | 8 => some .rb
  | 9 => some .dw
  | 10 => some .out
  | 11 => some .wseq
  | 12 => some .chidx
  | _ => none

/-- The index lies below the space's capacity (rule R80). -/
def Space.covers (sp : Space) (b : Build) (i : Nat) : Bool :=
  match sp with
  | .samp => decide (i < b.sampCap)
  | .sql => decide (i < b.sampCap)
  | .burst => decide (i < b.burstCap)
  | .freq => decide (i < b.sampCap)
  | .bits => decide (i < b.sampCap)
  | .raw => decide (i < b.sampCap)
  | .cand => decide (i < b.candCap)
  | .hits => decide (i < b.matchCap)
  | .rb => decide (i < b.byteCap)
  | .dw => decide (i < b.byteCap)
  | .out => decide (i < b.outCap)
  | .wseq => decide (i < b.wLen)
  | .chidx => decide (i < 40)

/-- `MemRead(SPACE:i, 1)`, as the host reads it. -/
def State.readElement (s : State) (sp : Space) (i : Nat) : Value :=
  match sp with
  | .samp => .sample (s.mem.samp.get (openSample .samp) i)
  | .sql => .sample (s.mem.sql.get (openSample .sql) i)
  | .burst => .span (s.mem.burst.get (Config.freeSpan .burst) i)
  | .freq => .num (s.mem.freq.get openFreq i)
  | .bits => .bit (s.mem.bits.get (Config.freeBit .bits) i)
  | .raw => .bit (s.mem.raw.get (Config.freeBit .raw) i)
  | .cand => .word (s.mem.cand.get (Config.freeWord .cand) i)
  | .hits => .hit (s.mem.hits.get (Config.freeHit .hits) i)
  | .rb => .byte (s.mem.rb.get (Config.freeByte .rb) i)
  | .dw => .byte (s.mem.dw.get (Config.freeByte .dw) i)
  | .out => .packet (s.mem.out.get (Config.freePacket .out) i)
  | .wseq => .bit (s.build.whitenBit i)
  | .chidx => .word (BitVec.ofNat 32 (Config.chidx.getD i 0))

/-- `MemWrite(SPACE:i, 1, v)` by the host; `SQL`, `OUT` and the tables refuse it (rule R80). -/
def State.writeElement (s : State) (sp : Space) (i : Nat) (v : Value) : Access :=
  match sp, v with
  | .samp, .sample x => .stored { s with mem := { s.mem with samp := s.mem.samp.put i x.normalize } }
  | .burst, .span x => .stored { s with mem := { s.mem with burst := s.mem.burst.put i x } }
  | .freq, .num x => .stored { s with mem := { s.mem with freq := s.mem.freq.put i x.normalize } }
  | .bits, .bit x => .stored { s with mem := { s.mem with bits := s.mem.bits.put i x } }
  | .raw, .bit x => .stored { s with mem := { s.mem with raw := s.mem.raw.put i x } }
  | .cand, .word x => .stored { s with mem := { s.mem with cand := s.mem.cand.put i x } }
  | .hits, .hit x => .stored { s with mem := { s.mem with hits := s.mem.hits.put i x } }
  | .rb, .byte x => .stored { s with mem := { s.mem with rb := s.mem.rb.put i x } }
  | .dw, .byte x => .stored { s with mem := { s.mem with dw := s.mem.dw.put i x } }
  | .sql, _ => .denied
  | .out, _ => .denied
  | .wseq, _ => .denied
  | .chidx, _ => .denied
  | .samp, _ | .burst, _ | .freq, _ | .bits, _ | .raw, _ | .cand, _ | .hits, _ | .rb, _ | .dw, _ => .denied

/-- The source byte of a host transaction in `ERR[15:8]` (rules R47, R282). -/
def hostSource : Nat := 0xFF

/-- A read returned a value. -/
def State.reply (s : State) (v : Value) : State := { s with replies := s.replies ++ [v] }

/-- A refused transaction: AccessFault, and nothing is stored (rule R282). -/
def State.denied (s : State) : State := s.raise .accessFault hostSource

/-- How a host write ends. -/
def Access.finish (a : Access) (s : State) : Host.Outcome State Fault Refusal :=
  match a with
  | .stored t => .next t
  | .denied => .next s.denied

/-- `HostRegRead(index)`; a refused read returns 0 (rules R81, R282). -/
def hostRegRead (index : Nat) (s : State) : Host.Outcome State Fault Refusal :=
  match Reg.ofIndex index with
  | some r => .next (s.reply (s.readReg r))
  | none => .next (s.denied.reply (.word 0))

/-- `HostRegWrite(index, v)` (rules R81, R261). -/
def hostRegWrite (index : Nat) (v : Value) (s : State) : Host.Outcome State Fault Refusal :=
  match Reg.ofIndex index with
  | some r => (s.writeReg r v).finish s
  | none => .next s.denied

/-- `HostBufRead(space, i)`; a refused read returns 0 (rules R81, R282). -/
def hostBufRead (space i : Nat) (s : State) : Host.Outcome State Fault Refusal :=
  match Space.ofId space with
  | some sp => if sp.covers s.build i then .next (s.reply (s.readElement sp i)) else .next (s.denied.reply (.word 0))
  | none => .next (s.denied.reply (.word 0))

/-- `HostBufWrite(space, i, v)` (rule R81). -/
def hostBufWrite (space i : Nat) (v : Value) (s : State) : Host.Outcome State Fault Refusal :=
  match Space.ofId space with
  | some sp => if sp.covers s.build i then (s.writeElement sp i v).finish s else .next s.denied
  | none => .next s.denied

end Sys2Proof.Machine
end

