-- ==== Sys2Proof/Syntax.lean ====
section
/-! DEFINITION. The commands of the block, one constructor per row of spec/opcode_table.json (rule R99). The modifier
bits a row defines are Bool arguments, in ascending bit order (rule R97). -/

namespace Sys2Proof

inductive Instr where
  /-- `NOP`, rule R255. -/
  | nop
  /-- `CLRST`, rule R256. -/
  | clrst
  /-- `CLRCNT`, rule R257. -/
  | clrcnt
  /-- `SETTHR`, rule R258; `single` is modifier `S`. -/
  | setthr (single : Bool)
  /-- `SETREF.Z`, rule R259, mode 0. -/
  | setrefZ
  /-- `SETREF.C`, rule R259, mode 1. -/
  | setrefC
  /-- `SETREF.D`, rule R259, mode 2. -/
  | setrefD
  /-- `OUTCLR`, rule R260. -/
  | outclr
  /-- `BD.RST`, rule R131. -/
  | bdRst
  /-- `BD.NEXT`, rule R132. -/
  | bdNext
  /-- `BD.ALL`, rule R133. -/
  | bdAll
  /-- `SQUELCH`, rule R134. -/
  | squelch
  /-- `FD.FREQ`, rule R151; `ug` selects unwrap-then-gradient. -/
  | fdFreq (ug : Bool)
  /-- `FD.CLK`, rule R154. -/
  | fdClk
  /-- `FD.SLICE`, rule R156. -/
  | fdSlice
  /-- `FD.BIN`, rule R157. -/
  | fdBin
  /-- `FD.DEMOD`, rule R158; `ck` enables clock recovery. -/
  | fdDemod (ug : Bool) (ck : Bool)
  /-- `SY.EXACT`, rule R183. -/
  | syExact
  /-- `SY.CORR`, rule R184. -/
  | syCorr
  /-- `SY.SCAN`, rule R186. -/
  | syScan
  /-- `SY.DEDUP`, rule R189. -/
  | syDedup
  /-- `SY.GETB` with `R = 0`, rule R190. -/
  | syGetb
  /-- `SY.GETB.R`, rule R190 with `R = 1`; `index` is the match index. A command word carries 16 bits of it
  (rule R98, `Instr.wellFormed`); `PIPE.STREAM` uses the operation with any index (rule R242). -/
  | syGetbR (index : Nat)
  /-- `DW.RUN`, rule R211. -/
  | dwRun
  /-- `PF.FRAME`, rule R226. -/
  | pfFrame
  /-- `PIPE.BURST`, rule R241; `cr` selects the correlation scan. -/
  | pipeBurst (ug : Bool) (ck : Bool) (cr : Bool)
  /-- `PIPE.STREAM`, rule R242. -/
  | pipeStream (ug : Bool)
deriving DecidableEq, Repr

end Sys2Proof
end

