-- ==== Sys2Proof/WellFormed.lean ====
section
/-! DEFINITION. Which instruction terms a 32-bit command word can carry. -/

namespace Sys2Proof

/-- Rule R98: the match index of `SY.GETB.R` is the 16-bit field `IMM`, 0 to 65535. Every other operand is a
modifier bit and is well-formed by its type. -/
def Instr.wellFormed : Instr → Bool
  | .syGetbR index => decide (index < 2 ^ 16)
  | .nop | .clrst | .clrcnt | .setthr _ | .setrefZ | .setrefC | .setrefD | .outclr
  | .bdRst | .bdNext | .bdAll | .squelch | .fdFreq _ | .fdClk | .fdSlice | .fdBin | .fdDemod _ _
  | .syExact | .syCorr | .syScan | .syDedup | .syGetb | .dwRun | .pfFrame
  | .pipeBurst _ _ _ | .pipeStream _ => true

end Sys2Proof
end

