-- ==== Sys2Proof/Decode.lean ====
section
/-! DEFINITION. The command decoder and encoder (spec 30_encoding.md rules R95 to R99, R103). A command is one 32-bit
word: `OPC = w[7:0]`, `MOD = w[15:8]`, `IMM = w[31:16]` (rule R96). -/

namespace Sys2Proof

/-- Why a word selects no row of rule R99 (the cases of rule R103). Every one raises IllegalCommand. -/
inductive DecodeError where
  /-- No row has this `OPC` value. -/
  | reservedOpcode (opc : Nat)
  /-- A modifier bit the row does not define is 1. -/
  | undefinedModifier (opc : Nat) (mod : Nat)
  /-- `SETREF` with mode 3. -/
  | reservedReferenceMode
  /-- A non-zero `IMM` on a row that does not use it. -/
  | immediateNotUsed (opc : Nat) (imm : Nat)
deriving DecidableEq, Repr

/-- Field `OPC`, bits 7:0 (rule R96). -/
def opcField (w : Word) : Nat := w.toNat % 2 ^ 8

/-- Field `MOD`, bits 15:8 (rule R96). -/
def modField (w : Word) : Nat := w.toNat / 2 ^ 8 % 2 ^ 8

/-- Field `IMM`, bits 31:16 (rule R96). -/
def immField (w : Word) : Nat := w.toNat / 2 ^ 16

/-- Rule R99's selection of one row: every `MOD` bit at or above the `width` bits the row defines is 0, and `IMM` is 0
unless the row uses it. -/
def selectRow (opc width : Nat) (immUsed : Bool) (mod imm : Nat) (i : Instr) : Except DecodeError Instr :=
  if 2 ^ width ≤ mod then .error (.undefinedModifier opc mod)
  else if !immUsed && imm != 0 then .error (.immediateNotUsed opc imm)
  else .ok i

/-- `SY.GETB`: bit 0 of `MOD` is `R`, and `IMM` is used only when `R = 1` (rules R98, R99). -/
def selectGetb (mod imm : Nat) : Except DecodeError Instr :=
  if mod = 1 then selectRow 0x34 1 true mod imm (.syGetbR imm) else selectRow 0x34 1 false mod imm .syGetb

/-- `SETREF`: bits 1:0 of `MOD` are the mode; 0 `Z`, 1 `C`, 2 `D`; 3 is reserved (rules R99, R103). -/
def selectSetref (mod imm : Nat) : Except DecodeError Instr :=
  match mod with
  | 0 => selectRow 0x04 2 false mod imm .setrefZ
  | 1 => selectRow 0x04 2 false mod imm .setrefC
  | 2 => selectRow 0x04 2 false mod imm .setrefD
  | 3 => .error .reservedReferenceMode
  | _ => .error (.undefinedModifier 0x04 mod)

/-- The opcode map of rule R99. -/
def decodeFields (opc mod imm : Nat) : Except DecodeError Instr :=
  match opc with
  | 0x00 => selectRow opc 0 false mod imm .nop
  | 0x01 => selectRow opc 0 false mod imm .clrst
  | 0x02 => selectRow opc 0 false mod imm .clrcnt
  | 0x03 => selectRow opc 1 false mod imm (.setthr (mod.testBit 0))
  | 0x04 => selectSetref mod imm
  | 0x05 => selectRow opc 0 false mod imm .outclr
  | 0x10 => selectRow opc 0 false mod imm .bdRst
  | 0x11 => selectRow opc 0 false mod imm .bdNext
  | 0x12 => selectRow opc 0 false mod imm .bdAll
  | 0x13 => selectRow opc 0 false mod imm .squelch
  | 0x20 => selectRow opc 1 false mod imm (.fdFreq (mod.testBit 0))
  | 0x21 => selectRow opc 0 false mod imm .fdClk
  | 0x22 => selectRow opc 0 false mod imm .fdSlice
  | 0x23 => selectRow opc 0 false mod imm .fdBin
  | 0x24 => selectRow opc 2 false mod imm (.fdDemod (mod.testBit 0) (mod.testBit 1))
  | 0x30 => selectRow opc 0 false mod imm .syExact
  | 0x31 => selectRow opc 0 false mod imm .syCorr
  | 0x32 => selectRow opc 0 false mod imm .syScan
  | 0x33 => selectRow opc 0 false mod imm .syDedup
  | 0x34 => selectGetb mod imm
  | 0x40 => selectRow opc 0 false mod imm .dwRun
  | 0x50 => selectRow opc 0 false mod imm .pfFrame
  | 0x60 => selectRow opc 3 false mod imm (.pipeBurst (mod.testBit 0) (mod.testBit 1) (mod.testBit 2))
  | 0x61 => selectRow opc 1 false mod imm (.pipeStream (mod.testBit 0))
  | _ => .error (.reservedOpcode opc)

/-- Rule R95 step 2: the operation a command word selects, or the reason it is illegal. Decoding has no state. -/
def decode (w : Word) : Except DecodeError Instr := decodeFields (opcField w) (modField w) (immField w)

/-- The `OPC` value of the row an instruction belongs to (rule R99). -/
def Instr.opc : Instr → Nat
  | .nop => 0x00
  | .clrst => 0x01
  | .clrcnt => 0x02
  | .setthr _ => 0x03
  | .setrefZ => 0x04
  | .setrefC => 0x04
  | .setrefD => 0x04
  | .outclr => 0x05
  | .bdRst => 0x10
  | .bdNext => 0x11
  | .bdAll => 0x12
  | .squelch => 0x13
  | .fdFreq _ => 0x20
  | .fdClk => 0x21
  | .fdSlice => 0x22
  | .fdBin => 0x23
  | .fdDemod _ _ => 0x24
  | .syExact => 0x30
  | .syCorr => 0x31
  | .syScan => 0x32
  | .syDedup => 0x33
  | .syGetb => 0x34
  | .syGetbR _ => 0x34
  | .dwRun => 0x40
  | .pfFrame => 0x50
  | .pipeBurst _ _ _ => 0x60
  | .pipeStream _ => 0x61

/-- The `MOD` field that spells an instruction's modifier bits (rules R97, R99). -/
def Instr.modBits : Instr → Nat
  | .setthr single => single.toNat
  | .setrefC => 1
  | .setrefD => 2
  | .fdFreq ug => ug.toNat
  | .fdDemod ug ck => ug.toNat + 2 * ck.toNat
  | .syGetbR _ => 1
  | .pipeBurst ug ck cr => ug.toNat + 2 * ck.toNat + 4 * cr.toNat
  | .pipeStream ug => ug.toNat
  | .nop | .clrst | .clrcnt | .setrefZ | .outclr | .bdRst | .bdNext | .bdAll | .squelch | .fdClk | .fdSlice | .fdBin
  | .syExact | .syCorr | .syScan | .syDedup | .syGetb | .dwRun | .pfFrame => 0

/-- The `IMM` field of an instruction (rule R98). -/
def Instr.immBits : Instr → Nat
  | .syGetbR index => index
  | .nop | .clrst | .clrcnt | .setthr _ | .setrefZ | .setrefC | .setrefD | .outclr
  | .bdRst | .bdNext | .bdAll | .squelch | .fdFreq _ | .fdClk | .fdSlice | .fdBin | .fdDemod _ _
  | .syExact | .syCorr | .syScan | .syDedup | .syGetb | .dwRun | .pfFrame
  | .pipeBurst _ _ _ | .pipeStream _ => 0

/-- Rule R104: the word is `OPC | (MOD << 8) | (IMM << 16)`. -/
def encode (i : Instr) : Word := BitVec.ofNat 32 (i.opc + i.modBits * 2 ^ 8 + i.immBits * 2 ^ 16)

/-- The instruction the decoder reads from an instruction whose bits are `w`, numbered as spec/opcode_table.json numbers
them; bits at or above `nbits` are 0. A command word is a number, with no byte order (rule R84). -/
def decodeTableWord (nbits w : Nat) : Option Instr :=
  match decode (BitVec.ofNat 32 (w % 2 ^ nbits)) with
  | .ok i => some i
  | .error _ => none

end Sys2Proof
end

