-- ==== Sys2Proof/Machine/Control.lean ====
section
/-! DEFINITION. The control operations of spec 46_control_ops.md. -/

namespace Sys2Proof.Machine

/-- `NOP`, rule R255. -/
def execNop (s : State) : Host.Outcome State Fault Refusal := (Run.done s).finish (Instr.opc .nop)

/-- `CLRST`, rule R256: the return from a fatal condition. -/
def execClrst (s : State) : Host.Outcome State Fault Refusal := (Run.done s.clearStatus).finish (Instr.opc .clrst)

/-- `CLRCNT`, rule R257. -/
def execClrcnt (s : State) : Host.Outcome State Fault Refusal :=
  (Run.done { s with cntFound := 0, cntFailed := 0 }).finish (Instr.opc .clrcnt)

/-- Rule R258: the threshold pair of rule R101 from the base threshold. -/
def setthrRun (single : Bool) (s : State) : Run :=
  if s.cfgThresh.isNegative then .raised .configError s
  else if single then .done { s with thrLo := s.cfgThresh, thrHi := s.cfgThresh }
  else
    .done { s with
      thrLo := (NumVal.ofRat Config.lowFactor).mul s.cfgThresh
      thrHi := (NumVal.ofRat Config.highFactor).mul s.cfgThresh }

/-- `SETTHR`, rule R258. -/
def execSetthr (single : Bool) (s : State) : Host.Outcome State Fault Refusal :=
  (setthrRun single s).finish (Instr.opc (.setthr single))

/-- `SETREF.Z`, rule R259, mode 0. -/
def execSetrefZ (s : State) : Host.Outcome State Fault Refusal :=
  (Run.done { s with fdRef := .zero }).finish (Instr.opc .setrefZ)

/-- `SETREF.C`, rule R259, mode 1: the zero-reference of rule R102. -/
def execSetrefC (s : State) : Host.Outcome State Fault Refusal :=
  (if s.cfgFs.isPositive then Run.done { s with fdRef := referenceOf s.cfgCfo s.cfgFs }
   else Run.raised .configError s).finish (Instr.opc .setrefC)

/-- `SETREF.D`, rule R259, mode 2. -/
def execSetrefD (s : State) : Host.Outcome State Fault Refusal :=
  (Run.done { s with fdRef := s.cfgRef }).finish (Instr.opc .setrefD)

/-- `OUTCLR`, rule R260: the records are no longer part of the buffer, and their elements hold open values (U3; log
entry 5). -/
def execOutclr (s : State) : Host.Outcome State Fault Refusal :=
  (Run.done { s with outCnt := 0, mem := { s.mem with out := s.mem.out.forget } }).finish (Instr.opc .outclr)

end Sys2Proof.Machine
end

