-- ==== Sys2Proof/Machine/Burst.lean ====
section
/-! DEFINITION. The burst detector of spec 40_burst_detector.md. -/

namespace Sys2Proof.Machine

/-- Rules R39 and R40: the threshold pair or the pad is illegal. -/
def State.detectorIllegal (s : State) : Bool :=
  s.thrLo.isNegative || s.thrLo.gt s.thrHi || decide (2 ^ 31 ≤ s.cfgPad.toNat)

/-- One iteration of the hysteresis scan of rule R132 over the samples `xs` from cursor `c`: the padded range of the
next burst. -/
def nextBurst (xs : List Sample) (lo hi : NumVal) (pad c : Nat) : Option (Nat × Nat) :=
  (firstFrom (ampAbove hi) c xs).map fun i =>
    let j := (firstFrom (ampBelow lo) i xs).getD xs.length
    (max c (i - pad), min xs.length (j + pad))

/-- Rule R131. -/
def bdRstOp (s : State) : State := { s with bdCur := 0, burstCnt := 0 }.setFlag .noburst false

/-- Rule R132 after a burst was found: the entry, the segment and the cursor. -/
def State.enterBurst (s : State) (b : Nat × Nat) : State :=
  { s.appendBurst ⟨BitVec.ofNat 32 b.1, BitVec.ofNat 32 b.2⟩ with
    segStart := BitVec.ofNat 32 b.1
    segStop := BitVec.ofNat 32 b.2
    bdCur := BitVec.ofNat 32 b.2 }.setFlag .noburst false

/-- Rule R132. -/
def bdNextRun (s : State) : Run :=
  if s.detectorIllegal then .raised .configError s
  else if s.sampLen < s.bdCur then .raised .rangeError s
  else
    match nextBurst s.samples s.thrLo s.thrHi s.cfgPad.toNat s.bdCur.toNat with
    | none => .done (s.setFlag .noburst true)
    | some b => if s.burstCnt.toNat = s.build.burstCap then .raised .rangeError s else .done (s.enterBurst b)

/-- How many bursts a pass over `xs` from cursor `c` appends; a pass makes at most one per sample (rule R136). -/
def burstCount (xs : List Sample) (lo hi : NumVal) (pad : Nat) : Nat → Nat → Nat
  | 0, _ => 0
  | n + 1, c =>
    match nextBurst xs lo hi pad c with
    | none => 0
    | some b => 1 + burstCount xs lo hi pad n b.2

/-- `repeat: call BD.NEXT until STATUS.NOBURST = 1` of rule R133; by rule R136 one iteration per sample and one more
are enough (log entry 10). -/
def bdLoop : Nat → State → Run
  | 0, s => .done s
  | n + 1, s => (bdNextRun s).andThen fun t => if t.flag .noburst then .done t else bdLoop n t

/-- Rule R133. -/
def bdAllRun (s : State) : Run :=
  if s.detectorIllegal then .raised .configError s
  else if s.build.burstCap < burstCount s.samples s.thrLo s.thrHi s.cfgPad.toNat (s.sampLen.toNat + 1) 0 then
    .raised .rangeError s
  else bdLoop (s.sampLen.toNat + 1) (bdRstOp s)

/-- Index `n` lies inside one of the ranges. -/
def insideAny (spans : List Span) (n : Nat) : Bool :=
  spans.any fun b => decide (b.start.toNat ≤ n) && decide (n < b.stop.toNat)

/-- Rule R134: the samples with every one outside the ranges zeroed. -/
def squelched (spans : List Span) (xs : List Sample) : List Sample :=
  xs.zipIdx.map fun v => if insideAny spans v.2 then v.1 else ⟨.zero, .zero⟩

/-- Rule R134. -/
def squelchRun (s : State) : Run := (bdAllRun s).andThen fun t => .done (t.storeSql (squelched t.burstList t.samples))

/-- `BD.RST`, rule R131. -/
def execBdRst (s : State) : Host.Outcome State Fault Refusal := (Run.done (bdRstOp s)).finish (Instr.opc .bdRst)

/-- `BD.NEXT`, rule R132. -/
def execBdNext (s : State) : Host.Outcome State Fault Refusal := (bdNextRun s).finish (Instr.opc .bdNext)

/-- `BD.ALL`, rule R133. -/
def execBdAll (s : State) : Host.Outcome State Fault Refusal := (bdAllRun s).finish (Instr.opc .bdAll)

/-- `SQUELCH`, rule R134. -/
def execSquelch (s : State) : Host.Outcome State Fault Refusal := (squelchRun s).finish (Instr.opc .squelch)

end Sys2Proof.Machine
end

