-- ==== Sys2Proof/Machine/Demod.lean ====
section
/-! DEFINITION. The FSK demodulator of spec 41_fsk_demodulator.md. -/

namespace Sys2Proof.Machine

/-- The differences between consecutive numbers, `xs[k+1] - xs[k]`. -/
def differences : List NumVal → List NumVal
  | [] => []
  | [_] => []
  | a :: b :: rest => b.sub a :: differences (b :: rest)

/-- Rule R151, `UG = 0`: direct difference, then wrap. -/
def directFrequencies (xs : List Sample) : List NumVal := (differences (xs.map argOf)).map wrap

/-- The unwrapped phases after `u`, the unwrapped value of the phase `p` (rule R153). -/
def unwrapFrom (u p : NumVal) : List NumVal → List NumVal
  | [] => []
  | q :: rest => u.add (wrap (q.sub p)) :: unwrapFrom (u.add (wrap (q.sub p))) q rest

/-- Phase unwrapping, rule R153. -/
def unwrapPhases : List NumVal → List NumVal
  | [] => []
  | p :: rest => p :: unwrapFrom p p rest

/-- Rule R151, `UG = 1`: unwrap, then gradient. -/
def gradientFrequencies (xs : List Sample) : List NumVal := differences (unwrapPhases (xs.map argOf))

/-- The frequency signal of a segment under the strategy `ug` (rule R151). -/
def frequencies (ug : Bool) (xs : List Sample) : List NumVal :=
  if ug then gradientFrequencies xs else directFrequencies xs

/-- The segment is not inside the loaded stream (rules R151, R158, R280). -/
def State.segmentIllegal (s : State) : Bool := decide (s.segStop < s.segStart) || decide (s.sampLen < s.segStop)

/-- Rule R151. -/
def fdFreqRun (ug : Bool) (s : State) : Run :=
  if s.segmentIllegal then .raised .rangeError s else .done (s.storeFreq (frequencies ug s.segment))

/-- The position of the first greatest number of a list, given the greatest `best` so far at `pos` and the position `k`
of the next one. -/
def firstMaxFrom (best : NumVal) (pos k : Nat) : List NumVal → Nat
  | [] => pos
  | x :: rest => if x.gt best then firstMaxFrom x k (k + 1) rest else firstMaxFrom best pos (k + 1) rest

/-- The position of the first greatest number of a list (rule R154, D15). -/
def firstMax : List NumVal → Nat
  | [] => 0
  | x :: rest => firstMaxFrom x 0 1 rest

/-- Rule R154 after its checks: recovery is skipped on a short segment, else the origin is the first greatest value of
the second symbol period, relative to that period's start. -/
def State.recoverClock (s : State) : State :=
  if s.freqLen.toNat < s.cfgSkip.toNat * s.cfgSps.toNat then { s with fdOff := 0 }.setFlag .shortClk true
  else
    { s with fdOff := BitVec.ofNat 32 (firstMax ((s.freqs.drop s.cfgSps.toNat).take s.cfgSps.toNat)) }.setFlag
      .shortClk false

/-- Rule R154. -/
def fdClkRun (s : State) : Run :=
  if s.cfgSps.toNat = 0 ∨ s.cfgSkip.toNat < 2 then .raised .configError s else .done s.recoverClock

/-- The bit decisions of rule R156: strictly above the reference is 1. -/
def sliceBits (ref : NumVal) (sps off : Nat) (freqs : List NumVal) : List Bool :=
  (everyNth sps off freqs).map fun f => f.gt ref

/-- Rule R156 after its check. -/
def State.slice (s : State) : State := s.storeBits (sliceBits s.fdRef s.cfgSps.toNat s.fdOff.toNat s.freqs)

/-- Rule R156. -/
def fdSliceRun (s : State) : Run := if s.cfgSps.toNat = 0 then .raised .configError s else .done s.slice

/-- Rule R157. -/
def fdBinOp (s : State) : State := s.storeRaw (s.freqs.map fun f => f.gt s.fdRef)

/-- Rule R158. -/
def fdDemodRun (ug ck : Bool) (s : State) : Run :=
  if s.cfgSps.toNat = 0 ∨ (ck = true ∧ s.cfgSkip.toNat < 2) then .raised .configError s
  else if s.segmentIllegal then .raised .rangeError s
  else
    (fdFreqRun ug s).andThen fun t =>
      (if ck then fdClkRun t else .done ({ t with fdOff := 0 }.setFlag .shortClk false)).andThen fdSliceRun

/-- `FD.FREQ`, rule R151. -/
def execFdFreq (ug : Bool) (s : State) : Host.Outcome State Fault Refusal :=
  (fdFreqRun ug s).finish (Instr.opc (.fdFreq ug))

/-- `FD.CLK`, rule R154. -/
def execFdClk (s : State) : Host.Outcome State Fault Refusal := (fdClkRun s).finish (Instr.opc .fdClk)

/-- `FD.SLICE`, rule R156. -/
def execFdSlice (s : State) : Host.Outcome State Fault Refusal := (fdSliceRun s).finish (Instr.opc .fdSlice)

/-- `FD.BIN`, rule R157. -/
def execFdBin (s : State) : Host.Outcome State Fault Refusal := (Run.done (fdBinOp s)).finish (Instr.opc .fdBin)

/-- `FD.DEMOD`, rule R158. -/
def execFdDemod (ug ck : Bool) (s : State) : Host.Outcome State Fault Refusal :=
  (fdDemodRun ug ck s).finish (Instr.opc (.fdDemod ug ck))

end Sys2Proof.Machine
end

