-- ==== Sys2Proof/Machine/Dewhiten.lean ====
section
/-! DEFINITION. The de-whitening engine of spec 43_dewhitening.md. -/

namespace Sys2Proof.Machine

/-- The bits of a byte, least significant first (rule R83 (b)). -/
def byteBits (b : Byte) : List Bool := (List.range 8).map fun i => b.getLsbD i

/-- Rule R211's advance of the rolling index. -/
def nextIndex (b : Build) (idx : Nat) : Nat := (idx + 1) % b.wLen

/-- Rule R211 over bits: each is XORed with the whitening entry at the rolling index. -/
def dewhitenBits (b : Build) : Nat → List Bool → List Bool
  | _, [] => []
  | idx, v :: rest => (v ^^ b.whitenBit idx) :: dewhitenBits b (nextIndex b idx) rest

/-- The rolling index after `n` bits. -/
def indexAfter (b : Build) : Nat → Nat → Nat
  | 0, idx => idx
  | n + 1, idx => indexAfter b n (nextIndex b idx)

/-- Rule R211 over bytes: the rolling index carries across all bytes of one call. -/
def dewhiten (b : Build) : Nat → List Byte → List Byte
  | _, [] => []
  | idx, v :: rest =>
    BitVec.ofNat 8 (bitsToNat (dewhitenBits b idx (byteBits v))) :: dewhiten b (indexAfter b 8 idx) rest

/-- `CHIDX[ch]` (rule R53). -/
def startIndex (ch : Nat) : Nat := Config.chidx.getD ch 0

/-- The channel is outside 0 to 39 (rule R278). -/
def State.channelIllegal (s : State) : Bool := decide (Config.maxChannel < s.cfgChan.toNat)

/-- Rule R211. -/
def dwRunRun (s : State) : Run :=
  if s.channelIllegal then .raised .invalidChannel s
  else .done (s.storeDw (dewhiten s.build (startIndex s.cfgChan.toNat) s.rbList))

/-- `DW.RUN`, rule R211. -/
def execDwRun (s : State) : Host.Outcome State Fault Refusal := (dwRunRun s).finish (Instr.opc .dwRun)

end Sys2Proof.Machine
end

