-- ==== Sys2Proof/Machine/Framer.lean ====
section
/-! DEFINITION. The packet framer of spec 44_packet_framer.md. -/

namespace Sys2Proof.Machine

/-- The declared length of rule R226: `2 + DW[1] + 3`, or 0 when the length byte is missing. -/
def declaredLength : List Byte → Nat
  | _ :: n :: _ => 2 + n.toNat + 3
  | _ => 0

/-- Fewer bytes are available than declared, or the length byte is missing (rule R226). -/
def shortPacket (bytes : List Byte) : Bool := decide (bytes.length < 2) || decide (bytes.length < declaredLength bytes)

/-- The bytes of the record: the declared length, or what there is (rule R226). -/
def packetBytes (bytes : List Byte) : List Byte :=
  if bytes.length < 2 then bytes else bytes.take (declaredLength bytes)

/-- Rule R226 after its check. -/
def State.emitPacket (s : State) : State :=
  { s.appendOut ⟨s.cfgChan, shortPacket s.dwList, packetBytes s.dwList⟩ with
    pfDecl := BitVec.ofNat 32 (declaredLength s.dwList) }.setFlag .shortPkt (shortPacket s.dwList)

/-- Rule R226. -/
def pfFrameRun (s : State) : Run :=
  if s.outCnt.toNat = s.build.outCap then .raised .rangeError s else .done s.emitPacket

/-- `PF.FRAME`, rule R226. -/
def execPfFrame (s : State) : Host.Outcome State Fault Refusal := (pfFrameRun s).finish (Instr.opc .pfFrame)

end Sys2Proof.Machine
end

