-- ==== Sys2Proof/Machine/Sync.lean ====
section
/-! DEFINITION. The sync locator of spec 42_sync_locator.md. -/

namespace Sys2Proof.Machine

/-- `hd`: in how many places two bit lists differ (rule R181). -/
def hamming (xs ys : List Bool) : Nat := (xs.zip ys).countP fun p => p.1 != p.2

/-- The map of a bit to -1 or +1 (rule R181). -/
def plusMinus (b : Bool) : Int := if b then 1 else -1

/-- `corr`: the signed correlation (rule R181). -/
def correlation (xs ys : List Bool) : Int := ((xs.zip ys).map fun p => plusMinus p.1 * plusMinus p.2).sum

/-- The 32 bits from bit index `p` on. -/
def bitsAt (bits : List Bool) (p : Nat) : List Bool := (bits.drop p).take 32

/-- The first 32 bits of a list and of its first `n - 1` tails. -/
def alignments : Nat → List Bool → List (List Bool)
  | 0, _ => []
  | n + 1, bits => bits.take 32 :: alignments n bits.tail

/-- `corr(p)` for `p = 0 .. N-32`, the positions where all 32 pattern bits lie inside the bits (rule R181). -/
def correlations (pat bits : List Bool) : List Int := (alignments (bits.length - 31) bits).map (correlation pat)

/-- The position of the first greatest integer, given the greatest so far at `pos` and the next position `k`. -/
def firstMaxIntFrom (best : Int) (pos k : Nat) : List Int → Nat
  | [] => pos
  | x :: rest => if best < x then firstMaxIntFrom x k (k + 1) rest else firstMaxIntFrom best pos (k + 1) rest

/-- The position of maximum correlation, the least one on ties (rule R184); none when there is no position. -/
def firstMaxInt : List Int → Option Nat
  | [] => none
  | x :: rest => some (firstMaxIntFrom x 0 1 rest)

/-- The least position from `p` on at which the bits start with the pattern (rule R183). -/
def findExact (pat : List Bool) (p : Nat) : List Bool → Option Nat
  | [] => none
  | b :: rest => if pat.isPrefixOf (b :: rest) then some p else findExact pat (p + 1) rest

/-- A single-phase scan found the pattern at `p` with `hd` bit errors (rules R182 to R184). -/
def State.syncFound (s : State) (p hd : Nat) : State :=
  { s with syPos := BitVec.ofNat 32 p, syHd := BitVec.ofNat 32 hd }.setFlag .syncnf false |>.countFound 1

/-- A single-phase scan found nothing (rules R182 to R184). -/
def State.syncMissed (s : State) : State := (s.setFlag .syncnf true).countFailed

/-- Rule R183. -/
def syExactOp (s : State) : State :=
  match findExact (syncBits s.cfgSync) 0 s.bitList with
  | some p => s.syncFound p 0
  | none => s.syncMissed

/-- Rule R184: the position of maximum correlation alone is tested against the tolerance. -/
def syCorrOp (s : State) : State :=
  match firstMaxInt (correlations (syncBits s.cfgSync) s.bitList) with
  | none => s.syncMissed
  | some q =>
    let hd := hamming (syncBits s.cfgSync) (bitsAt s.bitList q)
    if hd ≤ s.cfgTol.toNat then s.syncFound q hd else s.syncMissed

/-- The byte indices from `m` on at which the bytes start with the pattern, overlapping ones included (rule R186). -/
def byteMatches (pb : List Byte) (m : Nat) : List Byte → List Nat
  | [] => []
  | b :: rest => if pb.isPrefixOf (b :: rest) then m :: byteMatches pb (m + 1) rest else byteMatches pb (m + 1) rest

/-- Rule R186 for one bit alignment `al` of the decimated signal `d`: the byte indices found. -/
def alignmentMatches (pb : List Byte) (d : List Bool) (al : Nat) : List Nat :=
  byteMatches pb 0 (packBytes ((d.length - al) / 8) (d.drop al))

/-- Rule R186 for one phase: all eight alignments, converted back to frequency indices. -/
def phaseCandidates (pb : List Byte) (sps : Nat) (raw : List Bool) (ph : Nat) : List Nat :=
  (List.range 8).flatMap fun al =>
    (alignmentMatches pb (everyNth sps ph raw) al).map fun m => ph + (al + 8 * m) * sps

/-- Rule R186: the candidates of all phases, in order of collection. A phase at or above `RAW_LEN` decimates to
nothing and is skipped (log entry 12). -/
def candidates (pb : List Byte) (sps : Nat) (raw : List Bool) : List Nat :=
  (List.range (min sps raw.length)).flatMap (phaseCandidates pb sps raw)

/-- Rule R186. -/
def syScanRun (s : State) : Run :=
  if s.cfgSps.toNat = 0 then .raised .configError s
  else
    let list := candidates (syncBytes s.cfgSync) s.cfgSps.toNat s.rawList
    if s.build.candCap < list.length then .raised .rangeError s
    else .done (s.storeCand (list.map (BitVec.ofNat 32)))

/-- Rule R189's fold over the sorted candidates: `last` is the last accepted index. -/
def dedup (sps : Nat) : Option Nat → List Nat → List Nat
  | _, [] => []
  | none, c :: rest => c :: dedup sps (some c) rest
  | some l, c :: rest => if sps ≤ c - l then c :: dedup sps (some c) rest else dedup sps (some l) rest

/-- The candidates in ascending order (rule R189). -/
def State.sortedCandidates (s : State) : List Nat := (s.candList.map BitVec.toNat).insertionSort (· ≤ ·)

/-- The entry rule R189 makes of an accepted position. -/
def hitOf (sps c : Nat) : Hit := ⟨BitVec.ofNat 32 c, BitVec.ofNat 32 (c % sps)⟩

/-- Rule R189 after its checks: the sorted candidates and the accepted positions are written. -/
def State.enterMatches (s : State) (sorted accepted : List Nat) : State :=
  let t := (s.storeCand (sorted.map (BitVec.ofNat 32))).storeHits (accepted.map (hitOf s.cfgSps.toNat))
  if accepted.length = 0 then t.syncMissed else (t.setFlag .syncnf false).countFound accepted.length

/-- Rule R189. -/
def syDedupRun (s : State) : Run :=
  if s.cfgSps.toNat = 0 then .raised .configError s
  else
    let accepted := dedup s.cfgSps.toNat none s.sortedCandidates
    if s.build.matchCap < accepted.length then .raised .rangeError s
    else .done (s.enterMatches s.sortedCandidates accepted)

/-- Rule R190: complete bytes from the bits at `base`, `base + stride`, ..., at most `most` of them. -/
def readBytes (base stride most : Nat) (src : List Bool) : List Byte :=
  packBytes (min ((everyNth stride base src).length / 8) most) (everyNth stride base src)

/-- Rule R190, `R = 0`. -/
def syGetbOp (s : State) : State :=
  if s.flag .syncnf then s.storeRb []
  else s.storeRb (readBytes (s.syPos.toNat + 32) 1 s.cfgMaxb.toNat s.bitList)

/-- Rule R190, `R = 1`. -/
def syGetbRRun (index : Nat) (s : State) : Run :=
  if s.cfgSps.toNat = 0 then .raised .configError s
  else if s.matchCnt.toNat ≤ index then .raised .rangeError s
  else
    .done (s.storeRb (readBytes ((s.hitAt index).pos.toNat + 32 * s.cfgSps.toNat) s.cfgSps.toNat s.cfgMaxb.toNat
      s.rawList))

/-- `SY.EXACT`, rule R183. -/
def execSyExact (s : State) : Host.Outcome State Fault Refusal := (Run.done (syExactOp s)).finish (Instr.opc .syExact)

/-- `SY.CORR`, rule R184. -/
def execSyCorr (s : State) : Host.Outcome State Fault Refusal := (Run.done (syCorrOp s)).finish (Instr.opc .syCorr)

/-- `SY.SCAN`, rule R186. -/
def execSyScan (s : State) : Host.Outcome State Fault Refusal := (syScanRun s).finish (Instr.opc .syScan)

/-- `SY.DEDUP`, rule R189. -/
def execSyDedup (s : State) : Host.Outcome State Fault Refusal := (syDedupRun s).finish (Instr.opc .syDedup)

/-- `SY.GETB`, rule R190 with `R = 0`. -/
def execSyGetb (s : State) : Host.Outcome State Fault Refusal := (Run.done (syGetbOp s)).finish (Instr.opc .syGetb)

/-- `SY.GETB.R`, rule R190 with `R = 1`. -/
def execSyGetbR (index : Nat) (s : State) : Host.Outcome State Fault Refusal :=
  (syGetbRRun index s).finish (Instr.opc (.syGetbR index))

end Sys2Proof.Machine
end

