-- ==== Sys2Proof/Machine/Pipeline.lean ====
section
/-! DEFINITION. The two pipeline operations of spec 45_pipeline.md, folds over the primitive operations (rule R244). -/

namespace Sys2Proof.Machine

/-- Rule R241, the body of the loop for one burst: demodulate, scan, and on a match read, de-whiten and frame. -/
def burstBody (ug ck cr : Bool) (s : State) : Run :=
  (fdDemodRun ug ck s).andThen fun t =>
    let u := if cr then syCorrOp t else syExactOp t
    if u.flag .syncnf then .done u else (dwRunRun (syGetbOp u)).andThen pfFrameRun

/-- Rule R241, the loop; one iteration per sample and one more are enough (rule R136, log entry 10). -/
def burstLoop (ug ck cr : Bool) : Nat → State → Run
  | 0, s => .done s
  | n + 1, s =>
    (bdNextRun s).andThen fun t =>
      if t.flag .noburst then .done t else (burstBody ug ck cr t).andThen (burstLoop ug ck cr n)

/-- Rule R241. -/
def pipeBurstRun (ug ck cr : Bool) (s : State) : Run :=
  if s.channelIllegal then .raised .invalidChannel s
  else if s.cfgSps.toNat = 0 ∨ (ck = true ∧ s.cfgSkip.toNat < 2) then .raised .configError s
  else if s.detectorIllegal then .raised .configError s
  else burstLoop ug ck cr (s.sampLen.toNat + 1) (bdRstOp s)

/-- Rule R242, the loop over the matches from index `i` on; `n` of them are left. -/
def matchLoop : Nat → Nat → State → Run
  | 0, _, s => .done s
  | n + 1, i, s =>
    (syGetbRRun i s).andThen fun t => (dwRunRun t).andThen fun u => (pfFrameRun u).andThen (matchLoop n (i + 1))

/-- Rule R242: the whole chunk is the segment. -/
def State.selectChunk (s : State) : State := { s with segStart := 0, segStop := s.sampLen }

/-- Rule R242. -/
def pipeStreamRun (ug : Bool) (s : State) : Run :=
  if s.channelIllegal then .raised .invalidChannel s
  else if s.cfgSps.toNat = 0 then .raised .configError s
  else
    (fdFreqRun ug s.selectChunk).andThen fun t =>
      (syScanRun (fdBinOp t)).andThen fun u => (syDedupRun u).andThen fun v => matchLoop v.matchCnt.toNat 0 v

/-- `PIPE.BURST`, rule R241. -/
def execPipeBurst (ug ck cr : Bool) (s : State) : Host.Outcome State Fault Refusal :=
  (pipeBurstRun ug ck cr s).finish (Instr.opc (.pipeBurst ug ck cr))

/-- `PIPE.STREAM`, rule R242. -/
def execPipeStream (ug : Bool) (s : State) : Host.Outcome State Fault Refusal :=
  (pipeStreamRun ug s).finish (Instr.opc (.pipeStream ug))

end Sys2Proof.Machine
end

