-- ==== Sys2Proof/Machine/Dispatch.lean ====
section
/-! DEFINITION. One arm per instruction. -/

namespace Sys2Proof.Machine

def exec (i : Instr) (s : State) : Host.Outcome State Fault Refusal :=
  match i with
  | .nop => Sys2Proof.Machine.execNop s
  | .clrst => Sys2Proof.Machine.execClrst s
  | .clrcnt => Sys2Proof.Machine.execClrcnt s
  | .setthr single => Sys2Proof.Machine.execSetthr single s
  | .setrefZ => Sys2Proof.Machine.execSetrefZ s
  | .setrefC => Sys2Proof.Machine.execSetrefC s
  | .setrefD => Sys2Proof.Machine.execSetrefD s
  | .outclr => Sys2Proof.Machine.execOutclr s
  | .bdRst => Sys2Proof.Machine.execBdRst s
  | .bdNext => Sys2Proof.Machine.execBdNext s
  | .bdAll => Sys2Proof.Machine.execBdAll s
  | .squelch => Sys2Proof.Machine.execSquelch s
  | .fdFreq ug => Sys2Proof.Machine.execFdFreq ug s
  | .fdClk => Sys2Proof.Machine.execFdClk s
  | .fdSlice => Sys2Proof.Machine.execFdSlice s
  | .fdBin => Sys2Proof.Machine.execFdBin s
  | .fdDemod ug ck => Sys2Proof.Machine.execFdDemod ug ck s
  | .syExact => Sys2Proof.Machine.execSyExact s
  | .syCorr => Sys2Proof.Machine.execSyCorr s
  | .syScan => Sys2Proof.Machine.execSyScan s
  | .syDedup => Sys2Proof.Machine.execSyDedup s
  | .syGetb => Sys2Proof.Machine.execSyGetb s
  | .syGetbR index => Sys2Proof.Machine.execSyGetbR index s
  | .dwRun => Sys2Proof.Machine.execDwRun s
  | .pfFrame => Sys2Proof.Machine.execPfFrame s
  | .pipeBurst ug ck cr => Sys2Proof.Machine.execPipeBurst ug ck cr s
  | .pipeStream ug => Sys2Proof.Machine.execPipeStream ug s

end Sys2Proof.Machine
end

