-- ==== Sys2Proof/Machine/Command.lean ====
section
/-! DEFINITION. `HostCmd` (rules R95, R292), the `Reset` event (rules R310, R311), and one host transaction. -/

namespace Sys2Proof.Machine

/-- The four `OPC` values that run while a fatal flag is 1 (rule R292). -/
def runsWhileFatal (opc : Nat) : Bool := opc == 0x00 || opc == 0x01 || opc == 0x02 || opc == 0x05

/-- Rule R292: the word is ignored. -/
def State.blocks (s : State) (w : Word) : Bool := s.fatalPending && !runsWhileFatal (opcField w)

/-- `HostCmd(w)` of rule R95: a blocked word does nothing, an illegal one raises IllegalCommand with `w[7:0]` as the
source (rule R281), every other one runs its operation. -/
def hostCmd (w : Word) (s : State) : Host.Outcome State Fault Refusal :=
  if s.blocks w then .next s
  else
    match decode w with
    | .ok i => exec i s
    | .error _ => .next (s.raise .illegalCommand (opcField w))

/-- `Reset` of rule R311: the registers take their reset values and the contents of the buffers become unspecified; the
instance stays what it is. What
the host will do next and what it has read are not the block's (log entry 16). -/
def State.resetEvent (s : State) : State :=
  { State.resetOf s.build with mem := s.mem.forget, pending := s.pending, replies := s.replies }

/-- One host transaction (rules R81, R310). -/
def transact (t : HostTxn) (s : State) : Host.Outcome State Fault Refusal :=
  match t with
  | .regRead index => hostRegRead index s
  | .regWrite index v => hostRegWrite index v s
  | .bufRead space i => hostBufRead space i s
  | .bufWrite space i v => hostBufWrite space i v s
  | .cmd w => hostCmd w s
  | .reset => .next s.resetEvent

/-- The state after the transactions `rest` are the ones still to come. -/
def State.await (s : State) (rest : List HostTxn) : State := { s with pending := rest }

/-- The next host transaction; with none the block is idle and keeps all state (rule R301). -/
def nextTransaction (s : State) : Host.Outcome State Fault Refusal :=
  match s.pending with
  | [] => .next s
  | t :: rest => transact t (s.await rest)

/-- `s` with one command word issued before everything else the host will do. -/
def State.issue (s : State) (w : Word) : State := s.await (.cmd w :: s.pending)

end Sys2Proof.Machine
end

