-- ==== Sys2Proof/Machine/Step.lean ====
section
/-! DEFINITION. One step: the unit of progress is one host transaction (rule R324). -/

namespace Sys2Proof.Machine

/-- One step of the block. -/
def step (s : State) : Host.Outcome State Fault Refusal := nextTransaction s

/-- The instruction whose `nbits` bits are `w` is the next command the host issues (log entry 6). -/
def State.withFetchWord (s : State) (nbits w : Nat) : State := s.issue (BitVec.ofNat 32 (w % 2 ^ nbits))

end Sys2Proof.Machine
end

