-- ==== Sys2Proof/Safety.lean ====
section
/-! DEFINITION. What statements about the block are said in: the legal states, and the real numbers of rule R16 that the
exact arithmetic of the model stands for. -/

namespace Sys2Proof

/-- The real number a `RealNum` stands for, in radians. -/
noncomputable def RealNum.toReal (a : RealNum) : ℝ :=
  (a.rad : ℝ) + (a.pis : ℝ) * Real.pi + Complex.arg ⟨(a.dx : ℝ), (a.dy : ℝ)⟩

/-- The `k`-th real number the host supplies. -/
noncomputable def hostReal (k : Nat) : ℝ :=
  (Config.hostInt k : ℝ) + ∑' i : ℕ, if Config.hostBit k i then (1 / 2 : ℝ) ^ (i + 1) else 0

/-- The real number a `Num` stands for. -/
noncomputable def NumVal.toReal : NumVal → ℝ
  | .exact r => r.toReal
  | .host k => hostReal k
  | .sum a b => a.toReal + b.toReal
  | .minus a => -a.toReal
  | .prod a b => a.toReal * b.toReal
  | .recip a => a.toReal⁻¹
  | .angle x y => Complex.arg ⟨x.toReal, y.toReal⟩

/-- `arg(s)` of rule R16 in the real numbers; the argument of 0 is 0. -/
noncomputable def Sample.realArg (s : Sample) : ℝ := Complex.arg ⟨s.re.toReal, s.im.toReal⟩

/-- `amp(s)` of rule R16 in the real numbers. -/
noncomputable def Sample.realAmp (s : Sample) : ℝ := Real.sqrt (s.re.toReal * s.re.toReal + s.im.toReal * s.im.toReal)

/-- Both components are exact rational numbers. -/
def Sample.isRational (s : Sample) : Prop := s.re.toRat?.isSome = true ∧ s.im.toRat?.isSome = true

/-- `wrap(t)` of rule R16 in the real numbers: the value in `(-pi, pi]` that differs from `t` by a multiple of
`2*pi`. -/
noncomputable def realWrap (t : ℝ) : ℝ := toIocMod Real.two_pi_pos (-Real.pi) t

/-- The canonical form of an exact number: equal ones are equal data. -/
def RealNum.canonical (a : RealNum) : Bool :=
  (decide (a.dx = 1) && decide (a.dy = 0)) || (decide (0 < a.dy) && decide (a.dy < a.dx) && Int.gcd a.dx a.dy == 1)

/-- Every exact number in a number is in canonical form. -/
def NumVal.canonical : NumVal → Bool
  | .exact r => r.canonical
  | .host _ => true
  | .minus a | .recip a => a.canonical
  | .sum a b | .prod a b | .angle a b => a.canonical && b.canonical

/-- Both components of a sample are in canonical form. -/
def Sample.canonical (s : Sample) : Bool := s.re.canonical && s.im.canonical

/-- An exact number of the kind `arg` and `wrap` of rational samples give: no rational part, and a whole multiple of
`pi/4` beside the direction. -/
def NumVal.isAngle (a : NumVal) : Prop :=
  ∃ r : RealNum, a = .exact r ∧ r.canonical = true ∧ r.rad = 0 ∧ ∃ k : Int, r.pis = k / 4

/-- The shift register of rule R54, seven bits `p0 .. p6`, seeded for a channel. -/
def lfsrSeed (ch : Nat) : List Bool :=
  [true, ch.testBit 5, ch.testBit 4, ch.testBit 3, ch.testBit 2, ch.testBit 1, ch.testBit 0]

/-- One step of the register of rule R54: its output and its next state. -/
def lfsrStep : List Bool → Bool × List Bool
  | [p0, p1, p2, p3, p4, p5, p6] => (p6, [p6, p0, p1, p2, p3 ^^ p6, p4, p5])
  | p => (false, p)

/-- The `k`-th output of the register of rule R54 from a state. -/
def lfsrOutput : Nat → List Bool → Bool
  | 0, p => (lfsrStep p).1
  | k + 1, p => lfsrOutput k (lfsrStep p).2

namespace Machine

/-! One element of each buffer, as a statement reads it (rule R14). -/

def State.sampAt (s : State) (i : Nat) : Sample := s.mem.samp.get (openSample .samp) i

def State.sqlAt (s : State) (i : Nat) : Sample := s.mem.sql.get (openSample .sql) i

def State.burstAt (s : State) (i : Nat) : Span := s.mem.burst.get (Config.freeSpan .burst) i

def State.freqAt (s : State) (i : Nat) : NumVal := s.mem.freq.get openFreq i

def State.bitAt (s : State) (i : Nat) : Bool := s.mem.bits.get (Config.freeBit .bits) i

def State.rawAt (s : State) (i : Nat) : Bool := s.mem.raw.get (Config.freeBit .raw) i

def State.candAt (s : State) (i : Nat) : Word := s.mem.cand.get (Config.freeWord .cand) i

def State.rbAt (s : State) (i : Nat) : Byte := s.mem.rb.get (Config.freeByte .rb) i

def State.dwAt (s : State) (i : Nat) : Byte := s.mem.dw.get (Config.freeByte .dw) i

/-- A sample above the high threshold: it starts a burst (rule R132). -/
def State.loud (s : State) (n : Nat) : Prop := s.thrHi.toReal < (s.sampAt n).realAmp

/-- A sample below the low threshold: it ends a burst (rule R132). -/
def State.quiet (s : State) (n : Nat) : Prop := (s.sampAt n).realAmp < s.thrLo.toReal

/-- Rules R39 and R40: the threshold pair and the pad are legal. -/
def State.detectorReady (s : State) : Prop :=
  0 ≤ s.thrLo.toReal ∧ s.thrLo.toReal ≤ s.thrHi.toReal ∧ s.cfgPad.toNat < 2 ^ 31

/-- No sample at or after the cursor `c` starts a burst. -/
def State.noBurstFrom (s : State) (c : Nat) : Prop := ∀ n, c ≤ n → n < s.sampLen.toNat → ¬ s.loud n

/-- Rule R132's scan from cursor `c` in the words of the spec: `i` is the least loud index, `j` the least quiet one from
there or the stream's end, and the range is theirs, moved outward by the pad and clamped. -/
def State.burstFrom (s : State) (c : Nat) (b : Span) : Prop :=
  ∃ i j, c ≤ i ∧ i < s.sampLen.toNat ∧ s.loud i ∧ (∀ n, c ≤ n → n < i → ¬ s.loud n)
    ∧ i ≤ j ∧ j ≤ s.sampLen.toNat ∧ (∀ n, i ≤ n → n < j → ¬ s.quiet n) ∧ (j < s.sampLen.toNat → s.quiet j)
    ∧ b.start.toNat = max c (i - s.cfgPad.toNat) ∧ b.stop.toNat = min s.sampLen.toNat (j + s.cfgPad.toNat)

/-- The bursts `bs` follow one another, each found from the stop of the one before it, the first from `c`. -/
def State.burstsFrom (s : State) (c : Nat) : List Span → Prop
  | [] => True
  | b :: rest => s.burstFrom c b ∧ s.burstsFrom b.stop.toNat rest

/-- `hd(p)` of rule R181, bit by bit. -/
def State.distanceAt (s : State) (p : Nat) : Nat :=
  (List.range 32).countP fun i => s.bitAt (p + i) != s.cfgSync.getLsbD i

/-- The sync pattern stands in `RAW` at frequency index `n` with one bit every `CFG_SPS` (rule R187). -/
def State.patternAt (s : State) (n : Nat) : Bool :=
  decide (n + 31 * s.cfgSps.toNat < s.rawLen.toNat)
    && (List.range 32).all fun i => s.rawAt (n + i * s.cfgSps.toNat) == s.cfgSync.getLsbD i

/-- Rule R189's accepted positions, as a property of a list: rising, and a candidate belongs to it exactly when no
smaller accepted one is closer than one symbol period. -/
def State.acceptedIs (s : State) (acc : List Nat) : Prop :=
  acc.Pairwise (· < ·) ∧ ∀ c, c ∈ acc ↔ (∃ k, k < s.candCnt.toNat ∧ (s.candAt k).toNat = c)
    ∧ ¬ ∃ q, q ∈ acc ∧ q < c ∧ c - q < s.cfgSps.toNat

/-- `avail` of rule R190: how many `k` have `base + k * stride < n`. -/
def availableBits (base stride n : Nat) : Nat := (n - base + stride - 1) / stride

/-- The five fatal flags, bits 12 to 8 of `STATUS` (rule R46). -/
def State.fatalBits (s : State) : Word := s.status &&& 0x1F00

/-- `STATUS` after the fatal entry of a condition, and `ERR` (rule R291), in plain words. -/
def State.entered (s : State) (bit code src : Nat) : State :=
  { s with
    status := s.status ||| BitVec.twoPow 32 bit
    err := if s.err.extractLsb' 0 8 = 0 then BitVec.ofNat 32 (code + src * 256) else s.err }

/-- The pipeline operations, which may raise after a write (rule R243). -/
def isPipeline : Instr → Bool
  | .pipeBurst _ _ _ | .pipeStream _ => true
  | .nop | .clrst | .clrcnt | .setthr _ | .setrefZ | .setrefC | .setrefD | .outclr
  | .bdRst | .bdNext | .bdAll | .squelch | .fdFreq _ | .fdClk | .fdSlice | .fdBin | .fdDemod _ _
  | .syExact | .syCorr | .syScan | .syDedup | .syGetb | .syGetbR _ | .dwRun | .pfFrame => false

/-- The causes of InvalidChannel, rule R278. -/
def channelCause (s : State) : Instr → Prop
  | .dwRun | .pipeBurst _ _ _ | .pipeStream _ => 39 < s.cfgChan.toNat
  | .nop | .clrst | .clrcnt | .setthr _ | .setrefZ | .setrefC | .setrefD | .outclr
  | .bdRst | .bdNext | .bdAll | .squelch | .fdFreq _ | .fdClk | .fdSlice | .fdBin | .fdDemod _ _
  | .syExact | .syCorr | .syScan | .syDedup | .syGetb | .syGetbR _ | .pfFrame => False

/-- The causes of ConfigError, rule R279. -/
def configCause (s : State) : Instr → Prop
  | .setthr _ => s.cfgThresh.toReal < 0
  | .setrefC => s.cfgFs.toReal ≤ 0
  | .bdNext | .bdAll | .squelch => ¬ s.detectorReady
  | .fdClk => s.cfgSps = 0 ∨ s.cfgSkip.toNat < 2
  | .fdSlice | .syScan | .syDedup | .syGetbR _ | .pipeStream _ => s.cfgSps = 0
  | .fdDemod _ ck => s.cfgSps = 0 ∨ (ck = true ∧ s.cfgSkip.toNat < 2)
  | .pipeBurst _ ck _ => s.cfgSps = 0 ∨ (ck = true ∧ s.cfgSkip.toNat < 2) ∨ ¬ s.detectorReady
  | .nop | .clrst | .clrcnt | .setrefZ | .setrefD | .outclr | .bdRst | .fdFreq _ | .fdBin
  | .syExact | .syCorr | .syGetb | .dwRun | .pfFrame => False

/-- The causes of RangeError in an operation that is no pipeline, rule R280. -/
def rangeCause (s : State) : Instr → Prop
  | .bdNext => s.sampLen.toNat < s.bdCur.toNat
      ∨ (s.burstCnt.toNat = s.build.burstCap ∧ ¬ s.noBurstFrom s.bdCur.toNat)
  | .bdAll | .squelch => ∃ bs, s.burstsFrom 0 bs ∧ s.build.burstCap < bs.length
  | .fdFreq _ | .fdDemod _ _ => s.segStop.toNat < s.segStart.toNat ∨ s.sampLen.toNat < s.segStop.toNat
  | .syScan => s.build.candCap < (List.range s.rawLen.toNat).countP s.patternAt
  | .syDedup => ∃ acc, s.acceptedIs acc ∧ s.build.matchCap < acc.length
  | .syGetbR index => s.matchCnt.toNat ≤ index
  | .pfFrame => s.outCnt.toNat = s.build.outCap
  | .nop | .clrst | .clrcnt | .setthr _ | .setrefZ | .setrefC | .setrefD | .outclr | .bdRst
  | .fdClk | .fdSlice | .fdBin | .syExact | .syCorr | .syGetb | .dwRun
  | .pipeBurst _ _ _ | .pipeStream _ => False

/-- The operations that write each outcome flag (rule R46); `CLRST` clears them all. -/
def ownsFlag (f : Flag) : Instr → Bool
  | .clrst => true
  | .bdRst | .bdNext | .bdAll | .squelch => f == .noburst
  | .syExact | .syCorr | .syDedup => f == .syncnf
  | .fdClk | .fdDemod _ _ => f == .shortClk
  | .pfFrame => f == .shortPkt
  | .pipeBurst _ _ _ => f == .noburst || f == .syncnf || f == .shortClk || f == .shortPkt
  | .pipeStream _ => f == .syncnf || f == .shortPkt
  | .nop | .clrcnt | .setthr _ | .setrefZ | .setrefC | .setrefD | .outclr | .fdFreq _ | .fdSlice | .fdBin | .syScan
  | .syGetb | .syGetbR _ | .dwRun => false

/-- The registers the host may only read (rule R32). -/
def Reg.readOnly : Reg → Bool
  | .outCnt | .status | .err | .cntFound | .cntFailed | .pfDecl => true
  | _ => false

/-- The registers of type `Num` (rule R32). -/
def Reg.isNum : Reg → Bool
  | .cfgFs | .cfgThresh | .thrLo | .thrHi | .cfgCfo | .cfgRef | .fdRef => true
  | _ => false

/-- The capacity a host write of a length or count register or of `CFG_MAXB` is checked against (rules R45, R49 to
R51, R81). -/
def Reg.limit (b : Build) : Reg → Option Nat
  | .sampLen | .freqLen | .bitsLen | .rawLen => some b.sampCap
  | .burstCnt => some b.burstCap
  | .candCnt => some b.candCap
  | .matchCnt => some b.matchCap
  | .rbLen | .dwLen | .cfgMaxb => some b.byteCap
  | _ => none

/-- The capacity of a space (rule R80). -/
def Space.capacity (b : Build) : Space → Nat
  | .samp | .sql | .freq | .bits | .raw => b.sampCap
  | .burst => b.burstCap
  | .cand => b.candCap
  | .hits => b.matchCap
  | .rb | .dw => b.byteCap
  | .out => b.outCap
  | .wseq => b.wLen
  | .chidx => 40

/-- The spaces the host may write (rule R80). -/
def Space.writable : Space → Bool
  | .sql | .out | .wseq | .chidx => false
  | _ => true

/-- A value of the element type of a space (rule R80), a real number in its canonical form. -/
def Space.holds : Space → Value → Bool
  | .burst, .span _ | .bits, .bit _ | .raw, .bit _ | .cand, .word _ => true
  | .hits, .hit _ | .rb, .byte _ | .dw, .byte _ | .out, .packet _ | .wseq, .bit _ | .chidx, .word _ => true
  | .samp, .sample v | .sql, .sample v => v.canonical
  | .freq, .num n => n.canonical
  | _, _ => false

/-- The command sequence of rule R244 for `PIPE.BURST`, after `BD.RST`: one `BD.NEXT` after another until `NOBURST`,
each burst demodulated and scanned, and on a match read, de-whitened and framed. -/
inductive BurstPass (ug ck cr : Bool) : State → State → Prop
  | stop {s t : State} (h : exec .bdNext s = .next t) (none : t.flag .noburst = true) : BurstPass ug ck cr s t
  | miss {s a b c t : State} (h : exec .bdNext s = .next a) (some : a.flag .noburst = false)
      (demod : exec (.fdDemod ug ck) a = .next b)
      (scan : exec (if cr then .syCorr else .syExact) b = .next c) (missed : c.flag .syncnf = true)
      (rest : BurstPass ug ck cr c t) : BurstPass ug ck cr s t
  | packet {s a b c d e f t : State} (h : exec .bdNext s = .next a) (some : a.flag .noburst = false)
      (demod : exec (.fdDemod ug ck) a = .next b)
      (scan : exec (if cr then .syCorr else .syExact) b = .next c) (found : c.flag .syncnf = false)
      (bytes : exec .syGetb c = .next d) (white : exec .dwRun d = .next e) (frame : exec .pfFrame e = .next f)
      (rest : BurstPass ug ck cr f t) : BurstPass ug ck cr s t

/-- The command sequence of rule R244 for `PIPE.STREAM` over the matches `i`, `i + 1`, ... below `n`. -/
inductive MatchPass (n : Nat) : Nat → State → State → Prop
  | stop {i : Nat} {s : State} (h : n ≤ i) : MatchPass n i s s
  | packet {i : Nat} {s a b c t : State} (h : i < n) (bytes : exec (.syGetbR i) s = .next a)
      (white : exec .dwRun a = .next b) (frame : exec .pfFrame b = .next c)
      (rest : MatchPass n (i + 1) c t) : MatchPass n i s t

/-- Rule R243 for `PIPE.BURST`: the sequence of `BurstPass`, from `s` on, runs out of list space, and `u` is what the
iterations and calls before the full list have written. -/
inductive BurstHalt (ug ck cr : Bool) : State → State → Prop
  | full {s : State} (h : rangeCause s .bdNext) : BurstHalt ug ck cr s s
  | miss {s a b c u : State} (room : ¬ rangeCause s .bdNext) (h : exec .bdNext s = .next a)
      (some : a.flag .noburst = false) (demod : exec (.fdDemod ug ck) a = .next b)
      (scan : exec (if cr then .syCorr else .syExact) b = .next c) (missed : c.flag .syncnf = true)
      (rest : BurstHalt ug ck cr c u) : BurstHalt ug ck cr s u
  | record {s a b c d e : State} (room : ¬ rangeCause s .bdNext) (h : exec .bdNext s = .next a)
      (some : a.flag .noburst = false) (demod : exec (.fdDemod ug ck) a = .next b)
      (scan : exec (if cr then .syCorr else .syExact) b = .next c) (found : c.flag .syncnf = false)
      (bytes : exec .syGetb c = .next d) (white : exec .dwRun d = .next e) (h2 : rangeCause e .pfFrame) :
      BurstHalt ug ck cr s e
  | packet {s a b c d e f u : State} (room : ¬ rangeCause s .bdNext) (h : exec .bdNext s = .next a)
      (some : a.flag .noburst = false) (demod : exec (.fdDemod ug ck) a = .next b)
      (scan : exec (if cr then .syCorr else .syExact) b = .next c) (found : c.flag .syncnf = false)
      (bytes : exec .syGetb c = .next d) (white : exec .dwRun d = .next e) (space : ¬ rangeCause e .pfFrame)
      (frame : exec .pfFrame e = .next f) (rest : BurstHalt ug ck cr f u) : BurstHalt ug ck cr s u

/-- Rule R243 for the matches `i`, `i + 1`, ... below `n` of `PIPE.STREAM`: `OUT` is full at one of them. -/
inductive MatchHalt (n : Nat) : Nat → State → State → Prop
  | record {i : Nat} {s a b : State} (h : i < n) (bytes : exec (.syGetbR i) s = .next a)
      (white : exec .dwRun a = .next b) (full : rangeCause b .pfFrame) : MatchHalt n i s b
  | packet {i : Nat} {s a b c u : State} (h : i < n) (bytes : exec (.syGetbR i) s = .next a)
      (white : exec .dwRun a = .next b) (space : ¬ rangeCause b .pfFrame) (frame : exec .pfFrame b = .next c)
      (rest : MatchHalt n (i + 1) c u) : MatchHalt n i s u

/-- The state in which the whole chunk is the segment (rule R242). -/
def State.wholeChunk (s : State) : State := { s with segStart := 0, segStop := s.sampLen }

/-- Rule R243 for `PIPE.STREAM`: `CAND`, `MATCH` or `OUT` runs out of space, and `u` is what was written before. -/
inductive StreamHalt (ug : Bool) : State → State → Prop
  | scan {s a b : State} (freq : exec (.fdFreq ug) s.wholeChunk = .next a) (bin : exec .fdBin a = .next b)
      (full : rangeCause b .syScan) : StreamHalt ug s b
  | dedup {s a b c : State} (freq : exec (.fdFreq ug) s.wholeChunk = .next a) (bin : exec .fdBin a = .next b)
      (room : ¬ rangeCause b .syScan) (scan : exec .syScan b = .next c) (full : rangeCause c .syDedup) :
      StreamHalt ug s c
  | record {s a b c d u : State} (freq : exec (.fdFreq ug) s.wholeChunk = .next a) (bin : exec .fdBin a = .next b)
      (room : ¬ rangeCause b .syScan) (scan : exec .syScan b = .next c) (space : ¬ rangeCause c .syDedup)
      (dedup : exec .syDedup c = .next d) (rest : MatchHalt d.matchCnt.toNat 0 d u) : StreamHalt ug s u

/-- The decision on the pair of samples at `k` and `k + 1` of the loaded chunk is 1 (rules R151, R157). -/
def State.decidesOne (s : State) (k : Nat) : Prop :=
  s.fdRef.toReal < realWrap ((s.sampAt (k + 1)).realArg - (s.sampAt k).realArg)

/-- The decisions on the loaded chunk hold the sync pattern at frequency index `n`, one bit every `CFG_SPS`. -/
def State.holdsPatternAt (s : State) (n : Nat) : Prop :=
  n + 31 * s.cfgSps.toNat + 1 < s.sampLen.toNat
    ∧ ∀ i, i < 32 → (s.decidesOne (n + i * s.cfgSps.toNat) ↔ s.cfgSync.getLsbD i = true)

/-- The loaded chunk's candidates fit `CAND`, its matches fit `MATCH`, and a record for each match fits `OUT`: rule
R244's 'no RangeError occurs' for `PIPE.STREAM`. -/
def State.streamFits (s : State) : Prop :=
  (∀ ns : List Nat, ns.Nodup → (∀ n ∈ ns, s.holdsPatternAt n) → ns.length ≤ s.build.candCap)
    ∧ ∀ acc : List Nat, acc.Pairwise (· < ·) →
        (∀ c, c ∈ acc ↔ s.holdsPatternAt c ∧ ¬ ∃ q, q ∈ acc ∧ q < c ∧ c - q < s.cfgSps.toNat) →
        acc.length ≤ s.build.matchCap ∧ s.outCnt.toNat + acc.length ≤ s.build.outCap

/-- Rules R9, R45, R49 to R51, R81: the capacities are legal, and every length and count register and `CFG_MAXB` lies
within its own. -/
def State.lengthsLegal (s : State) : Bool :=
  s.build.legal && decide (s.sampLen.toNat ≤ s.build.sampCap) && decide (s.burstCnt.toNat ≤ s.build.burstCap)
    && decide (s.freqLen.toNat ≤ s.build.sampCap) && decide (s.bitsLen.toNat ≤ s.build.sampCap)
    && decide (s.rawLen.toNat ≤ s.build.sampCap) && decide (s.candCnt.toNat ≤ s.build.candCap)
    && decide (s.matchCnt.toNat ≤ s.build.matchCap) && decide (s.rbLen.toNat ≤ s.build.byteCap)
    && decide (s.dwLen.toNat ≤ s.build.byteCap) && decide (s.outCnt.toNat ≤ s.build.outCap)
    && decide (s.cfgMaxb.toNat ≤ s.build.byteCap)

/-- No buffer lists an element at or above its capacity (rule R14). -/
def State.buffersWithinCapacity (s : State) : Bool :=
  s.mem.samp.within s.build.sampCap && s.mem.sql.within s.build.sampCap && s.mem.burst.within s.build.burstCap
    && s.mem.freq.within s.build.sampCap && s.mem.bits.within s.build.sampCap && s.mem.raw.within s.build.sampCap
    && s.mem.cand.within s.build.candCap && s.mem.hits.within s.build.matchCap && s.mem.rb.within s.build.byteCap
    && s.mem.dw.within s.build.byteCap && s.mem.out.within s.build.outCap

/-- Rules R46, R47, R277: the undefined bits of `STATUS` and `ERR` are 0, no code above 5 is ever held, and a code is
held exactly while a fatal flag is 1. -/
def State.statusLegal (s : State) : Bool :=
  decide (s.status &&& 0xFFFFE0F0 = 0) && decide (s.err.toNat < 2 ^ 16) && decide (s.err.toNat % 2 ^ 8 ≤ 5)
    && (s.fatalPending == decide (s.err.toNat % 2 ^ 8 ≠ 0))

/-- Every real number the block holds is in canonical form. -/
def State.numbersLegal (s : State) : Bool :=
  s.cfgFs.canonical && s.cfgThresh.canonical && s.thrLo.canonical && s.thrHi.canonical && s.cfgCfo.canonical
    && s.cfgRef.canonical && s.fdRef.canonical && (s.mem.samp.cells.all fun c => c.2.canonical)
    && (s.mem.sql.cells.all fun c => c.2.canonical) && s.mem.freq.cells.all fun c => c.2.canonical

/-- The legal states: the ones the block can be in (log entry 19). -/
def State.legal (s : State) : Bool :=
  s.lengthsLegal && s.mem.wf && s.buffersWithinCapacity && s.statusLegal && s.numbersLegal

end Machine

end Sys2Proof
end

