-- ==== Sys2Proof/Certificates/Slice0/Obligations.lean ====
section
/-! DEFINITION. The statements for the provers, from the numbered rules of spec/. -/

open Sys2Proof Sys2Proof.Machine

/-! Encoding (30_encoding.md). -/

/-- Rules R96 to R99 and R104: the decoder reads every well-formed instruction back from its word, with every modifier
bit and every match index. -/
def Obligations.DecodeOfEncode : Prop := ∀ i : Instr, i.wellFormed = true → decode (encode i) = .ok i

/-- Rule R99: a word selects a row only if it is that row's encoding, so no two words decode to one instruction and no
bit of a word is ignored. -/
def Obligations.EncodeOfDecode : Prop :=
  ∀ (w : Word) (i : Instr), decode w = .ok i → i.wellFormed = true ∧ encode i = w

/-- The example words of rule R104, and two more of rules R190 and R242. -/
def Obligations.ExampleWordsDecode : Prop :=
  decode 0x00000011 = .ok .bdNext ∧ decode 0x00000103 = .ok (.setthr true) ∧ decode 0x00000104 = .ok .setrefC
    ∧ decode 0x00000224 = .ok (.fdDemod false true) ∧ decode 0x00000324 = .ok (.fdDemod true true)
    ∧ decode 0x00030134 = .ok (.syGetbR 3) ∧ decode 0x00000660 = .ok (.pipeBurst false true true)
    ∧ decode 0x00000061 = .ok (.pipeStream false) ∧ decode 0xFFFF0134 = .ok (.syGetbR 65535)
    ∧ decode 0x00000161 = .ok (.pipeStream true)

/-- Rule R281: a word that no row of rule R99 selects raises IllegalCommand, with `w[7:0]` as the source, and does
nothing else. -/
def Obligations.IllegalWordRaisesIllegalCommand : Prop :=
  ∀ (w : Word) (s : State), (∀ i : Instr, i.wellFormed = true → encode i ≠ w) →
    (s.fatalBits = 0 ∨ w.toNat % 256 ∈ [0x00, 0x01, 0x02, 0x05]) →
    hostCmd w s = .next (s.entered 11 4 (w.toNat % 256))

/-! Steps, reset and the fatal conditions (20_memory.md, 60_exceptions.md, 70_reset_and_hazards.md). -/

/-- Rule R95: when the next transaction is a command word that is not blocked and decodes to `i`, the step is `exec i`
at the state in which that transaction is no longer to come (log entry 6). -/
def Obligations.StepRunsDecodedCommand : Prop :=
  ∀ (s : State) (w : Word) (rest : List HostTxn) (i : Instr), s.pending = .cmd w :: rest →
    (s.fatalBits = 0 ∨ w.toNat % 256 ∈ [0x00, 0x01, 0x02, 0x05]) → decode w = .ok i →
    step s = exec i { s with pending := rest }

/-- Rule R292: while a fatal flag is 1, a command word with any other `OPC` does nothing at all. Rule R301: with no
transaction to come the block is idle and keeps all state. -/
def Obligations.BlockedOrIdleBlockKeepsItsState : Prop :=
  (∀ (s : State) (w : Word) (rest : List HostTxn), s.pending = .cmd w :: rest → s.fatalBits ≠ 0 →
    w.toNat % 256 ∉ [0x00, 0x01, 0x02, 0x05] → step s = .next { s with pending := rest })
  ∧ ∀ s : State, s.pending = [] → step s = .next s

/-- Rule R60: the reset values of the 35 registers, for every instance of the block. That nothing is pending and nothing
was read are the model's own fields (log entry 6), and so is which instance `State.reset` is (log entry 3). -/
def Obligations.ResetValues : Prop :=
  State.reset = State.resetOf Config.build
    ∧ ∀ (b : Build) (s : State), s = State.resetOf b →
      s.cfgSkip = 2 ∧ s.cfgSync = 0x8E89BED6 ∧ s.cfgTol = 2 ∧ s.cfgChan = 0xFFFFFFFF ∧ s.cfgMaxb = 260
        ∧ (∀ r : Reg, r ∉ [Reg.cfgSkip, .cfgSync, .cfgTol, .cfgChan, .cfgMaxb] →
            s.readReg r = if r.isNum then .num (.exact ⟨0, 0, 1, 0⟩) else .word 0)
        ∧ s.build = b ∧ s.pending = [] ∧ s.replies = []

/-- Rule R311: a `Reset` event gives every register its reset value and leaves the buffers unspecified: every element
reads as an open value of a generation of its own (log entries 4, 5, 16). -/
def Obligations.ResetEventGivesResetValues : Prop :=
  ∀ (s : State) (rest : List HostTxn), s.pending = .reset :: rest → ∃ t, step s = .next t
    ∧ (∀ r : Reg, t.readReg r = State.reset.readReg r) ∧ t.build = s.build ∧ t.pending = rest ∧ t.replies = s.replies
    ∧ ∀ i, t.sampAt i = (Config.freeSample .samp (s.mem.samp.gen + 1) i).normalize
      ∧ t.sqlAt i = (Config.freeSample .sql (s.mem.sql.gen + 1) i).normalize
      ∧ t.burstAt i = Config.freeSpan .burst (s.mem.burst.gen + 1) i
      ∧ t.freqAt i = (Config.freeFreq .freq (s.mem.freq.gen + 1) i).normalize
      ∧ t.bitAt i = Config.freeBit .bits (s.mem.bits.gen + 1) i
      ∧ t.rawAt i = Config.freeBit .raw (s.mem.raw.gen + 1) i
      ∧ t.candAt i = Config.freeWord .cand (s.mem.cand.gen + 1) i
      ∧ t.hitAt i = Config.freeHit .hits (s.mem.hits.gen + 1) i
      ∧ t.rbAt i = Config.freeByte .rb (s.mem.rb.gen + 1) i
      ∧ t.dwAt i = Config.freeByte .dw (s.mem.dw.gen + 1) i
      ∧ t.packetAt i = Config.freePacket .out (s.mem.out.gen + 1) i

/-- The state after reset is legal, for every instance with legal capacities (log entry 19). -/
def Obligations.ResetIsLegal : Prop :=
  State.reset.legal = true ∧ ∀ b : Build, b.legal = true → (State.resetOf b).legal = true

/-- Rules R277, R291 and R294: the fatal entry sets the condition's own flag, records code and source when `ERR[7:0]` is
0 and keeps `ERR` otherwise, and changes no other register and no buffer. -/
def Obligations.FatalEntryRecordsTheFirstCondition : Prop :=
  ∀ (s : State) (src : Nat),
    s.raise .invalidChannel src = s.entered 8 1 src ∧ s.raise .configError src = s.entered 9 2 src
      ∧ s.raise .rangeError src = s.entered 10 3 src ∧ s.raise .illegalCommand src = s.entered 11 4 src
      ∧ s.raise .accessFault src = s.entered 12 5 src

/-- Rule R15: an operation that is no pipeline operation either raises one fatal condition and changes nothing but
`STATUS` and `ERR`, or sets no fatal flag. -/
def Obligations.RaisingOperationChangesOnlyStatusAndErr : Prop :=
  ∀ (i : Instr) (s t : State), isPipeline i = false → exec i s = .next t →
    t = s.entered 8 1 i.opc ∨ t = s.entered 9 2 i.opc ∨ t = s.entered 10 3 i.opc
      ∨ t.fatalBits &&& ~~~s.fatalBits = 0

/-- Rule R278: the complete list of causes of InvalidChannel; it is raised before anything is read or written. -/
def Obligations.InvalidChannelCauses : Prop :=
  ∀ (i : Instr) (s t : State), s.fatalBits = 0 → exec i s = .next t →
    (channelCause s i → t = s.entered 8 1 i.opc) ∧ (t.flag .invch = true → channelCause s i)

/-- Rule R279 with the priority of rule R285: the complete list of causes of ConfigError; it is raised before any
write. -/
def Obligations.ConfigErrorCauses : Prop :=
  ∀ (i : Instr) (s t : State), s.fatalBits = 0 → exec i s = .next t →
    (configCause s i → ¬ channelCause s i → t = s.entered 9 2 i.opc)
      ∧ (t.flag .cfgerr = true → configCause s i ∧ ¬ channelCause s i)

/-- Rule R280 with the priority of rule R285: the complete list of causes of RangeError, for the operations that are no
pipelines. -/
def Obligations.RangeErrorCauses : Prop :=
  ∀ (i : Instr) (s t : State), isPipeline i = false → s.mem.wf = true → s.fatalBits = 0 → exec i s = .next t →
    (rangeCause s i → ¬ configCause s i → t = s.entered 10 3 i.opc)
      ∧ (t.flag .range = true → rangeCause s i ∧ ¬ configCause s i)

/-- Rule R325: every command word has a defined effect in every state. -/
def Obligations.EveryCommandWordHasANextState : Prop := ∀ (w : Word) (s : State), ∃ t, hostCmd w s = .next t

/-- Rules R46 and R293: a fatal flag, once set, stays set over every step but a `CLRST` command or a `Reset`. -/
def Obligations.FatalFlagsAreSticky : Prop :=
  ∀ (s t : State) (x : Fatal), step s = .next t → s.flag x.flag = true →
    t.flag x.flag = true ∨ s.pending.head? = some (.cmd 0x00000001) ∨ s.pending.head? = some .reset

/-- Rule R46: an outcome flag is changed only by the operations that own it. -/
def Obligations.OutcomeFlagsBelongToTheirOperations : Prop :=
  ∀ (i : Instr) (s t : State) (f : Flag), f ∈ [Flag.noburst, .syncnf, .shortClk, .shortPkt] → exec i s = .next t →
    ownsFlag f i = false → t.flag f = s.flag f

/-! Control operations (46_control_ops.md) and the reset of a detection pass. -/

/-- Rules R255 to R257 and R131: what the operations without a check do, and nothing else; the first three also while
a fatal flag is 1. -/
def Obligations.StatusAndCounterOperations : Prop :=
  ∀ s : State,
    exec .nop s = .next s ∧ hostCmd 0x00000000 s = exec .nop s
      ∧ exec .clrst s = .next { s with status := 0, err := 0 } ∧ hostCmd 0x00000001 s = exec .clrst s
      ∧ exec .clrcnt s = .next { s with cntFound := 0, cntFailed := 0 } ∧ hostCmd 0x00000002 s = exec .clrcnt s
      ∧ exec .bdRst s = .next { s with bdCur := 0, burstCnt := 0, status := s.status &&& 0xFFFFFFFE }
      ∧ (s.fatalBits = 0 → hostCmd 0x00000010 s = exec .bdRst s)

/-- Rule R260: `OUTCLR` writes `OUT_CNT` alone; what the elements of `OUT` hold afterwards is open (log entry 5). -/
def Obligations.OutclrDiscardsTheRecords : Prop :=
  ∀ s : State, ∃ t, exec .outclr s = .next t
    ∧ t = { s with outCnt := 0, mem := { s.mem with out := t.mem.out } }

/-- Rule R258: the threshold pair of rule R101 in the real numbers, or ConfigError for a negative base threshold. -/
def Obligations.SetthrDerivesTheThresholds : Prop :=
  ∀ (single : Bool) (s : State),
    (0 ≤ s.cfgThresh.toReal → ∃ lo hi : NumVal, exec (.setthr single) s = .next { s with thrLo := lo, thrHi := hi }
      ∧ lo.toReal = (if single then 1 else 4 / 5) * s.cfgThresh.toReal
      ∧ hi.toReal = (if single then 1 else 6 / 5) * s.cfgThresh.toReal)
    ∧ (s.cfgThresh.toReal < 0 → exec (.setthr single) s = .next (s.entered 9 2 0x03))

/-- Rule R259: the three zero-references, each a real number of radians per sample. -/
def Obligations.SetrefSelectsTheReference : Prop :=
  ∀ s : State,
    (∃ r : NumVal, exec .setrefZ s = .next { s with fdRef := r } ∧ r.toReal = 0)
    ∧ (0 < s.cfgFs.toReal → ∃ r : NumVal, exec .setrefC s = .next { s with fdRef := r }
        ∧ r.toReal = s.cfgCfo.toReal * 2 * Real.pi / s.cfgFs.toReal)
    ∧ (s.cfgFs.toReal ≤ 0 → exec .setrefC s = .next (s.entered 9 2 0x04))
    ∧ exec .setrefD s = .next { s with fdRef := s.cfgRef }

/-! Burst detector (40_burst_detector.md). -/

/-- Rule R16 and rule R17: the amplitude comparisons without a square root are the comparisons of amplitudes, for any
real components and any threshold of 0 or more. -/
def Obligations.AmplitudeComparisonsAreExact : Prop :=
  ∀ (v : Sample) (q : NumVal), 0 ≤ q.toReal →
    (ampAbove q v = true ↔ q.toReal < v.realAmp) ∧ (ampBelow q v = true ↔ v.realAmp < q.toReal)

/-- Rule R132, a burst is found: the entry, the segment, the cursor and `NOBURST`; every other entry of `BURST` and
everything else is as before. -/
def Obligations.BdNextEntersTheNextBurst : Prop :=
  ∀ (s : State) (b : Span), s.mem.wf = true → s.detectorReady → s.bdCur.toNat ≤ s.sampLen.toNat →
    s.burstCnt.toNat ≠ s.build.burstCap → s.burstFrom s.bdCur.toNat b →
    ∃ t, exec .bdNext s = .next t
      ∧ t = { s.setFlag .noburst false with
          burstCnt := s.burstCnt + 1
          segStart := b.start
          segStop := b.stop
          bdCur := b.stop
          mem := { s.mem with burst := t.mem.burst } }
      ∧ ∀ k, t.burstAt k = if k = s.burstCnt.toNat then b else s.burstAt k

/-- Rule R132, no burst is left: `NOBURST` is set and nothing else changes. -/
def Obligations.BdNextReportsNoBurst : Prop :=
  ∀ s : State, s.mem.wf = true → s.detectorReady → s.bdCur.toNat ≤ s.sampLen.toNat → s.noBurstFrom s.bdCur.toNat →
    exec .bdNext s = .next (s.setFlag .noburst true)

/-- Rules R133 and R135: `BD.ALL` enters every burst of the stream, ordered, non-empty and without overlap, and changes
nothing but the detector's registers and `BURST`. That the entries at and beyond `BURST_CNT` keep their values is rule
R131's for the count it clears, and the model's choice for the rest (U3 leaves them open where the pass shortens
`BURST`): log entry 5. -/
def Obligations.BdAllEntersEveryBurst : Prop :=
  ∀ s : State, s.mem.wf = true → s.detectorReady → ¬ rangeCause s .bdAll →
    ∃ t, exec .bdAll s = .next t
      ∧ t = { s.setFlag .noburst true with
          bdCur := t.bdCur
          burstCnt := t.burstCnt
          segStart := t.segStart
          segStop := t.segStop
          mem := { s.mem with burst := t.mem.burst } }
      ∧ s.burstsFrom 0 t.burstList ∧ t.bdCur = (t.burstList.getLast?.map Span.stop).getD 0
      ∧ s.noBurstFrom t.bdCur.toNat ∧ t.segStart = (t.burstList.getLast?.map Span.start).getD s.segStart
      ∧ t.segStop = (t.burstList.getLast?.map Span.stop).getD s.segStop
      ∧ t.burstCnt.toNat ≤ s.sampLen.toNat
      ∧ (∀ b ∈ t.burstList, b.start.toNat < b.stop.toNat ∧ b.stop.toNat ≤ s.sampLen.toNat)
      ∧ t.burstList.Pairwise (fun a b => a.stop.toNat ≤ b.start.toNat)
      ∧ ∀ k, t.burstCnt.toNat ≤ k → t.burstAt k = s.burstAt k

/-- Rule R134: `SQUELCH` is `BD.ALL`, and every sample outside the entries is zero in `SQL`. The last clause, that the
elements of `SQL` at and beyond `SAMP_LEN` keep their values, is the model's choice (log entry 5). -/
def Obligations.SquelchZeroesOutsideTheBursts : Prop :=
  ∀ s : State, s.mem.wf = true → s.detectorReady → ¬ rangeCause s .squelch →
    ∃ u t, exec .bdAll s = .next u ∧ exec .squelch s = .next t
      ∧ t = { u with mem := { u.mem with sql := t.mem.sql } }
      ∧ (∀ n b, n < s.sampLen.toNat → b ∈ u.burstList → b.start.toNat ≤ n → n < b.stop.toNat →
          t.sqlAt n = s.sampAt n)
      ∧ (∀ n, n < s.sampLen.toNat → (∀ b ∈ u.burstList, n < b.start.toNat ∨ b.stop.toNat ≤ n) →
          t.sqlAt n = ⟨.zero, .zero⟩)
      ∧ ∀ n, s.sampLen.toNat ≤ n → t.sqlAt n = s.sqlAt n

/-! FSK demodulator (41_fsk_demodulator.md). -/

/-- Rule R16: the model's argument of a sample is its principal argument, and 0 for the zero sample; of a rational
sample it is one exact number. -/
def Obligations.ArgumentIsThePrincipalArgument : Prop :=
  ∀ v : Sample, (argOf v).toReal = v.realArg ∧ (v.isRational → (argOf v).isAngle)

/-- Rule R17: for two non-zero samples the wrapped difference of the arguments is the argument of `b * conj a`; for
rational samples both are one and the same exact number. -/
def Obligations.WrappedDifferenceIsTheArgumentOfTheProduct : Prop :=
  ∀ a b : Sample, a.realAmp ≠ 0 → b.realAmp ≠ 0 →
    (wrap ((argOf b).sub (argOf a))).toReal
        = Complex.arg ⟨b.re.toReal * a.re.toReal + b.im.toReal * a.im.toReal,
            b.im.toReal * a.re.toReal - b.re.toReal * a.im.toReal⟩
      ∧ (a.isRational → b.isRational → wrap ((argOf b).sub (argOf a))
        = argOf ⟨(b.re.mul a.re).add (b.im.mul a.im), (b.im.mul a.re).sub (b.re.mul a.im)⟩)

/-- Rule R19: the model's strict comparison is the one of the real numbers, for any two numbers, and its sign is the
sign of the real number. -/
def Obligations.OrderIsTheRealOrder : Prop :=
  ∀ a b : NumVal, (a.gt b = true ↔ b.toReal < a.toReal)
    ∧ (a.sign = .gt ↔ 0 < a.toReal) ∧ (a.sign = .lt ↔ a.toReal < 0) ∧ (a.sign = .eq ↔ a.toReal = 0)

/-- Rule R151: the frequency signal of the segment, under either strategy, in the real numbers; between rational samples
it is an exact number. The last clause, that the elements beyond `FREQ_LEN` keep their values where the buffer is not
shortened, is the model's choice (log entry 5). -/
def Obligations.FdFreqIsTheWrappedPhaseDifference : Prop :=
  ∀ (ug : Bool) (s : State), s.mem.wf = true → s.segStart.toNat ≤ s.segStop.toNat →
    s.segStop.toNat ≤ s.sampLen.toNat →
    ∃ t, exec (.fdFreq ug) s = .next t
      ∧ t = { s with
          freqLen := BitVec.ofNat 32 (s.segStop.toNat - s.segStart.toNat - 1)
          mem := { s.mem with freq := t.mem.freq } }
      ∧ (∀ k, k + 1 < s.segStop.toNat - s.segStart.toNat →
          (t.freqAt k).toReal = realWrap ((s.sampAt (s.segStart.toNat + k + 1)).realArg
              - (s.sampAt (s.segStart.toNat + k)).realArg)
            ∧ ((s.sampAt (s.segStart.toNat + k + 1)).isRational → (s.sampAt (s.segStart.toNat + k)).isRational →
              (t.freqAt k).isAngle))
      ∧ (s.freqLen.toNat ≤ s.segStop.toNat - s.segStart.toNat - 1 →
          ∀ k, s.segStop.toNat - s.segStart.toNat - 1 ≤ k → t.freqAt k = s.freqAt k)

/-- Rule R152: the two strategies are the same function. -/
def Obligations.FrequencyStrategiesAgree : Prop := ∀ s : State, exec (.fdFreq true) s = exec (.fdFreq false) s

/-- Rule R154: the origin is the first greatest value of the second symbol period, or 0 on a short segment. -/
def Obligations.FdClkPicksTheFirstPeak : Prop :=
  ∀ s : State, s.mem.wf = true → s.cfgSps ≠ 0 → 2 ≤ s.cfgSkip.toNat →
    (s.freqLen.toNat < s.cfgSkip.toNat * s.cfgSps.toNat →
      exec .fdClk s = .next { s.setFlag .shortClk true with fdOff := 0 })
    ∧ (s.cfgSkip.toNat * s.cfgSps.toNat ≤ s.freqLen.toNat →
      ∃ m, s.cfgSps.toNat ≤ m ∧ m < 2 * s.cfgSps.toNat
        ∧ (∀ n, s.cfgSps.toNat ≤ n → n < 2 * s.cfgSps.toNat → (s.freqAt n).toReal ≤ (s.freqAt m).toReal)
        ∧ (∀ n, s.cfgSps.toNat ≤ n → n < m → (s.freqAt n).toReal < (s.freqAt m).toReal)
        ∧ exec .fdClk s = .next
            { s.setFlag .shortClk false with fdOff := BitVec.ofNat 32 (m - s.cfgSps.toNat) })

/-- Rule R156: one bit for every position `FD_OFF + n * CFG_SPS` below `FREQ_LEN`, 1 exactly where the frequency is
strictly above the reference (rule R159), in the real numbers. The last clause, that the elements beyond `BITS_LEN` keep
their values where the buffer is not shortened, is the model's choice (log entry 5). -/
def Obligations.FdSliceDecidesEverySymbol : Prop :=
  ∀ s : State, s.mem.wf = true → s.cfgSps ≠ 0 →
    ∃ t, exec .fdSlice s = .next t
      ∧ t = { s with
          bitsLen := BitVec.ofNat 32 (availableBits s.fdOff.toNat s.cfgSps.toNat s.freqLen.toNat)
          mem := { s.mem with bits := t.mem.bits } }
      ∧ (∀ n, s.fdOff.toNat + n * s.cfgSps.toNat < s.freqLen.toNat →
          (t.bitAt n = true ↔ s.fdRef.toReal < (s.freqAt (s.fdOff.toNat + n * s.cfgSps.toNat)).toReal))
      ∧ (s.bitsLen.toNat ≤ t.bitsLen.toNat → ∀ n, t.bitsLen.toNat ≤ n → t.bitAt n = s.bitAt n)

/-- Rule R157: one decision for every frequency index, 1 exactly where the frequency is strictly above the reference, in
the real numbers. The last clause, that the elements beyond `RAW_LEN` keep their values where the buffer is not
shortened, is the model's choice (log entry 5). -/
def Obligations.FdBinDecidesEverySample : Prop :=
  ∀ s : State, s.mem.wf = true →
    ∃ t, exec .fdBin s = .next t
      ∧ t = { s with rawLen := s.freqLen, mem := { s.mem with raw := t.mem.raw } }
      ∧ (∀ k, k < s.freqLen.toNat → (t.rawAt k = true ↔ s.fdRef.toReal < (s.freqAt k).toReal))
      ∧ (s.rawLen.toNat ≤ s.freqLen.toNat → ∀ k, s.freqLen.toNat ≤ k → t.rawAt k = s.rawAt k)

/-- Rule R158: `FD.DEMOD` is `FD.FREQ`, clock recovery or its default, and `FD.SLICE`, one after the other. -/
def Obligations.FdDemodIsItsThreeStages : Prop :=
  ∀ (ug ck : Bool) (s : State), ¬ configCause s (.fdDemod ug ck) → ¬ rangeCause s (.fdDemod ug ck) →
    ∃ a b t, exec (.fdFreq ug) s = .next a
      ∧ (ck = true → exec .fdClk a = .next b)
      ∧ (ck = false → b = { a.setFlag .shortClk false with fdOff := 0 })
      ∧ exec .fdSlice b = .next t ∧ exec (.fdDemod ug ck) s = .next t
      ∧ t = { s with
          freqLen := t.freqLen, fdOff := t.fdOff, bitsLen := t.bitsLen, status := t.status
          mem := { s.mem with freq := t.mem.freq, bits := t.mem.bits } }
      ∧ t.fatalBits = s.fatalBits

/-! Sync locator (42_sync_locator.md). -/

/-- Rule R181: the correlation of two 32-bit patterns is 32 less twice their distance. -/
def Obligations.CorrelationCountsAgreement : Prop :=
  ∀ xs ys : List Bool, xs.length = 32 → ys.length = 32 → correlation xs ys = 32 - 2 * (hamming xs ys : Int)

/-- Rule R183: the earliest exact occurrence, or not found. -/
def Obligations.SyExactFindsTheEarliestOccurrence : Prop :=
  ∀ s : State, s.mem.wf = true →
    (∀ p, p + 32 ≤ s.bitsLen.toNat → s.distanceAt p = 0 → (∀ q, q < p → s.distanceAt q ≠ 0) →
      exec .syExact s = .next { s.setFlag .syncnf false with
        syPos := BitVec.ofNat 32 p
        syHd := 0
        cntFound := BitVec.ofNat 32 (min (s.cntFound.toNat + 1) (2 ^ 32 - 1)) })
    ∧ ((∀ p, p + 32 ≤ s.bitsLen.toNat → s.distanceAt p ≠ 0) →
      exec .syExact s = .next { s.setFlag .syncnf true with
        cntFailed := BitVec.ofNat 32 (min (s.cntFailed.toNat + 1) (2 ^ 32 - 1)) })

/-- Rule R184: the earliest position of least distance, which is the one of greatest correlation (rule R181), is tested
against the tolerance. -/
def Obligations.SyCorrTestsTheBestPosition : Prop :=
  ∀ s : State, s.mem.wf = true →
    (∀ q, q + 32 ≤ s.bitsLen.toNat → (∀ p, p + 32 ≤ s.bitsLen.toNat → s.distanceAt q ≤ s.distanceAt p) →
      (∀ p, p < q → s.distanceAt q < s.distanceAt p) →
      exec .syCorr s = .next (if s.distanceAt q ≤ s.cfgTol.toNat then
        { s.setFlag .syncnf false with
          syPos := BitVec.ofNat 32 q
          syHd := BitVec.ofNat 32 (s.distanceAt q)
          cntFound := BitVec.ofNat 32 (min (s.cntFound.toNat + 1) (2 ^ 32 - 1)) }
        else { s.setFlag .syncnf true with
          cntFailed := BitVec.ofNat 32 (min (s.cntFailed.toNat + 1) (2 ^ 32 - 1)) }))
    ∧ (s.bitsLen.toNat < 32 → exec .syCorr s = .next { s.setFlag .syncnf true with
        cntFailed := BitVec.ofNat 32 (min (s.cntFailed.toNat + 1) (2 ^ 32 - 1)) })

/-- Rule R184, corner case (a): with tolerance 0 the correlation scan is the exact scan. -/
def Obligations.SyCorrWithoutToleranceIsSyExact : Prop :=
  ∀ s : State, s.cfgTol = 0 → exec .syCorr s = exec .syExact s

/-- Rules R186 and R187: the candidates are exactly the positions of the closed form, each once, in order of phase,
alignment and byte. The last clause, that the elements of `CAND` beyond `CAND_CNT` keep their values where the buffer is
not shortened, is the model's choice (log entry 5). -/
def Obligations.SyScanCollectsTheClosedForm : Prop :=
  ∀ s : State, s.mem.wf = true → s.cfgSps ≠ 0 → ¬ rangeCause s .syScan →
    ∃ t, exec .syScan s = .next t
      ∧ t = { s with candCnt := t.candCnt, mem := { s.mem with cand := t.mem.cand } }
      ∧ t.candCnt.toNat = (List.range s.rawLen.toNat).countP s.patternAt
      ∧ (∀ n, s.patternAt n = true ↔ ∃ k, k < t.candCnt.toNat ∧ (t.candAt k).toNat = n)
      ∧ (∀ k l, k < l → l < t.candCnt.toNat →
          toLex ((t.candAt k).toNat % s.cfgSps.toNat,
            toLex ((t.candAt k).toNat / s.cfgSps.toNat % 8, (t.candAt k).toNat / s.cfgSps.toNat / 8))
          < toLex ((t.candAt l).toNat % s.cfgSps.toNat,
            toLex ((t.candAt l).toNat / s.cfgSps.toNat % 8, (t.candAt l).toNat / s.cfgSps.toNat / 8)))
      ∧ (s.candCnt.toNat ≤ t.candCnt.toNat → ∀ k, t.candCnt.toNat ≤ k → t.candAt k = s.candAt k)

/-- Rule R189: the candidates sorted in place, and one match for every accepted position. The clauses that the elements
of `CAND` beyond `CAND_CNT` keep their values, and those of `MATCH` beyond `MATCH_CNT` where it is not shortened, are the
model's choice (log entry 5). -/
def Obligations.SyDedupKeepsTheEarliestOfEachCluster : Prop :=
  ∀ s : State, s.mem.wf = true → s.cfgSps ≠ 0 → ¬ rangeCause s .syDedup →
    ∃ t acc, exec .syDedup s = .next t ∧ s.acceptedIs acc
      ∧ t = { s.setFlag .syncnf acc.isEmpty with
          matchCnt := BitVec.ofNat 32 acc.length
          cntFound := if acc.isEmpty then s.cntFound
            else BitVec.ofNat 32 (min (s.cntFound.toNat + acc.length) (2 ^ 32 - 1))
          cntFailed := if acc.isEmpty then BitVec.ofNat 32 (min (s.cntFailed.toNat + 1) (2 ^ 32 - 1)) else s.cntFailed
          mem := { s.mem with cand := t.mem.cand, hits := t.mem.hits } }
      ∧ t.candList.Perm s.candList
      ∧ (∀ k l, k < l → l < s.candCnt.toNat → (t.candAt k).toNat ≤ (t.candAt l).toNat)
      ∧ (∀ k, s.candCnt.toNat ≤ k → t.candAt k = s.candAt k)
      ∧ (∀ k c, acc[k]? = some c → t.hitAt k = ⟨BitVec.ofNat 32 c, BitVec.ofNat 32 (c % s.cfgSps.toNat)⟩)
      ∧ (s.matchCnt.toNat ≤ acc.length → ∀ k, acc.length ≤ k → t.hitAt k = s.hitAt k)

/-- Rule R190, `R = 0`: the complete bytes after the pattern, at most `CFG_MAXB`, the earliest bit in bit 0; none after
a failed scan. The last clause, that the elements of `RB` beyond `RB_LEN` keep their values where the buffer is not
shortened, is the model's choice (log entry 5). -/
def Obligations.SyGetbReadsTheBytesAfterThePattern : Prop :=
  ∀ s : State, s.mem.wf = true →
    ∃ t n, exec .syGetb s = .next t
      ∧ n = (if s.flag .syncnf then 0
          else min (availableBits (s.syPos.toNat + 32) 1 s.bitsLen.toNat / 8) s.cfgMaxb.toNat)
      ∧ t = { s with rbLen := BitVec.ofNat 32 n, mem := { s.mem with rb := t.mem.rb } }
      ∧ (∀ m i, m < n → i < 8 → (t.rbAt m).getLsbD i = s.bitAt (s.syPos.toNat + 32 + 8 * m + i))
      ∧ (s.rbLen.toNat ≤ n → ∀ m, n ≤ m → t.rbAt m = s.rbAt m)

/-- Rule R190, `R = 1`: the same from `RAW`, one bit every symbol period, from the match's own phase. The last clause, that
the elements of `RB` beyond `RB_LEN` keep their values where the buffer is not shortened, is the model's choice (log
entry 5). -/
def Obligations.SyGetbRReadsTheBytesOfTheMatch : Prop :=
  ∀ (index : Nat) (s : State), s.mem.wf = true → s.cfgSps ≠ 0 → index < s.matchCnt.toNat →
    ∃ t n base, exec (.syGetbR index) s = .next t
      ∧ base = (s.hitAt index).pos.toNat + 32 * s.cfgSps.toNat
      ∧ n = min (availableBits base s.cfgSps.toNat s.rawLen.toNat / 8) s.cfgMaxb.toNat
      ∧ t = { s with rbLen := BitVec.ofNat 32 n, mem := { s.mem with rb := t.mem.rb } }
      ∧ (∀ m i, m < n → i < 8 → (t.rbAt m).getLsbD i = s.rawAt (base + (8 * m + i) * s.cfgSps.toNat))
      ∧ (s.rbLen.toNat ≤ n → ∀ m, n ≤ m → t.rbAt m = s.rbAt m)

/-- Rule R191: where the exact scan of the sliced bits finds the pattern, the phase search of the same signal has that
candidate and reports a match less than one symbol period before it, provided neither of its operations runs out of list
space. -/
def Obligations.TheTwoSearchesFindTheSamePacket : Prop :=
  ∀ s a b c d e : State, s.mem.wf = true → s.cfgSps ≠ 0 → s.fdOff.toNat < s.cfgSps.toNat →
    exec .fdSlice s = .next a → exec .syExact a = .next b → b.flag .syncnf = false →
    exec .fdBin s = .next c → ¬ rangeCause c .syScan → exec .syScan c = .next d → ¬ rangeCause d .syDedup →
    exec .syDedup d = .next e →
    (∃ k, k < d.candCnt.toNat ∧ (d.candAt k).toNat = s.fdOff.toNat + b.syPos.toNat * s.cfgSps.toNat)
    ∧ ∃ k, k < e.matchCnt.toNat
      ∧ (e.hitAt k).pos.toNat ≤ s.fdOff.toNat + b.syPos.toNat * s.cfgSps.toNat
      ∧ s.fdOff.toNat + b.syPos.toNat * s.cfgSps.toNat < (e.hitAt k).pos.toNat + s.cfgSps.toNat

/-! De-whitening engine and packet framer (43_dewhitening.md, 44_packet_framer.md). -/

/-- Rule R211: bit `i` of byte `m` is XORed with the whitening entry `8 * m + i` places after the channel's start, modulo
the `W_LEN` of the instance (which contents and which length are built in: log entry 7). The clause that the elements of
`DW` beyond `DW_LEN` keep their values where the buffer is not shortened is the model's choice (log entry 5). -/
def Obligations.DwRunXorsTheWhiteningSequence : Prop :=
  ∀ s : State, s.mem.wf = true →
    (s.cfgChan.toNat ≤ 39 → ∃ t, exec .dwRun s = .next t
      ∧ t = { s with dwLen := s.rbLen, mem := { s.mem with dw := t.mem.dw } }
      ∧ (∀ m i, m < s.rbLen.toNat → i < 8 → (t.dwAt m).getLsbD i =
          ((s.rbAt m).getLsbD i
            ^^ s.build.whitenBit ((Config.chidx.getD s.cfgChan.toNat 0 + 8 * m + i) % s.build.wLen)))
      ∧ (s.dwLen.toNat ≤ s.rbLen.toNat → ∀ m, s.rbLen.toNat ≤ m → t.dwAt m = s.dwAt m))
    ∧ (39 < s.cfgChan.toNat → exec .dwRun s = .next (s.entered 8 1 0x40))

/-- Rule R212: de-whitening twice with the same channel, the host moving the result back between, gives the bytes that
were there at first. -/
def Obligations.DewhiteningIsItsOwnInverse : Prop :=
  ∀ s t u v : State, s.cfgChan.toNat ≤ 39 → exec .dwRun s = .next t → u.build = s.build →
    u.cfgChan = s.cfgChan → u.rbList = t.dwList →
    exec .dwRun u = .next v → v.dwList = s.rbList

/-- Rule R54: the tables are the shift register, for every channel and every output, in every instance built with
`W_LEN = 127` (log entry 7). -/
def Obligations.TablesAreTheShiftRegister : Prop :=
  ∀ (b : Build) (ch k : Nat), b.wLen = 127 → ch < 40 →
    lfsrOutput k (lfsrSeed ch) = b.whitenBit ((Config.chidx.getD ch 0 + k) % b.wLen)

/-- Rule R283: the table sizes, and every start index inside the whitening table, for every instance. -/
def Obligations.TableSizesMatch : Prop :=
  ∀ b : Build, b.wseq.length = b.wLen ∧ Config.chidx.length = 40 ∧ ∀ x ∈ Config.chidx, x < b.wLen

/-- Rule R226: one record of the declared length, or of what there is, marked short. -/
def Obligations.PfFrameEmitsOneRecord : Prop :=
  ∀ s : State, s.mem.wf = true → s.outCnt.toNat ≠ s.build.outCap →
    ∃ t decl n short, exec .pfFrame s = .next t
      ∧ decl = (if s.dwLen.toNat < 2 then 0 else 2 + (s.dwAt 1).toNat + 3)
      ∧ n = (if s.dwLen.toNat < 2 then s.dwLen.toNat else min decl s.dwLen.toNat)
      ∧ short = (decide (s.dwLen.toNat < 2) || decide (s.dwLen.toNat < decl))
      ∧ t = { s.setFlag .shortPkt short with
          outCnt := s.outCnt + 1
          pfDecl := BitVec.ofNat 32 decl
          mem := { s.mem with out := t.mem.out } }
      ∧ (t.packetAt s.outCnt.toNat).chan = s.cfgChan ∧ (t.packetAt s.outCnt.toNat).short = short
      ∧ (t.packetAt s.outCnt.toNat).len = n
      ∧ (∀ k, k < n → (t.packetAt s.outCnt.toNat).bytes[k]? = some (s.dwAt k))
      ∧ ∀ k, k ≠ s.outCnt.toNat → t.packetAt k = s.packetAt k

/-- Rules R56 and R243: no operation but `OUTCLR` changes or removes a record, also one that raises part-way. -/
def Obligations.RecordsAreImmutable : Prop :=
  ∀ (i : Instr) (s t : State), s.lengthsLegal = true → i ≠ .outclr → exec i s = .next t →
    s.outCnt.toNat ≤ t.outCnt.toNat ∧ ∀ k, k < s.outCnt.toNat → t.packetAt k = s.packetAt k

/-! Pipelines (45_pipeline.md). -/

/-- Rules R241, R243 and R244: where no list runs out of space `PIPE.BURST` leaves exactly the state of the command
sequence of rule R244; where one does, what the sequence wrote before stays written, with a RangeError of source 0x60,
and this is the only way it raises one. -/
def Obligations.PipeBurstIsItsCommandSequence : Prop :=
  ∀ (ug ck cr : Bool) (s : State), s.mem.wf = true → s.build.legal = true → s.cfgChan.toNat ≤ 39 →
    ¬ configCause s (.pipeBurst ug ck cr) →
    (¬ rangeCause s .bdAll → (∀ bs, s.burstsFrom 0 bs → s.outCnt.toNat + bs.length ≤ s.build.outCap) →
      ∃ a t, exec .bdRst s = .next a ∧ BurstPass ug ck cr a t ∧ exec (.pipeBurst ug ck cr) s = .next t
        ∧ t.flag .noburst = true ∧ t.fatalBits = s.fatalBits ∧ t.err = s.err
        ∧ s.burstsFrom 0 t.burstList ∧ s.noBurstFrom t.bdCur.toNat
        ∧ s.outCnt.toNat ≤ t.outCnt.toNat ∧ t.outCnt.toNat ≤ s.outCnt.toNat + t.burstCnt.toNat
        ∧ t.rawLen = s.rawLen ∧ t.candCnt = s.candCnt ∧ t.matchCnt = s.matchCnt
        ∧ t.mem = { s.mem with
            burst := t.mem.burst, freq := t.mem.freq, bits := t.mem.bits, rb := t.mem.rb, dw := t.mem.dw
            out := t.mem.out })
    ∧ (∀ a u, exec .bdRst s = .next a → BurstHalt ug ck cr a u →
        exec (.pipeBurst ug ck cr) s = .next (u.entered 10 3 0x60))
    ∧ ∀ t, s.fatalBits = 0 → exec (.pipeBurst ug ck cr) s = .next t → t.flag .range = true →
        ∃ a u, exec .bdRst s = .next a ∧ BurstHalt ug ck cr a u ∧ t = u.entered 10 3 0x60

/-- Rules R242, R243 and R244: where the candidates, the matches and their records fit, `PIPE.STREAM` leaves exactly the
state of the command sequence of rule R244, with one record for every match; where a list runs out of space, what the
sequence wrote before stays written, with a RangeError of source 0x61, and this is the only way it raises one. -/
def Obligations.PipeStreamIsItsCommandSequence : Prop :=
  ∀ (ug : Bool) (s : State), s.mem.wf = true → s.build.legal = true → s.cfgChan.toNat ≤ 39 → s.cfgSps ≠ 0 →
    (s.streamFits →
      ∃ a b c d t, exec (.fdFreq ug) { s with segStart := 0, segStop := s.sampLen } = .next a
        ∧ exec .fdBin a = .next b ∧ exec .syScan b = .next c ∧ exec .syDedup c = .next d
        ∧ MatchPass d.matchCnt.toNat 0 d t ∧ exec (.pipeStream ug) s = .next t
        ∧ t.fatalBits = s.fatalBits ∧ t.err = s.err ∧ t.outCnt.toNat = s.outCnt.toNat + d.matchCnt.toNat
        ∧ t.bdCur = s.bdCur ∧ t.burstCnt = s.burstCnt ∧ t.fdOff = s.fdOff ∧ t.bitsLen = s.bitsLen
        ∧ t.mem = { s.mem with
            freq := t.mem.freq, raw := t.mem.raw, cand := t.mem.cand, hits := t.mem.hits, rb := t.mem.rb
            dw := t.mem.dw, out := t.mem.out })
    ∧ (∀ u, StreamHalt ug s u → exec (.pipeStream ug) s = .next (u.entered 10 3 0x61))
    ∧ ∀ t, s.fatalBits = 0 → exec (.pipeStream ug) s = .next t → t.flag .range = true →
        ∃ u, StreamHalt ug s u ∧ t = u.entered 10 3 0x61

/-! Rules over all operations and all transactions. -/

/-- Rules R31, R32 and R34 to R45: no operation writes a configuration register, the loaded stream or
the build parameters (rule R9); `SETTHR` alone
writes the thresholds and `SETREF` alone the reference. -/
def Obligations.OperationsLeaveTheConfiguration : Prop :=
  ∀ (i : Instr) (s t : State), exec i s = .next t →
    t.cfgFs = s.cfgFs ∧ t.cfgSps = s.cfgSps ∧ t.cfgThresh = s.cfgThresh ∧ t.cfgPad = s.cfgPad
      ∧ t.cfgSkip = s.cfgSkip ∧ t.cfgCfo = s.cfgCfo ∧ t.cfgRef = s.cfgRef ∧ t.cfgSync = s.cfgSync
      ∧ t.cfgTol = s.cfgTol ∧ t.cfgChan = s.cfgChan ∧ t.cfgMaxb = s.cfgMaxb ∧ t.sampLen = s.sampLen
      ∧ t.build = s.build ∧ t.mem.samp = s.mem.samp ∧ t.pending = s.pending ∧ t.replies = s.replies
      ∧ ((∀ single, i ≠ .setthr single) → t.thrLo = s.thrLo ∧ t.thrHi = s.thrHi)
      ∧ (i ∉ [Instr.setrefZ, .setrefC, .setrefD] → t.fdRef = s.fdRef)

/-- Rules R48 and R300: only the sync operations and the pipelines move a counter, never downwards, and `CLRCNT` alone
clears them. -/
def Obligations.CountersMoveOnlyWithSyncOperations : Prop :=
  ∀ (i : Instr) (s t : State), exec i s = .next t → i ≠ .clrcnt →
    s.cntFound.toNat ≤ t.cntFound.toNat ∧ s.cntFailed.toNat ≤ t.cntFailed.toNat
      ∧ (i ∉ [Instr.syExact, .syCorr, .syDedup] → isPipeline i = false →
          t.cntFound = s.cntFound ∧ t.cntFailed = s.cntFailed)

/-- Rules R14, R45, R49 to R51 and R81: every length stays within its capacity, no buffer lists an element beyond its
own, and the memory keeps its canonical form (log entries 4 and 19). -/
def Obligations.StepKeepsLengthsAndMemory : Prop :=
  ∀ s t : State, s.lengthsLegal = true → s.mem.wf = true → s.buffersWithinCapacity = true → step s = .next t →
    t.lengthsLegal = true ∧ t.mem.wf = true ∧ t.buffersWithinCapacity = true

/-- Rules R46, R47 and R277: the undefined bits of `STATUS` and `ERR` stay 0, and a code from 1 to 5 is held exactly
while a fatal flag is set. -/
def Obligations.StepKeepsStatusLegal : Prop :=
  ∀ s t : State, s.statusLegal = true → step s = .next t → t.statusLegal = true

/-- Every real number the block holds stays in canonical form, so that equal exact numbers are equal data (log entry
1). -/
def Obligations.StepKeepsNumbersCanonical : Prop :=
  ∀ s t : State, s.numbersLegal = true → step s = .next t → t.numbersLegal = true

/-! Host transactions (rules R32, R80, R81, R261, R282). -/

/-- Rules R81, R261 and R282: a read returns the value and changes nothing; a refused one raises AccessFault and returns
0 (log entry 17). -/
def Obligations.HostReadsHaveNoSideEffect : Prop :=
  ∀ s : State,
    (∀ n r, Reg.ofIndex n = some r → hostRegRead n s = .next { s with replies := s.replies ++ [s.readReg r] })
    ∧ (∀ n, Reg.ofIndex n = none →
        hostRegRead n s = .next { s.entered 12 5 0xFF with replies := s.replies ++ [.word 0] })
    ∧ (∀ n sp i, Space.ofId n = some sp → i < sp.capacity s.build →
        hostBufRead n i s = .next { s with replies := s.replies ++ [s.readElement sp i] })
    ∧ (∀ n i, (∀ sp, Space.ofId n = some sp → sp.capacity s.build ≤ i) →
        hostBufRead n i s = .next { s.entered 12 5 0xFF with replies := s.replies ++ [.word 0] })

/-- Rules R32, R34 and R261: a write of an `RW` register stores the value, a `U32` or a real number, and changes nothing
else; a length above its capacity, an `RO` register and a reserved index raise AccessFault. An exact number is stored in
its canonical form (log entry 1), which stands for the same real. -/
def Obligations.HostRegisterWriteStoresOrFaults : Prop :=
  ∀ (s : State) (n : Nat),
    (∀ (r : Reg) (w : Word), Reg.ofIndex n = some r → r.readOnly = false → r.isNum = false →
      (∀ c, r.limit s.build = some c → w.toNat ≤ c) →
      ∃ t, hostRegWrite n (.word w) s = .next t ∧ t.readReg r = .word w ∧ (∀ q, q ≠ r → t.readReg q = s.readReg q)
        ∧ t.mem = s.mem ∧ t.build = s.build ∧ t.pending = s.pending ∧ t.replies = s.replies)
    ∧ (∀ (r : Reg) (x : NumVal), Reg.ofIndex n = some r → r.isNum = true →
      ∃ t y, hostRegWrite n (.num x) s = .next t ∧ t.readReg r = .num y ∧ y.toReal = x.toReal
        ∧ (x.canonical = true → y = x) ∧ (∀ q, q ≠ r → t.readReg q = s.readReg q)
        ∧ t.mem = s.mem ∧ t.build = s.build ∧ t.pending = s.pending ∧ t.replies = s.replies)
    ∧ (∀ w : Word, (∀ r, Reg.ofIndex n = some r → r.readOnly = true ∨ ∃ c, r.limit s.build = some c ∧ c < w.toNat) →
      hostRegWrite n (.word w) s = .next (s.entered 12 5 0xFF))
    ∧ ∀ v : Value, (∀ r, Reg.ofIndex n = some r → r.readOnly = true) →
      hostRegWrite n v s = .next (s.entered 12 5 0xFF)

/-- Rules R80, R81 and R282: a write of an element in range of a writable space stores it and changes no other element
and no register; every other one raises AccessFault. -/
def Obligations.HostBufferWriteStoresOrFaults : Prop :=
  ∀ (s : State) (n i : Nat) (v : Value),
    (∀ sp, Space.ofId n = some sp → sp.writable = true → i < sp.capacity s.build → sp.holds v = true →
      ∃ t, hostBufWrite n i v s = .next t ∧ t = { s with mem := t.mem } ∧ t.readElement sp i = v
        ∧ ∀ q j, (q ≠ sp ∨ j ≠ i) → t.readElement q j = s.readElement q j)
    ∧ ((∀ sp, Space.ofId n = some sp → sp.writable = false ∨ sp.capacity s.build ≤ i) →
      hostBufWrite n i v s = .next (s.entered 12 5 0xFF))
end

