-- ==== Sys2Proof/Laws/Bounds.lean ====
section
/-! SUPPORT. How many bursts, candidates and matches there can be: the bounds that keep the lists within their
capacities. -/

namespace Sys2Proof.Machine

/-- A burst lies beyond the cursor it was searched from and inside the stream, and is not empty (rules R132, R135). -/
theorem State.burstFrom_bounds {s : State} {c : Nat} {b : Span} (hr : s.detectorReady) (h : s.burstFrom c b) :
    c ≤ b.start.toNat ∧ b.start.toNat < b.stop.toNat ∧ b.stop.toNat ≤ s.sampLen.toNat := by
  obtain ⟨i, j, hc, hi, hl, -, hij, hj, -, hq, h1, h2⟩ := h
  have hne : i ≠ j := by
    intro e
    subst e
    have h3 : (s.sampAt i).realAmp < s.thrLo.toReal := hq hi
    have h4 : s.thrHi.toReal < (s.sampAt i).realAmp := hl
    have h5 : s.thrLo.toReal ≤ s.thrHi.toReal := hr.2.1
    linarith
  omega

/-- A pass makes at most one burst per sample (rule R136). -/
theorem State.length_burstsFrom_le {s : State} (hr : s.detectorReady) (bs : List Span) :
    ∀ c, c ≤ s.sampLen.toNat → s.burstsFrom c bs → c + bs.length ≤ s.sampLen.toNat := by
  induction bs with
  | nil => intro c hc _; simpa using hc
  | cons b rest ih =>
    intro c _ h
    have hb := State.burstFrom_bounds hr h.1
    have := ih b.stop.toNat hb.2.2 h.2
    simp only [List.length_cons]
    omega

/-- A pass over at most `BURST_CAP` samples fits the burst list (rules R88, R136). -/
theorem not_rangeCause_bdAll {s : State} (hr : s.detectorReady) (h : s.sampLen.toNat ≤ s.build.burstCap) :
    ¬ rangeCause s .bdAll := by
  rintro ⟨bs, hb, hl⟩
  have := State.length_burstsFrom_le hr bs 0 (Nat.zero_le _) hb
  omega

/-- A signal of at most `CAND_CAP` elements fits the candidate list (rules R88, R187). -/
theorem not_rangeCause_syScan {s : State} (h : s.rawLen.toNat ≤ s.build.candCap) : ¬ rangeCause s .syScan := by
  intro hc
  have := List.countP_le_length (p := s.patternAt) (l := List.range s.rawLen.toNat)
  simp only [List.length_range] at this
  simp only [rangeCause] at hc
  omega

/-- There are at most as many accepted positions as candidates (rule R189). -/
theorem State.length_acceptedIs_le {s : State} {acc : List Nat} (h : s.acceptedIs acc) :
    acc.length ≤ s.candCnt.toNat := by
  have hn : acc.Nodup := h.1.imp (fun hlt => Nat.ne_of_lt hlt)
  have hs : acc ⊆ (List.range s.candCnt.toNat).map fun k => (s.candAt k).toNat := by
    intro c hc
    obtain ⟨⟨k, hk, e⟩, -⟩ := (h.2 c).1 hc
    exact List.mem_map.2 ⟨k, List.mem_range.2 hk, e⟩
  simpa using (hn.subperm hs).length_le

/-- At most `MATCH_CAP` candidates fit the match list (rules R88, R189). -/
theorem not_rangeCause_syDedup {s : State} (h : s.candCnt.toNat ≤ s.build.matchCap) :
    ¬ rangeCause s .syDedup := by
  rintro ⟨acc, ha, hl⟩
  have := State.length_acceptedIs_le ha
  omega

/-- A list of different positions of the chunk has at most one per sample. -/
theorem State.length_positions_le {s : State} {ns : List Nat} (hn : ns.Nodup)
    (h : ∀ n ∈ ns, s.holdsPatternAt n) : ns.length ≤ s.sampLen.toNat := by
  have hs : ns ⊆ List.range s.sampLen.toNat := by
    intro n hm
    have := (h n hm).1
    exact List.mem_range.2 (by omega)
  simpa using (hn.subperm hs).length_le

/-- A chunk no longer than the lists fits them (rules R88, R187, R189). -/
theorem State.streamFits_of_room {s : State} (h1 : s.sampLen.toNat ≤ s.build.candCap)
    (h2 : s.sampLen.toNat ≤ s.build.matchCap) (h3 : s.outCnt.toNat + s.sampLen.toNat ≤ s.build.outCap) :
    s.streamFits := by
  refine ⟨fun ns hn h => (State.length_positions_le hn h).trans h1, fun acc ha h => ?_⟩
  have := State.length_positions_le (ha.imp fun hlt => Nat.ne_of_lt hlt) fun n hm => ((h n).1 hm).1
  omega

end Sys2Proof.Machine
end

