-- ==== Sys2Proof/Laws/Buffer.lean ====
section
/-! SUPPORT. What reading a buffer gives after each write, and that every memory operation keeps the canonical form. -/

namespace Sys2Proof

variable {α : Type}

theorem findCell_insertCell (i k : Nat) (v : α) (cells : List (Nat × α)) :
    findCell k (insertCell i v cells) = if i = k then some v else findCell k cells := by
  induction cells with
  | nil => simp [insertCell, findCell]
  | cons c rest ih =>
    obtain ⟨j, w⟩ := c
    by_cases h1 : i < j
    · simp [insertCell, findCell, h1]
    · by_cases h2 : i = j
      · subst h2
        by_cases h3 : i = k <;> simp [insertCell, findCell, h3]
      · by_cases h3 : j = k
        · subst h3
          simp [insertCell, findCell, h1, h2]
        · simp [insertCell, findCell, h1, h2, h3, ih]

/-- Reading an element after a write: the written one is new, every other one is as before (rule R14). -/
theorem Buf.get_put (free : Nat → Nat → α) (b : Buf α) (i k : Nat) (v : α) :
    (b.put i v).get free k = if i = k then v else b.get free k := by
  unfold Buf.put Buf.get
  rw [findCell_insertCell]
  split <;> rfl

theorem ascendingFrom_mono {lo lo' : Nat} (h : lo' ≤ lo) (cells : List (Nat × α))
    (ha : ascendingFrom lo cells = true) : ascendingFrom lo' cells = true := by
  cases cells with
  | nil => rfl
  | cons c rest =>
    simp only [ascendingFrom, Bool.and_eq_true, decide_eq_true_eq] at ha ⊢
    exact ⟨h.trans ha.1, ha.2⟩

theorem ascendingFrom_insertCell (i : Nat) (v : α) (cells : List (Nat × α)) :
    ∀ lo, lo ≤ i → ascendingFrom lo cells = true → ascendingFrom lo (insertCell i v cells) = true := by
  induction cells with
  | nil => intro lo h _; simp [insertCell, ascendingFrom, h]
  | cons c rest ih =>
    obtain ⟨j, w⟩ := c
    intro lo h ha
    simp only [ascendingFrom, Bool.and_eq_true, decide_eq_true_eq] at ha
    by_cases h1 : i < j
    · simp only [insertCell, h1, if_true, ascendingFrom, Bool.and_eq_true, decide_eq_true_eq]
      exact ⟨h, h1, ha.2⟩
    · by_cases h2 : i = j
      · subst h2
        simp only [insertCell, h1, if_true, if_false, ascendingFrom, Bool.and_eq_true, decide_eq_true_eq]
        exact ha
      · simp only [insertCell, h1, h2, if_false, ascendingFrom, Bool.and_eq_true, decide_eq_true_eq]
        exact ⟨ha.1, ih (j + 1) (by omega) ha.2⟩

/-- A write of one element keeps the canonical form. -/
theorem Buf.wf_put (b : Buf α) (i : Nat) (v : α) (h : b.wf = true) : (b.put i v).wf = true :=
  ascendingFrom_insertCell i v b.cells 0 (Nat.zero_le i) h

@[simp] theorem length_numbered (i : Nat) (xs : List α) : (numbered i xs).length = xs.length := by
  induction xs generalizing i with
  | nil => rfl
  | cons x rest ih => simp [numbered, ih]

theorem ascendingFrom_dropBelow (i : Nat) (cells : List (Nat × α)) :
    ∀ lo, ascendingFrom lo cells = true → ascendingFrom i (dropBelow i cells) = true := by
  induction cells with
  | nil => intro _ _; rfl
  | cons c rest ih =>
    obtain ⟨j, w⟩ := c
    intro lo ha
    simp only [ascendingFrom, Bool.and_eq_true, decide_eq_true_eq] at ha
    by_cases h : j < i
    · simp only [dropBelow, h, if_true]
      exact ih (j + 1) ha.2
    · simp only [dropBelow, h, if_false, ascendingFrom, Bool.and_eq_true, decide_eq_true_eq]
      exact ⟨by omega, ha.2⟩

theorem ascendingFrom_numbered_append (xs : List α) (cells : List (Nat × α)) :
    ∀ i, ascendingFrom (i + xs.length) cells = true → ascendingFrom i (numbered i xs ++ cells) = true := by
  induction xs with
  | nil => intro i h; simpa [numbered] using h
  | cons x rest ih =>
    intro i h
    simp only [numbered, List.cons_append, ascendingFrom, Bool.and_eq_true, decide_eq_true_eq]
    refine ⟨le_refl i, ih (i + 1) ?_⟩
    have : i + 1 + rest.length = i + (x :: rest).length := by simp only [List.length_cons]; omega
    rw [this]; exact h

/-- Storing a result keeps the canonical form. -/
theorem Buf.wf_fill (b : Buf α) (oldLen : Nat) (xs : List α) (h : b.wf = true) : (b.fill oldLen xs).wf = true := by
  unfold Buf.fill Buf.wf
  split
  · have := ascendingFrom_numbered_append xs ([] : List (Nat × α)) 0 rfl
    simpa using this
  · exact ascendingFrom_numbered_append xs _ 0 (by simpa using ascendingFrom_dropBelow xs.length b.cells 0 h)

@[simp] theorem Buf.wf_empty : (Buf.empty : Buf α).wf = true := rfl

/-- Contents that become unspecified are in canonical form. -/
@[simp] theorem Buf.wf_forget (b : Buf α) : b.forget.wf = true := rfl

/-- The memory right after reset is in canonical form. -/
theorem Memory.wf_empty : Memory.empty.wf = true := by decide

theorem Memory.wf_forget (m : Memory) : m.forget.wf = true := by simp [Memory.forget, Memory.wf]

theorem findCell_numbered_append (xs : List α) (cells : List (Nat × α)) (k : Nat) :
    ∀ i, i ≤ k → findCell k (numbered i xs ++ cells) =
      if h : k - i < xs.length then some (xs[k - i]) else findCell k cells := by
  induction xs with
  | nil => intro i _; simp [numbered]
  | cons x rest ih =>
    intro i hi
    by_cases h : i = k
    · subst h; simp [numbered, findCell]
    · have hlt : i + 1 ≤ k := by omega
      have hk : k - i = (k - (i + 1)) + 1 := by omega
      simp only [numbered, List.cons_append, findCell, h, if_false]
      rw [ih (i + 1) hlt]
      by_cases hb : k - (i + 1) < rest.length
      · have : k - i < (x :: rest).length := by simp only [List.length_cons]; omega
        simp only [hb, this, dif_pos]
        congr 1
        simp [hk]
      · have : ¬ k - i < (x :: rest).length := by simp only [List.length_cons]; omega
        simp only [hb, this, dif_neg, not_false_iff]

/-- Reading an element a stored result covers. -/
theorem Buf.get_fill_lt (free : Nat → Nat → α) (b : Buf α) (oldLen : Nat) (xs : List α) (k : Nat)
    (h : k < xs.length) : (b.fill oldLen xs).get free k = xs[k] := by
  have key := fun cells => findCell_numbered_append xs cells k 0 (Nat.zero_le k)
  unfold Buf.fill Buf.get
  split
  · have := key []
    simp only [List.append_nil, Nat.sub_zero, h, dif_pos] at this
    simp [this]
  · simp [key, h]

theorem findCell_dropBelow (i k : Nat) (hk : i ≤ k) (cells : List (Nat × α)) :
    findCell k (dropBelow i cells) = findCell k cells := by
  induction cells with
  | nil => rfl
  | cons c rest ih =>
    obtain ⟨j, w⟩ := c
    by_cases h : j < i
    · have : j ≠ k := by omega
      simp [dropBelow, findCell, h, this, ih]
    · simp [dropBelow, h]

/-- Reading an element beyond a stored result that did not shorten the buffer: it is as before. -/
theorem Buf.get_fill_ge (free : Nat → Nat → α) (b : Buf α) (oldLen : Nat) (xs : List α) (k : Nat)
    (hl : oldLen ≤ xs.length) (h : xs.length ≤ k) : (b.fill oldLen xs).get free k = b.get free k := by
  have key := findCell_numbered_append xs (dropBelow xs.length b.cells) k 0 (Nat.zero_le k)
  have h1 : ¬ xs.length < oldLen := by omega
  have h2 : ¬ k - 0 < xs.length := by omega
  simp only [Buf.fill, Buf.get, h1, if_false]
  rw [key, dif_neg h2, findCell_dropBelow _ _ h]

@[simp] theorem length_windowCells (free : Nat → α) (n i : Nat) (cells : List (Nat × α)) :
    (windowCells free n i cells).length = n := by
  induction n generalizing i cells with
  | zero => rfl
  | succ n ih =>
    unfold windowCells
    split
    · simp [ih]
    · split <;> simp [ih]

/-- A window has as many elements as were asked for. -/
@[simp] theorem Buf.length_window (free : Nat → Nat → α) (b : Buf α) (i n : Nat) :
    (b.window free i n).length = n := length_windowCells _ n i b.cells

theorem findCell_ascending_lt (k : Nat) (cells : List (Nat × α)) :
    ∀ lo, k < lo → ascendingFrom lo cells = true → findCell k cells = none := by
  induction cells with
  | nil => intro _ _ _; rfl
  | cons c rest ih =>
    obtain ⟨j, w⟩ := c
    intro lo hk ha
    simp only [ascendingFrom, Bool.and_eq_true, decide_eq_true_eq] at ha
    have : j ≠ k := by omega
    simp only [findCell, this, if_false]
    exact ih (j + 1) (by omega) ha.2

theorem windowCells_of_nil (free : Nat → α) (n i : Nat) (cells : List (Nat × α)) (h : dropBelow i cells = []) :
    windowCells free (n + 1) i cells = free i :: windowCells free n (i + 1) [] := by rw [windowCells, h]

theorem windowCells_of_eq (free : Nat → α) (n i : Nat) (cells : List (Nat × α)) {v : α} {rest : List (Nat × α)}
    (h : dropBelow i cells = (i, v) :: rest) :
    windowCells free (n + 1) i cells = v :: windowCells free n (i + 1) rest := by rw [windowCells, h]; simp

theorem windowCells_of_ne (free : Nat → α) (n i : Nat) (cells : List (Nat × α)) {j : Nat} {v : α}
    {rest : List (Nat × α)} (h : dropBelow i cells = (j, v) :: rest) (hj : j ≠ i) :
    windowCells free (n + 1) i cells = free i :: windowCells free n (i + 1) ((j, v) :: rest) := by
  rw [windowCells, h]; simp [hj]

theorem getElem_windowCells (free : Nat → α) (n : Nat) :
    ∀ (i k : Nat) (cells : List (Nat × α)) (hk : k < (windowCells free n i cells).length),
      (∃ lo, ascendingFrom lo cells = true) →
      (windowCells free n i cells)[k] = (findCell (i + k) cells).getD (free (i + k)) := by
  induction n with
  | zero => intro i k cells hk; simp at hk
  | succ n ih =>
    intro i k cells hk ⟨lo, ha⟩
    have hd := ascendingFrom_dropBelow i cells lo ha
    have hf : ∀ m, i ≤ m → findCell m cells = findCell m (dropBelow i cells) :=
      fun m hm => (findCell_dropBelow i m hm cells).symm
    rw [hf (i + k) (by omega)]
    rcases hc : dropBelow i cells with _ | ⟨⟨j, v⟩, rest⟩
    · simp only [windowCells_of_nil free n i cells hc]
      cases k with
      | zero => simp [findCell]
      | succ k =>
        have := ih (i + 1) k [] (by simpa [windowCells_of_nil free n i cells hc] using hk) ⟨0, rfl⟩
        have he : i + 1 + k = i + (k + 1) := by omega
        simp only [List.getElem_cons_succ, this, he]
    · rw [hc] at hd
      simp only [ascendingFrom, Bool.and_eq_true, decide_eq_true_eq] at hd
      by_cases hj : j = i
      · subst hj
        simp only [windowCells_of_eq free n j cells hc]
        cases k with
        | zero => simp [findCell]
        | succ k =>
          have := ih (j + 1) k rest (by simpa [windowCells_of_eq free n j cells hc] using hk) ⟨j + 1, hd.2⟩
          have hne : j ≠ j + (k + 1) := by omega
          have he : j + 1 + k = j + (k + 1) := by omega
          simp only [List.getElem_cons_succ, this, findCell, he, hne, if_false]
      · simp only [windowCells_of_ne free n i cells hc hj]
        have hasc : ascendingFrom (i + 1) ((j, v) :: rest) = true := by
          simp only [ascendingFrom, Bool.and_eq_true, decide_eq_true_eq]
          exact ⟨by omega, hd.2⟩
        cases k with
        | zero =>
          have := findCell_ascending_lt i ((j, v) :: rest) (i + 1) (by omega) hasc
          simp [this]
        | succ k =>
          have := ih (i + 1) k ((j, v) :: rest) (by simpa [windowCells_of_ne free n i cells hc hj] using hk)
            ⟨i + 1, hasc⟩
          have he : i + 1 + k = i + (k + 1) := by omega
          simp only [List.getElem_cons_succ, this, he]

/-- In a buffer in canonical form, the elements of a window are the elements read one by one (rule R14). -/
theorem Buf.getElem_window (free : Nat → Nat → α) (b : Buf α) (i n k : Nat) (h : b.wf = true)
    (hk : k < (b.window free i n).length) : (b.window free i n)[k] = b.get free (i + k) :=
  getElem_windowCells _ n i k b.cells hk ⟨0, h⟩

theorem dropBelow_numbered (i : Nat) (x : α) (xs : List α) (cells : List (Nat × α)) :
    dropBelow i (numbered i (x :: xs) ++ cells) = (i, x) :: (numbered (i + 1) xs ++ cells) := by
  simp [numbered, dropBelow]

theorem windowCells_numbered (free : Nat → α) (xs : List α) (cells : List (Nat × α)) :
    ∀ i, windowCells free xs.length i (numbered i xs ++ cells) = xs := by
  induction xs with
  | nil => intro i; rfl
  | cons x rest ih =>
    intro i
    simp only [List.length_cons, windowCells, dropBelow_numbered, if_true, ih]

/-- Reading back a stored result. -/
theorem Buf.window_fill (free : Nat → Nat → α) (b : Buf α) (oldLen : Nat) (xs : List α) :
    (b.fill oldLen xs).window free 0 xs.length = xs := by
  unfold Buf.fill Buf.window
  split
  · simpa using windowCells_numbered (free (b.gen + 1)) xs [] 0
  · exact windowCells_numbered (free b.gen) xs _ 0

theorem mem_insertCell {i : Nat} {v : α} {c : Nat × α} {cells : List (Nat × α)} (h : c ∈ insertCell i v cells) :
    c.1 = i ∨ c ∈ cells := by
  induction cells with
  | nil => simp [insertCell] at h; exact .inl (by rw [h])
  | cons d rest ih =>
    obtain ⟨j, w⟩ := d
    unfold insertCell at h
    split at h
    · rcases List.mem_cons.1 h with h | h
      · exact .inl (by rw [h])
      · exact .inr h
    · split at h
      · rcases List.mem_cons.1 h with h | h
        · exact .inl (by rw [h])
        · exact .inr (List.mem_cons_of_mem _ h)
      · rcases List.mem_cons.1 h with h | h
        · exact .inr (by simp [h])
        · rcases ih h with h | h
          · exact .inl h
          · exact .inr (List.mem_cons_of_mem _ h)

theorem mem_dropBelow {i : Nat} {c : Nat × α} {cells : List (Nat × α)} (h : c ∈ dropBelow i cells) : c ∈ cells := by
  induction cells with
  | nil => exact h
  | cons d rest ih =>
    obtain ⟨j, w⟩ := d
    unfold dropBelow at h
    split at h
    · exact List.mem_cons_of_mem _ (ih h)
    · exact h

theorem mem_numbered {c : Nat × α} {xs : List α} : ∀ {i : Nat}, c ∈ numbered i xs → c.1 < i + xs.length := by
  induction xs with
  | nil => intro i h; simp [numbered] at h
  | cons x rest ih =>
    intro i h
    rcases List.mem_cons.1 h with h | h
    · simp [h]
    · have := ih h; simp only [List.length_cons]; omega

/-- A write below the capacity lists nothing at or above it. -/
theorem Buf.within_put (b : Buf α) (cap i : Nat) (v : α) (hi : i < cap) (h : b.within cap = true) :
    (b.put i v).within cap = true := by
  simp only [Buf.within, List.all_eq_true, decide_eq_true_eq, Buf.put] at h ⊢
  intro c hc
  rcases mem_insertCell hc with hc | hc
  · omega
  · exact h c hc

/-- A result that fits the capacity lists nothing at or above it. -/
theorem Buf.within_fill (b : Buf α) (cap oldLen : Nat) (xs : List α) (hx : xs.length ≤ cap)
    (h : b.within cap = true) : (b.fill oldLen xs).within cap = true := by
  simp only [Buf.within, List.all_eq_true, decide_eq_true_eq] at h ⊢
  intro c hc
  unfold Buf.fill at hc
  split at hc
  · have := mem_numbered hc; omega
  · rcases List.mem_append.1 hc with hc | hc
    · have := mem_numbered hc; omega
    · exact h c (mem_dropBelow hc)

@[simp] theorem Buf.within_forget (b : Buf α) (cap : Nat) : b.forget.within cap = true := rfl

@[simp] theorem Buf.within_empty (cap : Nat) : (Buf.empty : Buf α).within cap = true := rfl

end Sys2Proof
end

