-- ==== Sys2Proof/Laws/State.lean ====
section
/-! SUPPORT. For each shared update of the state, one lemma per field: what it leaves as it was, and what it writes. -/

namespace Sys2Proof.Machine

variable (s : State)

@[simp] theorem State.setFlag_build (f : Flag) (v : Bool) : (s.setFlag f v).build = s.build := rfl

@[simp] theorem State.setFlag_cfgFs (f : Flag) (v : Bool) : (s.setFlag f v).cfgFs = s.cfgFs := rfl

@[simp] theorem State.setFlag_cfgSps (f : Flag) (v : Bool) : (s.setFlag f v).cfgSps = s.cfgSps := rfl

@[simp] theorem State.setFlag_cfgThresh (f : Flag) (v : Bool) : (s.setFlag f v).cfgThresh = s.cfgThresh := rfl

@[simp] theorem State.setFlag_thrLo (f : Flag) (v : Bool) : (s.setFlag f v).thrLo = s.thrLo := rfl

@[simp] theorem State.setFlag_thrHi (f : Flag) (v : Bool) : (s.setFlag f v).thrHi = s.thrHi := rfl

@[simp] theorem State.setFlag_cfgPad (f : Flag) (v : Bool) : (s.setFlag f v).cfgPad = s.cfgPad := rfl

@[simp] theorem State.setFlag_cfgSkip (f : Flag) (v : Bool) : (s.setFlag f v).cfgSkip = s.cfgSkip := rfl

@[simp] theorem State.setFlag_cfgCfo (f : Flag) (v : Bool) : (s.setFlag f v).cfgCfo = s.cfgCfo := rfl

@[simp] theorem State.setFlag_cfgRef (f : Flag) (v : Bool) : (s.setFlag f v).cfgRef = s.cfgRef := rfl

@[simp] theorem State.setFlag_fdRef (f : Flag) (v : Bool) : (s.setFlag f v).fdRef = s.fdRef := rfl

@[simp] theorem State.setFlag_cfgSync (f : Flag) (v : Bool) : (s.setFlag f v).cfgSync = s.cfgSync := rfl

@[simp] theorem State.setFlag_cfgTol (f : Flag) (v : Bool) : (s.setFlag f v).cfgTol = s.cfgTol := rfl

@[simp] theorem State.setFlag_cfgChan (f : Flag) (v : Bool) : (s.setFlag f v).cfgChan = s.cfgChan := rfl

@[simp] theorem State.setFlag_cfgMaxb (f : Flag) (v : Bool) : (s.setFlag f v).cfgMaxb = s.cfgMaxb := rfl

@[simp] theorem State.setFlag_sampLen (f : Flag) (v : Bool) : (s.setFlag f v).sampLen = s.sampLen := rfl

@[simp] theorem State.setFlag_bdCur (f : Flag) (v : Bool) : (s.setFlag f v).bdCur = s.bdCur := rfl

@[simp] theorem State.setFlag_segStart (f : Flag) (v : Bool) : (s.setFlag f v).segStart = s.segStart := rfl

@[simp] theorem State.setFlag_segStop (f : Flag) (v : Bool) : (s.setFlag f v).segStop = s.segStop := rfl

@[simp] theorem State.setFlag_burstCnt (f : Flag) (v : Bool) : (s.setFlag f v).burstCnt = s.burstCnt := rfl

@[simp] theorem State.setFlag_freqLen (f : Flag) (v : Bool) : (s.setFlag f v).freqLen = s.freqLen := rfl

@[simp] theorem State.setFlag_fdOff (f : Flag) (v : Bool) : (s.setFlag f v).fdOff = s.fdOff := rfl

@[simp] theorem State.setFlag_bitsLen (f : Flag) (v : Bool) : (s.setFlag f v).bitsLen = s.bitsLen := rfl

@[simp] theorem State.setFlag_rawLen (f : Flag) (v : Bool) : (s.setFlag f v).rawLen = s.rawLen := rfl

@[simp] theorem State.setFlag_syPos (f : Flag) (v : Bool) : (s.setFlag f v).syPos = s.syPos := rfl

@[simp] theorem State.setFlag_syHd (f : Flag) (v : Bool) : (s.setFlag f v).syHd = s.syHd := rfl

@[simp] theorem State.setFlag_candCnt (f : Flag) (v : Bool) : (s.setFlag f v).candCnt = s.candCnt := rfl

@[simp] theorem State.setFlag_matchCnt (f : Flag) (v : Bool) : (s.setFlag f v).matchCnt = s.matchCnt := rfl

@[simp] theorem State.setFlag_rbLen (f : Flag) (v : Bool) : (s.setFlag f v).rbLen = s.rbLen := rfl

@[simp] theorem State.setFlag_dwLen (f : Flag) (v : Bool) : (s.setFlag f v).dwLen = s.dwLen := rfl

@[simp] theorem State.setFlag_outCnt (f : Flag) (v : Bool) : (s.setFlag f v).outCnt = s.outCnt := rfl

@[simp] theorem State.setFlag_status (f : Flag) (v : Bool) : (s.setFlag f v).status = writeStatusBit s.status f.bit v := rfl

@[simp] theorem State.setFlag_err (f : Flag) (v : Bool) : (s.setFlag f v).err = s.err := rfl

@[simp] theorem State.setFlag_cntFound (f : Flag) (v : Bool) : (s.setFlag f v).cntFound = s.cntFound := rfl

@[simp] theorem State.setFlag_cntFailed (f : Flag) (v : Bool) : (s.setFlag f v).cntFailed = s.cntFailed := rfl

@[simp] theorem State.setFlag_pfDecl (f : Flag) (v : Bool) : (s.setFlag f v).pfDecl = s.pfDecl := rfl

@[simp] theorem State.setFlag_mem (f : Flag) (v : Bool) : (s.setFlag f v).mem = s.mem := rfl

@[simp] theorem State.setFlag_pending (f : Flag) (v : Bool) : (s.setFlag f v).pending = s.pending := rfl

@[simp] theorem State.setFlag_replies (f : Flag) (v : Bool) : (s.setFlag f v).replies = s.replies := rfl

@[simp] theorem State.raise_build (x : Fatal) (src : Nat) : (s.raise x src).build = s.build := rfl

@[simp] theorem State.raise_cfgFs (x : Fatal) (src : Nat) : (s.raise x src).cfgFs = s.cfgFs := rfl

@[simp] theorem State.raise_cfgSps (x : Fatal) (src : Nat) : (s.raise x src).cfgSps = s.cfgSps := rfl

@[simp] theorem State.raise_cfgThresh (x : Fatal) (src : Nat) : (s.raise x src).cfgThresh = s.cfgThresh := rfl

@[simp] theorem State.raise_thrLo (x : Fatal) (src : Nat) : (s.raise x src).thrLo = s.thrLo := rfl

@[simp] theorem State.raise_thrHi (x : Fatal) (src : Nat) : (s.raise x src).thrHi = s.thrHi := rfl

@[simp] theorem State.raise_cfgPad (x : Fatal) (src : Nat) : (s.raise x src).cfgPad = s.cfgPad := rfl

@[simp] theorem State.raise_cfgSkip (x : Fatal) (src : Nat) : (s.raise x src).cfgSkip = s.cfgSkip := rfl

@[simp] theorem State.raise_cfgCfo (x : Fatal) (src : Nat) : (s.raise x src).cfgCfo = s.cfgCfo := rfl

@[simp] theorem State.raise_cfgRef (x : Fatal) (src : Nat) : (s.raise x src).cfgRef = s.cfgRef := rfl

@[simp] theorem State.raise_fdRef (x : Fatal) (src : Nat) : (s.raise x src).fdRef = s.fdRef := rfl

@[simp] theorem State.raise_cfgSync (x : Fatal) (src : Nat) : (s.raise x src).cfgSync = s.cfgSync := rfl

@[simp] theorem State.raise_cfgTol (x : Fatal) (src : Nat) : (s.raise x src).cfgTol = s.cfgTol := rfl

@[simp] theorem State.raise_cfgChan (x : Fatal) (src : Nat) : (s.raise x src).cfgChan = s.cfgChan := rfl

@[simp] theorem State.raise_cfgMaxb (x : Fatal) (src : Nat) : (s.raise x src).cfgMaxb = s.cfgMaxb := rfl

@[simp] theorem State.raise_sampLen (x : Fatal) (src : Nat) : (s.raise x src).sampLen = s.sampLen := rfl

@[simp] theorem State.raise_bdCur (x : Fatal) (src : Nat) : (s.raise x src).bdCur = s.bdCur := rfl

@[simp] theorem State.raise_segStart (x : Fatal) (src : Nat) : (s.raise x src).segStart = s.segStart := rfl

@[simp] theorem State.raise_segStop (x : Fatal) (src : Nat) : (s.raise x src).segStop = s.segStop := rfl

@[simp] theorem State.raise_burstCnt (x : Fatal) (src : Nat) : (s.raise x src).burstCnt = s.burstCnt := rfl

@[simp] theorem State.raise_freqLen (x : Fatal) (src : Nat) : (s.raise x src).freqLen = s.freqLen := rfl

@[simp] theorem State.raise_fdOff (x : Fatal) (src : Nat) : (s.raise x src).fdOff = s.fdOff := rfl

@[simp] theorem State.raise_bitsLen (x : Fatal) (src : Nat) : (s.raise x src).bitsLen = s.bitsLen := rfl

@[simp] theorem State.raise_rawLen (x : Fatal) (src : Nat) : (s.raise x src).rawLen = s.rawLen := rfl

@[simp] theorem State.raise_syPos (x : Fatal) (src : Nat) : (s.raise x src).syPos = s.syPos := rfl

@[simp] theorem State.raise_syHd (x : Fatal) (src : Nat) : (s.raise x src).syHd = s.syHd := rfl

@[simp] theorem State.raise_candCnt (x : Fatal) (src : Nat) : (s.raise x src).candCnt = s.candCnt := rfl

@[simp] theorem State.raise_matchCnt (x : Fatal) (src : Nat) : (s.raise x src).matchCnt = s.matchCnt := rfl

@[simp] theorem State.raise_rbLen (x : Fatal) (src : Nat) : (s.raise x src).rbLen = s.rbLen := rfl

@[simp] theorem State.raise_dwLen (x : Fatal) (src : Nat) : (s.raise x src).dwLen = s.dwLen := rfl

@[simp] theorem State.raise_outCnt (x : Fatal) (src : Nat) : (s.raise x src).outCnt = s.outCnt := rfl

@[simp] theorem State.raise_status (x : Fatal) (src : Nat) : (s.raise x src).status = writeStatusBit s.status x.flag.bit true := rfl

@[simp] theorem State.raise_err (x : Fatal) (src : Nat) : (s.raise x src).err = if s.err.toNat % 2 ^ 8 = 0 then BitVec.ofNat 32 (x.code + src * 2 ^ 8) else s.err := rfl

@[simp] theorem State.raise_cntFound (x : Fatal) (src : Nat) : (s.raise x src).cntFound = s.cntFound := rfl

@[simp] theorem State.raise_cntFailed (x : Fatal) (src : Nat) : (s.raise x src).cntFailed = s.cntFailed := rfl

@[simp] theorem State.raise_pfDecl (x : Fatal) (src : Nat) : (s.raise x src).pfDecl = s.pfDecl := rfl

@[simp] theorem State.raise_mem (x : Fatal) (src : Nat) : (s.raise x src).mem = s.mem := rfl

@[simp] theorem State.raise_pending (x : Fatal) (src : Nat) : (s.raise x src).pending = s.pending := rfl

@[simp] theorem State.raise_replies (x : Fatal) (src : Nat) : (s.raise x src).replies = s.replies := rfl

@[simp] theorem State.clearStatus_build : (s.clearStatus).build = s.build := rfl

@[simp] theorem State.clearStatus_cfgFs : (s.clearStatus).cfgFs = s.cfgFs := rfl

@[simp] theorem State.clearStatus_cfgSps : (s.clearStatus).cfgSps = s.cfgSps := rfl

@[simp] theorem State.clearStatus_cfgThresh : (s.clearStatus).cfgThresh = s.cfgThresh := rfl

@[simp] theorem State.clearStatus_thrLo : (s.clearStatus).thrLo = s.thrLo := rfl

@[simp] theorem State.clearStatus_thrHi : (s.clearStatus).thrHi = s.thrHi := rfl

@[simp] theorem State.clearStatus_cfgPad : (s.clearStatus).cfgPad = s.cfgPad := rfl

@[simp] theorem State.clearStatus_cfgSkip : (s.clearStatus).cfgSkip = s.cfgSkip := rfl

@[simp] theorem State.clearStatus_cfgCfo : (s.clearStatus).cfgCfo = s.cfgCfo := rfl

@[simp] theorem State.clearStatus_cfgRef : (s.clearStatus).cfgRef = s.cfgRef := rfl

@[simp] theorem State.clearStatus_fdRef : (s.clearStatus).fdRef = s.fdRef := rfl

@[simp] theorem State.clearStatus_cfgSync : (s.clearStatus).cfgSync = s.cfgSync := rfl

@[simp] theorem State.clearStatus_cfgTol : (s.clearStatus).cfgTol = s.cfgTol := rfl

@[simp] theorem State.clearStatus_cfgChan : (s.clearStatus).cfgChan = s.cfgChan := rfl

@[simp] theorem State.clearStatus_cfgMaxb : (s.clearStatus).cfgMaxb = s.cfgMaxb := rfl

@[simp] theorem State.clearStatus_sampLen : (s.clearStatus).sampLen = s.sampLen := rfl

@[simp] theorem State.clearStatus_bdCur : (s.clearStatus).bdCur = s.bdCur := rfl

@[simp] theorem State.clearStatus_segStart : (s.clearStatus).segStart = s.segStart := rfl

@[simp] theorem State.clearStatus_segStop : (s.clearStatus).segStop = s.segStop := rfl

@[simp] theorem State.clearStatus_burstCnt : (s.clearStatus).burstCnt = s.burstCnt := rfl

@[simp] theorem State.clearStatus_freqLen : (s.clearStatus).freqLen = s.freqLen := rfl

@[simp] theorem State.clearStatus_fdOff : (s.clearStatus).fdOff = s.fdOff := rfl

@[simp] theorem State.clearStatus_bitsLen : (s.clearStatus).bitsLen = s.bitsLen := rfl

@[simp] theorem State.clearStatus_rawLen : (s.clearStatus).rawLen = s.rawLen := rfl

@[simp] theorem State.clearStatus_syPos : (s.clearStatus).syPos = s.syPos := rfl

@[simp] theorem State.clearStatus_syHd : (s.clearStatus).syHd = s.syHd := rfl

@[simp] theorem State.clearStatus_candCnt : (s.clearStatus).candCnt = s.candCnt := rfl

@[simp] theorem State.clearStatus_matchCnt : (s.clearStatus).matchCnt = s.matchCnt := rfl

@[simp] theorem State.clearStatus_rbLen : (s.clearStatus).rbLen = s.rbLen := rfl

@[simp] theorem State.clearStatus_dwLen : (s.clearStatus).dwLen = s.dwLen := rfl

@[simp] theorem State.clearStatus_outCnt : (s.clearStatus).outCnt = s.outCnt := rfl

@[simp] theorem State.clearStatus_status : (s.clearStatus).status = 0 := rfl

@[simp] theorem State.clearStatus_err : (s.clearStatus).err = 0 := rfl

@[simp] theorem State.clearStatus_cntFound : (s.clearStatus).cntFound = s.cntFound := rfl

@[simp] theorem State.clearStatus_cntFailed : (s.clearStatus).cntFailed = s.cntFailed := rfl

@[simp] theorem State.clearStatus_pfDecl : (s.clearStatus).pfDecl = s.pfDecl := rfl

@[simp] theorem State.clearStatus_mem : (s.clearStatus).mem = s.mem := rfl

@[simp] theorem State.clearStatus_pending : (s.clearStatus).pending = s.pending := rfl

@[simp] theorem State.clearStatus_replies : (s.clearStatus).replies = s.replies := rfl

@[simp] theorem State.countFound_build (n : Nat) : (s.countFound n).build = s.build := rfl

@[simp] theorem State.countFound_cfgFs (n : Nat) : (s.countFound n).cfgFs = s.cfgFs := rfl

@[simp] theorem State.countFound_cfgSps (n : Nat) : (s.countFound n).cfgSps = s.cfgSps := rfl

@[simp] theorem State.countFound_cfgThresh (n : Nat) : (s.countFound n).cfgThresh = s.cfgThresh := rfl

@[simp] theorem State.countFound_thrLo (n : Nat) : (s.countFound n).thrLo = s.thrLo := rfl

@[simp] theorem State.countFound_thrHi (n : Nat) : (s.countFound n).thrHi = s.thrHi := rfl

@[simp] theorem State.countFound_cfgPad (n : Nat) : (s.countFound n).cfgPad = s.cfgPad := rfl

@[simp] theorem State.countFound_cfgSkip (n : Nat) : (s.countFound n).cfgSkip = s.cfgSkip := rfl

@[simp] theorem State.countFound_cfgCfo (n : Nat) : (s.countFound n).cfgCfo = s.cfgCfo := rfl

@[simp] theorem State.countFound_cfgRef (n : Nat) : (s.countFound n).cfgRef = s.cfgRef := rfl

@[simp] theorem State.countFound_fdRef (n : Nat) : (s.countFound n).fdRef = s.fdRef := rfl

@[simp] theorem State.countFound_cfgSync (n : Nat) : (s.countFound n).cfgSync = s.cfgSync := rfl

@[simp] theorem State.countFound_cfgTol (n : Nat) : (s.countFound n).cfgTol = s.cfgTol := rfl

@[simp] theorem State.countFound_cfgChan (n : Nat) : (s.countFound n).cfgChan = s.cfgChan := rfl

@[simp] theorem State.countFound_cfgMaxb (n : Nat) : (s.countFound n).cfgMaxb = s.cfgMaxb := rfl

@[simp] theorem State.countFound_sampLen (n : Nat) : (s.countFound n).sampLen = s.sampLen := rfl

@[simp] theorem State.countFound_bdCur (n : Nat) : (s.countFound n).bdCur = s.bdCur := rfl

@[simp] theorem State.countFound_segStart (n : Nat) : (s.countFound n).segStart = s.segStart := rfl

@[simp] theorem State.countFound_segStop (n : Nat) : (s.countFound n).segStop = s.segStop := rfl

@[simp] theorem State.countFound_burstCnt (n : Nat) : (s.countFound n).burstCnt = s.burstCnt := rfl

@[simp] theorem State.countFound_freqLen (n : Nat) : (s.countFound n).freqLen = s.freqLen := rfl

@[simp] theorem State.countFound_fdOff (n : Nat) : (s.countFound n).fdOff = s.fdOff := rfl

@[simp] theorem State.countFound_bitsLen (n : Nat) : (s.countFound n).bitsLen = s.bitsLen := rfl

@[simp] theorem State.countFound_rawLen (n : Nat) : (s.countFound n).rawLen = s.rawLen := rfl

@[simp] theorem State.countFound_syPos (n : Nat) : (s.countFound n).syPos = s.syPos := rfl

@[simp] theorem State.countFound_syHd (n : Nat) : (s.countFound n).syHd = s.syHd := rfl

@[simp] theorem State.countFound_candCnt (n : Nat) : (s.countFound n).candCnt = s.candCnt := rfl

@[simp] theorem State.countFound_matchCnt (n : Nat) : (s.countFound n).matchCnt = s.matchCnt := rfl

@[simp] theorem State.countFound_rbLen (n : Nat) : (s.countFound n).rbLen = s.rbLen := rfl

@[simp] theorem State.countFound_dwLen (n : Nat) : (s.countFound n).dwLen = s.dwLen := rfl

@[simp] theorem State.countFound_outCnt (n : Nat) : (s.countFound n).outCnt = s.outCnt := rfl

@[simp] theorem State.countFound_status (n : Nat) : (s.countFound n).status = s.status := rfl

@[simp] theorem State.countFound_err (n : Nat) : (s.countFound n).err = s.err := rfl

@[simp] theorem State.countFound_cntFound (n : Nat) : (s.countFound n).cntFound = sat (s.cntFound.toNat + n) := rfl

@[simp] theorem State.countFound_cntFailed (n : Nat) : (s.countFound n).cntFailed = s.cntFailed := rfl

@[simp] theorem State.countFound_pfDecl (n : Nat) : (s.countFound n).pfDecl = s.pfDecl := rfl

@[simp] theorem State.countFound_mem (n : Nat) : (s.countFound n).mem = s.mem := rfl

@[simp] theorem State.countFound_pending (n : Nat) : (s.countFound n).pending = s.pending := rfl

@[simp] theorem State.countFound_replies (n : Nat) : (s.countFound n).replies = s.replies := rfl

@[simp] theorem State.countFailed_build : (s.countFailed).build = s.build := rfl

@[simp] theorem State.countFailed_cfgFs : (s.countFailed).cfgFs = s.cfgFs := rfl

@[simp] theorem State.countFailed_cfgSps : (s.countFailed).cfgSps = s.cfgSps := rfl

@[simp] theorem State.countFailed_cfgThresh : (s.countFailed).cfgThresh = s.cfgThresh := rfl

@[simp] theorem State.countFailed_thrLo : (s.countFailed).thrLo = s.thrLo := rfl

@[simp] theorem State.countFailed_thrHi : (s.countFailed).thrHi = s.thrHi := rfl

@[simp] theorem State.countFailed_cfgPad : (s.countFailed).cfgPad = s.cfgPad := rfl

@[simp] theorem State.countFailed_cfgSkip : (s.countFailed).cfgSkip = s.cfgSkip := rfl

@[simp] theorem State.countFailed_cfgCfo : (s.countFailed).cfgCfo = s.cfgCfo := rfl

@[simp] theorem State.countFailed_cfgRef : (s.countFailed).cfgRef = s.cfgRef := rfl

@[simp] theorem State.countFailed_fdRef : (s.countFailed).fdRef = s.fdRef := rfl

@[simp] theorem State.countFailed_cfgSync : (s.countFailed).cfgSync = s.cfgSync := rfl

@[simp] theorem State.countFailed_cfgTol : (s.countFailed).cfgTol = s.cfgTol := rfl

@[simp] theorem State.countFailed_cfgChan : (s.countFailed).cfgChan = s.cfgChan := rfl

@[simp] theorem State.countFailed_cfgMaxb : (s.countFailed).cfgMaxb = s.cfgMaxb := rfl

@[simp] theorem State.countFailed_sampLen : (s.countFailed).sampLen = s.sampLen := rfl

@[simp] theorem State.countFailed_bdCur : (s.countFailed).bdCur = s.bdCur := rfl

@[simp] theorem State.countFailed_segStart : (s.countFailed).segStart = s.segStart := rfl

@[simp] theorem State.countFailed_segStop : (s.countFailed).segStop = s.segStop := rfl

@[simp] theorem State.countFailed_burstCnt : (s.countFailed).burstCnt = s.burstCnt := rfl

@[simp] theorem State.countFailed_freqLen : (s.countFailed).freqLen = s.freqLen := rfl

@[simp] theorem State.countFailed_fdOff : (s.countFailed).fdOff = s.fdOff := rfl

@[simp] theorem State.countFailed_bitsLen : (s.countFailed).bitsLen = s.bitsLen := rfl

@[simp] theorem State.countFailed_rawLen : (s.countFailed).rawLen = s.rawLen := rfl

@[simp] theorem State.countFailed_syPos : (s.countFailed).syPos = s.syPos := rfl

@[simp] theorem State.countFailed_syHd : (s.countFailed).syHd = s.syHd := rfl

@[simp] theorem State.countFailed_candCnt : (s.countFailed).candCnt = s.candCnt := rfl

@[simp] theorem State.countFailed_matchCnt : (s.countFailed).matchCnt = s.matchCnt := rfl

@[simp] theorem State.countFailed_rbLen : (s.countFailed).rbLen = s.rbLen := rfl

@[simp] theorem State.countFailed_dwLen : (s.countFailed).dwLen = s.dwLen := rfl

@[simp] theorem State.countFailed_outCnt : (s.countFailed).outCnt = s.outCnt := rfl

@[simp] theorem State.countFailed_status : (s.countFailed).status = s.status := rfl

@[simp] theorem State.countFailed_err : (s.countFailed).err = s.err := rfl

@[simp] theorem State.countFailed_cntFound : (s.countFailed).cntFound = s.cntFound := rfl

@[simp] theorem State.countFailed_cntFailed : (s.countFailed).cntFailed = sat (s.cntFailed.toNat + 1) := rfl

@[simp] theorem State.countFailed_pfDecl : (s.countFailed).pfDecl = s.pfDecl := rfl

@[simp] theorem State.countFailed_mem : (s.countFailed).mem = s.mem := rfl

@[simp] theorem State.countFailed_pending : (s.countFailed).pending = s.pending := rfl

@[simp] theorem State.countFailed_replies : (s.countFailed).replies = s.replies := rfl

@[simp] theorem State.reply_build (v : Value) : (s.reply v).build = s.build := rfl

@[simp] theorem State.reply_cfgFs (v : Value) : (s.reply v).cfgFs = s.cfgFs := rfl

@[simp] theorem State.reply_cfgSps (v : Value) : (s.reply v).cfgSps = s.cfgSps := rfl

@[simp] theorem State.reply_cfgThresh (v : Value) : (s.reply v).cfgThresh = s.cfgThresh := rfl

@[simp] theorem State.reply_thrLo (v : Value) : (s.reply v).thrLo = s.thrLo := rfl

@[simp] theorem State.reply_thrHi (v : Value) : (s.reply v).thrHi = s.thrHi := rfl

@[simp] theorem State.reply_cfgPad (v : Value) : (s.reply v).cfgPad = s.cfgPad := rfl

@[simp] theorem State.reply_cfgSkip (v : Value) : (s.reply v).cfgSkip = s.cfgSkip := rfl

@[simp] theorem State.reply_cfgCfo (v : Value) : (s.reply v).cfgCfo = s.cfgCfo := rfl

@[simp] theorem State.reply_cfgRef (v : Value) : (s.reply v).cfgRef = s.cfgRef := rfl

@[simp] theorem State.reply_fdRef (v : Value) : (s.reply v).fdRef = s.fdRef := rfl

@[simp] theorem State.reply_cfgSync (v : Value) : (s.reply v).cfgSync = s.cfgSync := rfl

@[simp] theorem State.reply_cfgTol (v : Value) : (s.reply v).cfgTol = s.cfgTol := rfl

@[simp] theorem State.reply_cfgChan (v : Value) : (s.reply v).cfgChan = s.cfgChan := rfl

@[simp] theorem State.reply_cfgMaxb (v : Value) : (s.reply v).cfgMaxb = s.cfgMaxb := rfl

@[simp] theorem State.reply_sampLen (v : Value) : (s.reply v).sampLen = s.sampLen := rfl

@[simp] theorem State.reply_bdCur (v : Value) : (s.reply v).bdCur = s.bdCur := rfl

@[simp] theorem State.reply_segStart (v : Value) : (s.reply v).segStart = s.segStart := rfl

@[simp] theorem State.reply_segStop (v : Value) : (s.reply v).segStop = s.segStop := rfl

@[simp] theorem State.reply_burstCnt (v : Value) : (s.reply v).burstCnt = s.burstCnt := rfl

@[simp] theorem State.reply_freqLen (v : Value) : (s.reply v).freqLen = s.freqLen := rfl

@[simp] theorem State.reply_fdOff (v : Value) : (s.reply v).fdOff = s.fdOff := rfl

@[simp] theorem State.reply_bitsLen (v : Value) : (s.reply v).bitsLen = s.bitsLen := rfl

@[simp] theorem State.reply_rawLen (v : Value) : (s.reply v).rawLen = s.rawLen := rfl

@[simp] theorem State.reply_syPos (v : Value) : (s.reply v).syPos = s.syPos := rfl

@[simp] theorem State.reply_syHd (v : Value) : (s.reply v).syHd = s.syHd := rfl

@[simp] theorem State.reply_candCnt (v : Value) : (s.reply v).candCnt = s.candCnt := rfl

@[simp] theorem State.reply_matchCnt (v : Value) : (s.reply v).matchCnt = s.matchCnt := rfl

@[simp] theorem State.reply_rbLen (v : Value) : (s.reply v).rbLen = s.rbLen := rfl

@[simp] theorem State.reply_dwLen (v : Value) : (s.reply v).dwLen = s.dwLen := rfl

@[simp] theorem State.reply_outCnt (v : Value) : (s.reply v).outCnt = s.outCnt := rfl

@[simp] theorem State.reply_status (v : Value) : (s.reply v).status = s.status := rfl

@[simp] theorem State.reply_err (v : Value) : (s.reply v).err = s.err := rfl

@[simp] theorem State.reply_cntFound (v : Value) : (s.reply v).cntFound = s.cntFound := rfl

@[simp] theorem State.reply_cntFailed (v : Value) : (s.reply v).cntFailed = s.cntFailed := rfl

@[simp] theorem State.reply_pfDecl (v : Value) : (s.reply v).pfDecl = s.pfDecl := rfl

@[simp] theorem State.reply_mem (v : Value) : (s.reply v).mem = s.mem := rfl

@[simp] theorem State.reply_pending (v : Value) : (s.reply v).pending = s.pending := rfl

@[simp] theorem State.reply_replies (v : Value) : (s.reply v).replies = s.replies ++ [v] := rfl

@[simp] theorem State.await_build (rest : List HostTxn) : (s.await rest).build = s.build := rfl

@[simp] theorem State.await_cfgFs (rest : List HostTxn) : (s.await rest).cfgFs = s.cfgFs := rfl

@[simp] theorem State.await_cfgSps (rest : List HostTxn) : (s.await rest).cfgSps = s.cfgSps := rfl

@[simp] theorem State.await_cfgThresh (rest : List HostTxn) : (s.await rest).cfgThresh = s.cfgThresh := rfl

@[simp] theorem State.await_thrLo (rest : List HostTxn) : (s.await rest).thrLo = s.thrLo := rfl

@[simp] theorem State.await_thrHi (rest : List HostTxn) : (s.await rest).thrHi = s.thrHi := rfl

@[simp] theorem State.await_cfgPad (rest : List HostTxn) : (s.await rest).cfgPad = s.cfgPad := rfl

@[simp] theorem State.await_cfgSkip (rest : List HostTxn) : (s.await rest).cfgSkip = s.cfgSkip := rfl

@[simp] theorem State.await_cfgCfo (rest : List HostTxn) : (s.await rest).cfgCfo = s.cfgCfo := rfl

@[simp] theorem State.await_cfgRef (rest : List HostTxn) : (s.await rest).cfgRef = s.cfgRef := rfl

@[simp] theorem State.await_fdRef (rest : List HostTxn) : (s.await rest).fdRef = s.fdRef := rfl

@[simp] theorem State.await_cfgSync (rest : List HostTxn) : (s.await rest).cfgSync = s.cfgSync := rfl

@[simp] theorem State.await_cfgTol (rest : List HostTxn) : (s.await rest).cfgTol = s.cfgTol := rfl

@[simp] theorem State.await_cfgChan (rest : List HostTxn) : (s.await rest).cfgChan = s.cfgChan := rfl

@[simp] theorem State.await_cfgMaxb (rest : List HostTxn) : (s.await rest).cfgMaxb = s.cfgMaxb := rfl

@[simp] theorem State.await_sampLen (rest : List HostTxn) : (s.await rest).sampLen = s.sampLen := rfl

@[simp] theorem State.await_bdCur (rest : List HostTxn) : (s.await rest).bdCur = s.bdCur := rfl

@[simp] theorem State.await_segStart (rest : List HostTxn) : (s.await rest).segStart = s.segStart := rfl

@[simp] theorem State.await_segStop (rest : List HostTxn) : (s.await rest).segStop = s.segStop := rfl

@[simp] theorem State.await_burstCnt (rest : List HostTxn) : (s.await rest).burstCnt = s.burstCnt := rfl

@[simp] theorem State.await_freqLen (rest : List HostTxn) : (s.await rest).freqLen = s.freqLen := rfl

@[simp] theorem State.await_fdOff (rest : List HostTxn) : (s.await rest).fdOff = s.fdOff := rfl

@[simp] theorem State.await_bitsLen (rest : List HostTxn) : (s.await rest).bitsLen = s.bitsLen := rfl

@[simp] theorem State.await_rawLen (rest : List HostTxn) : (s.await rest).rawLen = s.rawLen := rfl

@[simp] theorem State.await_syPos (rest : List HostTxn) : (s.await rest).syPos = s.syPos := rfl

@[simp] theorem State.await_syHd (rest : List HostTxn) : (s.await rest).syHd = s.syHd := rfl

@[simp] theorem State.await_candCnt (rest : List HostTxn) : (s.await rest).candCnt = s.candCnt := rfl

@[simp] theorem State.await_matchCnt (rest : List HostTxn) : (s.await rest).matchCnt = s.matchCnt := rfl

@[simp] theorem State.await_rbLen (rest : List HostTxn) : (s.await rest).rbLen = s.rbLen := rfl

@[simp] theorem State.await_dwLen (rest : List HostTxn) : (s.await rest).dwLen = s.dwLen := rfl

@[simp] theorem State.await_outCnt (rest : List HostTxn) : (s.await rest).outCnt = s.outCnt := rfl

@[simp] theorem State.await_status (rest : List HostTxn) : (s.await rest).status = s.status := rfl

@[simp] theorem State.await_err (rest : List HostTxn) : (s.await rest).err = s.err := rfl

@[simp] theorem State.await_cntFound (rest : List HostTxn) : (s.await rest).cntFound = s.cntFound := rfl

@[simp] theorem State.await_cntFailed (rest : List HostTxn) : (s.await rest).cntFailed = s.cntFailed := rfl

@[simp] theorem State.await_pfDecl (rest : List HostTxn) : (s.await rest).pfDecl = s.pfDecl := rfl

@[simp] theorem State.await_mem (rest : List HostTxn) : (s.await rest).mem = s.mem := rfl

@[simp] theorem State.await_pending (rest : List HostTxn) : (s.await rest).pending = rest := rfl

@[simp] theorem State.await_replies (rest : List HostTxn) : (s.await rest).replies = s.replies := rfl

@[simp] theorem State.storeFreq_build (xs : List NumVal) : (s.storeFreq xs).build = s.build := rfl

@[simp] theorem State.storeFreq_cfgFs (xs : List NumVal) : (s.storeFreq xs).cfgFs = s.cfgFs := rfl

@[simp] theorem State.storeFreq_cfgSps (xs : List NumVal) : (s.storeFreq xs).cfgSps = s.cfgSps := rfl

@[simp] theorem State.storeFreq_cfgThresh (xs : List NumVal) : (s.storeFreq xs).cfgThresh = s.cfgThresh := rfl

@[simp] theorem State.storeFreq_thrLo (xs : List NumVal) : (s.storeFreq xs).thrLo = s.thrLo := rfl

@[simp] theorem State.storeFreq_thrHi (xs : List NumVal) : (s.storeFreq xs).thrHi = s.thrHi := rfl

@[simp] theorem State.storeFreq_cfgPad (xs : List NumVal) : (s.storeFreq xs).cfgPad = s.cfgPad := rfl

@[simp] theorem State.storeFreq_cfgSkip (xs : List NumVal) : (s.storeFreq xs).cfgSkip = s.cfgSkip := rfl

@[simp] theorem State.storeFreq_cfgCfo (xs : List NumVal) : (s.storeFreq xs).cfgCfo = s.cfgCfo := rfl

@[simp] theorem State.storeFreq_cfgRef (xs : List NumVal) : (s.storeFreq xs).cfgRef = s.cfgRef := rfl

@[simp] theorem State.storeFreq_fdRef (xs : List NumVal) : (s.storeFreq xs).fdRef = s.fdRef := rfl

@[simp] theorem State.storeFreq_cfgSync (xs : List NumVal) : (s.storeFreq xs).cfgSync = s.cfgSync := rfl

@[simp] theorem State.storeFreq_cfgTol (xs : List NumVal) : (s.storeFreq xs).cfgTol = s.cfgTol := rfl

@[simp] theorem State.storeFreq_cfgChan (xs : List NumVal) : (s.storeFreq xs).cfgChan = s.cfgChan := rfl

@[simp] theorem State.storeFreq_cfgMaxb (xs : List NumVal) : (s.storeFreq xs).cfgMaxb = s.cfgMaxb := rfl

@[simp] theorem State.storeFreq_sampLen (xs : List NumVal) : (s.storeFreq xs).sampLen = s.sampLen := rfl

@[simp] theorem State.storeFreq_bdCur (xs : List NumVal) : (s.storeFreq xs).bdCur = s.bdCur := rfl

@[simp] theorem State.storeFreq_segStart (xs : List NumVal) : (s.storeFreq xs).segStart = s.segStart := rfl

@[simp] theorem State.storeFreq_segStop (xs : List NumVal) : (s.storeFreq xs).segStop = s.segStop := rfl

@[simp] theorem State.storeFreq_burstCnt (xs : List NumVal) : (s.storeFreq xs).burstCnt = s.burstCnt := rfl

@[simp] theorem State.storeFreq_freqLen (xs : List NumVal) : (s.storeFreq xs).freqLen = BitVec.ofNat 32 xs.length := rfl

@[simp] theorem State.storeFreq_fdOff (xs : List NumVal) : (s.storeFreq xs).fdOff = s.fdOff := rfl

@[simp] theorem State.storeFreq_bitsLen (xs : List NumVal) : (s.storeFreq xs).bitsLen = s.bitsLen := rfl

@[simp] theorem State.storeFreq_rawLen (xs : List NumVal) : (s.storeFreq xs).rawLen = s.rawLen := rfl

@[simp] theorem State.storeFreq_syPos (xs : List NumVal) : (s.storeFreq xs).syPos = s.syPos := rfl

@[simp] theorem State.storeFreq_syHd (xs : List NumVal) : (s.storeFreq xs).syHd = s.syHd := rfl

@[simp] theorem State.storeFreq_candCnt (xs : List NumVal) : (s.storeFreq xs).candCnt = s.candCnt := rfl

@[simp] theorem State.storeFreq_matchCnt (xs : List NumVal) : (s.storeFreq xs).matchCnt = s.matchCnt := rfl

@[simp] theorem State.storeFreq_rbLen (xs : List NumVal) : (s.storeFreq xs).rbLen = s.rbLen := rfl

@[simp] theorem State.storeFreq_dwLen (xs : List NumVal) : (s.storeFreq xs).dwLen = s.dwLen := rfl

@[simp] theorem State.storeFreq_outCnt (xs : List NumVal) : (s.storeFreq xs).outCnt = s.outCnt := rfl

@[simp] theorem State.storeFreq_status (xs : List NumVal) : (s.storeFreq xs).status = s.status := rfl

@[simp] theorem State.storeFreq_err (xs : List NumVal) : (s.storeFreq xs).err = s.err := rfl

@[simp] theorem State.storeFreq_cntFound (xs : List NumVal) : (s.storeFreq xs).cntFound = s.cntFound := rfl

@[simp] theorem State.storeFreq_cntFailed (xs : List NumVal) : (s.storeFreq xs).cntFailed = s.cntFailed := rfl

@[simp] theorem State.storeFreq_pfDecl (xs : List NumVal) : (s.storeFreq xs).pfDecl = s.pfDecl := rfl

@[simp] theorem State.storeFreq_mem_samp (xs : List NumVal) : (s.storeFreq xs).mem.samp = s.mem.samp := rfl

@[simp] theorem State.storeFreq_mem_sql (xs : List NumVal) : (s.storeFreq xs).mem.sql = s.mem.sql := rfl

@[simp] theorem State.storeFreq_mem_burst (xs : List NumVal) : (s.storeFreq xs).mem.burst = s.mem.burst := rfl

@[simp] theorem State.storeFreq_mem_freq (xs : List NumVal) : (s.storeFreq xs).mem.freq = s.mem.freq.fill s.freqLen.toNat xs := rfl

@[simp] theorem State.storeFreq_mem_bits (xs : List NumVal) : (s.storeFreq xs).mem.bits = s.mem.bits := rfl

@[simp] theorem State.storeFreq_mem_raw (xs : List NumVal) : (s.storeFreq xs).mem.raw = s.mem.raw := rfl

@[simp] theorem State.storeFreq_mem_cand (xs : List NumVal) : (s.storeFreq xs).mem.cand = s.mem.cand := rfl

@[simp] theorem State.storeFreq_mem_hits (xs : List NumVal) : (s.storeFreq xs).mem.hits = s.mem.hits := rfl

@[simp] theorem State.storeFreq_mem_rb (xs : List NumVal) : (s.storeFreq xs).mem.rb = s.mem.rb := rfl

@[simp] theorem State.storeFreq_mem_dw (xs : List NumVal) : (s.storeFreq xs).mem.dw = s.mem.dw := rfl

@[simp] theorem State.storeFreq_mem_out (xs : List NumVal) : (s.storeFreq xs).mem.out = s.mem.out := rfl

@[simp] theorem State.storeFreq_pending (xs : List NumVal) : (s.storeFreq xs).pending = s.pending := rfl

@[simp] theorem State.storeFreq_replies (xs : List NumVal) : (s.storeFreq xs).replies = s.replies := rfl

@[simp] theorem State.storeBits_build (xs : List Bool) : (s.storeBits xs).build = s.build := rfl

@[simp] theorem State.storeBits_cfgFs (xs : List Bool) : (s.storeBits xs).cfgFs = s.cfgFs := rfl

@[simp] theorem State.storeBits_cfgSps (xs : List Bool) : (s.storeBits xs).cfgSps = s.cfgSps := rfl

@[simp] theorem State.storeBits_cfgThresh (xs : List Bool) : (s.storeBits xs).cfgThresh = s.cfgThresh := rfl

@[simp] theorem State.storeBits_thrLo (xs : List Bool) : (s.storeBits xs).thrLo = s.thrLo := rfl

@[simp] theorem State.storeBits_thrHi (xs : List Bool) : (s.storeBits xs).thrHi = s.thrHi := rfl

@[simp] theorem State.storeBits_cfgPad (xs : List Bool) : (s.storeBits xs).cfgPad = s.cfgPad := rfl

@[simp] theorem State.storeBits_cfgSkip (xs : List Bool) : (s.storeBits xs).cfgSkip = s.cfgSkip := rfl

@[simp] theorem State.storeBits_cfgCfo (xs : List Bool) : (s.storeBits xs).cfgCfo = s.cfgCfo := rfl

@[simp] theorem State.storeBits_cfgRef (xs : List Bool) : (s.storeBits xs).cfgRef = s.cfgRef := rfl

@[simp] theorem State.storeBits_fdRef (xs : List Bool) : (s.storeBits xs).fdRef = s.fdRef := rfl

@[simp] theorem State.storeBits_cfgSync (xs : List Bool) : (s.storeBits xs).cfgSync = s.cfgSync := rfl

@[simp] theorem State.storeBits_cfgTol (xs : List Bool) : (s.storeBits xs).cfgTol = s.cfgTol := rfl

@[simp] theorem State.storeBits_cfgChan (xs : List Bool) : (s.storeBits xs).cfgChan = s.cfgChan := rfl

@[simp] theorem State.storeBits_cfgMaxb (xs : List Bool) : (s.storeBits xs).cfgMaxb = s.cfgMaxb := rfl

@[simp] theorem State.storeBits_sampLen (xs : List Bool) : (s.storeBits xs).sampLen = s.sampLen := rfl

@[simp] theorem State.storeBits_bdCur (xs : List Bool) : (s.storeBits xs).bdCur = s.bdCur := rfl

@[simp] theorem State.storeBits_segStart (xs : List Bool) : (s.storeBits xs).segStart = s.segStart := rfl

@[simp] theorem State.storeBits_segStop (xs : List Bool) : (s.storeBits xs).segStop = s.segStop := rfl

@[simp] theorem State.storeBits_burstCnt (xs : List Bool) : (s.storeBits xs).burstCnt = s.burstCnt := rfl

@[simp] theorem State.storeBits_freqLen (xs : List Bool) : (s.storeBits xs).freqLen = s.freqLen := rfl

@[simp] theorem State.storeBits_fdOff (xs : List Bool) : (s.storeBits xs).fdOff = s.fdOff := rfl

@[simp] theorem State.storeBits_bitsLen (xs : List Bool) : (s.storeBits xs).bitsLen = BitVec.ofNat 32 xs.length := rfl

@[simp] theorem State.storeBits_rawLen (xs : List Bool) : (s.storeBits xs).rawLen = s.rawLen := rfl

@[simp] theorem State.storeBits_syPos (xs : List Bool) : (s.storeBits xs).syPos = s.syPos := rfl

@[simp] theorem State.storeBits_syHd (xs : List Bool) : (s.storeBits xs).syHd = s.syHd := rfl

@[simp] theorem State.storeBits_candCnt (xs : List Bool) : (s.storeBits xs).candCnt = s.candCnt := rfl

@[simp] theorem State.storeBits_matchCnt (xs : List Bool) : (s.storeBits xs).matchCnt = s.matchCnt := rfl

@[simp] theorem State.storeBits_rbLen (xs : List Bool) : (s.storeBits xs).rbLen = s.rbLen := rfl

@[simp] theorem State.storeBits_dwLen (xs : List Bool) : (s.storeBits xs).dwLen = s.dwLen := rfl

@[simp] theorem State.storeBits_outCnt (xs : List Bool) : (s.storeBits xs).outCnt = s.outCnt := rfl

@[simp] theorem State.storeBits_status (xs : List Bool) : (s.storeBits xs).status = s.status := rfl

@[simp] theorem State.storeBits_err (xs : List Bool) : (s.storeBits xs).err = s.err := rfl

@[simp] theorem State.storeBits_cntFound (xs : List Bool) : (s.storeBits xs).cntFound = s.cntFound := rfl

@[simp] theorem State.storeBits_cntFailed (xs : List Bool) : (s.storeBits xs).cntFailed = s.cntFailed := rfl

@[simp] theorem State.storeBits_pfDecl (xs : List Bool) : (s.storeBits xs).pfDecl = s.pfDecl := rfl

@[simp] theorem State.storeBits_mem_samp (xs : List Bool) : (s.storeBits xs).mem.samp = s.mem.samp := rfl

@[simp] theorem State.storeBits_mem_sql (xs : List Bool) : (s.storeBits xs).mem.sql = s.mem.sql := rfl

@[simp] theorem State.storeBits_mem_burst (xs : List Bool) : (s.storeBits xs).mem.burst = s.mem.burst := rfl

@[simp] theorem State.storeBits_mem_freq (xs : List Bool) : (s.storeBits xs).mem.freq = s.mem.freq := rfl

@[simp] theorem State.storeBits_mem_bits (xs : List Bool) : (s.storeBits xs).mem.bits = s.mem.bits.fill s.bitsLen.toNat xs := rfl

@[simp] theorem State.storeBits_mem_raw (xs : List Bool) : (s.storeBits xs).mem.raw = s.mem.raw := rfl

@[simp] theorem State.storeBits_mem_cand (xs : List Bool) : (s.storeBits xs).mem.cand = s.mem.cand := rfl

@[simp] theorem State.storeBits_mem_hits (xs : List Bool) : (s.storeBits xs).mem.hits = s.mem.hits := rfl

@[simp] theorem State.storeBits_mem_rb (xs : List Bool) : (s.storeBits xs).mem.rb = s.mem.rb := rfl

@[simp] theorem State.storeBits_mem_dw (xs : List Bool) : (s.storeBits xs).mem.dw = s.mem.dw := rfl

@[simp] theorem State.storeBits_mem_out (xs : List Bool) : (s.storeBits xs).mem.out = s.mem.out := rfl

@[simp] theorem State.storeBits_pending (xs : List Bool) : (s.storeBits xs).pending = s.pending := rfl

@[simp] theorem State.storeBits_replies (xs : List Bool) : (s.storeBits xs).replies = s.replies := rfl

@[simp] theorem State.storeRaw_build (xs : List Bool) : (s.storeRaw xs).build = s.build := rfl

@[simp] theorem State.storeRaw_cfgFs (xs : List Bool) : (s.storeRaw xs).cfgFs = s.cfgFs := rfl

@[simp] theorem State.storeRaw_cfgSps (xs : List Bool) : (s.storeRaw xs).cfgSps = s.cfgSps := rfl

@[simp] theorem State.storeRaw_cfgThresh (xs : List Bool) : (s.storeRaw xs).cfgThresh = s.cfgThresh := rfl

@[simp] theorem State.storeRaw_thrLo (xs : List Bool) : (s.storeRaw xs).thrLo = s.thrLo := rfl

@[simp] theorem State.storeRaw_thrHi (xs : List Bool) : (s.storeRaw xs).thrHi = s.thrHi := rfl

@[simp] theorem State.storeRaw_cfgPad (xs : List Bool) : (s.storeRaw xs).cfgPad = s.cfgPad := rfl

@[simp] theorem State.storeRaw_cfgSkip (xs : List Bool) : (s.storeRaw xs).cfgSkip = s.cfgSkip := rfl

@[simp] theorem State.storeRaw_cfgCfo (xs : List Bool) : (s.storeRaw xs).cfgCfo = s.cfgCfo := rfl

@[simp] theorem State.storeRaw_cfgRef (xs : List Bool) : (s.storeRaw xs).cfgRef = s.cfgRef := rfl

@[simp] theorem State.storeRaw_fdRef (xs : List Bool) : (s.storeRaw xs).fdRef = s.fdRef := rfl

@[simp] theorem State.storeRaw_cfgSync (xs : List Bool) : (s.storeRaw xs).cfgSync = s.cfgSync := rfl

@[simp] theorem State.storeRaw_cfgTol (xs : List Bool) : (s.storeRaw xs).cfgTol = s.cfgTol := rfl

@[simp] theorem State.storeRaw_cfgChan (xs : List Bool) : (s.storeRaw xs).cfgChan = s.cfgChan := rfl

@[simp] theorem State.storeRaw_cfgMaxb (xs : List Bool) : (s.storeRaw xs).cfgMaxb = s.cfgMaxb := rfl

@[simp] theorem State.storeRaw_sampLen (xs : List Bool) : (s.storeRaw xs).sampLen = s.sampLen := rfl

@[simp] theorem State.storeRaw_bdCur (xs : List Bool) : (s.storeRaw xs).bdCur = s.bdCur := rfl

@[simp] theorem State.storeRaw_segStart (xs : List Bool) : (s.storeRaw xs).segStart = s.segStart := rfl

@[simp] theorem State.storeRaw_segStop (xs : List Bool) : (s.storeRaw xs).segStop = s.segStop := rfl

@[simp] theorem State.storeRaw_burstCnt (xs : List Bool) : (s.storeRaw xs).burstCnt = s.burstCnt := rfl

@[simp] theorem State.storeRaw_freqLen (xs : List Bool) : (s.storeRaw xs).freqLen = s.freqLen := rfl

@[simp] theorem State.storeRaw_fdOff (xs : List Bool) : (s.storeRaw xs).fdOff = s.fdOff := rfl

@[simp] theorem State.storeRaw_bitsLen (xs : List Bool) : (s.storeRaw xs).bitsLen = s.bitsLen := rfl

@[simp] theorem State.storeRaw_rawLen (xs : List Bool) : (s.storeRaw xs).rawLen = BitVec.ofNat 32 xs.length := rfl

@[simp] theorem State.storeRaw_syPos (xs : List Bool) : (s.storeRaw xs).syPos = s.syPos := rfl

@[simp] theorem State.storeRaw_syHd (xs : List Bool) : (s.storeRaw xs).syHd = s.syHd := rfl

@[simp] theorem State.storeRaw_candCnt (xs : List Bool) : (s.storeRaw xs).candCnt = s.candCnt := rfl

@[simp] theorem State.storeRaw_matchCnt (xs : List Bool) : (s.storeRaw xs).matchCnt = s.matchCnt := rfl

@[simp] theorem State.storeRaw_rbLen (xs : List Bool) : (s.storeRaw xs).rbLen = s.rbLen := rfl

@[simp] theorem State.storeRaw_dwLen (xs : List Bool) : (s.storeRaw xs).dwLen = s.dwLen := rfl

@[simp] theorem State.storeRaw_outCnt (xs : List Bool) : (s.storeRaw xs).outCnt = s.outCnt := rfl

@[simp] theorem State.storeRaw_status (xs : List Bool) : (s.storeRaw xs).status = s.status := rfl

@[simp] theorem State.storeRaw_err (xs : List Bool) : (s.storeRaw xs).err = s.err := rfl

@[simp] theorem State.storeRaw_cntFound (xs : List Bool) : (s.storeRaw xs).cntFound = s.cntFound := rfl

@[simp] theorem State.storeRaw_cntFailed (xs : List Bool) : (s.storeRaw xs).cntFailed = s.cntFailed := rfl

@[simp] theorem State.storeRaw_pfDecl (xs : List Bool) : (s.storeRaw xs).pfDecl = s.pfDecl := rfl

@[simp] theorem State.storeRaw_mem_samp (xs : List Bool) : (s.storeRaw xs).mem.samp = s.mem.samp := rfl

@[simp] theorem State.storeRaw_mem_sql (xs : List Bool) : (s.storeRaw xs).mem.sql = s.mem.sql := rfl

@[simp] theorem State.storeRaw_mem_burst (xs : List Bool) : (s.storeRaw xs).mem.burst = s.mem.burst := rfl

@[simp] theorem State.storeRaw_mem_freq (xs : List Bool) : (s.storeRaw xs).mem.freq = s.mem.freq := rfl

@[simp] theorem State.storeRaw_mem_bits (xs : List Bool) : (s.storeRaw xs).mem.bits = s.mem.bits := rfl

@[simp] theorem State.storeRaw_mem_raw (xs : List Bool) : (s.storeRaw xs).mem.raw = s.mem.raw.fill s.rawLen.toNat xs := rfl

@[simp] theorem State.storeRaw_mem_cand (xs : List Bool) : (s.storeRaw xs).mem.cand = s.mem.cand := rfl

@[simp] theorem State.storeRaw_mem_hits (xs : List Bool) : (s.storeRaw xs).mem.hits = s.mem.hits := rfl

@[simp] theorem State.storeRaw_mem_rb (xs : List Bool) : (s.storeRaw xs).mem.rb = s.mem.rb := rfl

@[simp] theorem State.storeRaw_mem_dw (xs : List Bool) : (s.storeRaw xs).mem.dw = s.mem.dw := rfl

@[simp] theorem State.storeRaw_mem_out (xs : List Bool) : (s.storeRaw xs).mem.out = s.mem.out := rfl

@[simp] theorem State.storeRaw_pending (xs : List Bool) : (s.storeRaw xs).pending = s.pending := rfl

@[simp] theorem State.storeRaw_replies (xs : List Bool) : (s.storeRaw xs).replies = s.replies := rfl

@[simp] theorem State.storeCand_build (xs : List Word) : (s.storeCand xs).build = s.build := rfl

@[simp] theorem State.storeCand_cfgFs (xs : List Word) : (s.storeCand xs).cfgFs = s.cfgFs := rfl

@[simp] theorem State.storeCand_cfgSps (xs : List Word) : (s.storeCand xs).cfgSps = s.cfgSps := rfl

@[simp] theorem State.storeCand_cfgThresh (xs : List Word) : (s.storeCand xs).cfgThresh = s.cfgThresh := rfl

@[simp] theorem State.storeCand_thrLo (xs : List Word) : (s.storeCand xs).thrLo = s.thrLo := rfl

@[simp] theorem State.storeCand_thrHi (xs : List Word) : (s.storeCand xs).thrHi = s.thrHi := rfl

@[simp] theorem State.storeCand_cfgPad (xs : List Word) : (s.storeCand xs).cfgPad = s.cfgPad := rfl

@[simp] theorem State.storeCand_cfgSkip (xs : List Word) : (s.storeCand xs).cfgSkip = s.cfgSkip := rfl

@[simp] theorem State.storeCand_cfgCfo (xs : List Word) : (s.storeCand xs).cfgCfo = s.cfgCfo := rfl

@[simp] theorem State.storeCand_cfgRef (xs : List Word) : (s.storeCand xs).cfgRef = s.cfgRef := rfl

@[simp] theorem State.storeCand_fdRef (xs : List Word) : (s.storeCand xs).fdRef = s.fdRef := rfl

@[simp] theorem State.storeCand_cfgSync (xs : List Word) : (s.storeCand xs).cfgSync = s.cfgSync := rfl

@[simp] theorem State.storeCand_cfgTol (xs : List Word) : (s.storeCand xs).cfgTol = s.cfgTol := rfl

@[simp] theorem State.storeCand_cfgChan (xs : List Word) : (s.storeCand xs).cfgChan = s.cfgChan := rfl

@[simp] theorem State.storeCand_cfgMaxb (xs : List Word) : (s.storeCand xs).cfgMaxb = s.cfgMaxb := rfl

@[simp] theorem State.storeCand_sampLen (xs : List Word) : (s.storeCand xs).sampLen = s.sampLen := rfl

@[simp] theorem State.storeCand_bdCur (xs : List Word) : (s.storeCand xs).bdCur = s.bdCur := rfl

@[simp] theorem State.storeCand_segStart (xs : List Word) : (s.storeCand xs).segStart = s.segStart := rfl

@[simp] theorem State.storeCand_segStop (xs : List Word) : (s.storeCand xs).segStop = s.segStop := rfl

@[simp] theorem State.storeCand_burstCnt (xs : List Word) : (s.storeCand xs).burstCnt = s.burstCnt := rfl

@[simp] theorem State.storeCand_freqLen (xs : List Word) : (s.storeCand xs).freqLen = s.freqLen := rfl

@[simp] theorem State.storeCand_fdOff (xs : List Word) : (s.storeCand xs).fdOff = s.fdOff := rfl

@[simp] theorem State.storeCand_bitsLen (xs : List Word) : (s.storeCand xs).bitsLen = s.bitsLen := rfl

@[simp] theorem State.storeCand_rawLen (xs : List Word) : (s.storeCand xs).rawLen = s.rawLen := rfl

@[simp] theorem State.storeCand_syPos (xs : List Word) : (s.storeCand xs).syPos = s.syPos := rfl

@[simp] theorem State.storeCand_syHd (xs : List Word) : (s.storeCand xs).syHd = s.syHd := rfl

@[simp] theorem State.storeCand_candCnt (xs : List Word) : (s.storeCand xs).candCnt = BitVec.ofNat 32 xs.length := rfl

@[simp] theorem State.storeCand_matchCnt (xs : List Word) : (s.storeCand xs).matchCnt = s.matchCnt := rfl

@[simp] theorem State.storeCand_rbLen (xs : List Word) : (s.storeCand xs).rbLen = s.rbLen := rfl

@[simp] theorem State.storeCand_dwLen (xs : List Word) : (s.storeCand xs).dwLen = s.dwLen := rfl

@[simp] theorem State.storeCand_outCnt (xs : List Word) : (s.storeCand xs).outCnt = s.outCnt := rfl

@[simp] theorem State.storeCand_status (xs : List Word) : (s.storeCand xs).status = s.status := rfl

@[simp] theorem State.storeCand_err (xs : List Word) : (s.storeCand xs).err = s.err := rfl

@[simp] theorem State.storeCand_cntFound (xs : List Word) : (s.storeCand xs).cntFound = s.cntFound := rfl

@[simp] theorem State.storeCand_cntFailed (xs : List Word) : (s.storeCand xs).cntFailed = s.cntFailed := rfl

@[simp] theorem State.storeCand_pfDecl (xs : List Word) : (s.storeCand xs).pfDecl = s.pfDecl := rfl

@[simp] theorem State.storeCand_mem_samp (xs : List Word) : (s.storeCand xs).mem.samp = s.mem.samp := rfl

@[simp] theorem State.storeCand_mem_sql (xs : List Word) : (s.storeCand xs).mem.sql = s.mem.sql := rfl

@[simp] theorem State.storeCand_mem_burst (xs : List Word) : (s.storeCand xs).mem.burst = s.mem.burst := rfl

@[simp] theorem State.storeCand_mem_freq (xs : List Word) : (s.storeCand xs).mem.freq = s.mem.freq := rfl

@[simp] theorem State.storeCand_mem_bits (xs : List Word) : (s.storeCand xs).mem.bits = s.mem.bits := rfl

@[simp] theorem State.storeCand_mem_raw (xs : List Word) : (s.storeCand xs).mem.raw = s.mem.raw := rfl

@[simp] theorem State.storeCand_mem_cand (xs : List Word) : (s.storeCand xs).mem.cand = s.mem.cand.fill s.candCnt.toNat xs := rfl

@[simp] theorem State.storeCand_mem_hits (xs : List Word) : (s.storeCand xs).mem.hits = s.mem.hits := rfl

@[simp] theorem State.storeCand_mem_rb (xs : List Word) : (s.storeCand xs).mem.rb = s.mem.rb := rfl

@[simp] theorem State.storeCand_mem_dw (xs : List Word) : (s.storeCand xs).mem.dw = s.mem.dw := rfl

@[simp] theorem State.storeCand_mem_out (xs : List Word) : (s.storeCand xs).mem.out = s.mem.out := rfl

@[simp] theorem State.storeCand_pending (xs : List Word) : (s.storeCand xs).pending = s.pending := rfl

@[simp] theorem State.storeCand_replies (xs : List Word) : (s.storeCand xs).replies = s.replies := rfl

@[simp] theorem State.storeHits_build (xs : List Hit) : (s.storeHits xs).build = s.build := rfl

@[simp] theorem State.storeHits_cfgFs (xs : List Hit) : (s.storeHits xs).cfgFs = s.cfgFs := rfl

@[simp] theorem State.storeHits_cfgSps (xs : List Hit) : (s.storeHits xs).cfgSps = s.cfgSps := rfl

@[simp] theorem State.storeHits_cfgThresh (xs : List Hit) : (s.storeHits xs).cfgThresh = s.cfgThresh := rfl

@[simp] theorem State.storeHits_thrLo (xs : List Hit) : (s.storeHits xs).thrLo = s.thrLo := rfl

@[simp] theorem State.storeHits_thrHi (xs : List Hit) : (s.storeHits xs).thrHi = s.thrHi := rfl

@[simp] theorem State.storeHits_cfgPad (xs : List Hit) : (s.storeHits xs).cfgPad = s.cfgPad := rfl

@[simp] theorem State.storeHits_cfgSkip (xs : List Hit) : (s.storeHits xs).cfgSkip = s.cfgSkip := rfl

@[simp] theorem State.storeHits_cfgCfo (xs : List Hit) : (s.storeHits xs).cfgCfo = s.cfgCfo := rfl

@[simp] theorem State.storeHits_cfgRef (xs : List Hit) : (s.storeHits xs).cfgRef = s.cfgRef := rfl

@[simp] theorem State.storeHits_fdRef (xs : List Hit) : (s.storeHits xs).fdRef = s.fdRef := rfl

@[simp] theorem State.storeHits_cfgSync (xs : List Hit) : (s.storeHits xs).cfgSync = s.cfgSync := rfl

@[simp] theorem State.storeHits_cfgTol (xs : List Hit) : (s.storeHits xs).cfgTol = s.cfgTol := rfl

@[simp] theorem State.storeHits_cfgChan (xs : List Hit) : (s.storeHits xs).cfgChan = s.cfgChan := rfl

@[simp] theorem State.storeHits_cfgMaxb (xs : List Hit) : (s.storeHits xs).cfgMaxb = s.cfgMaxb := rfl

@[simp] theorem State.storeHits_sampLen (xs : List Hit) : (s.storeHits xs).sampLen = s.sampLen := rfl

@[simp] theorem State.storeHits_bdCur (xs : List Hit) : (s.storeHits xs).bdCur = s.bdCur := rfl

@[simp] theorem State.storeHits_segStart (xs : List Hit) : (s.storeHits xs).segStart = s.segStart := rfl

@[simp] theorem State.storeHits_segStop (xs : List Hit) : (s.storeHits xs).segStop = s.segStop := rfl

@[simp] theorem State.storeHits_burstCnt (xs : List Hit) : (s.storeHits xs).burstCnt = s.burstCnt := rfl

@[simp] theorem State.storeHits_freqLen (xs : List Hit) : (s.storeHits xs).freqLen = s.freqLen := rfl

@[simp] theorem State.storeHits_fdOff (xs : List Hit) : (s.storeHits xs).fdOff = s.fdOff := rfl

@[simp] theorem State.storeHits_bitsLen (xs : List Hit) : (s.storeHits xs).bitsLen = s.bitsLen := rfl

@[simp] theorem State.storeHits_rawLen (xs : List Hit) : (s.storeHits xs).rawLen = s.rawLen := rfl

@[simp] theorem State.storeHits_syPos (xs : List Hit) : (s.storeHits xs).syPos = s.syPos := rfl

@[simp] theorem State.storeHits_syHd (xs : List Hit) : (s.storeHits xs).syHd = s.syHd := rfl

@[simp] theorem State.storeHits_candCnt (xs : List Hit) : (s.storeHits xs).candCnt = s.candCnt := rfl

@[simp] theorem State.storeHits_matchCnt (xs : List Hit) : (s.storeHits xs).matchCnt = BitVec.ofNat 32 xs.length := rfl

@[simp] theorem State.storeHits_rbLen (xs : List Hit) : (s.storeHits xs).rbLen = s.rbLen := rfl

@[simp] theorem State.storeHits_dwLen (xs : List Hit) : (s.storeHits xs).dwLen = s.dwLen := rfl

@[simp] theorem State.storeHits_outCnt (xs : List Hit) : (s.storeHits xs).outCnt = s.outCnt := rfl

@[simp] theorem State.storeHits_status (xs : List Hit) : (s.storeHits xs).status = s.status := rfl

@[simp] theorem State.storeHits_err (xs : List Hit) : (s.storeHits xs).err = s.err := rfl

@[simp] theorem State.storeHits_cntFound (xs : List Hit) : (s.storeHits xs).cntFound = s.cntFound := rfl

@[simp] theorem State.storeHits_cntFailed (xs : List Hit) : (s.storeHits xs).cntFailed = s.cntFailed := rfl

@[simp] theorem State.storeHits_pfDecl (xs : List Hit) : (s.storeHits xs).pfDecl = s.pfDecl := rfl

@[simp] theorem State.storeHits_mem_samp (xs : List Hit) : (s.storeHits xs).mem.samp = s.mem.samp := rfl

@[simp] theorem State.storeHits_mem_sql (xs : List Hit) : (s.storeHits xs).mem.sql = s.mem.sql := rfl

@[simp] theorem State.storeHits_mem_burst (xs : List Hit) : (s.storeHits xs).mem.burst = s.mem.burst := rfl

@[simp] theorem State.storeHits_mem_freq (xs : List Hit) : (s.storeHits xs).mem.freq = s.mem.freq := rfl

@[simp] theorem State.storeHits_mem_bits (xs : List Hit) : (s.storeHits xs).mem.bits = s.mem.bits := rfl

@[simp] theorem State.storeHits_mem_raw (xs : List Hit) : (s.storeHits xs).mem.raw = s.mem.raw := rfl

@[simp] theorem State.storeHits_mem_cand (xs : List Hit) : (s.storeHits xs).mem.cand = s.mem.cand := rfl

@[simp] theorem State.storeHits_mem_hits (xs : List Hit) : (s.storeHits xs).mem.hits = s.mem.hits.fill s.matchCnt.toNat xs := rfl

@[simp] theorem State.storeHits_mem_rb (xs : List Hit) : (s.storeHits xs).mem.rb = s.mem.rb := rfl

@[simp] theorem State.storeHits_mem_dw (xs : List Hit) : (s.storeHits xs).mem.dw = s.mem.dw := rfl

@[simp] theorem State.storeHits_mem_out (xs : List Hit) : (s.storeHits xs).mem.out = s.mem.out := rfl

@[simp] theorem State.storeHits_pending (xs : List Hit) : (s.storeHits xs).pending = s.pending := rfl

@[simp] theorem State.storeHits_replies (xs : List Hit) : (s.storeHits xs).replies = s.replies := rfl

@[simp] theorem State.storeRb_build (xs : List Byte) : (s.storeRb xs).build = s.build := rfl

@[simp] theorem State.storeRb_cfgFs (xs : List Byte) : (s.storeRb xs).cfgFs = s.cfgFs := rfl

@[simp] theorem State.storeRb_cfgSps (xs : List Byte) : (s.storeRb xs).cfgSps = s.cfgSps := rfl

@[simp] theorem State.storeRb_cfgThresh (xs : List Byte) : (s.storeRb xs).cfgThresh = s.cfgThresh := rfl

@[simp] theorem State.storeRb_thrLo (xs : List Byte) : (s.storeRb xs).thrLo = s.thrLo := rfl

@[simp] theorem State.storeRb_thrHi (xs : List Byte) : (s.storeRb xs).thrHi = s.thrHi := rfl

@[simp] theorem State.storeRb_cfgPad (xs : List Byte) : (s.storeRb xs).cfgPad = s.cfgPad := rfl

@[simp] theorem State.storeRb_cfgSkip (xs : List Byte) : (s.storeRb xs).cfgSkip = s.cfgSkip := rfl

@[simp] theorem State.storeRb_cfgCfo (xs : List Byte) : (s.storeRb xs).cfgCfo = s.cfgCfo := rfl

@[simp] theorem State.storeRb_cfgRef (xs : List Byte) : (s.storeRb xs).cfgRef = s.cfgRef := rfl

@[simp] theorem State.storeRb_fdRef (xs : List Byte) : (s.storeRb xs).fdRef = s.fdRef := rfl

@[simp] theorem State.storeRb_cfgSync (xs : List Byte) : (s.storeRb xs).cfgSync = s.cfgSync := rfl

@[simp] theorem State.storeRb_cfgTol (xs : List Byte) : (s.storeRb xs).cfgTol = s.cfgTol := rfl

@[simp] theorem State.storeRb_cfgChan (xs : List Byte) : (s.storeRb xs).cfgChan = s.cfgChan := rfl

@[simp] theorem State.storeRb_cfgMaxb (xs : List Byte) : (s.storeRb xs).cfgMaxb = s.cfgMaxb := rfl

@[simp] theorem State.storeRb_sampLen (xs : List Byte) : (s.storeRb xs).sampLen = s.sampLen := rfl

@[simp] theorem State.storeRb_bdCur (xs : List Byte) : (s.storeRb xs).bdCur = s.bdCur := rfl

@[simp] theorem State.storeRb_segStart (xs : List Byte) : (s.storeRb xs).segStart = s.segStart := rfl

@[simp] theorem State.storeRb_segStop (xs : List Byte) : (s.storeRb xs).segStop = s.segStop := rfl

@[simp] theorem State.storeRb_burstCnt (xs : List Byte) : (s.storeRb xs).burstCnt = s.burstCnt := rfl

@[simp] theorem State.storeRb_freqLen (xs : List Byte) : (s.storeRb xs).freqLen = s.freqLen := rfl

@[simp] theorem State.storeRb_fdOff (xs : List Byte) : (s.storeRb xs).fdOff = s.fdOff := rfl

@[simp] theorem State.storeRb_bitsLen (xs : List Byte) : (s.storeRb xs).bitsLen = s.bitsLen := rfl

@[simp] theorem State.storeRb_rawLen (xs : List Byte) : (s.storeRb xs).rawLen = s.rawLen := rfl

@[simp] theorem State.storeRb_syPos (xs : List Byte) : (s.storeRb xs).syPos = s.syPos := rfl

@[simp] theorem State.storeRb_syHd (xs : List Byte) : (s.storeRb xs).syHd = s.syHd := rfl

@[simp] theorem State.storeRb_candCnt (xs : List Byte) : (s.storeRb xs).candCnt = s.candCnt := rfl

@[simp] theorem State.storeRb_matchCnt (xs : List Byte) : (s.storeRb xs).matchCnt = s.matchCnt := rfl

@[simp] theorem State.storeRb_rbLen (xs : List Byte) : (s.storeRb xs).rbLen = BitVec.ofNat 32 xs.length := rfl

@[simp] theorem State.storeRb_dwLen (xs : List Byte) : (s.storeRb xs).dwLen = s.dwLen := rfl

@[simp] theorem State.storeRb_outCnt (xs : List Byte) : (s.storeRb xs).outCnt = s.outCnt := rfl

@[simp] theorem State.storeRb_status (xs : List Byte) : (s.storeRb xs).status = s.status := rfl

@[simp] theorem State.storeRb_err (xs : List Byte) : (s.storeRb xs).err = s.err := rfl

@[simp] theorem State.storeRb_cntFound (xs : List Byte) : (s.storeRb xs).cntFound = s.cntFound := rfl

@[simp] theorem State.storeRb_cntFailed (xs : List Byte) : (s.storeRb xs).cntFailed = s.cntFailed := rfl

@[simp] theorem State.storeRb_pfDecl (xs : List Byte) : (s.storeRb xs).pfDecl = s.pfDecl := rfl

@[simp] theorem State.storeRb_mem_samp (xs : List Byte) : (s.storeRb xs).mem.samp = s.mem.samp := rfl

@[simp] theorem State.storeRb_mem_sql (xs : List Byte) : (s.storeRb xs).mem.sql = s.mem.sql := rfl

@[simp] theorem State.storeRb_mem_burst (xs : List Byte) : (s.storeRb xs).mem.burst = s.mem.burst := rfl

@[simp] theorem State.storeRb_mem_freq (xs : List Byte) : (s.storeRb xs).mem.freq = s.mem.freq := rfl

@[simp] theorem State.storeRb_mem_bits (xs : List Byte) : (s.storeRb xs).mem.bits = s.mem.bits := rfl

@[simp] theorem State.storeRb_mem_raw (xs : List Byte) : (s.storeRb xs).mem.raw = s.mem.raw := rfl

@[simp] theorem State.storeRb_mem_cand (xs : List Byte) : (s.storeRb xs).mem.cand = s.mem.cand := rfl

@[simp] theorem State.storeRb_mem_hits (xs : List Byte) : (s.storeRb xs).mem.hits = s.mem.hits := rfl

@[simp] theorem State.storeRb_mem_rb (xs : List Byte) : (s.storeRb xs).mem.rb = s.mem.rb.fill s.rbLen.toNat xs := rfl

@[simp] theorem State.storeRb_mem_dw (xs : List Byte) : (s.storeRb xs).mem.dw = s.mem.dw := rfl

@[simp] theorem State.storeRb_mem_out (xs : List Byte) : (s.storeRb xs).mem.out = s.mem.out := rfl

@[simp] theorem State.storeRb_pending (xs : List Byte) : (s.storeRb xs).pending = s.pending := rfl

@[simp] theorem State.storeRb_replies (xs : List Byte) : (s.storeRb xs).replies = s.replies := rfl

@[simp] theorem State.storeDw_build (xs : List Byte) : (s.storeDw xs).build = s.build := rfl

@[simp] theorem State.storeDw_cfgFs (xs : List Byte) : (s.storeDw xs).cfgFs = s.cfgFs := rfl

@[simp] theorem State.storeDw_cfgSps (xs : List Byte) : (s.storeDw xs).cfgSps = s.cfgSps := rfl

@[simp] theorem State.storeDw_cfgThresh (xs : List Byte) : (s.storeDw xs).cfgThresh = s.cfgThresh := rfl

@[simp] theorem State.storeDw_thrLo (xs : List Byte) : (s.storeDw xs).thrLo = s.thrLo := rfl

@[simp] theorem State.storeDw_thrHi (xs : List Byte) : (s.storeDw xs).thrHi = s.thrHi := rfl

@[simp] theorem State.storeDw_cfgPad (xs : List Byte) : (s.storeDw xs).cfgPad = s.cfgPad := rfl

@[simp] theorem State.storeDw_cfgSkip (xs : List Byte) : (s.storeDw xs).cfgSkip = s.cfgSkip := rfl

@[simp] theorem State.storeDw_cfgCfo (xs : List Byte) : (s.storeDw xs).cfgCfo = s.cfgCfo := rfl

@[simp] theorem State.storeDw_cfgRef (xs : List Byte) : (s.storeDw xs).cfgRef = s.cfgRef := rfl

@[simp] theorem State.storeDw_fdRef (xs : List Byte) : (s.storeDw xs).fdRef = s.fdRef := rfl

@[simp] theorem State.storeDw_cfgSync (xs : List Byte) : (s.storeDw xs).cfgSync = s.cfgSync := rfl

@[simp] theorem State.storeDw_cfgTol (xs : List Byte) : (s.storeDw xs).cfgTol = s.cfgTol := rfl

@[simp] theorem State.storeDw_cfgChan (xs : List Byte) : (s.storeDw xs).cfgChan = s.cfgChan := rfl

@[simp] theorem State.storeDw_cfgMaxb (xs : List Byte) : (s.storeDw xs).cfgMaxb = s.cfgMaxb := rfl

@[simp] theorem State.storeDw_sampLen (xs : List Byte) : (s.storeDw xs).sampLen = s.sampLen := rfl

@[simp] theorem State.storeDw_bdCur (xs : List Byte) : (s.storeDw xs).bdCur = s.bdCur := rfl

@[simp] theorem State.storeDw_segStart (xs : List Byte) : (s.storeDw xs).segStart = s.segStart := rfl

@[simp] theorem State.storeDw_segStop (xs : List Byte) : (s.storeDw xs).segStop = s.segStop := rfl

@[simp] theorem State.storeDw_burstCnt (xs : List Byte) : (s.storeDw xs).burstCnt = s.burstCnt := rfl

@[simp] theorem State.storeDw_freqLen (xs : List Byte) : (s.storeDw xs).freqLen = s.freqLen := rfl

@[simp] theorem State.storeDw_fdOff (xs : List Byte) : (s.storeDw xs).fdOff = s.fdOff := rfl

@[simp] theorem State.storeDw_bitsLen (xs : List Byte) : (s.storeDw xs).bitsLen = s.bitsLen := rfl

@[simp] theorem State.storeDw_rawLen (xs : List Byte) : (s.storeDw xs).rawLen = s.rawLen := rfl

@[simp] theorem State.storeDw_syPos (xs : List Byte) : (s.storeDw xs).syPos = s.syPos := rfl

@[simp] theorem State.storeDw_syHd (xs : List Byte) : (s.storeDw xs).syHd = s.syHd := rfl

@[simp] theorem State.storeDw_candCnt (xs : List Byte) : (s.storeDw xs).candCnt = s.candCnt := rfl

@[simp] theorem State.storeDw_matchCnt (xs : List Byte) : (s.storeDw xs).matchCnt = s.matchCnt := rfl

@[simp] theorem State.storeDw_rbLen (xs : List Byte) : (s.storeDw xs).rbLen = s.rbLen := rfl

@[simp] theorem State.storeDw_dwLen (xs : List Byte) : (s.storeDw xs).dwLen = BitVec.ofNat 32 xs.length := rfl

@[simp] theorem State.storeDw_outCnt (xs : List Byte) : (s.storeDw xs).outCnt = s.outCnt := rfl

@[simp] theorem State.storeDw_status (xs : List Byte) : (s.storeDw xs).status = s.status := rfl

@[simp] theorem State.storeDw_err (xs : List Byte) : (s.storeDw xs).err = s.err := rfl

@[simp] theorem State.storeDw_cntFound (xs : List Byte) : (s.storeDw xs).cntFound = s.cntFound := rfl

@[simp] theorem State.storeDw_cntFailed (xs : List Byte) : (s.storeDw xs).cntFailed = s.cntFailed := rfl

@[simp] theorem State.storeDw_pfDecl (xs : List Byte) : (s.storeDw xs).pfDecl = s.pfDecl := rfl

@[simp] theorem State.storeDw_mem_samp (xs : List Byte) : (s.storeDw xs).mem.samp = s.mem.samp := rfl

@[simp] theorem State.storeDw_mem_sql (xs : List Byte) : (s.storeDw xs).mem.sql = s.mem.sql := rfl

@[simp] theorem State.storeDw_mem_burst (xs : List Byte) : (s.storeDw xs).mem.burst = s.mem.burst := rfl

@[simp] theorem State.storeDw_mem_freq (xs : List Byte) : (s.storeDw xs).mem.freq = s.mem.freq := rfl

@[simp] theorem State.storeDw_mem_bits (xs : List Byte) : (s.storeDw xs).mem.bits = s.mem.bits := rfl

@[simp] theorem State.storeDw_mem_raw (xs : List Byte) : (s.storeDw xs).mem.raw = s.mem.raw := rfl

@[simp] theorem State.storeDw_mem_cand (xs : List Byte) : (s.storeDw xs).mem.cand = s.mem.cand := rfl

@[simp] theorem State.storeDw_mem_hits (xs : List Byte) : (s.storeDw xs).mem.hits = s.mem.hits := rfl

@[simp] theorem State.storeDw_mem_rb (xs : List Byte) : (s.storeDw xs).mem.rb = s.mem.rb := rfl

@[simp] theorem State.storeDw_mem_dw (xs : List Byte) : (s.storeDw xs).mem.dw = s.mem.dw.fill s.dwLen.toNat xs := rfl

@[simp] theorem State.storeDw_mem_out (xs : List Byte) : (s.storeDw xs).mem.out = s.mem.out := rfl

@[simp] theorem State.storeDw_pending (xs : List Byte) : (s.storeDw xs).pending = s.pending := rfl

@[simp] theorem State.storeDw_replies (xs : List Byte) : (s.storeDw xs).replies = s.replies := rfl

@[simp] theorem State.storeSql_build (xs : List Sample) : (s.storeSql xs).build = s.build := rfl

@[simp] theorem State.storeSql_cfgFs (xs : List Sample) : (s.storeSql xs).cfgFs = s.cfgFs := rfl

@[simp] theorem State.storeSql_cfgSps (xs : List Sample) : (s.storeSql xs).cfgSps = s.cfgSps := rfl

@[simp] theorem State.storeSql_cfgThresh (xs : List Sample) : (s.storeSql xs).cfgThresh = s.cfgThresh := rfl

@[simp] theorem State.storeSql_thrLo (xs : List Sample) : (s.storeSql xs).thrLo = s.thrLo := rfl

@[simp] theorem State.storeSql_thrHi (xs : List Sample) : (s.storeSql xs).thrHi = s.thrHi := rfl

@[simp] theorem State.storeSql_cfgPad (xs : List Sample) : (s.storeSql xs).cfgPad = s.cfgPad := rfl

@[simp] theorem State.storeSql_cfgSkip (xs : List Sample) : (s.storeSql xs).cfgSkip = s.cfgSkip := rfl

@[simp] theorem State.storeSql_cfgCfo (xs : List Sample) : (s.storeSql xs).cfgCfo = s.cfgCfo := rfl

@[simp] theorem State.storeSql_cfgRef (xs : List Sample) : (s.storeSql xs).cfgRef = s.cfgRef := rfl

@[simp] theorem State.storeSql_fdRef (xs : List Sample) : (s.storeSql xs).fdRef = s.fdRef := rfl

@[simp] theorem State.storeSql_cfgSync (xs : List Sample) : (s.storeSql xs).cfgSync = s.cfgSync := rfl

@[simp] theorem State.storeSql_cfgTol (xs : List Sample) : (s.storeSql xs).cfgTol = s.cfgTol := rfl

@[simp] theorem State.storeSql_cfgChan (xs : List Sample) : (s.storeSql xs).cfgChan = s.cfgChan := rfl

@[simp] theorem State.storeSql_cfgMaxb (xs : List Sample) : (s.storeSql xs).cfgMaxb = s.cfgMaxb := rfl

@[simp] theorem State.storeSql_sampLen (xs : List Sample) : (s.storeSql xs).sampLen = s.sampLen := rfl

@[simp] theorem State.storeSql_bdCur (xs : List Sample) : (s.storeSql xs).bdCur = s.bdCur := rfl

@[simp] theorem State.storeSql_segStart (xs : List Sample) : (s.storeSql xs).segStart = s.segStart := rfl

@[simp] theorem State.storeSql_segStop (xs : List Sample) : (s.storeSql xs).segStop = s.segStop := rfl

@[simp] theorem State.storeSql_burstCnt (xs : List Sample) : (s.storeSql xs).burstCnt = s.burstCnt := rfl

@[simp] theorem State.storeSql_freqLen (xs : List Sample) : (s.storeSql xs).freqLen = s.freqLen := rfl

@[simp] theorem State.storeSql_fdOff (xs : List Sample) : (s.storeSql xs).fdOff = s.fdOff := rfl

@[simp] theorem State.storeSql_bitsLen (xs : List Sample) : (s.storeSql xs).bitsLen = s.bitsLen := rfl

@[simp] theorem State.storeSql_rawLen (xs : List Sample) : (s.storeSql xs).rawLen = s.rawLen := rfl

@[simp] theorem State.storeSql_syPos (xs : List Sample) : (s.storeSql xs).syPos = s.syPos := rfl

@[simp] theorem State.storeSql_syHd (xs : List Sample) : (s.storeSql xs).syHd = s.syHd := rfl

@[simp] theorem State.storeSql_candCnt (xs : List Sample) : (s.storeSql xs).candCnt = s.candCnt := rfl

@[simp] theorem State.storeSql_matchCnt (xs : List Sample) : (s.storeSql xs).matchCnt = s.matchCnt := rfl

@[simp] theorem State.storeSql_rbLen (xs : List Sample) : (s.storeSql xs).rbLen = s.rbLen := rfl

@[simp] theorem State.storeSql_dwLen (xs : List Sample) : (s.storeSql xs).dwLen = s.dwLen := rfl

@[simp] theorem State.storeSql_outCnt (xs : List Sample) : (s.storeSql xs).outCnt = s.outCnt := rfl

@[simp] theorem State.storeSql_status (xs : List Sample) : (s.storeSql xs).status = s.status := rfl

@[simp] theorem State.storeSql_err (xs : List Sample) : (s.storeSql xs).err = s.err := rfl

@[simp] theorem State.storeSql_cntFound (xs : List Sample) : (s.storeSql xs).cntFound = s.cntFound := rfl

@[simp] theorem State.storeSql_cntFailed (xs : List Sample) : (s.storeSql xs).cntFailed = s.cntFailed := rfl

@[simp] theorem State.storeSql_pfDecl (xs : List Sample) : (s.storeSql xs).pfDecl = s.pfDecl := rfl

@[simp] theorem State.storeSql_mem_samp (xs : List Sample) : (s.storeSql xs).mem.samp = s.mem.samp := rfl

@[simp] theorem State.storeSql_mem_sql (xs : List Sample) : (s.storeSql xs).mem.sql = s.mem.sql.fill 0 xs := rfl

@[simp] theorem State.storeSql_mem_burst (xs : List Sample) : (s.storeSql xs).mem.burst = s.mem.burst := rfl

@[simp] theorem State.storeSql_mem_freq (xs : List Sample) : (s.storeSql xs).mem.freq = s.mem.freq := rfl

@[simp] theorem State.storeSql_mem_bits (xs : List Sample) : (s.storeSql xs).mem.bits = s.mem.bits := rfl

@[simp] theorem State.storeSql_mem_raw (xs : List Sample) : (s.storeSql xs).mem.raw = s.mem.raw := rfl

@[simp] theorem State.storeSql_mem_cand (xs : List Sample) : (s.storeSql xs).mem.cand = s.mem.cand := rfl

@[simp] theorem State.storeSql_mem_hits (xs : List Sample) : (s.storeSql xs).mem.hits = s.mem.hits := rfl

@[simp] theorem State.storeSql_mem_rb (xs : List Sample) : (s.storeSql xs).mem.rb = s.mem.rb := rfl

@[simp] theorem State.storeSql_mem_dw (xs : List Sample) : (s.storeSql xs).mem.dw = s.mem.dw := rfl

@[simp] theorem State.storeSql_mem_out (xs : List Sample) : (s.storeSql xs).mem.out = s.mem.out := rfl

@[simp] theorem State.storeSql_pending (xs : List Sample) : (s.storeSql xs).pending = s.pending := rfl

@[simp] theorem State.storeSql_replies (xs : List Sample) : (s.storeSql xs).replies = s.replies := rfl

@[simp] theorem State.appendBurst_build (b : Span) : (s.appendBurst b).build = s.build := rfl

@[simp] theorem State.appendBurst_cfgFs (b : Span) : (s.appendBurst b).cfgFs = s.cfgFs := rfl

@[simp] theorem State.appendBurst_cfgSps (b : Span) : (s.appendBurst b).cfgSps = s.cfgSps := rfl

@[simp] theorem State.appendBurst_cfgThresh (b : Span) : (s.appendBurst b).cfgThresh = s.cfgThresh := rfl

@[simp] theorem State.appendBurst_thrLo (b : Span) : (s.appendBurst b).thrLo = s.thrLo := rfl

@[simp] theorem State.appendBurst_thrHi (b : Span) : (s.appendBurst b).thrHi = s.thrHi := rfl

@[simp] theorem State.appendBurst_cfgPad (b : Span) : (s.appendBurst b).cfgPad = s.cfgPad := rfl

@[simp] theorem State.appendBurst_cfgSkip (b : Span) : (s.appendBurst b).cfgSkip = s.cfgSkip := rfl

@[simp] theorem State.appendBurst_cfgCfo (b : Span) : (s.appendBurst b).cfgCfo = s.cfgCfo := rfl

@[simp] theorem State.appendBurst_cfgRef (b : Span) : (s.appendBurst b).cfgRef = s.cfgRef := rfl

@[simp] theorem State.appendBurst_fdRef (b : Span) : (s.appendBurst b).fdRef = s.fdRef := rfl

@[simp] theorem State.appendBurst_cfgSync (b : Span) : (s.appendBurst b).cfgSync = s.cfgSync := rfl

@[simp] theorem State.appendBurst_cfgTol (b : Span) : (s.appendBurst b).cfgTol = s.cfgTol := rfl

@[simp] theorem State.appendBurst_cfgChan (b : Span) : (s.appendBurst b).cfgChan = s.cfgChan := rfl

@[simp] theorem State.appendBurst_cfgMaxb (b : Span) : (s.appendBurst b).cfgMaxb = s.cfgMaxb := rfl

@[simp] theorem State.appendBurst_sampLen (b : Span) : (s.appendBurst b).sampLen = s.sampLen := rfl

@[simp] theorem State.appendBurst_bdCur (b : Span) : (s.appendBurst b).bdCur = s.bdCur := rfl

@[simp] theorem State.appendBurst_segStart (b : Span) : (s.appendBurst b).segStart = s.segStart := rfl

@[simp] theorem State.appendBurst_segStop (b : Span) : (s.appendBurst b).segStop = s.segStop := rfl

@[simp] theorem State.appendBurst_burstCnt (b : Span) : (s.appendBurst b).burstCnt = s.burstCnt + 1 := rfl

@[simp] theorem State.appendBurst_freqLen (b : Span) : (s.appendBurst b).freqLen = s.freqLen := rfl

@[simp] theorem State.appendBurst_fdOff (b : Span) : (s.appendBurst b).fdOff = s.fdOff := rfl

@[simp] theorem State.appendBurst_bitsLen (b : Span) : (s.appendBurst b).bitsLen = s.bitsLen := rfl

@[simp] theorem State.appendBurst_rawLen (b : Span) : (s.appendBurst b).rawLen = s.rawLen := rfl

@[simp] theorem State.appendBurst_syPos (b : Span) : (s.appendBurst b).syPos = s.syPos := rfl

@[simp] theorem State.appendBurst_syHd (b : Span) : (s.appendBurst b).syHd = s.syHd := rfl

@[simp] theorem State.appendBurst_candCnt (b : Span) : (s.appendBurst b).candCnt = s.candCnt := rfl

@[simp] theorem State.appendBurst_matchCnt (b : Span) : (s.appendBurst b).matchCnt = s.matchCnt := rfl

@[simp] theorem State.appendBurst_rbLen (b : Span) : (s.appendBurst b).rbLen = s.rbLen := rfl

@[simp] theorem State.appendBurst_dwLen (b : Span) : (s.appendBurst b).dwLen = s.dwLen := rfl

@[simp] theorem State.appendBurst_outCnt (b : Span) : (s.appendBurst b).outCnt = s.outCnt := rfl

@[simp] theorem State.appendBurst_status (b : Span) : (s.appendBurst b).status = s.status := rfl

@[simp] theorem State.appendBurst_err (b : Span) : (s.appendBurst b).err = s.err := rfl

@[simp] theorem State.appendBurst_cntFound (b : Span) : (s.appendBurst b).cntFound = s.cntFound := rfl

@[simp] theorem State.appendBurst_cntFailed (b : Span) : (s.appendBurst b).cntFailed = s.cntFailed := rfl

@[simp] theorem State.appendBurst_pfDecl (b : Span) : (s.appendBurst b).pfDecl = s.pfDecl := rfl

@[simp] theorem State.appendBurst_mem_samp (b : Span) : (s.appendBurst b).mem.samp = s.mem.samp := rfl

@[simp] theorem State.appendBurst_mem_sql (b : Span) : (s.appendBurst b).mem.sql = s.mem.sql := rfl

@[simp] theorem State.appendBurst_mem_burst (b : Span) : (s.appendBurst b).mem.burst = s.mem.burst.put s.burstCnt.toNat b := rfl

@[simp] theorem State.appendBurst_mem_freq (b : Span) : (s.appendBurst b).mem.freq = s.mem.freq := rfl

@[simp] theorem State.appendBurst_mem_bits (b : Span) : (s.appendBurst b).mem.bits = s.mem.bits := rfl

@[simp] theorem State.appendBurst_mem_raw (b : Span) : (s.appendBurst b).mem.raw = s.mem.raw := rfl

@[simp] theorem State.appendBurst_mem_cand (b : Span) : (s.appendBurst b).mem.cand = s.mem.cand := rfl

@[simp] theorem State.appendBurst_mem_hits (b : Span) : (s.appendBurst b).mem.hits = s.mem.hits := rfl

@[simp] theorem State.appendBurst_mem_rb (b : Span) : (s.appendBurst b).mem.rb = s.mem.rb := rfl

@[simp] theorem State.appendBurst_mem_dw (b : Span) : (s.appendBurst b).mem.dw = s.mem.dw := rfl

@[simp] theorem State.appendBurst_mem_out (b : Span) : (s.appendBurst b).mem.out = s.mem.out := rfl

@[simp] theorem State.appendBurst_pending (b : Span) : (s.appendBurst b).pending = s.pending := rfl

@[simp] theorem State.appendBurst_replies (b : Span) : (s.appendBurst b).replies = s.replies := rfl

@[simp] theorem State.appendOut_build (p : Packet) : (s.appendOut p).build = s.build := rfl

@[simp] theorem State.appendOut_cfgFs (p : Packet) : (s.appendOut p).cfgFs = s.cfgFs := rfl

@[simp] theorem State.appendOut_cfgSps (p : Packet) : (s.appendOut p).cfgSps = s.cfgSps := rfl

@[simp] theorem State.appendOut_cfgThresh (p : Packet) : (s.appendOut p).cfgThresh = s.cfgThresh := rfl

@[simp] theorem State.appendOut_thrLo (p : Packet) : (s.appendOut p).thrLo = s.thrLo := rfl

@[simp] theorem State.appendOut_thrHi (p : Packet) : (s.appendOut p).thrHi = s.thrHi := rfl

@[simp] theorem State.appendOut_cfgPad (p : Packet) : (s.appendOut p).cfgPad = s.cfgPad := rfl

@[simp] theorem State.appendOut_cfgSkip (p : Packet) : (s.appendOut p).cfgSkip = s.cfgSkip := rfl

@[simp] theorem State.appendOut_cfgCfo (p : Packet) : (s.appendOut p).cfgCfo = s.cfgCfo := rfl

@[simp] theorem State.appendOut_cfgRef (p : Packet) : (s.appendOut p).cfgRef = s.cfgRef := rfl

@[simp] theorem State.appendOut_fdRef (p : Packet) : (s.appendOut p).fdRef = s.fdRef := rfl

@[simp] theorem State.appendOut_cfgSync (p : Packet) : (s.appendOut p).cfgSync = s.cfgSync := rfl

@[simp] theorem State.appendOut_cfgTol (p : Packet) : (s.appendOut p).cfgTol = s.cfgTol := rfl

@[simp] theorem State.appendOut_cfgChan (p : Packet) : (s.appendOut p).cfgChan = s.cfgChan := rfl

@[simp] theorem State.appendOut_cfgMaxb (p : Packet) : (s.appendOut p).cfgMaxb = s.cfgMaxb := rfl

@[simp] theorem State.appendOut_sampLen (p : Packet) : (s.appendOut p).sampLen = s.sampLen := rfl

@[simp] theorem State.appendOut_bdCur (p : Packet) : (s.appendOut p).bdCur = s.bdCur := rfl

@[simp] theorem State.appendOut_segStart (p : Packet) : (s.appendOut p).segStart = s.segStart := rfl

@[simp] theorem State.appendOut_segStop (p : Packet) : (s.appendOut p).segStop = s.segStop := rfl

@[simp] theorem State.appendOut_burstCnt (p : Packet) : (s.appendOut p).burstCnt = s.burstCnt := rfl

@[simp] theorem State.appendOut_freqLen (p : Packet) : (s.appendOut p).freqLen = s.freqLen := rfl

@[simp] theorem State.appendOut_fdOff (p : Packet) : (s.appendOut p).fdOff = s.fdOff := rfl

@[simp] theorem State.appendOut_bitsLen (p : Packet) : (s.appendOut p).bitsLen = s.bitsLen := rfl

@[simp] theorem State.appendOut_rawLen (p : Packet) : (s.appendOut p).rawLen = s.rawLen := rfl

@[simp] theorem State.appendOut_syPos (p : Packet) : (s.appendOut p).syPos = s.syPos := rfl

@[simp] theorem State.appendOut_syHd (p : Packet) : (s.appendOut p).syHd = s.syHd := rfl

@[simp] theorem State.appendOut_candCnt (p : Packet) : (s.appendOut p).candCnt = s.candCnt := rfl

@[simp] theorem State.appendOut_matchCnt (p : Packet) : (s.appendOut p).matchCnt = s.matchCnt := rfl

@[simp] theorem State.appendOut_rbLen (p : Packet) : (s.appendOut p).rbLen = s.rbLen := rfl

@[simp] theorem State.appendOut_dwLen (p : Packet) : (s.appendOut p).dwLen = s.dwLen := rfl

@[simp] theorem State.appendOut_outCnt (p : Packet) : (s.appendOut p).outCnt = s.outCnt + 1 := rfl

@[simp] theorem State.appendOut_status (p : Packet) : (s.appendOut p).status = s.status := rfl

@[simp] theorem State.appendOut_err (p : Packet) : (s.appendOut p).err = s.err := rfl

@[simp] theorem State.appendOut_cntFound (p : Packet) : (s.appendOut p).cntFound = s.cntFound := rfl

@[simp] theorem State.appendOut_cntFailed (p : Packet) : (s.appendOut p).cntFailed = s.cntFailed := rfl

@[simp] theorem State.appendOut_pfDecl (p : Packet) : (s.appendOut p).pfDecl = s.pfDecl := rfl

@[simp] theorem State.appendOut_mem_samp (p : Packet) : (s.appendOut p).mem.samp = s.mem.samp := rfl

@[simp] theorem State.appendOut_mem_sql (p : Packet) : (s.appendOut p).mem.sql = s.mem.sql := rfl

@[simp] theorem State.appendOut_mem_burst (p : Packet) : (s.appendOut p).mem.burst = s.mem.burst := rfl

@[simp] theorem State.appendOut_mem_freq (p : Packet) : (s.appendOut p).mem.freq = s.mem.freq := rfl

@[simp] theorem State.appendOut_mem_bits (p : Packet) : (s.appendOut p).mem.bits = s.mem.bits := rfl

@[simp] theorem State.appendOut_mem_raw (p : Packet) : (s.appendOut p).mem.raw = s.mem.raw := rfl

@[simp] theorem State.appendOut_mem_cand (p : Packet) : (s.appendOut p).mem.cand = s.mem.cand := rfl

@[simp] theorem State.appendOut_mem_hits (p : Packet) : (s.appendOut p).mem.hits = s.mem.hits := rfl

@[simp] theorem State.appendOut_mem_rb (p : Packet) : (s.appendOut p).mem.rb = s.mem.rb := rfl

@[simp] theorem State.appendOut_mem_dw (p : Packet) : (s.appendOut p).mem.dw = s.mem.dw := rfl

@[simp] theorem State.appendOut_mem_out (p : Packet) : (s.appendOut p).mem.out = s.mem.out.put s.outCnt.toNat p := rfl

@[simp] theorem State.appendOut_pending (p : Packet) : (s.appendOut p).pending = s.pending := rfl

@[simp] theorem State.appendOut_replies (p : Packet) : (s.appendOut p).replies = s.replies := rfl

end Sys2Proof.Machine
end

