-- ==== Sys2Proof/Laws/Flags.lean ====
section
/-! SUPPORT. Reading a flag after `STATUS` was written, and the fatal entry seen flag by flag. -/

namespace Sys2Proof.Machine

theorem Flag.bit_lt (f : Flag) : f.bit < 32 := by cases f <;> decide

theorem Flag.bit_injective {f g : Flag} (h : f.bit = g.bit) : f = g := by
  cases f <;> cases g <;> first | rfl | (exact absurd h (by decide))

/-- Bit `i` of `STATUS` after bit `k` was written. -/
theorem getLsbD_writeStatusBit (w : Word) (k i : Nat) (v : Bool) (hk : k < 32) :
    (writeStatusBit w k v).getLsbD i = if i = k then v else w.getLsbD i := by
  unfold writeStatusBit
  by_cases hi : i < 32
  · cases v <;> by_cases h : i = k <;> simp [h, hi, hk]
  · have h : i ≠ k := by omega
    have hw : w.getLsbD i = false := BitVec.getLsbD_of_ge w i (by omega)
    cases v <;> simp [h, hw, hi, BitVec.getLsbD_twoPow]
    omega

/-- A flag after a flag was written (rule R14). -/
@[simp] theorem State.flag_setFlag (s : State) (f g : Flag) (v : Bool) :
    (s.setFlag f v).flag g = if g = f then v else s.flag g := by
  unfold State.flag State.setFlag
  rw [getLsbD_writeStatusBit _ _ _ _ f.bit_lt]
  by_cases h : g = f
  · simp [h]
  · have : g.bit ≠ f.bit := fun e => h (Flag.bit_injective e)
    simp [h, this]

/-- A flag after a fatal entry (rule R291): the condition's own flag is 1, every other one as it was. -/
@[simp] theorem State.flag_raise (s : State) (x : Fatal) (src : Nat) (g : Flag) :
    (s.raise x src).flag g = if g = x.flag then true else s.flag g := State.flag_setFlag s x.flag g true

theorem State.flag_eq_of_status {s t : State} (h : s.status = t.status) (g : Flag) : s.flag g = t.flag g := by
  unfold State.flag; rw [h]

@[simp] theorem State.flag_clearStatus (s : State) (g : Flag) : s.clearStatus.flag g = false := by
  simp [State.flag]

@[simp] theorem State.flag_countFound (s : State) (n : Nat) (g : Flag) : (s.countFound n).flag g = s.flag g := rfl

@[simp] theorem State.flag_countFailed (s : State) (g : Flag) : s.countFailed.flag g = s.flag g := rfl

/-- A fatal flag is pending right after a fatal entry. -/
@[simp] theorem State.fatalPending_raise (s : State) (x : Fatal) (src : Nat) : (s.raise x src).fatalPending = true := by
  cases x <;> simp [State.fatalPending, Fatal.flag]

/-- Writing an outcome flag changes no fatal one. -/
theorem State.fatalPending_setFlag_outcome (s : State) (f : Flag) (v : Bool)
    (h : f = .noburst ∨ f = .syncnf ∨ f = .shortClk ∨ f = .shortPkt) :
    (s.setFlag f v).fatalPending = s.fatalPending := by
  rcases h with h | h | h | h <;> subst h <;> simp [State.fatalPending]

/-- A fatal entry changes nothing but `STATUS` and `ERR` (rule R291). -/
theorem State.raise_eq (s : State) (x : Fatal) (src : Nat) :
    s.raise x src = { s with status := (s.raise x src).status, err := (s.raise x src).err } := rfl

theorem sat_toNat (v : Nat) : (sat v).toNat = min v (2 ^ 32 - 1) := by
  unfold sat
  rw [BitVec.toNat_ofNat, Nat.mod_eq_of_lt]
  omega

end Sys2Proof.Machine
end

