-- ==== Sys2Proof/Laws/Num.lean ====
section
/-! SUPPORT. The real numbers: what the values written as data stand for, and what the search for a sign can answer. -/

namespace Sys2Proof

@[simp] theorem RealNum.toReal_ofRat (q : Rat) : (RealNum.ofRat q).toReal = q := by
  have h : (⟨((1 : Int) : ℝ), ((0 : Int) : ℝ)⟩ : ℂ) = 1 := by apply Complex.ext <;> simp
  simp only [RealNum.toReal, RealNum.ofRat, h, Complex.arg_one]
  simp

@[simp] theorem NumVal.toReal_ofRat (q : Rat) : (NumVal.ofRat q).toReal = q := RealNum.toReal_ofRat q

@[simp] theorem NumVal.toReal_zero : NumVal.zero.toReal = 0 :=
  (NumVal.toReal_ofRat 0).trans Rat.cast_zero

@[simp] theorem NumVal.toReal_host (k : Nat) : (NumVal.host k).toReal = hostReal k := rfl

@[simp] theorem NumVal.toReal_sum (a b : NumVal) : (NumVal.sum a b).toReal = a.toReal + b.toReal := rfl

@[simp] theorem NumVal.toReal_minus (a : NumVal) : (NumVal.minus a).toReal = -a.toReal := rfl

@[simp] theorem NumVal.toReal_prod (a b : NumVal) : (NumVal.prod a b).toReal = a.toReal * b.toReal := rfl

@[simp] theorem NumVal.toReal_recip (a : NumVal) : (NumVal.recip a).toReal = a.toReal⁻¹ := rfl

@[simp] theorem NumVal.toReal_angle (x y : NumVal) :
    (NumVal.angle x y).toReal = Complex.arg ⟨x.toReal, y.toReal⟩ := rfl

/-- A sign the search answers is one that an interval shows. -/
theorem signSearch_some {f : Nat → Option RatInterval} {n : Nat} {o : Ordering} (h : signSearch f n = some o) :
    ∃ m, (f m).bind RatInterval.sign? = some o := by
  refine signSearch.partial_correctness f (fun _ o => ∃ m, (f m).bind RatInterval.sign? = some o) ?_ n o h
  intro g hg n o h
  split at h
  · next p hp => exact ⟨n, by rw [hp, h]⟩
  · exact hg _ o h

/-- The search answers a sign where all intervals from some number on show it. -/
theorem signSearch_eq_some {f : Nat → Option RatInterval} {o : Ordering} {m : Nat}
    (ho : ∀ k p, (f k).bind RatInterval.sign? = some p → p = o)
    (hm : ∀ k, m ≤ k → (f k).bind RatInterval.sign? = some o) : ∀ n, signSearch f n = some o := by
  have key : ∀ d n, m ≤ n + d → signSearch f n = some o := by
    intro d
    induction d with
    | zero => intro n h; rw [signSearch, hm n h]
    | succ d ih =>
      intro n h
      rw [signSearch]
      split
      · next p hp => rw [ho n p hp]
      · exact ih (2 * n + 1) (by omega)
  exact fun n => key m n (by omega)

/-- The search has no answer where no interval shows a sign. -/
theorem signSearch_eq_none {f : Nat → Option RatInterval} (h : ∀ k, (f k).bind RatInterval.sign? = none) (n : Nat) :
    signSearch f n = none := by
  cases hs : signSearch f n with
  | none => rfl
  | some o =>
    obtain ⟨m, hm⟩ := signSearch_some hs
    rw [h m] at hm
    cases hm

theorem signByRounds_some {f : Nat → Option RatInterval} {o : Ordering} {rounds : List Nat}
    (h : signByRounds f rounds = some o) : ∃ m, (f m).bind RatInterval.sign? = some o := by
  induction rounds with
  | nil => cases h
  | cons n rest ih =>
    rw [signByRounds, Option.or_eq_some_iff] at h
    exact h.elim (fun h => ⟨n, h⟩) fun h => ih h.2

/-- Everything the sign of a number can be: one that an interval shows, or the sign of 0 where the search has no
answer. -/
theorem searchSign_cases (f : Nat → Option RatInterval) :
    (∃ m, (f m).bind RatInterval.sign? = some (searchSign f)) ∨ (searchSign f = .eq ∧ signSearch f 64 = none) := by
  unfold searchSign
  cases h1 : signByRounds f [2, 4, 8, 16, 32] with
  | some o => exact .inl (signByRounds_some h1)
  | none =>
    cases h2 : signSearch f 64 with
    | some o => exact .inl (signSearch_some h2)
    | none => exact .inr ⟨rfl, rfl⟩

/-- What an interval's sign says of a number in it. -/
theorem RatInterval.sign?_eq_some {v : RatInterval} {o : Ordering} {x : ℝ} (h : v.sign? = some o) (h1 : (v.lo : ℝ) ≤ x)
    (h2 : x ≤ (v.hi : ℝ)) : (o = .gt ∧ 0 < x) ∨ (o = .lt ∧ x < 0) := by
  unfold RatInterval.sign? at h
  split at h
  · next hl =>
    have : (0 : ℝ) < (v.lo : ℝ) := by exact_mod_cast hl
    exact .inl ⟨(Option.some.inj h).symm, lt_of_lt_of_le this h1⟩
  · split at h
    · next hh =>
      have : (v.hi : ℝ) < 0 := by exact_mod_cast hh
      exact .inr ⟨(Option.some.inj h).symm, lt_of_le_of_lt h2 this⟩
    · cases h

end Sys2Proof
end

