-- ==== Sys2Proof/Laws/Ops.lean ====
section
/-! SUPPORT. For each shared operation, once, everything it can do. -/

namespace Sys2Proof.Machine

/-- Every command answers a next state: the one it ended in, or that one with a fatal entry (rule R291). -/
theorem Run.finish_cases (r : Run) (opc : Nat) :
    (∃ t, r = .done t ∧ r.finish opc = .next t) ∨
      (∃ x t, r = .raised x t ∧ r.finish opc = .next (t.raise x opc)) := by
  cases r with
  | done t => exact .inl ⟨t, rfl, rfl⟩
  | raised x t => exact .inr ⟨x, t, rfl, rfl⟩

@[simp] theorem Run.finish_done (t : State) (opc : Nat) : (Run.done t).finish opc = .next t := rfl

@[simp] theorem Run.finish_raised (x : Fatal) (t : State) (opc : Nat) :
    (Run.raised x t).finish opc = .next (t.raise x opc) := rfl

@[simp] theorem Run.done_andThen (t : State) (f : State → Run) : (Run.done t).andThen f = f t := rfl

@[simp] theorem Run.raised_andThen (x : Fatal) (t : State) (f : State → Run) :
    (Run.raised x t).andThen f = .raised x t := rfl

/-- A sequence ends well exactly when its first part does and the rest does from there. -/
theorem Run.andThen_eq_done {r : Run} {f : State → Run} {t : State} :
    r.andThen f = .done t ↔ ∃ u, r = .done u ∧ f u = .done t := by
  cases r <;> simp [Run.andThen]

/-- A sequence raises exactly when its first part does, or the rest does after it. -/
theorem Run.andThen_eq_raised {r : Run} {f : State → Run} {x : Fatal} {t : State} :
    r.andThen f = .raised x t ↔ r = .raised x t ∨ ∃ u, r = .done u ∧ f u = .raised x t := by
  cases r <;> simp [Run.andThen]

/-- Everything `BD.NEXT` can do (rule R132). -/
theorem bdNextRun_cases (s : State) :
    (s.detectorIllegal = true ∧ bdNextRun s = .raised .configError s) ∨
    (s.detectorIllegal = false ∧ s.sampLen < s.bdCur ∧ bdNextRun s = .raised .rangeError s) ∨
    (s.detectorIllegal = false ∧ ¬ s.sampLen < s.bdCur ∧
      nextBurst s.samples s.thrLo s.thrHi s.cfgPad.toNat s.bdCur.toNat = none ∧
      bdNextRun s = .done (s.setFlag .noburst true)) ∨
    (∃ b, s.detectorIllegal = false ∧ ¬ s.sampLen < s.bdCur ∧
      nextBurst s.samples s.thrLo s.thrHi s.cfgPad.toNat s.bdCur.toNat = some b ∧
      ((s.burstCnt.toNat = s.build.burstCap ∧ bdNextRun s = .raised .rangeError s) ∨
        (s.burstCnt.toNat ≠ s.build.burstCap ∧ bdNextRun s = .done (s.enterBurst b)))) := by
  unfold bdNextRun
  cases h1 : s.detectorIllegal with
  | true => simp
  | false =>
    by_cases h2 : s.sampLen < s.bdCur
    · simp [h2]
    · cases h3 : nextBurst s.samples s.thrLo s.thrHi s.cfgPad.toNat s.bdCur.toNat with
      | none => simp [h2]
      | some b =>
        by_cases h4 : s.burstCnt.toNat = s.build.burstCap <;> simp [h2, h4]

/-- Everything `FD.FREQ` can do (rule R151). -/
theorem fdFreqRun_cases (ug : Bool) (s : State) :
    (s.segmentIllegal = true ∧ fdFreqRun ug s = .raised .rangeError s) ∨
      (s.segmentIllegal = false ∧ fdFreqRun ug s = .done (s.storeFreq (frequencies ug s.segment))) := by
  unfold fdFreqRun; cases s.segmentIllegal <;> simp

/-- Everything `FD.CLK` can do (rule R154). -/
theorem fdClkRun_cases (s : State) :
    ((s.cfgSps.toNat = 0 ∨ s.cfgSkip.toNat < 2) ∧ fdClkRun s = .raised .configError s) ∨
      (¬ (s.cfgSps.toNat = 0 ∨ s.cfgSkip.toNat < 2) ∧ fdClkRun s = .done s.recoverClock) := by
  unfold fdClkRun
  by_cases h : s.cfgSps.toNat = 0 ∨ s.cfgSkip.toNat < 2
  · exact .inl ⟨h, if_pos h⟩
  · exact .inr ⟨h, if_neg h⟩

/-- Everything `FD.SLICE` can do (rule R156). -/
theorem fdSliceRun_cases (s : State) :
    (s.cfgSps.toNat = 0 ∧ fdSliceRun s = .raised .configError s) ∨
      (s.cfgSps.toNat ≠ 0 ∧ fdSliceRun s = .done s.slice) := by
  unfold fdSliceRun; by_cases h : s.cfgSps.toNat = 0 <;> simp [h]

/-- Everything a single-phase scan can leave (rules R182 to R184). -/
theorem syExactOp_cases (s : State) :
    (∃ p, findExact (syncBits s.cfgSync) 0 s.bitList = some p ∧ syExactOp s = s.syncFound p 0) ∨
      (findExact (syncBits s.cfgSync) 0 s.bitList = none ∧ syExactOp s = s.syncMissed) := by
  unfold syExactOp; cases findExact (syncBits s.cfgSync) 0 s.bitList <;> simp

theorem syCorrOp_cases (s : State) :
    (∃ p hd, syCorrOp s = s.syncFound p hd) ∨ syCorrOp s = s.syncMissed := by
  unfold syCorrOp
  split
  · exact .inr rfl
  · simp only
    split
    · exact .inl ⟨_, _, rfl⟩
    · exact .inr rfl

/-- Everything `SY.SCAN` can do (rule R186). -/
theorem syScanRun_cases (s : State) :
    (s.cfgSps.toNat = 0 ∧ syScanRun s = .raised .configError s) ∨
    (s.cfgSps.toNat ≠ 0 ∧ s.build.candCap < (candidates (syncBytes s.cfgSync) s.cfgSps.toNat s.rawList).length ∧
      syScanRun s = .raised .rangeError s) ∨
    (s.cfgSps.toNat ≠ 0 ∧ (candidates (syncBytes s.cfgSync) s.cfgSps.toNat s.rawList).length ≤ s.build.candCap ∧
      syScanRun s = .done (s.storeCand
        ((candidates (syncBytes s.cfgSync) s.cfgSps.toNat s.rawList).map (BitVec.ofNat 32)))) := by
  unfold syScanRun
  by_cases h1 : s.cfgSps.toNat = 0
  · simp [h1]
  · by_cases h2 : s.build.candCap < (candidates (syncBytes s.cfgSync) s.cfgSps.toNat s.rawList).length
    · simp [h1, h2]
    · simp [h1, h2, Nat.le_of_not_lt h2]

/-- Everything `SY.DEDUP` can do (rule R189). -/
theorem syDedupRun_cases (s : State) :
    (s.cfgSps.toNat = 0 ∧ syDedupRun s = .raised .configError s) ∨
    (s.cfgSps.toNat ≠ 0 ∧ s.build.matchCap < (dedup s.cfgSps.toNat none s.sortedCandidates).length ∧
      syDedupRun s = .raised .rangeError s) ∨
    (s.cfgSps.toNat ≠ 0 ∧ (dedup s.cfgSps.toNat none s.sortedCandidates).length ≤ s.build.matchCap ∧
      syDedupRun s = .done (s.enterMatches s.sortedCandidates (dedup s.cfgSps.toNat none s.sortedCandidates))) := by
  unfold syDedupRun
  by_cases h1 : s.cfgSps.toNat = 0
  · simp [h1]
  · by_cases h2 : s.build.matchCap < (dedup s.cfgSps.toNat none s.sortedCandidates).length
    · simp [h1, h2]
    · simp [h1, h2, Nat.le_of_not_lt h2]

/-- Everything `SY.GETB.R` can do (rule R190). -/
theorem syGetbRRun_cases (index : Nat) (s : State) :
    (s.cfgSps.toNat = 0 ∧ syGetbRRun index s = .raised .configError s) ∨
    (s.cfgSps.toNat ≠ 0 ∧ s.matchCnt.toNat ≤ index ∧ syGetbRRun index s = .raised .rangeError s) ∨
    (s.cfgSps.toNat ≠ 0 ∧ index < s.matchCnt.toNat ∧ syGetbRRun index s = .done (s.storeRb
      (readBytes ((s.hitAt index).pos.toNat + 32 * s.cfgSps.toNat) s.cfgSps.toNat s.cfgMaxb.toNat s.rawList))) := by
  unfold syGetbRRun
  by_cases h1 : s.cfgSps.toNat = 0
  · simp [h1]
  · by_cases h2 : s.matchCnt.toNat ≤ index
    · simp [h1, h2]
    · have : index < s.matchCnt.toNat := by omega
      simp [h1, h2, this]

/-- Everything `DW.RUN` can do (rule R211). -/
theorem dwRunRun_cases (s : State) :
    (39 < s.cfgChan.toNat ∧ dwRunRun s = .raised .invalidChannel s) ∨
    (s.cfgChan.toNat ≤ 39 ∧ dwRunRun s = .done (s.storeDw (dewhiten s.build (startIndex s.cfgChan.toNat) s.rbList))) := by
  unfold dwRunRun State.channelIllegal Config.maxChannel
  by_cases h : 39 < s.cfgChan.toNat
  · simp [h]
  · simp [h, Nat.le_of_not_lt h]

/-- Everything `PF.FRAME` can do (rule R226). -/
theorem pfFrameRun_cases (s : State) :
    (s.outCnt.toNat = s.build.outCap ∧ pfFrameRun s = .raised .rangeError s) ∨
      (s.outCnt.toNat ≠ s.build.outCap ∧ pfFrameRun s = .done s.emitPacket) := by
  unfold pfFrameRun
  by_cases h : s.outCnt.toNat = s.build.outCap <;> simp [h]

/-- Strided reading is indexing: element `k` is the element at `skip + k * stride` (rule R90). -/
theorem getElem?_everyNth {α : Type} (stride : Nat) (hs : 0 < stride) (xs : List α) :
    ∀ skip k, (everyNth stride skip xs)[k]? = xs[skip + k * stride]? := by
  induction xs with
  | nil => intro skip k; simp [everyNth]
  | cons x rest ih =>
    intro skip k
    cases skip with
    | succ m =>
      have : m + 1 + k * stride = (m + k * stride) + 1 := by omega
      simp only [everyNth, ih, this, List.getElem?_cons_succ]
    | zero =>
      cases k with
      | zero => simp [everyNth]
      | succ k =>
        have : 0 + (k + 1) * stride = (stride - 1 + k * stride) + 1 := by
          have : (k + 1) * stride = k * stride + stride := by ring
          omega
        simp only [everyNth, List.getElem?_cons_succ, ih, this]

@[simp] theorem length_packBytes (n : Nat) (bits : List Bool) : (packBytes n bits).length = n := by
  induction n generalizing bits with
  | zero => rfl
  | succ n ih => simp [packBytes, ih]

theorem bitsToNat_lt (bits : List Bool) : bitsToNat bits < 2 ^ bits.length := by
  induction bits with
  | nil => simp [bitsToNat]
  | cons b rest ih =>
    have : b.toNat ≤ 1 := Bool.toNat_le b
    simp only [bitsToNat, List.length_cons, pow_succ]
    omega

/-- Bit `i` of the number is the `i`-th bit of the list (rule R83). -/
theorem testBit_bitsToNat (bits : List Bool) (i : Nat) : (bitsToNat bits).testBit i = bits.getD i false := by
  induction bits generalizing i with
  | nil => simp [bitsToNat]
  | cons b rest ih =>
    cases i with
    | zero => cases b <;> simp [bitsToNat, Nat.testBit_zero]
    | succ i =>
      have h : (b.toNat + 2 * bitsToNat rest) / 2 = bitsToNat rest := by
        have : b.toNat ≤ 1 := Bool.toNat_le b
        omega
      simp [bitsToNat, Nat.testBit_succ, h, ih]

/-- The whitening of a byte list changes no length. -/
@[simp] theorem length_dewhiten (b : Build) (idx : Nat) (bs : List Byte) : (dewhiten b idx bs).length = bs.length := by
  induction bs generalizing idx with
  | nil => rfl
  | cons v rest ih => simp [dewhiten, ih]

@[simp] theorem length_dewhitenBits (b : Build) (idx : Nat) (bs : List Bool) : (dewhitenBits b idx bs).length = bs.length := by
  induction bs generalizing idx with
  | nil => rfl
  | cons v rest ih => simp [dewhitenBits, ih]

end Sys2Proof.Machine
end

