-- ==== Sys2Proof/Laws/PerInstr.lean ====
section
/-! SUPPORT. A family of lemmas with one member per instruction: the `OPC` field of an instruction's word. -/

namespace Sys2Proof.Laws

/-- The low byte of a well-formed instruction's word is its row's `OPC` value (rules R96, R99). -/
def OpcodeField.Statement (i : Instr) : Prop := i.wellFormed = true → opcField (encode i) = i.opc

theorem OpcodeField.nop : OpcodeField.Statement .nop := fun _ => by decide

theorem OpcodeField.clrst : OpcodeField.Statement .clrst := fun _ => by decide

theorem OpcodeField.clrcnt : OpcodeField.Statement .clrcnt := fun _ => by decide

theorem OpcodeField.setthr (single : Bool) : OpcodeField.Statement (.setthr single) := by
  intro _
  cases single <;> decide

theorem OpcodeField.setrefZ : OpcodeField.Statement .setrefZ := fun _ => by decide

theorem OpcodeField.setrefC : OpcodeField.Statement .setrefC := fun _ => by decide

theorem OpcodeField.setrefD : OpcodeField.Statement .setrefD := fun _ => by decide

theorem OpcodeField.outclr : OpcodeField.Statement .outclr := fun _ => by decide

theorem OpcodeField.bdRst : OpcodeField.Statement .bdRst := fun _ => by decide

theorem OpcodeField.bdNext : OpcodeField.Statement .bdNext := fun _ => by decide

theorem OpcodeField.bdAll : OpcodeField.Statement .bdAll := fun _ => by decide

theorem OpcodeField.squelch : OpcodeField.Statement .squelch := fun _ => by decide

theorem OpcodeField.fdFreq (ug : Bool) : OpcodeField.Statement (.fdFreq ug) := by
  intro _
  cases ug <;> decide

theorem OpcodeField.fdClk : OpcodeField.Statement .fdClk := fun _ => by decide

theorem OpcodeField.fdSlice : OpcodeField.Statement .fdSlice := fun _ => by decide

theorem OpcodeField.fdBin : OpcodeField.Statement .fdBin := fun _ => by decide

theorem OpcodeField.fdDemod (ug ck : Bool) : OpcodeField.Statement (.fdDemod ug ck) := by
  intro _
  cases ug <;> cases ck <;> decide

theorem OpcodeField.syExact : OpcodeField.Statement .syExact := fun _ => by decide

theorem OpcodeField.syCorr : OpcodeField.Statement .syCorr := fun _ => by decide

theorem OpcodeField.syScan : OpcodeField.Statement .syScan := fun _ => by decide

theorem OpcodeField.syDedup : OpcodeField.Statement .syDedup := fun _ => by decide

theorem OpcodeField.syGetb : OpcodeField.Statement .syGetb := fun _ => by decide

theorem OpcodeField.syGetbR (index : Nat) : OpcodeField.Statement (.syGetbR index) := by
  intro h
  simp only [Instr.wellFormed, decide_eq_true_eq] at h
  simp only [opcField, encode, Instr.opc, Instr.modBits, Instr.immBits, BitVec.toNat_ofNat]
  omega

theorem OpcodeField.dwRun : OpcodeField.Statement .dwRun := fun _ => by decide

theorem OpcodeField.pfFrame : OpcodeField.Statement .pfFrame := fun _ => by decide

theorem OpcodeField.pipeBurst (ug ck cr : Bool) : OpcodeField.Statement (.pipeBurst ug ck cr) := by
  intro _
  cases ug <;> cases ck <;> cases cr <;> decide

theorem OpcodeField.pipeStream (ug : Bool) : OpcodeField.Statement (.pipeStream ug) := by
  intro _
  cases ug <;> decide

end Sys2Proof.Laws
end

