-- ==== Sys2Proof/Tests/Slice0.lean ====
section
/-! SUPPORT. Tests: the well-formedness smoke, decoding of words written out from rules R96 to R104, one or two worked
examples of spec/ for each instruction (95_test_vectors.md and the operation rules name them), and for every statement
with hypotheses a state that meets them. -/

namespace Sys2Proof.Machine.Tests

/-! One theorem at a time: the kernel checks of many tests waiting at once would each hold a thread's stack. -/

set_option Elab.async false

/-! Helpers: small states over reset. -/

/-- The state a command leaves. -/
def after (o : Host.Outcome State Fault Refusal) : State :=
  match o with
  | .next t => t
  | .fault _ | .refused _ => State.reset

theorem finish_after (r : Run) (opc : Nat) : r.finish opc = .next (after (r.finish opc)) := by cases r <;> rfl

/-- A sample of two rational numbers. -/
def point (x y : Rat) : Sample := ⟨.ofRat x, .ofRat y⟩

/-- A loaded stream with thresholds 4 and 6 and two samples per symbol. -/
def stream (xs : List Sample) : State :=
  { State.reset with
    cfgSps := 2, thrLo := .ofRat 4, thrHi := .ofRat 6, cfgPad := 1, cfgChan := 37, sampLen := BitVec.ofNat 32 xs.length
    segStop := BitVec.ofNat 32 xs.length, mem := { Memory.empty with samp := Buf.empty.fill 0 xs } }

/-- Real samples of given amplitudes. -/
def amps (xs : List Rat) : List Sample := xs.map fun a => point a 0

/-- A frequency signal in multiples of `pi`. -/
def tones (sps : Nat) (xs : List Rat) : State :=
  { State.reset with cfgSps := BitVec.ofNat 32 sps }.storeFreq (xs.map NumVal.ofPi)

/-- Bits for the single-phase scans. -/
def bits (xs : List Bool) : State := State.reset.storeBits xs

/-- A raw signal for the phase search. -/
def raws (sps : Nat) (xs : List Bool) : State := { State.reset with cfgSps := BitVec.ofNat 32 sps }.storeRaw xs

/-- The default sync pattern of rule R100, written out. -/
def pat : List Bool :=
  [0, 1, 1, 0, 1, 0, 1, 1, 0, 1, 1, 1, 1, 1, 0, 1, 1, 0, 0, 1, 0, 0, 0, 1, 0, 1, 1, 1, 0, 0, 0, 1].map (· == 1)

/-- The pattern after eight zeros, two of its bits inverted, and two ones. -/
def damaged : List Bool :=
  (List.replicate 8 false ++ pat.zipIdx.map (fun v => if v.2 = 3 ∨ v.2 = 17 then !v.1 else v.1)) ++ [true, true]

def candidatesOf (sps : Nat) (xs : List Nat) : State :=
  { State.reset with cfgSps := BitVec.ofNat 32 sps }.storeCand (xs.map (BitVec.ofNat 32))

def bytesOf (xs : List Nat) : List Byte := xs.map (BitVec.ofNat 8)

/-- A tone: each bit turns the sample by a quarter, forwards for 1 and backwards for 0. -/
def turned : Sample → List Bool → List Sample
  | v, [] => [v]
  | v, b :: rest => v :: turned (if b then ⟨v.im.neg, v.re⟩ else ⟨v.im, v.re.neg⟩) rest

/-- Silence, then the pattern and the whitening of five zero bytes on channel 37 (rule R211's example), then silence. -/
def packetStream : State :=
  { stream ((point 0 0 :: turned (point 9 0) (pat ++ (bytesOf [0x8D, 0xD2, 0x57, 0xA1, 0x3D]).flatMap byteBits))
      ++ [point 0 0, point 0 0]) with cfgSps := 1 }

/-! Well-formedness and decoding. -/

/-- Rule R98: a 17-bit match index is no operand of a command word. -/
theorem test_index_too_large_is_ill_formed : (Instr.syGetbR 65536).wellFormed = false := by decide

theorem test_greatest_index_is_well_formed : (Instr.syGetbR 65535).wellFormed = true := by decide

theorem test_decode_control :
    decode 0x00000000 = .ok .nop ∧ decode 0x00000001 = .ok .clrst ∧ decode 0x00000002 = .ok .clrcnt
      ∧ decode 0x00000003 = .ok (.setthr false) ∧ decode 0x00000103 = .ok (.setthr true)
      ∧ decode 0x00000004 = .ok .setrefZ ∧ decode 0x00000104 = .ok .setrefC ∧ decode 0x00000204 = .ok .setrefD
      ∧ decode 0x00000005 = .ok .outclr := by decide

theorem test_decode_burst :
    decode 0x00000010 = .ok .bdRst ∧ decode 0x00000011 = .ok .bdNext ∧ decode 0x00000012 = .ok .bdAll
      ∧ decode 0x00000013 = .ok .squelch := by decide

theorem test_decode_demod :
    decode 0x00000020 = .ok (.fdFreq false) ∧ decode 0x00000120 = .ok (.fdFreq true) ∧ decode 0x00000021 = .ok .fdClk
      ∧ decode 0x00000022 = .ok .fdSlice ∧ decode 0x00000023 = .ok .fdBin
      ∧ decode 0x00000124 = .ok (.fdDemod true false) ∧ decode 0x00000224 = .ok (.fdDemod false true) := by decide

theorem test_decode_sync :
    decode 0x00000030 = .ok .syExact ∧ decode 0x00000031 = .ok .syCorr ∧ decode 0x00000032 = .ok .syScan
      ∧ decode 0x00000033 = .ok .syDedup ∧ decode 0x00000034 = .ok .syGetb ∧ decode 0x00030134 = .ok (.syGetbR 3) := by
  decide

theorem test_decode_white_frame_pipe :
    decode 0x00000040 = .ok .dwRun ∧ decode 0x00000050 = .ok .pfFrame
      ∧ decode 0x00000160 = .ok (.pipeBurst true false false) ∧ decode 0x00000260 = .ok (.pipeBurst false true false)
      ∧ decode 0x00000460 = .ok (.pipeBurst false false true) ∧ decode 0x00000161 = .ok (.pipeStream true) := by decide

/-- Rule R103's four kinds of illegal word. -/
theorem test_decode_illegal :
    decode 0x000000FF = .error (.reservedOpcode 0xFF) ∧ decode 0x00000111 = .error (.undefinedModifier 0x11 1)
      ∧ decode 0x00000304 = .error .reservedReferenceMode ∧ decode 0x00010034 = .error (.immediateNotUsed 0x34 1)
      ∧ decode 0x00000100 = .error (.undefinedModifier 0 1) := by decide

theorem test_table_word : decodeTableWord 32 0x00030134 = some (.syGetbR 3) ∧ decodeTableWord 32 0x06 = none := by decide

/-- Rule R281 on the first transaction after reset. -/
theorem test_step_illegal : (after (step (State.reset.withFetchWord 32 0x06))).err = 0x0604 := by decide

/-- Rule R32: the register indices at the ends of the table and the reserved ones. -/
theorem test_register_indices :
    Reg.ofIndex 0x00 = some .cfgFs ∧ Reg.ofIndex 0x0D = some .cfgMaxb ∧ Reg.ofIndex 0x0E = none
      ∧ Reg.ofIndex 0x0F = none ∧ Reg.ofIndex 0x10 = some .sampLen ∧ Reg.ofIndex 0x24 = some .pfDecl
      ∧ Reg.ofIndex 0x25 = none ∧ Space.ofId 7 = some .hits ∧ Space.ofId 13 = none := by decide

/-! Instructions, by the worked examples of their rules. -/

/-- Rule R256's example. -/
theorem test_clrst : (after (exec .clrst { State.reset with status := 0x102, err := 0x4001 })).status = 0 := by decide

/-- Rule R257's example. -/
theorem test_clrcnt : (after (exec .clrcnt { State.reset with cntFound := 7, cntFailed := 2 })).cntFound = 0 := by decide

/-- Rule R258's examples. -/
theorem test_setthr_pair :
    ((after (exec (.setthr false) { State.reset with cfgThresh := .ofRat 50 })).thrLo,
      (after (exec (.setthr false) { State.reset with cfgThresh := .ofRat 50 })).thrHi) = (.ofRat 40, .ofRat 60) := by decide +kernel

theorem test_setthr_single :
    (after (exec (.setthr true) { State.reset with cfgThresh := .ofRat 50 })).thrLo = .ofRat 50 := by decide +kernel

/-- Rule R259's example: `pi/8`. -/
theorem test_setref_cfo :
    (after (exec .setrefC { State.reset with cfgFs := .ofRat 4000000, cfgCfo := .ofRat (-250000) })).fdRef
      = .ofPi (-1 / 8) := by
  decide +kernel

theorem test_setref_direct :
    (after (exec .setrefD { State.reset with cfgRef := .ofRat (1 / 3) })).fdRef = .ofRat (1 / 3) := by decide +kernel

theorem test_setref_zero :
    (after (exec .setrefZ { State.reset with fdRef := .ofRat (1 / 3) })).fdRef = .ofRat 0 := by decide +kernel

/-- Rules R34 and R259: a carrier offset of `pi` Hz at `pi` Hz is a reference of `2*pi`, above 6. -/
theorem test_setref_real :
    (after (exec .setrefC { State.reset with cfgFs := .ofPi 1, cfgCfo := .ofPi 1 })).fdRef.gt (.ofRat 6) = true := by
  decide +kernel

/-- Rule R19: 355/113 lies above `pi`, and 333/106 below it. -/
theorem test_order_is_exact :
    (NumVal.ofPi 1).gt (.ofRat (355 / 113)) = false ∧ (NumVal.ofPi 1).gt (.ofRat (333 / 106)) = true := by
  decide +kernel

/-- Rules R16 and R17: with a real threshold and a real component, `|pi + 3i|` lies above 4 and below `3*pi/2`. -/
theorem test_amplitude_of_reals :
    ampAbove (.ofRat 4) ⟨.ofPi 1, .ofRat 3⟩ = true ∧ ampBelow (.ofPi (3 / 2)) ⟨.ofPi 1, .ofRat 3⟩ = true := by
  decide +kernel

/-- Rule R261: the host writes `pi` to `THR_LO`, and reads it back. -/
theorem test_host_writes_pi :
    (after (hostRegRead 3 (after (hostRegWrite 3 (.num (.ofPi 1)) State.reset)))).replies = [.num (.ofPi 1)] := by
  decide +kernel

/-- Rule R260's example. -/
theorem test_outclr : (after (exec .outclr { State.reset with outCnt := 3 })).outCnt = 0 := by decide

theorem test_bd_rst : (after (exec .bdRst { State.reset with bdCur := 9, burstCnt := 2 })).bdCur = 0 := by decide

/-- Vector B1 (rule R132's example). -/
theorem test_bd_next : (after (exec .bdNext (stream (amps [0, 0, 0, 9, 9, 9, 0, 0, 0, 0])))).burstList = [⟨2, 7⟩] := by
  decide +kernel

/-- Rule R132, corner case (c): an amplitude equal to the high threshold starts no burst. -/
theorem test_bd_next_strict :
    (after (exec .bdNext { stream [point 3 4, point 0 0] with thrHi := .ofRat 5 })).flag .noburst = true := by decide +kernel

/-- Vector B2 (rule R133's example). -/
theorem test_bd_all :
    (after (exec .bdAll (stream (amps [0, 9, 9, 0, 0, 0, 0, 9, 0, 0])))).burstList = [⟨0, 4⟩, ⟨6, 9⟩] := by
  decide +kernel

/-- Vector B6: the leading pad is clamped at the cursor. -/
theorem test_bd_all_clamps_at_cursor :
    (after (exec .bdAll { stream (amps [0, 9, 0, 0, 0, 9, 0, 0]) with cfgPad := 2 })).burstList = [⟨0, 4⟩, ⟨4, 8⟩] := by
  decide +kernel

/-- Rule R134: a quiet sample inside the pad is copied, one outside is zeroed. -/
theorem test_squelch :
    (List.range 10).map (fun n => ((after (exec .squelch (stream (amps [0, 1, 2, 9, 9, 9, 3, 0, 0, 1])))).sqlAt n).re)
      = [0, 0, 2, 9, 9, 9, 3, 0, 0, 0].map NumVal.ofRat := by decide +kernel

/-- Vector F1 (rule R151's example), both strategies. -/
theorem test_fd_freq :
    (after (exec (.fdFreq false) (stream [point 1 0, point 0 1, point (-1) 0, point 0 1, point 0 (-1)]))).freqs
      = [1 / 2, 1 / 2, -1 / 2, 1].map NumVal.ofPi := by decide +kernel

theorem test_fd_freq_unwrap :
    (after (exec (.fdFreq true) (stream [point 1 0, point 0 1, point (-1) 0, point 0 1, point 0 (-1)]))).freqs
      = [1 / 2, 1 / 2, -1 / 2, 1].map NumVal.ofPi := by decide +kernel

/-- Rule R154's example. -/
theorem test_fd_clk :
    (after (exec .fdClk (tones 4 [1 / 10, 2 / 10, 1 / 10, 0, 3 / 10, 9 / 10, 9 / 10, 2 / 10]))).fdOff = 1 := by
  decide +kernel

theorem test_fd_clk_short :
    (after (exec .fdClk (tones 4 [1 / 10, 2 / 10, 1 / 10, 0, 3 / 10, 9 / 10, 9 / 10]))).flag .shortClk = true := by
  decide +kernel

/-- Rule R156's example. -/
theorem test_fd_slice :
    (after (exec .fdSlice
      { tones 2 [1 / 2, 1 / 2, -1 / 2, -1 / 2, 1 / 2, 1 / 2, 0] with fdOff := 1 })).bitList = [true, false, true] := by
  decide +kernel

theorem test_fd_slice_from_zero :
    (after (exec .fdSlice (tones 2 [1 / 2, 1 / 2, -1 / 2, -1 / 2, 1 / 2, 1 / 2, 0]))).bitList
      = [true, false, true, false] := by decide +kernel

/-- Rule R157's example. -/
theorem test_fd_bin : (after (exec .fdBin (tones 1 [1 / 2, -1 / 2, 0, 1]))).rawList = [true, false, false, true] := by
  decide +kernel

/-- Rule R158's example. -/
theorem test_fd_demod :
    (after (exec (.fdDemod false false)
      (stream [point 1 0, point 0 1, point (-1) 0, point 0 (-1), point 1 0, point 0 (-1), point (-1) 0]))).bitList = [true, true, false] := by
  decide +kernel

/-- Vector S1 (rule R183's example). -/
theorem test_sy_exact :
    (after (exec .syExact (bits (List.replicate 8 false ++ pat ++ [true, true])))).syPos = 8 := by decide +kernel

theorem test_sy_exact_missed : (after (exec .syExact (bits damaged))).cntFailed = 1 := by decide +kernel

/-- Rule R184's example. -/
theorem test_sy_corr :
    ((after (exec .syCorr (bits damaged))).syPos, (after (exec .syCorr (bits damaged))).syHd) = (8, 2) := by
  decide +kernel

theorem test_sy_corr_tolerance : (after (exec .syCorr { bits damaged with cfgTol := 1 })).flag .syncnf = true := by
  decide +kernel

/-- Rule R186's example. -/
theorem test_sy_scan :
    (after (exec .syScan (raws 2 (false :: ((List.replicate 3 false ++ pat).flatMap (List.replicate 2)))))).candList
      = [8, 7] := by decide +kernel

/-- Rule R189's examples. -/
theorem test_sy_dedup :
    (after (exec .syDedup (candidatesOf 2 [8, 7]))).hitList = [⟨7, 1⟩] := by decide +kernel

theorem test_sy_dedup_chain :
    (after (exec .syDedup (candidatesOf 4 [10, 11, 12, 13, 14, 15, 40]))).hitList
      = [⟨10, 2⟩, ⟨14, 2⟩, ⟨40, 0⟩] := by decide +kernel

/-- Rule R190's example. -/
theorem test_sy_getb :
    (after (exec .syGetb { bits (List.replicate 8 false ++ pat ++ [1, 0, 1, 0, 1, 0, 1, 0, 0, 0, 0, 0, 1, 1, 1, 1, 1, 1,
      1].map (· == 1)) with syPos := 8 })).rbList = bytesOf [0x55, 0xF0] := by decide +kernel

/-- Rule R190, `R = 1`: eight symbols at the match's phase are one byte. -/
theorem test_sy_getb_r :
    (after (exec (.syGetbR 0) ((raws 1 (pat ++ [1, 0, 1, 0, 0, 0, 0, 1, 1].map (· == 1))).storeHits [⟨0, 0⟩]))).rbList
      = bytesOf [0x85] := by decide +kernel

theorem test_sy_getb_r_index : (after (exec (.syGetbR 0) (raws 1 pat))).err = 0x3403 := by decide +kernel

/-- Rule R211's example. -/
theorem test_dw_run :
    (after (exec .dwRun ({ State.reset with cfgChan := 37 }.storeRb (bytesOf [0, 0, 0, 0, 0, 0])))).dwList
      = bytesOf [0x8D, 0xD2, 0x57, 0xA1, 0x3D, 0xA7] := by decide +kernel

theorem test_dw_run_channel : (after (exec .dwRun { State.reset with cfgChan := 40 })).err = 0x4001 := by decide +kernel

/-- Rule R226's example. -/
theorem test_pf_frame :
    ((after (exec .pfFrame (State.reset.storeDw
      (bytesOf [0x02, 0x05, 1, 2, 3, 4, 5, 10, 11, 12, 0xEE, 0xEE])))).packetAt 0).bytes
      = bytesOf [0x02, 0x05, 1, 2, 3, 4, 5, 10, 11, 12] := by decide +kernel

theorem test_pf_frame_short :
    ((after (exec .pfFrame (State.reset.storeDw (bytesOf [2])))).packetAt 0).short = true := by decide +kernel

/-- Rules R241 and R242: one packet of five zero bytes, from the burst path and from the phase search. -/
theorem test_pipe_burst :
    ((after (exec (.pipeBurst false true true) packetStream)).outCnt,
      ((after (exec (.pipeBurst false true true) packetStream)).packetAt 0)) = (1, ⟨37, false, bytesOf [0, 0, 0, 0, 0]⟩) := by
  decide +kernel

theorem test_pipe_stream :
    ((after (exec (.pipeStream true) packetStream)).outCnt,
      ((after (exec (.pipeStream true) packetStream)).packetAt 0)) = (1, ⟨37, false, bytesOf [0, 0, 0, 0, 0]⟩) := by
  decide +kernel

/-- Rule R278 before rule R279: the channel is rejected first. -/
theorem test_pipe_burst_channel : (after (exec (.pipeBurst false true true) State.reset)).err = 0x6001 := by
  decide +kernel

/-- Rule R242, corner case (a). -/
theorem test_pipe_stream_empty :
    (after (exec (.pipeStream false) (stream (amps [9])))).cntFailed = 1 := by decide +kernel

/-! For each statement with hypotheses, a state and operands that meet all of them together. -/

theorem test_witness_DecodeOfEncode : (Instr.syGetbR 65535).wellFormed = true := by decide

theorem test_witness_EncodeOfDecode : decode 0xFFFF0134 = .ok (.syGetbR 65535) := by decide

/-- No row's word is 0x304 or 0x100. -/
theorem encode_ne_illegal (i : Instr) (h : i.wellFormed = true) : encode i ≠ 0x304 ∧ encode i ≠ 0x100 := by
  cases i with
  | syGetbR index =>
    simp only [Instr.wellFormed, decide_eq_true_eq] at h
    constructor <;> intro e <;> have := congrArg BitVec.toNat e <;>
      simp [encode, Instr.opc, Instr.modBits, Instr.immBits] at this <;> omega
  | setthr a => cases a <;> decide
  | fdFreq a => cases a <;> decide
  | pipeStream a => cases a <;> decide
  | fdDemod a b => cases a <;> cases b <;> decide
  | pipeBurst a b c => cases a <;> cases b <;> cases c <;> decide
  | _ => decide

theorem test_witness_IllegalWordRaisesIllegalCommand :
    ((∀ i : Instr, i.wellFormed = true → encode i ≠ 0x304) ∧ State.reset.fatalBits = 0)
      ∧ (∀ i : Instr, i.wellFormed = true → encode i ≠ 0x100)
      ∧ (0x100#32).toNat % 256 ∈ [0x00, 0x01, 0x02, 0x05] :=
  ⟨⟨fun i h => (encode_ne_illegal i h).1, by decide⟩, fun i h => (encode_ne_illegal i h).2, by decide⟩

theorem test_witness_StepRunsDecodedCommand :
    (State.reset.withFetchWord 32 0x11).pending = .cmd 0x11 :: [] ∧ (State.reset.withFetchWord 32 0x11).fatalBits = 0
      ∧ decode 0x11 = .ok .bdNext := by decide

/-- A blocked command, and an idle block. -/
theorem test_witness_BlockedOrIdleBlockKeepsItsState :
    ({ State.reset with status := 0x1000, pending := [.cmd 0x11] }.fatalBits ≠ 0
      ∧ (0x11#32).toNat % 256 ∉ [0x00, 0x01, 0x02, 0x05]) ∧ State.reset.pending = [] := by decide

theorem test_witness_ResetEventGivesResetValues :
    ({ State.reset with cfgSps := 7, pending := [.reset] } : State).pending = .reset :: [] := rfl

theorem test_witness_RaisingOperationChangesOnlyStatusAndErr :
    isPipeline .dwRun = false ∧ exec .dwRun State.reset = .next (after (exec .dwRun State.reset)) :=
  ⟨rfl, finish_after (dwRunRun State.reset) _⟩

theorem test_witness_InvalidChannelCauses :
    State.reset.fatalBits = 0
      ∧ exec (.pipeStream true) State.reset = .next (after (exec (.pipeStream true) State.reset))
      ∧ channelCause State.reset (.pipeStream true) :=
  ⟨by decide, finish_after (pipeStreamRun true State.reset) _, by unfold channelCause; decide⟩

theorem test_witness_ConfigErrorCauses :
    State.reset.fatalBits = 0 ∧ exec .fdClk State.reset = .next (after (exec .fdClk State.reset))
      ∧ configCause State.reset .fdClk ∧ ¬ channelCause State.reset .fdClk :=
  ⟨by decide, finish_after (fdClkRun State.reset) _, .inl rfl, id⟩

theorem test_witness_RangeErrorCauses :
    isPipeline (.syGetbR 0) = false ∧ (raws 1 pat).mem.wf = true ∧ (raws 1 pat).fatalBits = 0
      ∧ exec (.syGetbR 0) (raws 1 pat) = .next (after (exec (.syGetbR 0) (raws 1 pat)))
      ∧ rangeCause (raws 1 pat) (.syGetbR 0) ∧ ¬ configCause (raws 1 pat) (.syGetbR 0) :=
  ⟨rfl, by decide, by decide, finish_after (syGetbRRun 0 (raws 1 pat)) _, by unfold rangeCause; decide,
    by unfold configCause; decide⟩

theorem test_witness_FatalFlagsAreSticky :
    ({ State.reset with status := 0x200, pending := [.cmd 0x00] }.flag .cfgerr = true)
      ∧ step { State.reset with status := 0x200, pending := [.cmd 0x00] } = .next { State.reset with status := 0x200 } :=
  ⟨by decide, rfl⟩

theorem test_witness_OutcomeFlagsBelongToTheirOperations :
    exec .clrcnt State.reset = .next State.reset ∧ ownsFlag .noburst .clrcnt = false := ⟨rfl, rfl⟩

/-- Both clauses: at the boundary 0, and just below it. -/
theorem test_witness_SetthrDerivesTheThresholds : 0 ≤ State.reset.cfgThresh.toReal
    ∧ ({ State.reset with cfgThresh := .ofRat (-1) } : State).cfgThresh.toReal < 0 := by
  refine ⟨(NumVal.toReal_ofRat 0).ge.trans' (by norm_num), ?_⟩
  change (NumVal.ofRat (-1)).toReal < 0
  rw [NumVal.toReal_ofRat]
  norm_num

/-- Both clauses of the carrier form: a positive rate, and the boundary 0. -/
theorem test_witness_SetrefSelectsTheReference :
    0 < ({ State.reset with cfgFs := .ofRat 4000000 } : State).cfgFs.toReal ∧ State.reset.cfgFs.toReal ≤ 0 := by
  constructor
  · change 0 < (NumVal.ofRat 4000000).toReal
    rw [NumVal.toReal_ofRat]
    norm_num
  · exact (NumVal.toReal_ofRat 0).le.trans (by norm_num)

theorem test_witness_StatusAndCounterOperations : State.reset.fatalBits = 0 := by decide

theorem test_witness_AmplitudeComparisonsAreExact : 0 ≤ (NumVal.ofRat 5).toReal := by
  rw [NumVal.toReal_ofRat]
  norm_num

/-- One loud sample between two quiet ones, no pad. -/
def pulse : State := { stream (amps [0, 9, 0]) with cfgPad := 0 }

/-- Thresholds 4 and 6 and a small pad are legal. -/
theorem ready_of_thresholds {s : State} (h1 : s.thrLo = .ofRat 4) (h2 : s.thrHi = .ofRat 6)
    (h3 : s.cfgPad.toNat < 2 ^ 31) : s.detectorReady := by
  refine ⟨?_, ?_, h3⟩ <;> simp only [h1, h2, NumVal.toReal_ofRat] <;> norm_num

theorem pulse_ready : pulse.detectorReady := ready_of_thresholds rfl rfl (by decide)

theorem realAmp_point (x y : Rat) : (point x y).realAmp = Real.sqrt ((x : ℝ) * x + (y : ℝ) * y) := by
  simp [Sample.realAmp, point]

theorem pulse_loud : pulse.loud 1 := by
  have h : pulse.sampAt 1 = point 9 0 := by decide +kernel
  have h2 : pulse.thrHi = .ofRat 6 := rfl
  unfold State.loud
  rw [h, h2, realAmp_point, NumVal.toReal_ofRat]
  apply Real.lt_sqrt_of_sq_lt
  norm_num

theorem pulse_quiet (n : Nat) (h : pulse.sampAt n = point 0 0) : pulse.quiet n ∧ ¬ pulse.loud n := by
  have h1 : pulse.thrLo = .ofRat 4 := rfl
  have h2 : pulse.thrHi = .ofRat 6 := rfl
  constructor <;> simp [State.quiet, State.loud, realAmp_point, h, h1, h2]

theorem pulse_not_quiet : ¬ pulse.quiet 1 := by
  have h : pulse.sampAt 1 = point 9 0 := by decide +kernel
  have h1 : pulse.thrLo = .ofRat 4 := rfl
  unfold State.quiet
  rw [h, h1, realAmp_point, NumVal.toReal_ofRat, not_lt]
  apply Real.le_sqrt_of_sq_le
  norm_num

theorem pulse_burst : pulse.burstFrom 0 ⟨1, 2⟩ := by
  refine ⟨1, 2, by decide, by decide, pulse_loud, ?_, by decide, by decide, ?_, ?_, by decide, by decide⟩
  · intro n _ h2
    have : n = 0 := by omega
    subst this
    exact (pulse_quiet 0 (by decide +kernel)).2
  · intro n h1 h2
    have : n = 1 := by omega
    subst this
    exact pulse_not_quiet
  · intro _
    exact (pulse_quiet 2 (by decide +kernel)).1

theorem test_witness_BdNextEntersTheNextBurst :
    pulse.mem.wf = true ∧ pulse.detectorReady ∧ pulse.bdCur.toNat ≤ pulse.sampLen.toNat
      ∧ pulse.burstCnt.toNat ≠ pulse.build.burstCap ∧ pulse.burstFrom pulse.bdCur.toNat ⟨1, 2⟩ :=
  ⟨by decide, pulse_ready, by decide, by decide, pulse_burst⟩

/-- The cursor after the loud sample. -/
theorem test_witness_BdNextReportsNoBurst :
    ({ pulse with bdCur := 2 } : State).mem.wf = true ∧ ({ pulse with bdCur := 2 } : State).detectorReady
      ∧ ({ pulse with bdCur := 2 } : State).bdCur.toNat ≤ ({ pulse with bdCur := 2 } : State).sampLen.toNat
      ∧ ({ pulse with bdCur := 2 } : State).noBurstFrom 2 := by
  refine ⟨by decide, pulse_ready, by decide, ?_⟩
  intro n h1 h2
  have h3 : n < 3 := h2
  have : n = 2 := by omega
  subst this
  exact (pulse_quiet 2 (by decide +kernel)).2

theorem test_witness_BdAllEntersEveryBurst :
    pulse.mem.wf = true ∧ pulse.detectorReady ∧ ¬ rangeCause pulse .bdAll :=
  ⟨by decide, pulse_ready, not_rangeCause_bdAll pulse_ready (by decide)⟩

theorem test_witness_SquelchZeroesOutsideTheBursts :
    pulse.mem.wf = true ∧ pulse.detectorReady ∧ ¬ rangeCause pulse .squelch :=
  ⟨by decide, pulse_ready, not_rangeCause_bdAll pulse_ready (by decide)⟩

/-- Two rational samples, and one with a component that is any real the host supplies. -/
theorem test_witness_WrappedDifferenceIsTheArgumentOfTheProduct :
    (point 3 4).realAmp ≠ 0 ∧ (point (-1) 0).realAmp ≠ 0 ∧ (point 3 4).isRational ∧ (point (-1) 0).isRational
      ∧ (⟨.host 0, .ofRat 1⟩ : Sample).realAmp ≠ 0 := by
  refine ⟨?_, ?_, ⟨by decide +kernel, by decide +kernel⟩, ⟨by decide +kernel, by decide +kernel⟩, ?_⟩
  · rw [realAmp_point]; positivity
  · rw [realAmp_point]; positivity
  · simp only [Sample.realAmp, NumVal.toReal_host, NumVal.toReal_ofRat]
    have := mul_self_nonneg (hostReal 0)
    positivity

theorem test_witness_ArgumentIsThePrincipalArgument : (point 0 0).isRational := ⟨by decide +kernel, by decide +kernel⟩

/-- The boundary of an empty frequency signal, and a whole stream. -/
theorem test_witness_FdFreqIsTheWrappedPhaseDifference :
    pulse.mem.wf = true ∧ pulse.segStart.toNat ≤ pulse.segStop.toNat ∧ pulse.segStop.toNat ≤ pulse.sampLen.toNat
      ∧ 0 + 1 < pulse.segStop.toNat - pulse.segStart.toNat ∧ (pulse.sampAt 1).isRational ∧ (pulse.sampAt 0).isRational :=
  ⟨by decide, by decide, by decide, by decide, ⟨by decide +kernel, by decide +kernel⟩,
    ⟨by decide +kernel, by decide +kernel⟩⟩

def peak : State := tones 2 [1 / 4, 1 / 2, 1 / 4, 3 / 4]

/-- Both clauses of `FD.CLK`: one symbol short of the window, and exactly the window. -/
theorem test_witness_FdClkPicksTheFirstPeak :
    (peak.mem.wf = true ∧ peak.cfgSps ≠ 0 ∧ 2 ≤ peak.cfgSkip.toNat)
      ∧ ({ peak with freqLen := 3 } : State).freqLen.toNat < peak.cfgSkip.toNat * peak.cfgSps.toNat
      ∧ peak.cfgSkip.toNat * peak.cfgSps.toNat ≤ peak.freqLen.toNat := by
  decide +kernel

theorem test_witness_FdSliceDecidesEverySymbol : peak.mem.wf = true ∧ peak.cfgSps ≠ 0 := by decide +kernel

theorem test_witness_FdBinDecidesEverySample : peak.mem.wf = true := by decide +kernel

theorem test_witness_FdDemodIsItsThreeStages :
    ¬ configCause packetStream (.fdDemod true true) ∧ ¬ rangeCause packetStream (.fdDemod true true) := by
  unfold configCause rangeCause
  decide

theorem test_witness_CorrelationCountsAgreement : pat.length = 32 := by decide

def synced : State := bits (List.replicate 2 false ++ pat)

/-- Both clauses of `SY.EXACT`: the pattern at 2 and nowhere before it, and a list too short for it. -/
theorem test_witness_SyExactFindsTheEarliestOccurrence :
    (synced.mem.wf = true ∧ 2 + 32 ≤ synced.bitsLen.toNat ∧ synced.distanceAt 2 = 0
      ∧ ∀ q, q < 2 → synced.distanceAt q ≠ 0)
      ∧ ∀ p, p + 32 ≤ (bits [true]).bitsLen.toNat → (bits [true]).distanceAt p ≠ 0 := by
  refine ⟨by decide +kernel, ?_⟩
  intro p h
  change p + 32 ≤ 1 at h
  omega

/-- Both clauses of `SY.CORR`: a best position, and 31 bits. -/
theorem test_witness_SyCorrTestsTheBestPosition :
    (synced.mem.wf = true ∧ 2 + 32 ≤ synced.bitsLen.toNat
      ∧ (∀ p, p + 32 ≤ synced.bitsLen.toNat → synced.distanceAt 2 ≤ synced.distanceAt p)
      ∧ ∀ p, p < 2 → synced.distanceAt 2 < synced.distanceAt p)
      ∧ (bits (pat.take 31)).bitsLen.toNat < 32 := by
  have h0 : synced.distanceAt 2 = 0 := by decide +kernel
  refine ⟨⟨by decide +kernel, by decide +kernel, ?_, by decide +kernel⟩, by decide⟩
  intro p _
  omega

theorem test_witness_SyCorrWithoutToleranceIsSyExact : ({ synced with cfgTol := 0 } : State).cfgTol = 0 := rfl

def clear : State := (tones 1 (pat.map fun b => if b then 1 / 2 else -1 / 2))

theorem test_witness_SyScanCollectsTheClosedForm :
    (raws 1 pat).mem.wf = true ∧ (raws 1 pat).cfgSps ≠ 0 ∧ ¬ rangeCause (raws 1 pat) .syScan :=
  ⟨by decide, by decide, not_rangeCause_syScan (by decide)⟩

theorem test_witness_SyDedupKeepsTheEarliestOfEachCluster :
    (candidatesOf 2 [8, 7]).mem.wf = true ∧ (candidatesOf 2 [8, 7]).cfgSps ≠ 0
      ∧ ¬ rangeCause (candidatesOf 2 [8, 7]) .syDedup :=
  ⟨by decide, by decide, not_rangeCause_syDedup (by decide)⟩

theorem test_witness_SyGetbReadsTheBytesAfterThePattern : synced.mem.wf = true := by decide

theorem test_witness_SyGetbRReadsTheBytesOfTheMatch :
    ((raws 1 pat).storeHits [⟨0, 0⟩]).mem.wf = true ∧ ((raws 1 pat).storeHits [⟨0, 0⟩]).cfgSps ≠ 0
      ∧ 0 < ((raws 1 pat).storeHits [⟨0, 0⟩]).matchCnt.toNat := by decide

theorem test_witness_TheTwoSearchesFindTheSamePacket :
    clear.mem.wf = true ∧ clear.cfgSps ≠ 0 ∧ clear.fdOff.toNat < clear.cfgSps.toNat
      ∧ exec .fdSlice clear = .next clear.slice ∧ exec .syExact clear.slice = .next (syExactOp clear.slice)
      ∧ (syExactOp clear.slice).flag .syncnf = false ∧ exec .fdBin clear = .next (fdBinOp clear)
      ∧ ¬ rangeCause (fdBinOp clear) .syScan
      ∧ exec .syScan (fdBinOp clear) = .next (after (exec .syScan (fdBinOp clear)))
      ∧ ¬ rangeCause (after (exec .syScan (fdBinOp clear))) .syDedup
      ∧ exec .syDedup (after (exec .syScan (fdBinOp clear)))
        = .next (after (exec .syDedup (after (exec .syScan (fdBinOp clear))))) :=
  ⟨by decide +kernel, by decide, by decide, rfl, rfl, by decide +kernel, rfl, not_rangeCause_syScan (by decide +kernel),
    finish_after (syScanRun (fdBinOp clear)) _, not_rangeCause_syDedup (by decide +kernel),
    finish_after (syDedupRun (after (exec .syScan (fdBinOp clear)))) _⟩

/-- Both clauses of `DW.RUN`, at the two sides of the bound. -/
theorem test_witness_DwRunXorsTheWhiteningSequence :
    (State.reset.storeRb [1, 2]).mem.wf = true ∧ ({ State.reset with cfgChan := 39 } : State).cfgChan.toNat ≤ 39
      ∧ 39 < ({ State.reset with cfgChan := 40 } : State).cfgChan.toNat := by decide

def white : State := { State.reset with cfgChan := 37 }.storeRb [0x12, 0x34]

/-- The state in which the host has moved the result back. -/
def whiteBack : State :=
  { after (exec .dwRun white) with
    rbLen := (after (exec .dwRun white)).dwLen
    mem := { (after (exec .dwRun white)).mem with rb := (after (exec .dwRun white)).mem.dw } }

theorem test_witness_DewhiteningIsItsOwnInverse :
    white.cfgChan.toNat ≤ 39 ∧ exec .dwRun white = .next (after (exec .dwRun white))
      ∧ whiteBack.build = white.build ∧ whiteBack.cfgChan = white.cfgChan
      ∧ whiteBack.rbList = (after (exec .dwRun white)).dwList
      ∧ exec .dwRun whiteBack = .next (after (exec .dwRun whiteBack)) :=
  ⟨by decide, finish_after (dwRunRun white) (Instr.opc .dwRun), by decide +kernel, by decide +kernel, by decide +kernel,
    finish_after (dwRunRun whiteBack) (Instr.opc .dwRun)⟩

theorem test_witness_TablesAreTheShiftRegister : Config.build.wLen = 127 ∧ 39 < 40 := by decide

/-- The three lengths at which `PF.FRAME` changes: no length byte, too few bytes, and exactly the declared ones. -/
theorem test_witness_PfFrameEmitsOneRecord :
    (State.reset.storeDw [2]).mem.wf = true ∧ (State.reset.storeDw (bytesOf [2, 5, 1])).mem.wf = true
      ∧ (State.reset.storeDw (bytesOf [2, 0, 1, 2, 3])).mem.wf = true
      ∧ State.reset.outCnt.toNat ≠ State.reset.build.outCap := by decide

theorem test_witness_RecordsAreImmutable :
    (State.reset.storeDw [2]).lengthsLegal = true ∧ Instr.pfFrame ≠ .outclr
      ∧ exec .pfFrame (State.reset.storeDw [2]) = .next (after (exec .pfFrame (State.reset.storeDw [2]))) :=
  ⟨by decide +kernel, by decide, finish_after (pfFrameRun (State.reset.storeDw [2])) (Instr.opc .pfFrame)⟩

theorem packetStream_ready : packetStream.detectorReady := ready_of_thresholds rfl rfl (by decide)

theorem packetStream_config : ¬ configCause packetStream (.pipeBurst true true true) := by
  rintro (h | h | h)
  · exact absurd h (by decide)
  · exact absurd h (by decide)
  · exact h packetStream_ready

/-- The clause without a full list. -/
theorem test_witness_PipeBurstIsItsCommandSequence :
    packetStream.mem.wf = true ∧ packetStream.build.legal = true ∧ packetStream.cfgChan.toNat ≤ 39
      ∧ ¬ configCause packetStream (.pipeBurst true true true) ∧ ¬ rangeCause packetStream .bdAll
      ∧ ∀ bs, packetStream.burstsFrom 0 bs → packetStream.outCnt.toNat + bs.length ≤ packetStream.build.outCap := by
  refine ⟨by decide +kernel, by decide, by decide, packetStream_config,
    not_rangeCause_bdAll packetStream_ready (by decide), ?_⟩
  intro bs h
  have h1 := State.length_burstsFrom_le packetStream_ready bs 0 (Nat.zero_le _) h
  have h2 : packetStream.sampLen.toNat ≤ 1024 := by decide
  change 0 + bs.length ≤ 1024
  omega

/-- An instance whose burst list holds nothing. -/
def noRoom : State := { pulse with build := { Config.build with burstCap := 0 } }

theorem noRoom_raises : after (exec (.pipeBurst false false false) noRoom) = (bdRstOp noRoom).entered 10 3 0x60 := by
  decide +kernel

/-- The clauses with a full list: the first `BD.NEXT` of the sequence meets it. -/
theorem test_witness_PipeBurstIsItsCommandSequence_full :
    noRoom.mem.wf = true ∧ noRoom.build.legal = true ∧ noRoom.cfgChan.toNat ≤ 39 ∧ noRoom.fatalBits = 0
      ∧ ¬ configCause noRoom (.pipeBurst false false false) ∧ exec .bdRst noRoom = .next (bdRstOp noRoom)
      ∧ BurstHalt false false false (bdRstOp noRoom) (bdRstOp noRoom)
      ∧ exec (.pipeBurst false false false) noRoom = .next (after (exec (.pipeBurst false false false) noRoom))
      ∧ (after (exec (.pipeBurst false false false) noRoom)).flag .range = true := by
  refine ⟨by decide +kernel, by decide, by decide, by decide, ?_, rfl, .full (.inr ⟨by decide, ?_⟩),
    finish_after (pipeBurstRun false false false noRoom) _, ?_⟩
  · rintro (h | h | h)
    · exact absurd h (by decide)
    · exact absurd h.1 (by decide)
    · exact h pulse_ready
  · intro h
    exact h 1 (Nat.zero_le _) (by decide) pulse_loud
  · rw [noRoom_raises]
    decide +kernel

/-- The clause without a full list. -/
theorem test_witness_PipeStreamIsItsCommandSequence :
    packetStream.mem.wf = true ∧ packetStream.build.legal = true ∧ packetStream.cfgChan.toNat ≤ 39
      ∧ packetStream.cfgSps ≠ 0 ∧ packetStream.streamFits :=
  ⟨by decide +kernel, by decide, by decide, by decide, State.streamFits_of_room (by decide) (by decide) (by decide)⟩

/-- An instance whose candidate list holds nothing. -/
def noCandidates : State := { packetStream with build := { Config.build with candCap := 0 } }

def noCandidatesFreq : State := after (exec (.fdFreq false) noCandidates.wholeChunk)

/-- The clauses with a full list: `SY.SCAN` meets it. -/
theorem test_witness_PipeStreamIsItsCommandSequence_full :
    noCandidates.mem.wf = true ∧ noCandidates.build.legal = true ∧ noCandidates.cfgChan.toNat ≤ 39
      ∧ noCandidates.cfgSps ≠ 0 ∧ noCandidates.fatalBits = 0
      ∧ StreamHalt false noCandidates (fdBinOp noCandidatesFreq)
      ∧ exec (.pipeStream false) noCandidates = .next (after (exec (.pipeStream false) noCandidates))
      ∧ (after (exec (.pipeStream false) noCandidates)).flag .range = true := by
  refine ⟨by decide +kernel, by decide, by decide, by decide, by decide,
    .scan (a := noCandidatesFreq) (finish_after (fdFreqRun false noCandidates.wholeChunk) (Instr.opc (.fdFreq false)))
      rfl ?_,
    finish_after (pipeStreamRun false noCandidates) _, by decide +kernel⟩
  unfold rangeCause
  decide +kernel

theorem test_witness_OperationsLeaveTheConfiguration :
    exec .bdNext pulse = .next (after (exec .bdNext pulse)) ∧ (∀ single, Instr.bdNext ≠ .setthr single)
      ∧ Instr.bdNext ∉ [Instr.setrefZ, .setrefC, .setrefD] :=
  ⟨finish_after (bdNextRun pulse) _, by simp, by decide⟩

theorem test_witness_CountersMoveOnlyWithSyncOperations :
    exec .fdBin peak = .next (after (exec .fdBin peak)) ∧ Instr.fdBin ≠ .clrcnt
      ∧ Instr.fdBin ∉ [Instr.syExact, .syCorr, .syDedup] ∧ isPipeline .fdBin = false :=
  ⟨finish_after (.done (fdBinOp peak)) (Instr.opc .fdBin), by decide, by decide, rfl⟩

/-- Every premise of the three invariants, on a stream with a command to come. -/
theorem test_witness_StepKeeps :
    (packetStream.issue 0x61).lengthsLegal = true ∧ (packetStream.issue 0x61).mem.wf = true
      ∧ (packetStream.issue 0x61).buffersWithinCapacity = true ∧ (packetStream.issue 0x61).statusLegal = true
      ∧ (packetStream.issue 0x61).numbersLegal = true
      ∧ step (packetStream.issue 0x61) = .next (after (step (packetStream.issue 0x61))) := by
  refine ⟨by decide +kernel, by decide +kernel, ?_, by decide +kernel, by decide +kernel, ?_⟩
  · decide +kernel
  · exact finish_after (pipeStreamRun false (packetStream.issue 0x61 |>.await [])) _

/-- Every clause of the host's reads. -/
theorem test_witness_HostReadsHaveNoSideEffect :
    Reg.ofIndex 0x24 = some .pfDecl ∧ Reg.ofIndex 0x25 = none
      ∧ (Space.ofId 12 = some .chidx ∧ 39 < Space.capacity Config.build .chidx)
      ∧ ∀ sp, Space.ofId 12 = some sp → sp.capacity Config.build ≤ 40 := by
  refine ⟨by decide, by decide, by decide, ?_⟩
  intro sp h
  cases h
  decide

/-- Every clause of the host's register writes: a plain register, a length at its capacity and one above it, a real
number, a read-only register. -/
theorem test_witness_HostRegisterWriteStoresOrFaults :
    (Reg.ofIndex 0x01 = some .cfgSps ∧ Reg.readOnly .cfgSps = false ∧ Reg.isNum .cfgSps = false
        ∧ Reg.limit Config.build .cfgSps = none)
      ∧ (Reg.ofIndex 0x10 = some .sampLen ∧ Reg.limit Config.build .sampLen = some 65536 ∧ (65536#32).toNat ≤ 65536)
      ∧ (Reg.ofIndex 0x00 = some .cfgFs ∧ Reg.isNum .cfgFs = true ∧ (NumVal.ofPi 1).canonical = true)
      ∧ (∀ r, Reg.ofIndex 0x10 = some r → r.readOnly = true ∨ ∃ c, r.limit Config.build = some c ∧ c < (65537#32).toNat)
      ∧ ∀ r, Reg.ofIndex 0x20 = some r → r.readOnly = true := by
  refine ⟨by decide, by decide, by decide, ?_, ?_⟩
  · intro r h
    cases h
    exact .inr ⟨65536, rfl, by decide⟩
  · intro r h
    cases h
    rfl

/-- Both clauses of the host's buffer writes. -/
theorem test_witness_HostBufferWriteStoresOrFaults :
    (Space.ofId 3 = some .freq ∧ Space.writable .freq = true ∧ 0 < Space.capacity Config.build .freq
        ∧ Space.holds .freq (.num (.exact ⟨0, 1 / 4, 2, 1⟩)) = true)
      ∧ ∀ sp, Space.ofId 10 = some sp → sp.writable = false ∨ sp.capacity Config.build ≤ 0 := by
  refine ⟨by decide, ?_⟩
  intro sp h
  cases h
  exact .inl rfl

end Sys2Proof.Machine.Tests
end

/-! PROOFS. What an operation can write: every operation is a chain of single writes, and it ends done or raised. The
invariants of the block are proved once per write. -/

namespace Sys2Proof.Machine

open Relation (ReflTransGen)

/-- The instruction is an operation that writes this one flag (rule R46). `CLRST` writes `STATUS` as a whole. -/
def owns (i : Instr) (f : Flag) : Bool := ownsFlag f i && i != .clrst

/-- One write of an operation of the instruction `i`, with what is known when it happens. -/
inductive Write (i : Instr) : State → State → Prop
  | flag {s : State} (f : Flag) (v : Bool) (owned : owns i f = true) : Write i s (s.setFlag f v)
  | clear {s : State} (h : i = .clrst) : Write i s s.clearStatus
  | counters {s : State} (h : i = .clrcnt) : Write i s { s with cntFound := 0, cntFailed := 0 }
  | found {s : State} (n : Nat) (owned : owns i .syncnf = true) : Write i s (s.countFound n)
  | failed {s : State} (owned : owns i .syncnf = true) : Write i s s.countFailed
  | thresholds {s : State} {lo hi : NumVal} (single : Bool) (h : i = .setthr single)
      (value : (lo = s.cfgThresh ∧ hi = s.cfgThresh) ∨ (lo = (NumVal.ofRat Config.lowFactor).mul s.cfgThresh
        ∧ hi = (NumVal.ofRat Config.highFactor).mul s.cfgThresh)) :
      Write i s { s with thrLo := lo, thrHi := hi }
  | reference {s : State} {r : NumVal} (h : i ∈ [Instr.setrefZ, .setrefC, .setrefD])
      (value : r = .zero ∨ r = referenceOf s.cfgCfo s.cfgFs ∨ r = s.cfgRef) : Write i s { s with fdRef := r }
  | discard {s : State} (h : i = .outclr) :
      Write i s { s with outCnt := 0, mem := { s.mem with out := s.mem.out.forget } }
  | restart {s : State} : Write i s { s with bdCur := 0, burstCnt := 0 }
  | burst {s : State} (b : Span) (room : s.burstCnt.toNat ≠ s.build.burstCap) : Write i s (s.appendBurst b)
  | segment {s : State} (a b c : Word) : Write i s { s with segStart := a, segStop := b, bdCur := c }
  | squelch {s : State} (spans : List Span) : Write i s (s.storeSql (squelched spans s.samples))
  | freq {s : State} (ug : Bool) (legal : s.segmentIllegal = false) :
      Write i s (s.storeFreq (frequencies ug s.segment))
  | offset {s : State} (k : Word) : Write i s { s with fdOff := k }
  | bits {s : State} {xs : List Bool} (room : xs.length ≤ s.freqLen.toNat) : Write i s (s.storeBits xs)
  | raw {s : State} {xs : List Bool} (room : xs.length ≤ s.freqLen.toNat) : Write i s (s.storeRaw xs)
  | position {s : State} (p hd : Word) : Write i s { s with syPos := p, syHd := hd }
  | cand {s : State} {xs : List Word} (room : xs.length ≤ s.build.candCap ∨ xs.length ≤ s.candCnt.toNat) :
      Write i s (s.storeCand xs)
  | hits {s : State} {xs : List Hit} (room : xs.length ≤ s.build.matchCap) : Write i s (s.storeHits xs)
  | bytes {s : State} {xs : List Byte} (room : xs.length ≤ s.cfgMaxb.toNat) : Write i s (s.storeRb xs)
  | white {s : State} {xs : List Byte} (room : xs.length ≤ s.rbLen.toNat) : Write i s (s.storeDw xs)
  | packet {s : State} (p : Packet) (room : s.outCnt.toNat ≠ s.build.outCap) : Write i s (s.appendOut p)
  | declared {s : State} (n : Word) : Write i s { s with pfDecl := n }

/-- What an operation of the instruction `i` can make of a state by writes alone. -/
abbrev Writes (i : Instr) : State → State → Prop := ReflTransGen (Write i)

/-- What every write keeps, a chain of writes keeps. -/
theorem Writes.keeps {i : Instr} {P : State → Prop} (h : ∀ {s t}, Write i s t → P s → P t) {s t : State}
    (hw : Writes i s t) (hs : P s) : P t := by
  induction hw with
  | refl => exact hs
  | tail _ hlast ih => exact h hlast ih

/-- The state a run ends in, before the fatal entry if there is one. -/
def Run.state : Run → State
  | .done s => s
  | .raised _ s => s

@[simp] theorem Run.state_done (s : State) : (Run.done s).state = s := rfl

@[simp] theorem Run.state_raised (x : Fatal) (s : State) : (Run.raised x s).state = s := rfl

/-- The conditions an operation raises: the first three of rule R277. -/
def Fatal.ofOperation : Fatal → Prop
  | .invalidChannel | .configError | .rangeError => True
  | .illegalCommand | .accessFault => False

/-- Rule R15: a run from `s` that raises has written nothing yet; one that is done has only written. -/
def Run.Atomic (i : Instr) (s : State) : Run → Prop
  | .done t => Writes i s t
  | .raised x t => x.ofOperation ∧ t = s

theorem Run.Atomic.writes {i : Instr} {s : State} {r : Run} (h : r.Atomic i s) : Writes i s r.state := by
  cases r with
  | done t => exact h
  | raised x t => exact h.2 ▸ ReflTransGen.refl

/-- A sequence of runs writes what its parts write. -/
theorem Run.andThen_writes {i : Instr} {s : State} {r : Run} {f : State → Run} (hr : Writes i s r.state)
    (hf : ∀ t, Writes i t (f t).state) : Writes i s (r.andThen f).state := by
  cases r with
  | done t => exact hr.trans (hf t)
  | raised x t => exact hr

/-- The run of an instruction: what `exec` finishes. -/
def State.run (s : State) : Instr → Run
  | .nop => .done s
  | .clrst => .done s.clearStatus
  | .clrcnt => .done { s with cntFound := 0, cntFailed := 0 }
  | .setthr single => setthrRun single s
  | .setrefZ => .done { s with fdRef := .zero }
  | .setrefC =>
    if s.cfgFs.isPositive then .done { s with fdRef := referenceOf s.cfgCfo s.cfgFs } else .raised .configError s
  | .setrefD => .done { s with fdRef := s.cfgRef }
  | .outclr => .done { s with outCnt := 0, mem := { s.mem with out := s.mem.out.forget } }
  | .bdRst => .done (bdRstOp s)
  | .bdNext => bdNextRun s
  | .bdAll => bdAllRun s
  | .squelch => squelchRun s
  | .fdFreq ug => fdFreqRun ug s
  | .fdClk => fdClkRun s
  | .fdSlice => fdSliceRun s
  | .fdBin => .done (fdBinOp s)
  | .fdDemod ug ck => fdDemodRun ug ck s
  | .syExact => .done (syExactOp s)
  | .syCorr => .done (syCorrOp s)
  | .syScan => syScanRun s
  | .syDedup => syDedupRun s
  | .syGetb => .done (syGetbOp s)
  | .syGetbR index => syGetbRRun index s
  | .dwRun => dwRunRun s
  | .pfFrame => pfFrameRun s
  | .pipeBurst ug ck cr => pipeBurstRun ug ck cr s
  | .pipeStream ug => pipeStreamRun ug s

/-- Every arm of `exec` finishes the run of its instruction with the instruction's own `OPC`. -/
theorem exec_eq_finish (i : Instr) (s : State) : exec i s = (s.run i).finish i.opc := by
  cases i <;> rfl

/-! The runs of the operations, one after the other. -/

theorem setthrRun_atomic (single : Bool) (s : State) : (setthrRun single s).Atomic (.setthr single) s := by
  unfold setthrRun
  split
  · exact ⟨trivial, rfl⟩
  · split
    · exact .single (.thresholds single rfl (.inl ⟨rfl, rfl⟩))
    · exact .single (.thresholds single rfl (.inr ⟨rfl, rfl⟩))

theorem setrefC_atomic (s : State) : (s.run .setrefC).Atomic .setrefC s := by
  rw [State.run]
  split
  · exact ReflTransGen.single (.reference (by simp) (.inr (.inl rfl)))
  · exact ⟨trivial, rfl⟩

section Detector

variable {i : Instr} (hi : owns i .noburst = true)
include hi

theorem bdRstOp_writes (s : State) : Writes i s (bdRstOp s) :=
  (ReflTransGen.single Write.restart).tail (.flag .noburst false hi)

theorem enterBurst_writes (s : State) (b : Nat × Nat) (room : s.burstCnt.toNat ≠ s.build.burstCap) :
    Writes i s (s.enterBurst b) :=
  ((ReflTransGen.single (.burst _ room)).tail (.segment _ _ _)).tail (.flag .noburst false hi)

theorem bdNextRun_atomic (s : State) : (bdNextRun s).Atomic i s := by
  obtain ⟨-, h⟩ | ⟨-, -, h⟩ | ⟨-, -, -, h⟩ | ⟨b, -, -, -, ⟨-, h⟩ | ⟨room, h⟩⟩ := bdNextRun_cases s <;> rw [h]
  · exact ⟨trivial, rfl⟩
  · exact ⟨trivial, rfl⟩
  · exact .single (.flag .noburst true hi)
  · exact ⟨trivial, rfl⟩
  · exact enterBurst_writes hi s b room

theorem bdLoop_writes (n : Nat) : ∀ s : State, Writes i s (bdLoop n s).state := by
  induction n with
  | zero => exact fun s => .refl
  | succ n ih =>
    refine fun s => Run.andThen_writes (bdNextRun_atomic hi s).writes fun t => ?_
    split
    · exact .refl
    · exact ih t

end Detector

/-- The end of a burst lies inside the stream, so the cursor never leaves it (rule R135). -/
theorem nextBurst_stop_le {xs : List Sample} {lo hi : NumVal} {pad c : Nat} {b : Nat × Nat}
    (h : nextBurst xs lo hi pad c = some b) : b.2 ≤ xs.length := by
  simp only [nextBurst, Option.map_eq_some_iff] at h
  obtain ⟨k, -, rfl⟩ := h
  exact min_le_left _ _

@[simp] theorem State.length_samples (s : State) : s.samples.length = s.sampLen.toNat := by simp [State.samples]

theorem toNat_add_one_le (w : Word) : (w + 1).toNat ≤ w.toNat + 1 := by
  rw [BitVec.toNat_add]
  exact Nat.mod_le _ _

@[simp] theorem State.enterBurst_burstCnt (s : State) (b : Nat × Nat) :
    (s.enterBurst b).burstCnt = s.burstCnt + 1 := rfl

@[simp] theorem State.enterBurst_bdCur (s : State) (b : Nat × Nat) :
    (s.enterBurst b).bdCur = BitVec.ofNat 32 b.2 := rfl

/-- A pass that was counted to fit the burst list does not raise (rule R133). -/
theorem bdLoop_done (n : Nat) : ∀ s : State, s.detectorIllegal = false → s.bdCur.toNat ≤ s.sampLen.toNat →
    s.burstCnt.toNat + burstCount s.samples s.thrLo s.thrHi s.cfgPad.toNat n s.bdCur.toNat ≤ s.build.burstCap →
    ∃ t, bdLoop n s = .done t := by
  induction n with
  | zero => exact fun s _ _ _ => ⟨s, rfl⟩
  | succ n ih =>
    intro s hlegal hcur hroom
    rw [bdLoop]
    obtain ⟨h, -⟩ | ⟨-, h, -⟩ | ⟨-, -, -, h⟩ | ⟨b, -, -, hb, h⟩ := bdNextRun_cases s
    · rw [hlegal] at h; cases h
    · rw [BitVec.lt_def] at h; omega
    · exact ⟨s.setFlag .noburst true, by simp [h]⟩
    · rw [burstCount, hb] at hroom
      dsimp only at hroom
      obtain ⟨hfull, -⟩ | ⟨-, h⟩ := h
      · omega
      · have hstop : (BitVec.ofNat 32 b.2).toNat = b.2 := by
          have := nextBurst_stop_le hb
          have := s.sampLen.isLt
          rw [State.length_samples] at *
          exact Nat.mod_eq_of_lt (by omega)
        rw [h, Run.done_andThen]
        split
        · exact ⟨_, rfl⟩
        · refine ih (s.enterBurst b) hlegal ?_ ?_
          · have := nextBurst_stop_le hb
            rw [State.length_samples] at this
            rw [State.enterBurst_bdCur, hstop]
            exact this
          · have := toNat_add_one_le s.burstCnt
            rw [State.enterBurst_bdCur, hstop, State.enterBurst_burstCnt]
            change (s.burstCnt + 1).toNat + burstCount s.samples s.thrLo s.thrHi s.cfgPad.toNat n b.2 ≤ s.build.burstCap
            omega

section Detector

variable {i : Instr} (hi : owns i .noburst = true)
include hi

theorem bdAllRun_atomic (s : State) : (bdAllRun s).Atomic i s := by
  unfold bdAllRun
  split
  · exact ⟨trivial, rfl⟩
  · next hlegal =>
    split
    · exact ⟨trivial, rfl⟩
    · next hroom =>
      obtain ⟨t, ht⟩ := bdLoop_done (s.sampLen.toNat + 1) (bdRstOp s) (Bool.eq_false_iff.2 hlegal)
        (Nat.zero_le _) ((Nat.zero_add _).le.trans (not_lt.1 hroom))
      have hw := (bdRstOp_writes hi s).trans (bdLoop_writes hi (s.sampLen.toNat + 1) (bdRstOp s))
      rw [ht] at hw ⊢
      exact hw

theorem squelchRun_atomic (s : State) : (squelchRun s).Atomic i s := by
  have h := bdAllRun_atomic hi s
  unfold squelchRun
  cases hr : bdAllRun s with
  | done t =>
    rw [hr] at h
    exact ReflTransGen.tail h (.squelch _)
  | raised x t =>
    rw [hr] at h
    exact h

end Detector

/-! The demodulator. -/

theorem fdFreqRun_atomic {i : Instr} (ug : Bool) (s : State) : (fdFreqRun ug s).Atomic i s := by
  obtain ⟨-, h⟩ | ⟨legal, h⟩ := fdFreqRun_cases ug s <;> rw [h]
  · exact ⟨trivial, rfl⟩
  · exact .single (.freq ug legal)

section Clock

variable {i : Instr} (hi : owns i .shortClk = true)
include hi

theorem setOrigin_writes (s : State) (k : Word) (v : Bool) :
    Writes i s ({ s with fdOff := k }.setFlag .shortClk v) :=
  (ReflTransGen.single (.offset k)).tail (.flag .shortClk v hi)

theorem recoverClock_writes (s : State) : Writes i s s.recoverClock := by
  unfold State.recoverClock
  split
  · exact setOrigin_writes hi s 0 true
  · exact setOrigin_writes hi s _ false

theorem fdClkRun_atomic (s : State) : (fdClkRun s).Atomic i s := by
  obtain ⟨-, h⟩ | ⟨-, h⟩ := fdClkRun_cases s <;> rw [h]
  · exact ⟨trivial, rfl⟩
  · exact recoverClock_writes hi s

end Clock

/-- Strided reading takes at most the elements there are. -/
theorem length_everyNth_le {α : Type} (stride : Nat) (xs : List α) :
    ∀ skip, (everyNth stride skip xs).length ≤ xs.length := by
  induction xs with
  | nil => exact fun skip => by simp [everyNth]
  | cons x rest ih =>
    intro skip
    cases skip with
    | zero => simpa [everyNth] using ih (stride - 1)
    | succ k => exact (ih k).trans (Nat.le_succ _)

@[simp] theorem State.length_freqs (s : State) : s.freqs.length = s.freqLen.toNat := by simp [State.freqs]

theorem slice_write {i : Instr} (s : State) : Write i s s.slice :=
  .bits (by simpa [sliceBits] using length_everyNth_le s.cfgSps.toNat s.freqs s.fdOff.toNat)

theorem fdSliceRun_atomic {i : Instr} (s : State) : (fdSliceRun s).Atomic i s := by
  obtain ⟨-, h⟩ | ⟨-, h⟩ := fdSliceRun_cases s <;> rw [h]
  · exact ⟨trivial, rfl⟩
  · exact .single (slice_write s)

theorem fdBinOp_write {i : Instr} (s : State) : Write i s (fdBinOp s) := .raw (by simp)

/-- The second stage of `FD.DEMOD` (rule R158): clock recovery, or its default. -/
def clockStage (ck : Bool) (s : State) : State :=
  if ck then s.recoverClock else { s with fdOff := 0 }.setFlag .shortClk false

@[simp] theorem clockStage_cfgSps (ck : Bool) (s : State) : (clockStage ck s).cfgSps = s.cfgSps := by
  unfold clockStage State.recoverClock
  split_ifs <;> rfl

/-- Everything `FD.DEMOD` can do (rule R158): past its own checks none of its stages raises. -/
theorem fdDemodRun_cases (ug ck : Bool) (s : State) :
    fdDemodRun ug ck s = .raised .configError s ∨ fdDemodRun ug ck s = .raised .rangeError s ∨
      s.segmentIllegal = false ∧
        fdDemodRun ug ck s = .done (clockStage ck (s.storeFreq (frequencies ug s.segment))).slice := by
  unfold fdDemodRun
  by_cases hcfg : s.cfgSps.toNat = 0 ∨ (ck = true ∧ s.cfgSkip.toNat < 2)
  · exact .inl (if_pos hcfg)
  · rw [if_neg hcfg]
    obtain ⟨hsps, hskip⟩ := not_or.1 hcfg
    have hslice : fdSliceRun (clockStage ck (s.storeFreq (frequencies ug s.segment)))
        = .done (clockStage ck (s.storeFreq (frequencies ug s.segment))).slice :=
      if_neg (by simpa using hsps)
    cases hseg : s.segmentIllegal with
    | true => exact .inr (.inl rfl)
    | false =>
      refine .inr (.inr ⟨rfl, ?_⟩)
      rw [← hslice, fdFreqRun, hseg]
      cases ck with
      | true =>
        have hclk : ¬ (s.cfgSps.toNat = 0 ∨ s.cfgSkip.toNat < 2) := not_or.2 ⟨hsps, fun h => hskip ⟨rfl, h⟩⟩
        have hrun : fdClkRun (s.storeFreq (frequencies ug s.segment))
            = .done (s.storeFreq (frequencies ug s.segment)).recoverClock := if_neg hclk
        simp [hrun, clockStage]
      | false => simp [clockStage]

theorem fdDemodRun_atomic {i : Instr} (hi : owns i .shortClk = true) (ug ck : Bool)
    (s : State) : (fdDemodRun ug ck s).Atomic i s := by
  obtain h | h | ⟨legal, h⟩ := fdDemodRun_cases ug ck s <;> rw [h]
  · exact ⟨trivial, rfl⟩
  · exact ⟨trivial, rfl⟩
  · have hclock : ∀ t, Writes i t (clockStage ck t) := by
      intro t
      unfold clockStage
      split
      · exact recoverClock_writes hi t
      · exact setOrigin_writes hi t 0 false
    exact ((ReflTransGen.single (.freq ug legal)).trans (hclock _)).tail (slice_write _)

/-! The sync locator. -/

@[simp] theorem State.length_sortedCandidates (s : State) : s.sortedCandidates.length = s.candCnt.toNat := by
  simp [State.sortedCandidates, State.candList]

section Sync

variable {i : Instr} (hi : owns i .syncnf = true)
include hi

theorem syncFound_writes (s : State) (p hd : Nat) : Writes i s (s.syncFound p hd) :=
  ((ReflTransGen.single (.position _ _)).tail (.flag .syncnf false hi)).tail (.found 1 hi)

theorem syncMissed_writes (s : State) : Writes i s s.syncMissed :=
  (ReflTransGen.single (.flag .syncnf true hi)).tail (.failed hi)

theorem syExactOp_writes (s : State) : Writes i s (syExactOp s) := by
  obtain ⟨p, -, h⟩ | ⟨-, h⟩ := syExactOp_cases s <;> rw [h]
  · exact syncFound_writes hi s p 0
  · exact syncMissed_writes hi s

theorem syCorrOp_writes (s : State) : Writes i s (syCorrOp s) := by
  obtain ⟨p, hd, h⟩ | h := syCorrOp_cases s <;> rw [h]
  · exact syncFound_writes hi s p hd
  · exact syncMissed_writes hi s

theorem enterMatches_writes (s : State) (accepted : List Nat) (room : accepted.length ≤ s.build.matchCap) :
    Writes i s (s.enterMatches s.sortedCandidates accepted) := by
  have hlists : Writes i s ((s.storeCand (s.sortedCandidates.map (BitVec.ofNat 32))).storeHits
      (accepted.map (hitOf s.cfgSps.toNat))) :=
    (ReflTransGen.single (.cand (.inr (by simp)))).tail (.hits (by simpa using room))
  unfold State.enterMatches
  dsimp only
  split
  · exact hlists.trans (syncMissed_writes hi _)
  · exact (hlists.tail (.flag .syncnf false hi)).tail (.found _ hi)

theorem syDedupRun_atomic (s : State) : (syDedupRun s).Atomic i s := by
  obtain ⟨-, h⟩ | ⟨-, -, h⟩ | ⟨-, room, h⟩ := syDedupRun_cases s <;> rw [h]
  · exact ⟨trivial, rfl⟩
  · exact ⟨trivial, rfl⟩
  · exact enterMatches_writes hi s _ room

end Sync

theorem syScanRun_atomic {i : Instr} (s : State) : (syScanRun s).Atomic i s := by
  obtain ⟨-, h⟩ | ⟨-, -, h⟩ | ⟨-, room, h⟩ := syScanRun_cases s <;> rw [h]
  · exact ⟨trivial, rfl⟩
  · exact ⟨trivial, rfl⟩
  · exact .single (.cand (.inl (by simpa using room)))

theorem length_readBytes_le (base stride most : Nat) (src : List Bool) :
    (readBytes base stride most src).length ≤ most := by
  rw [readBytes, length_packBytes]
  exact min_le_right _ _

theorem syGetbOp_write {i : Instr} (s : State) : Write i s (syGetbOp s) := by
  unfold syGetbOp
  split
  · exact .bytes (Nat.zero_le _)
  · exact .bytes (length_readBytes_le _ _ _ _)

theorem syGetbRRun_atomic {i : Instr} (index : Nat) (s : State) : (syGetbRRun index s).Atomic i s := by
  obtain ⟨-, h⟩ | ⟨-, -, h⟩ | ⟨-, -, h⟩ := syGetbRRun_cases index s <;> rw [h]
  · exact ⟨trivial, rfl⟩
  · exact ⟨trivial, rfl⟩
  · exact .single (.bytes (length_readBytes_le _ _ _ _))

/-! De-whitening and framing. -/

@[simp] theorem State.length_rbList (s : State) : s.rbList.length = s.rbLen.toNat := by simp [State.rbList]

theorem dwRunRun_atomic {i : Instr} (s : State) : (dwRunRun s).Atomic i s := by
  obtain ⟨-, h⟩ | ⟨-, h⟩ := dwRunRun_cases s <;> rw [h]
  · exact ⟨trivial, rfl⟩
  · exact .single (.white (by simp))

theorem pfFrameRun_atomic {i : Instr} (hi : owns i .shortPkt = true) (s : State) :
    (pfFrameRun s).Atomic i s := by
  obtain ⟨-, h⟩ | ⟨room, h⟩ := pfFrameRun_cases s <;> rw [h]
  · exact ⟨trivial, rfl⟩
  · exact ((ReflTransGen.single (.packet _ room)).tail (.declared _)).tail (.flag .shortPkt _ hi)

/-! The pipelines, which may raise after a write (rule R243). -/

theorem burstBody_writes (ug ck cr : Bool) (s : State) :
    Writes (.pipeBurst ug ck cr) s (burstBody ug ck cr s).state := by
  refine Run.andThen_writes (fdDemodRun_atomic rfl ug ck s).writes fun t => ?_
  have hscan : Writes (.pipeBurst ug ck cr) t (if cr then syCorrOp t else syExactOp t) := by
    split
    · exact syCorrOp_writes rfl t
    · exact syExactOp_writes rfl t
  dsimp only
  generalize (if cr then syCorrOp t else syExactOp t) = u at hscan ⊢
  split
  · exact hscan
  · refine hscan.trans (.trans (.single (syGetbOp_write _)) ?_)
    exact Run.andThen_writes (dwRunRun_atomic _).writes fun u => (pfFrameRun_atomic rfl u).writes

theorem burstLoop_writes (ug ck cr : Bool) (n : Nat) :
    ∀ s : State, Writes (.pipeBurst ug ck cr) s (burstLoop ug ck cr n s).state := by
  induction n with
  | zero => exact fun s => .refl
  | succ n ih =>
    refine fun s => Run.andThen_writes (bdNextRun_atomic rfl s).writes fun t => ?_
    split
    · exact .refl
    · exact Run.andThen_writes (burstBody_writes ug ck cr t) ih

theorem pipeBurstRun_writes (ug ck cr : Bool) (s : State) :
    Writes (.pipeBurst ug ck cr) s (pipeBurstRun ug ck cr s).state := by
  unfold pipeBurstRun
  split_ifs
  · exact .refl
  · exact .refl
  · exact .refl
  · exact (bdRstOp_writes rfl s).trans (burstLoop_writes ug ck cr _ _)

theorem matchLoop_writes (ug : Bool) (n : Nat) :
    ∀ (k : Nat) (s : State), Writes (.pipeStream ug) s (matchLoop n k s).state := by
  induction n with
  | zero => exact fun k s => .refl
  | succ n ih =>
    exact fun k s => Run.andThen_writes (syGetbRRun_atomic k s).writes fun t =>
      Run.andThen_writes (dwRunRun_atomic t).writes fun u =>
        Run.andThen_writes (pfFrameRun_atomic rfl u).writes (ih (k + 1))

theorem pipeStreamRun_writes (ug : Bool) (s : State) :
    Writes (.pipeStream ug) s (pipeStreamRun ug s).state := by
  unfold pipeStreamRun
  split_ifs
  · exact .refl
  · exact .refl
  · have hchunk : Writes (.pipeStream ug) s s.selectChunk := .single (.segment _ _ _)
    refine hchunk.trans (Run.andThen_writes (fdFreqRun_atomic ug _).writes fun t => ?_)
    refine .trans (.single (fdBinOp_write t)) (Run.andThen_writes (syScanRun_atomic _).writes fun u => ?_)
    exact Run.andThen_writes (syDedupRun_atomic rfl u).writes fun v => matchLoop_writes ug _ _ v

/-! All operations. -/

/-- Rule R15: an operation that is no pipeline operation raises before its first write. -/
theorem run_atomic (s : State) : ∀ i : Instr, isPipeline i = false → (s.run i).Atomic i s
  | .nop, _ => .refl
  | .clrst, _ => .single (.clear rfl)
  | .clrcnt, _ => .single (.counters rfl)
  | .setthr single, _ => setthrRun_atomic single s
  | .setrefZ, _ => .single (.reference (by simp) (.inl rfl))
  | .setrefC, _ => setrefC_atomic s
  | .setrefD, _ => .single (.reference (by simp) (.inr (.inr rfl)))
  | .outclr, _ => .single (.discard rfl)
  | .bdRst, _ => bdRstOp_writes rfl s
  | .bdNext, _ => bdNextRun_atomic rfl s
  | .bdAll, _ => bdAllRun_atomic rfl s
  | .squelch, _ => squelchRun_atomic rfl s
  | .fdFreq ug, _ => fdFreqRun_atomic ug s
  | .fdClk, _ => fdClkRun_atomic rfl s
  | .fdSlice, _ => fdSliceRun_atomic s
  | .fdBin, _ => .single (fdBinOp_write s)
  | .fdDemod ug ck, _ => fdDemodRun_atomic rfl ug ck s
  | .syExact, _ => syExactOp_writes rfl s
  | .syCorr, _ => syCorrOp_writes rfl s
  | .syScan, _ => syScanRun_atomic s
  | .syDedup, _ => syDedupRun_atomic rfl s
  | .syGetb, _ => .single (syGetbOp_write s)
  | .syGetbR index, _ => syGetbRRun_atomic index s
  | .dwRun, _ => dwRunRun_atomic s
  | .pfFrame, _ => pfFrameRun_atomic rfl s

theorem run_writes (i : Instr) (s : State) : Writes i s (s.run i).state := by
  cases h : isPipeline i with
  | false => exact (run_atomic s i h).writes
  | true =>
    cases i with
    | pipeBurst ug ck cr => exact pipeBurstRun_writes ug ck cr s
    | pipeStream ug => exact pipeStreamRun_writes ug s
    | _ => cases h

/-- Everything a command can do: it writes, and it may end in a fatal entry. -/
theorem exec_cases {i : Instr} {s t : State} (h : exec i s = .next t) :
    ∃ u, Writes i s u ∧ (t = u ∨ ∃ x, t = u.raise x i.opc) := by
  have hw := run_writes i s
  rw [exec_eq_finish] at h
  cases hr : s.run i with
  | done u =>
    rw [hr] at h hw
    cases h
    exact ⟨_, hw, .inl rfl⟩
  | raised x u =>
    rw [hr] at h hw
    cases h
    exact ⟨u, hw, .inr ⟨x, rfl⟩⟩

/-- What every write and every fatal entry keep, a command keeps. -/
theorem exec_keeps {i : Instr} {P : State → Prop} (hwrite : ∀ {s t}, Write i s t → P s → P t)
    (hraise : ∀ {s} (x : Fatal) (src : Nat), P s → P (s.raise x src)) {s t : State} (h : exec i s = .next t)
    (hs : P s) : P t := by
  obtain ⟨u, hw, rfl | ⟨x, rfl⟩⟩ := exec_cases h
  · exact hw.keeps hwrite hs
  · exact hraise x _ (hw.keeps hwrite hs)

end Sys2Proof.Machine

/-! PROOFS. Rule R15 (O11) and the frame of the operations (O53). -/

namespace Sys2Proof.Machine

/-- The fatal entry in the plain words of the statements (rules R277, R291). -/
theorem State.raise_eq_entered (s : State) (x : Fatal) (src : Nat) :
    s.raise x src = s.entered x.flag.bit x.code src := by
  have hcode : s.err.extractLsb' 0 8 = 0 ↔ s.err.toNat % 2 ^ 8 = 0 := by
    rw [← BitVec.toNat_inj]
    simp
  simp only [State.raise, State.entered, State.setFlag, writeStatusBit, hcode]
  rfl

/-- An owned flag is one of the four outcome flags, whose bits are below the fatal ones (rule R46). -/
theorem bit_lt_of_owns {i : Instr} {f : Flag} (h : owns i f = true) : f.bit < 4 := by
  cases f with
  | noburst | syncnf | shortClk | shortPkt => decide
  | _ => cases i <;> cases h

theorem State.getLsbD_fatalBits (s : State) (k : Nat) :
    s.fatalBits.getLsbD k = (s.status.getLsbD k && (0x1F00#32).getLsbD k) := BitVec.getLsbD_and

/-- Writing an outcome flag changes no fatal one. -/
theorem State.fatalBits_setFlag (s : State) {f : Flag} (hf : f.bit < 4) (v : Bool) :
    (s.setFlag f v).fatalBits = s.fatalBits := by
  refine BitVec.eq_of_getLsbD_eq fun k _ => ?_
  rw [State.getLsbD_fatalBits, State.getLsbD_fatalBits, State.setFlag_status, getLsbD_writeStatusBit _ _ _ _ f.bit_lt]
  split
  · next h =>
    subst h
    have : (0x1F00#32).getLsbD f.bit = false := by interval_cases f.bit <;> rfl
    rw [this, Bool.and_false, Bool.and_false]
  · rfl

/-- No write sets a fatal flag: they stay, or `CLRST` clears them. -/
theorem Write.fatalBits_eq {i : Instr} {s t : State} (h : Write i s t) :
    t.fatalBits = s.fatalBits ∨ t.fatalBits = 0 := by
  cases h with
  | flag f v owned => exact .inl (s.fatalBits_setFlag (bit_lt_of_owns owned) v)
  | clear => exact .inr (BitVec.zero_and)
  | _ => exact .inl rfl

theorem Writes.fatalBits_eq {i : Instr} {s t : State} (h : Writes i s t) :
    t.fatalBits = s.fatalBits ∨ t.fatalBits = 0 :=
  h.keeps (P := fun u => u.fatalBits = s.fatalBits ∨ u.fatalBits = 0)
    (fun hw hu => hw.fatalBits_eq.elim (fun e => e ▸ hu) .inr) (.inl rfl)

/-- Settles O11: a run that raises is still at its first state, and no write sets a fatal flag. -/
theorem raisingOperationChangesOnlyStatusAndErr : Obligations.RaisingOperationChangesOnlyStatusAndErr := by
  intro i s t hi h
  have ha := run_atomic s i hi
  rw [exec_eq_finish] at h
  cases hr : s.run i with
  | done u =>
    rw [hr] at h ha
    cases h
    refine .inr (.inr (.inr ?_))
    obtain e | e := Writes.fatalBits_eq ha <;> rw [e]
    · exact BitVec.and_not_self _
    · exact BitVec.zero_and
  | raised x u =>
    rw [hr] at h ha
    cases h
    obtain ⟨hx, rfl⟩ := ha
    rw [State.raise_eq_entered]
    cases x with
    | invalidChannel => exact .inl rfl
    | configError => exact .inr (.inl rfl)
    | rangeError => exact .inr (.inr (.inl rfl))
    | illegalCommand | accessFault => exact hx.elim

/-- The configuration of rule R31, the loaded stream, the build parameters and the model's own two interface fields are
the same in two states. -/
structure State.SameConfiguration (s t : State) : Prop where
  cfgFs : t.cfgFs = s.cfgFs
  cfgSps : t.cfgSps = s.cfgSps
  cfgThresh : t.cfgThresh = s.cfgThresh
  cfgPad : t.cfgPad = s.cfgPad
  cfgSkip : t.cfgSkip = s.cfgSkip
  cfgCfo : t.cfgCfo = s.cfgCfo
  cfgRef : t.cfgRef = s.cfgRef
  cfgSync : t.cfgSync = s.cfgSync
  cfgTol : t.cfgTol = s.cfgTol
  cfgChan : t.cfgChan = s.cfgChan
  cfgMaxb : t.cfgMaxb = s.cfgMaxb
  sampLen : t.sampLen = s.sampLen
  build : t.build = s.build
  samp : t.mem.samp = s.mem.samp
  pending : t.pending = s.pending
  replies : t.replies = s.replies

theorem State.SameConfiguration.refl (s : State) : s.SameConfiguration s := by constructor <;> rfl

/-- No write is of a configuration register, the stream or the build parameters. -/
theorem Write.sameConfiguration {r s t : State} {i : Instr} (h : Write i s t) (hs : r.SameConfiguration s) :
    r.SameConfiguration t := by
  cases h <;> exact { hs with }

theorem exec_sameConfiguration {i : Instr} {s t : State} (h : exec i s = .next t) : s.SameConfiguration t :=
  exec_keeps Write.sameConfiguration (fun _ _ hs => { hs with }) h (.refl s)

/-- `SETTHR` alone writes the thresholds (rule R258). -/
theorem exec_thresholds {i : Instr} {s t : State} (h : exec i s = .next t) (hi : ∀ single, i ≠ .setthr single) :
    t.thrLo = s.thrLo ∧ t.thrHi = s.thrHi := by
  refine exec_keeps (P := fun u => u.thrLo = s.thrLo ∧ u.thrHi = s.thrHi) ?_ (fun _ _ hs => hs) h ⟨rfl, rfl⟩
  intro u v hw hu
  cases hw with
  | thresholds single e => exact absurd e (hi single)
  | _ => exact hu

/-- `SETREF` alone writes the reference (rule R259). -/
theorem exec_reference {i : Instr} {s t : State} (h : exec i s = .next t)
    (hi : i ∉ [Instr.setrefZ, .setrefC, .setrefD]) : t.fdRef = s.fdRef := by
  refine exec_keeps (P := fun u => u.fdRef = s.fdRef) ?_ (fun _ _ hs => hs) h rfl
  intro u v hw hu
  cases hw with
  | reference e => exact absurd e hi
  | _ => exact hu

/-- Settles O53: none of the writes an operation is a chain of touches the configuration. -/
theorem operationsLeaveTheConfiguration : Obligations.OperationsLeaveTheConfiguration := by
  intro i s t h
  obtain ⟨h1, h2, h3, h4, h5, h6, h7, h8, h9, h10, h11, h12, h13, h14, h15, h16⟩ := exec_sameConfiguration h
  exact ⟨h1, h2, h3, h4, h5, h6, h7, h8, h9, h10, h11, h12, h13, h14, h15, h16, exec_thresholds h, exec_reference h⟩

end Sys2Proof.Machine

/-! PROOFS. What every step keeps: an invariant of the operations' writes, of the fatal entry, of the host's writes and
of `Reset` is one of every step. -/

namespace Sys2Proof.Machine

theorem writeWord_stored {v : Value} {f : Word → State} {t : State} (h : writeWord v f = .stored t) :
    ∃ w, t = f w := by
  cases v with
  | word w => exact ⟨w, (Access.stored.inj h).symm⟩
  | _ => cases h

theorem writeLength_stored {cap : Nat} {v : Value} {f : Word → State} {t : State}
    (h : writeLength cap v f = .stored t) : ∃ w, w.toNat ≤ cap ∧ t = f w := by
  cases v with
  | word w =>
    rw [writeLength] at h
    split at h
    · next hw => exact ⟨w, hw, (Access.stored.inj h).symm⟩
    · cases h
  | _ => cases h

theorem writeNum_stored {v : Value} {f : NumVal → State} {t : State} (h : writeNum v f = .stored t) :
    ∃ n : NumVal, t = f n.normalize := by
  cases v with
  | num n => exact ⟨n, (Access.stored.inj h).symm⟩
  | _ => cases h

/-- A property of states that every part of a step keeps. -/
structure Kept (P : State → Prop) : Prop where
  write : ∀ {i : Instr} {s t : State}, Write i s t → P s → P t
  raise : ∀ {s : State} (x : Fatal) (src : Nat), P s → P (s.raise x src)
  await : ∀ {s : State} (rest : List HostTxn), P s → P (s.await rest)
  reply : ∀ {s : State} (v : Value), P s → P (s.reply v)
  reset : ∀ {s : State}, P s → P s.resetEvent
  register : ∀ {s t : State} {r : Reg} {v : Value}, s.writeReg r v = .stored t → P s → P t
  element : ∀ {s t : State} {sp : Space} {k : Nat} {v : Value}, sp.covers s.build k = true →
    s.writeElement sp k v = .stored t → P s → P t

section Kept

variable {P : State → Prop} (hP : Kept P) {s t : State}
include hP

theorem Kept.finish {a : Access} (ha : ∀ u, a = .stored u → P u) (h : a.finish s = .next t) (hs : P s) : P t := by
  cases a with
  | stored u =>
    cases h
    exact ha t rfl
  | denied =>
    cases h
    exact hP.raise _ _ hs

theorem Kept.hostRegRead {n : Nat} (h : hostRegRead n s = .next t) (hs : P s) : P t := by
  unfold Machine.hostRegRead at h
  split at h <;> cases h
  · exact hP.reply _ hs
  · exact hP.reply _ (hP.raise _ _ hs)

theorem Kept.hostRegWrite {n : Nat} {v : Value} (h : hostRegWrite n v s = .next t) (hs : P s) : P t := by
  unfold Machine.hostRegWrite at h
  split at h
  · exact hP.finish (fun u hu => hP.register hu hs) h hs
  · cases h
    exact hP.raise _ _ hs

theorem Kept.hostBufRead {n k : Nat} (h : hostBufRead n k s = .next t) (hs : P s) : P t := by
  unfold Machine.hostBufRead at h
  split at h
  · split at h <;> cases h
    · exact hP.reply _ hs
    · exact hP.reply _ (hP.raise _ _ hs)
  · cases h
    exact hP.reply _ (hP.raise _ _ hs)

theorem Kept.hostBufWrite {n k : Nat} {v : Value} (h : hostBufWrite n k v s = .next t) (hs : P s) : P t := by
  unfold Machine.hostBufWrite at h
  split at h
  · split at h
    · next hcov => exact hP.finish (fun u hu => hP.element hcov hu hs) h hs
    · cases h
      exact hP.raise _ _ hs
  · cases h
    exact hP.raise _ _ hs

theorem Kept.hostCmd {w : Word} (h : hostCmd w s = .next t) (hs : P s) : P t := by
  unfold Machine.hostCmd at h
  split at h
  · cases h
    exact hs
  · split at h
    · exact exec_keeps hP.write hP.raise h hs
    · cases h
      exact hP.raise _ _ hs

theorem Kept.transact {txn : HostTxn} (h : transact txn s = .next t) (hs : P s) : P t := by
  cases txn with
  | regRead n => exact hP.hostRegRead h hs
  | regWrite n v => exact hP.hostRegWrite h hs
  | bufRead n k => exact hP.hostBufRead h hs
  | bufWrite n k v => exact hP.hostBufWrite h hs
  | cmd w => exact hP.hostCmd h hs
  | reset =>
    cases h
    exact hP.reset hs

/-- What every part of a step keeps, a step keeps (rules R301, R324). -/
theorem Kept.step (h : step s = .next t) (hs : P s) : P t := by
  unfold Machine.step nextTransaction at h
  split at h
  · cases h
    exact hs
  · exact hP.transact h (hP.await _ hs)

end Kept

end Sys2Proof.Machine

/-! Lengths and buffers (rules R14, R45, R49 to R51, R81). -/

namespace Sys2Proof

/-- A buffer in canonical form that lists nothing at or above its capacity, and a length within it. -/
structure Buf.Fits {α : Type} (b : Buf α) (cap len : Nat) : Prop where
  len_le : len ≤ cap
  wf : b.wf = true
  within : b.within cap = true

section Fits

variable {α : Type} {b : Buf α} {cap len : Nat}

theorem Buf.Fits.empty : (Buf.empty : Buf α).Fits cap 0 := ⟨Nat.zero_le _, rfl, rfl⟩

theorem Buf.Fits.forget : b.forget.Fits cap 0 := ⟨Nat.zero_le _, rfl, rfl⟩

theorem Buf.Fits.resize (h : b.Fits cap len) {n : Nat} (hn : n ≤ cap) : b.Fits cap n := { h with len_le := hn }

theorem Buf.Fits.put (h : b.Fits cap len) {k : Nat} (hk : k < cap) (v : α) : (b.put k v).Fits cap len :=
  { h with
    wf := b.wf_put k v h.wf
    within := b.within_put cap k v hk h.within }

theorem Buf.Fits.fill (h : b.Fits cap len) {xs : List α} (hx : xs.length ≤ cap) {n : Nat} (hn : n ≤ xs.length) :
    (b.fill len xs).Fits cap n :=
  ⟨hn.trans hx, b.wf_fill len xs h.wf, b.within_fill cap len xs hx h.within⟩

/-- Appending at the length register's index. -/
theorem Buf.Fits.append {w : Word} (h : b.Fits cap w.toNat) (room : w.toNat ≠ cap) (v : α) :
    (b.put w.toNat v).Fits cap (w + 1).toNat := by
  have hlt : w.toNat < cap := lt_of_le_of_ne h.len_le room
  exact (h.put hlt v).resize ((Machine.toNat_add_one_le w).trans hlt)

/-- Storing a result and its length. -/
theorem Buf.Fits.store {w : Word} (h : b.Fits cap w.toNat) {xs : List α} (hx : xs.length ≤ cap) :
    (b.fill w.toNat xs).Fits cap (BitVec.ofNat 32 xs.length).toNat :=
  h.fill hx (Nat.mod_le _ _)

end Fits

namespace Machine

/-- The capacities are legal, and every buffer fits its own together with its length register. `SQL` has none (rule
R55). -/
structure State.Fits (s : State) : Prop where
  build : s.build.legal = true
  maxb : s.cfgMaxb.toNat ≤ s.build.byteCap
  samp : s.mem.samp.Fits s.build.sampCap s.sampLen.toNat
  sql : s.mem.sql.Fits s.build.sampCap 0
  burst : s.mem.burst.Fits s.build.burstCap s.burstCnt.toNat
  freq : s.mem.freq.Fits s.build.sampCap s.freqLen.toNat
  bits : s.mem.bits.Fits s.build.sampCap s.bitsLen.toNat
  raw : s.mem.raw.Fits s.build.sampCap s.rawLen.toNat
  cand : s.mem.cand.Fits s.build.candCap s.candCnt.toNat
  hits : s.mem.hits.Fits s.build.matchCap s.matchCnt.toNat
  rb : s.mem.rb.Fits s.build.byteCap s.rbLen.toNat
  dw : s.mem.dw.Fits s.build.byteCap s.dwLen.toNat
  out : s.mem.out.Fits s.build.outCap s.outCnt.toNat

/-- The three invariants of lengths and memory, buffer by buffer. -/
theorem State.fits_iff (s : State) :
    s.Fits ↔ s.lengthsLegal = true ∧ s.mem.wf = true ∧ s.buffersWithinCapacity = true := by
  simp only [State.lengthsLegal, Memory.wf, State.buffersWithinCapacity, Bool.and_eq_true, decide_eq_true_eq,
    and_assoc]
  constructor
  · intro h
    obtain ⟨build, maxb, ⟨⟩, ⟨⟩, ⟨⟩, ⟨⟩, ⟨⟩, ⟨⟩, ⟨⟩, ⟨⟩, ⟨⟩, ⟨⟩, ⟨⟩⟩ := h
    simp only [*, and_self]
  · rintro ⟨build, samp, burst, freq, bits, raw, cand, hits, rb, dw, out, maxb, wsamp, wsql, wburst, wfreq, wbits,
      wraw, wcand, whits, wrb, wdw, wout, csamp, csql, cburst, cfreq, cbits, craw, ccand, chits, crb, cdw, cout⟩
    exact ⟨build, maxb, ⟨samp, wsamp, csamp⟩, ⟨Nat.zero_le _, wsql, csql⟩, ⟨burst, wburst, cburst⟩,
      ⟨freq, wfreq, cfreq⟩, ⟨bits, wbits, cbits⟩, ⟨raw, wraw, craw⟩, ⟨cand, wcand, ccand⟩, ⟨hits, whits, chits⟩,
      ⟨rb, wrb, crb⟩, ⟨dw, wdw, cdw⟩, ⟨out, wout, cout⟩⟩

/-- The frequency signal has fewer elements than the segment has samples (rule R151). -/
theorem length_differences_le (xs : List NumVal) : (differences xs).length ≤ xs.length := by
  induction xs with
  | nil => exact le_rfl
  | cons a rest ih =>
    cases rest with
    | nil => exact Nat.zero_le _
    | cons b rest => exact Nat.succ_le_succ ih

theorem length_unwrapFrom (u p : NumVal) (xs : List NumVal) : (unwrapFrom u p xs).length = xs.length := by
  induction xs generalizing u p with
  | nil => rfl
  | cons q rest ih => simp [unwrapFrom, ih]

theorem length_unwrapPhases (xs : List NumVal) : (unwrapPhases xs).length = xs.length := by
  cases xs with
  | nil => rfl
  | cons p rest => simp [unwrapPhases, length_unwrapFrom]

theorem length_frequencies_le (ug : Bool) (xs : List Sample) : (frequencies ug xs).length ≤ xs.length := by
  cases ug with
  | false => simpa [frequencies, directFrequencies] using length_differences_le (xs.map argOf)
  | true =>
    simpa [frequencies, gradientFrequencies, length_unwrapPhases] using
      length_differences_le (unwrapPhases (xs.map argOf))

/-- A legal segment is no longer than the stream. -/
theorem State.length_segment_le {s : State} (h : s.segmentIllegal = false) : s.segment.length ≤ s.sampLen.toNat := by
  have hstop : ¬ s.sampLen < s.segStop := by
    simp only [State.segmentIllegal, Bool.or_eq_false_iff, decide_eq_false_iff_not] at h
    exact h.2
  rw [BitVec.lt_def] at hstop
  simp only [State.segment, Buf.length_window]
  omega

@[simp] theorem length_squelched (spans : List Span) (xs : List Sample) : (squelched spans xs).length = xs.length := by
  simp [squelched]

/-- Every write of an operation leaves lengths within capacity and buffers in canonical form. -/
theorem Write.fits {i : Instr} {s t : State} (h : Write i s t) (hs : s.Fits) : t.Fits := by
  cases h with
  | discard => exact { hs with out := .forget }
  | restart => exact { hs with burst := hs.burst.resize (Nat.zero_le _) }
  | burst b room => exact { hs with burst := hs.burst.append room b }
  | squelch spans =>
    exact { hs with sql := hs.sql.fill (by simpa using hs.samp.len_le) (Nat.zero_le _) }
  | freq ug legal =>
    have room := (length_frequencies_le ug _).trans ((State.length_segment_le legal).trans hs.samp.len_le)
    exact { hs with freq := hs.freq.store room }
  | bits room => exact { hs with bits := hs.bits.store (room.trans hs.freq.len_le) }
  | raw room => exact { hs with raw := hs.raw.store (room.trans hs.freq.len_le) }
  | cand room => exact { hs with cand := hs.cand.store (room.elim id hs.cand.len_le.trans') }
  | hits room => exact { hs with hits := hs.hits.store room }
  | bytes room => exact { hs with rb := hs.rb.store (room.trans hs.maxb) }
  | white room => exact { hs with dw := hs.dw.store (room.trans hs.rb.len_le) }
  | packet p room => exact { hs with out := hs.out.append room p }
  | _ => exact { hs with }

/-- A host write of a register keeps the lengths within capacity: larger ones are refused (rules R81, R261). -/
theorem writeReg_fits {s t : State} {r : Reg} {v : Value} (h : s.writeReg r v = .stored t) (hs : s.Fits) :
    t.Fits := by
  cases r <;> rw [State.writeReg] at h
  case cfgMaxb => obtain ⟨w, hw, rfl⟩ := writeLength_stored h; exact { hs with maxb := hw }
  case sampLen => obtain ⟨w, hw, rfl⟩ := writeLength_stored h; exact { hs with samp := hs.samp.resize hw }
  case burstCnt => obtain ⟨w, hw, rfl⟩ := writeLength_stored h; exact { hs with burst := hs.burst.resize hw }
  case freqLen => obtain ⟨w, hw, rfl⟩ := writeLength_stored h; exact { hs with freq := hs.freq.resize hw }
  case bitsLen => obtain ⟨w, hw, rfl⟩ := writeLength_stored h; exact { hs with bits := hs.bits.resize hw }
  case rawLen => obtain ⟨w, hw, rfl⟩ := writeLength_stored h; exact { hs with raw := hs.raw.resize hw }
  case candCnt => obtain ⟨w, hw, rfl⟩ := writeLength_stored h; exact { hs with cand := hs.cand.resize hw }
  case matchCnt => obtain ⟨w, hw, rfl⟩ := writeLength_stored h; exact { hs with hits := hs.hits.resize hw }
  case rbLen => obtain ⟨w, hw, rfl⟩ := writeLength_stored h; exact { hs with rb := hs.rb.resize hw }
  case dwLen => obtain ⟨w, hw, rfl⟩ := writeLength_stored h; exact { hs with dw := hs.dw.resize hw }
  case cfgFs | cfgThresh | thrLo | thrHi | cfgCfo | cfgRef | fdRef =>
    obtain ⟨n, rfl⟩ := writeNum_stored h
    exact { hs with }
  case outCnt | status | err | cntFound | cntFailed | pfDecl => cases h
  all_goals
    obtain ⟨w, rfl⟩ := writeWord_stored h
    exact { hs with }

/-- A host write of an element is below the capacity (rule R80). -/
theorem writeElement_fits {s t : State} {sp : Space} {k : Nat} {v : Value} (hk : sp.covers s.build k = true)
    (h : s.writeElement sp k v = .stored t) (hs : s.Fits) : t.Fits := by
  unfold State.writeElement at h
  split at h <;> cases h <;> have hk := of_decide_eq_true hk
  · exact { hs with samp := hs.samp.put hk _ }
  · exact { hs with burst := hs.burst.put hk _ }
  · exact { hs with freq := hs.freq.put hk _ }
  · exact { hs with bits := hs.bits.put hk _ }
  · exact { hs with raw := hs.raw.put hk _ }
  · exact { hs with cand := hs.cand.put hk _ }
  · exact { hs with hits := hs.hits.put hk _ }
  · exact { hs with rb := hs.rb.put hk _ }
  · exact { hs with dw := hs.dw.put hk _ }

/-- The reset value of `CFG_MAXB` fits every legal `BYTE_CAP` (rules R9, R60). -/
theorem Build.le_byteCap_of_legal {b : Build} (h : b.legal = true) : 260 ≤ b.byteCap := by
  simp only [Build.legal, Bool.and_eq_true, decide_eq_true_eq] at h
  exact h.1.1.2

theorem resetOf_fits {b : Build} (h : b.legal = true) : (State.resetOf b).Fits :=
  ⟨h, Build.le_byteCap_of_legal h, .empty, .empty, .empty, .empty, .empty, .empty, .empty, .empty, .empty, .empty,
    .empty⟩

theorem resetEvent_fits {s : State} (hs : s.Fits) : s.resetEvent.Fits :=
  ⟨hs.build, Build.le_byteCap_of_legal hs.build, .forget, .forget, .forget, .forget, .forget, .forget, .forget,
    .forget, .forget, .forget, .forget⟩

theorem fits_kept : Kept State.Fits where
  write := Write.fits
  raise _ _ hs := { hs with }
  await _ hs := { hs with }
  reply _ hs := { hs with }
  reset := resetEvent_fits
  register := writeReg_fits
  element := writeElement_fits

/-- Settles O55: every part of a step keeps the buffers and lengths within their capacities. -/
theorem stepKeepsLengthsAndMemory : Obligations.StepKeepsLengthsAndMemory := by
  intro s t hlen hwf hwithin h
  exact t.fits_iff.1 (fits_kept.step h (s.fits_iff.2 ⟨hlen, hwf, hwithin⟩))

end Machine

end Sys2Proof

/-! PROOFS. The numbers written as data: their directions, their canonical form, and the real numbers they stand for
(rule R16; log entry 1). -/

namespace Sys2Proof

open Complex (arg)
open Real (pi)

/-- The argument in the right half plane is an arctangent. -/
theorem arg_eq_arctan {x y : ℝ} (hx : 0 < x) : arg ⟨x, y⟩ = Real.arctan (y / x) := by
  have habs : |arg ⟨x, y⟩| < pi / 2 := Complex.abs_arg_lt_pi_div_two_iff.2 (.inl hx)
  have htan : Real.tan (arg ⟨x, y⟩) = y / x := Complex.tan_arg _
  rw [← htan, Real.arctan_tan (abs_lt.1 habs).1 (abs_lt.1 habs).2]

theorem arg_scale {c : ℝ} (hc : 0 < c) (x y : ℝ) : arg ⟨c * x, c * y⟩ = arg ⟨x, y⟩ := by
  have h : (⟨c * x, c * y⟩ : ℂ) = (c : ℂ) * ⟨x, y⟩ := by apply Complex.ext <;> simp
  rw [h, Complex.arg_real_mul _ hc]

/-- The argument of a vector in the first octant (rule R16). -/
theorem arg_mem_octant {x y : ℝ} (hy : 0 ≤ y) (hxy : y < x) : 0 ≤ arg ⟨x, y⟩ ∧ arg ⟨x, y⟩ < pi / 4 := by
  have hx : 0 < x := hy.trans_lt hxy
  rw [arg_eq_arctan hx, ← Real.arctan_one]
  exact ⟨Real.arctan_nonneg.2 (div_nonneg hy hx.le), Real.arctan_strictMono ((div_lt_one hx).2 hxy)⟩

theorem arg_pos_of_octant {x y : ℝ} (hy : 0 < y) : 0 < arg ⟨x, y⟩ := by
  refine lt_of_le_of_ne (Complex.arg_nonneg_iff.2 hy.le) fun h => ?_
  exact hy.ne' (Complex.arg_eq_zero_iff.1 h.symm).2

/-- Arguments add under multiplication where the sum is principal; `c` is a scale left out on one side. -/
theorem arg_product {x y a b p q c : ℝ} (hc : 0 < c) (hx : c * x = a * p - b * q) (hy : c * y = a * q + b * p)
    (hab : a ≠ 0 ∨ b ≠ 0) (hpq : p ≠ 0 ∨ q ≠ 0) (h : arg ⟨a, b⟩ + arg ⟨p, q⟩ ∈ Set.Ioc (-pi) pi) :
    arg ⟨x, y⟩ = arg ⟨a, b⟩ + arg ⟨p, q⟩ := by
  have hne : ∀ {u v : ℝ}, u ≠ 0 ∨ v ≠ 0 → (⟨u, v⟩ : ℂ) ≠ 0 := by
    intro u v huv e
    rw [Complex.ext_iff] at e
    exact huv.elim (fun hu => hu e.1) fun hv => hv e.2
  have hmul : (⟨c * x, c * y⟩ : ℂ) = ⟨a, b⟩ * ⟨p, q⟩ := Complex.ext hx hy
  rw [← arg_scale hc, hmul, Complex.arg_mul (hne hab) (hne hpq) h]

theorem arg_one_one : arg ⟨1, 1⟩ = pi / 4 := by
  rw [arg_eq_arctan one_pos, div_one, Real.arctan_one]

theorem arg_one_neg_one : arg ⟨1, -1⟩ = -(pi / 4) := by
  rw [arg_eq_arctan one_pos, div_one, Real.arctan_neg, Real.arctan_one]

theorem arg_zero_one : arg ⟨0, 1⟩ = pi / 2 := Complex.arg_I

theorem arg_zero_neg_one : arg ⟨0, -1⟩ = -(pi / 2) := by
  have h : (⟨0, -1⟩ : ℂ) = -Complex.I := by apply Complex.ext <;> simp
  rw [h, Complex.arg_neg_I]

theorem arg_neg_one_one : arg ⟨-1, 1⟩ = 3 * pi / 4 := by
  have hpi := Real.pi_pos
  rw [arg_product (a := 0) (b := 1) (p := 1) (q := 1) one_pos (by norm_num) (by norm_num) (by norm_num) (by norm_num),
    arg_zero_one, arg_one_one]
  · ring
  · rw [arg_zero_one, arg_one_one]
    constructor <;> linarith

theorem arg_neg_one_neg_one : arg ⟨-1, -1⟩ = -(3 * pi / 4) := by
  have hpi := Real.pi_pos
  rw [arg_product (a := 0) (b := -1) (p := 1) (q := -1) one_pos (by norm_num) (by norm_num) (by norm_num)
    (by norm_num), arg_zero_neg_one, arg_one_neg_one]
  · ring
  · rw [arg_zero_neg_one, arg_one_neg_one]
    constructor <;> linarith

/-- A vector turned into the first octant by a vector `(p, q)` of argument `k * pi / 4`. -/
theorem arg_turned {x y a b p q c : ℝ} {k : ℤ} (hc : 0 < c) (hx : c * x = a * p - b * q) (hy : c * y = a * q + b * p)
    (hb : 0 ≤ b) (hab : b < a) (hpq : p ≠ 0 ∨ q ≠ 0) (hk : arg ⟨p, q⟩ = k * pi / 4) (hlo : -4 < k) (hhi : k < 4) :
    arg ⟨x, y⟩ = k / 4 * pi + arg ⟨a, b⟩ := by
  obtain ⟨h0, h1⟩ := arg_mem_octant hb hab
  have hpi := Real.pi_pos
  have hlo' : (-3 : ℝ) ≤ k := by exact_mod_cast hlo
  have hhi' : (k : ℝ) ≤ 3 := by exact_mod_cast Int.lt_add_one_iff.1 hhi
  rw [arg_product hc hx hy (.inl (hb.trans_lt hab).ne') hpq, hk]
  · ring
  · rw [hk]
    constructor <;> nlinarith

/-- What the turned vector is: in the first octant, a whole multiple of `pi / 4` away (rule R16). -/
structure Octant (x y : ℤ) (o : ℚ × ℤ × ℤ) : Prop where
  nonneg : 0 ≤ o.2.2
  lt : o.2.2 < o.2.1
  quarters : ∃ k : ℤ, o.1 = k / 4
  arg_eq : arg ⟨x, y⟩ = o.1 * pi + arg ⟨o.2.1, o.2.2⟩

/-- An octant from the vector that turns back out of it. -/
theorem Octant.of_turn {x y a b : ℤ} {r : ℚ} (k p q c : ℤ) (hk : arg ⟨p, q⟩ = k * pi / 4)
    (hr : r = k / 4 := by norm_num) (hb : 0 ≤ b := by omega) (hab : b < a := by omega) (hc : 0 < c := by omega)
    (hx : c * x = a * p - b * q := by ring) (hy : c * y = a * q + b * p := by ring)
    (hpq : p ≠ 0 ∨ q ≠ 0 := by omega) (hlo : -4 < k := by omega) (hhi : k < 4 := by omega) :
    Octant x y (r, a, b) where
  nonneg := hb
  lt := hab
  quarters := ⟨k, hr⟩
  arg_eq := by
    rw [arg_turned (c := c) (a := a) (b := b) (p := p) (q := q) (by exact_mod_cast hc) (by exact_mod_cast hx)
      (by exact_mod_cast hy) (by exact_mod_cast hb) (by exact_mod_cast hab) (by exact_mod_cast hpq) hk hlo hhi, hr]
    push_cast
    rfl

theorem Octant.of_left {x : ℤ} (hx : x < 0) : Octant x 0 (1, -x, -0) where
  nonneg := le_rfl
  lt := by simpa using hx
  quarters := ⟨4, by norm_num⟩
  arg_eq := by
    have hx' : (x : ℝ) < 0 := by exact_mod_cast hx
    have hleft : arg ⟨x, ((0 : ℤ) : ℝ)⟩ = pi := Complex.arg_eq_pi_iff.2 ⟨hx', Int.cast_zero⟩
    have hright : arg ⟨((-x : ℤ) : ℝ), ((-0 : ℤ) : ℝ)⟩ = 0 :=
      Complex.arg_eq_zero_iff.2 ⟨by simpa using hx'.le, by simp⟩
    rw [hleft, hright]
    simp

theorem Octant.of_below_left {x y : ℤ} (hy : y < 0) (hxy : -y < -x) : Octant x y (-1, -x, -y) where
  nonneg := by simpa using hy.le
  lt := hxy
  quarters := ⟨-4, by norm_num⟩
  arg_eq := by
    have hneg : (⟨x, y⟩ : ℂ) = -⟨((-x : ℤ) : ℝ), ((-y : ℤ) : ℝ)⟩ := by apply Complex.ext <;> simp
    have him : (0 : ℝ) < ((-y : ℤ) : ℝ) := by simpa using hy
    rw [hneg, Complex.arg_neg_eq_arg_sub_pi_of_im_pos him]
    push_cast
    ring

/-- Every vector other than 0 is turned into the first octant by its own multiple of `pi / 4`. -/
theorem octant_spec {x y : ℤ} (h : ¬ (x = 0 ∧ y = 0)) : Octant x y (octant x y) := by
  unfold octant
  split_ifs with hy hx hyx hy' hxy hx' hyx' hyx''
  · exact { nonneg := hy, lt := hyx, quarters := ⟨0, by norm_num⟩, arg_eq := by simp }
  · exact .of_turn 1 1 1 2 (by norm_num [arg_one_one])
  · exact .of_turn 2 0 1 1 (by norm_num [arg_zero_one]; ring)
  · exact .of_turn 3 (-1) 1 2 (by norm_num [arg_neg_one_one])
  · obtain rfl : y = 0 := by omega
    exact .of_left (by omega)
  · exact .of_below_left (by omega) hyx'
  · exact .of_turn (-3) (-1) (-1) 2 (by norm_num [arg_neg_one_neg_one]; ring)
  · exact .of_turn (-2) 0 (-1) 1 (by norm_num [arg_zero_neg_one]; ring)
  · exact .of_turn (-1) 1 (-1) 2 (by norm_num [arg_one_neg_one]; ring)

/-- The canonical form of an exact number, as a proposition. -/
theorem RealNum.canonical_iff (a : RealNum) :
    a.canonical = true ↔ (a.dx = 1 ∧ a.dy = 0) ∨ (0 < a.dy ∧ a.dy < a.dx ∧ Int.gcd a.dx a.dy = 1) := by
  simp [RealNum.canonical, and_assoc]

/-- A primitive vector in the first octant is canonical. -/
theorem RealNum.canonical_of_coprime {a : RealNum} (h0 : 0 ≤ a.dy) (h1 : a.dy < a.dx) (hg : Int.gcd a.dx a.dy = 1) :
    a.canonical = true := by
  rw [RealNum.canonical_iff]
  obtain hdy | hdy := h0.eq_or_lt
  · rw [← hdy, Int.gcd_zero_right] at hg
    exact .inl ⟨by omega, hdy.symm⟩
  · exact .inr ⟨hdy, h1, hg⟩

/-- A canonical direction lies in the first octant. -/
theorem RealNum.octant_of_canonical {a : RealNum} (h : a.canonical = true) : 0 ≤ a.dy ∧ a.dy < a.dx := by
  rw [RealNum.canonical_iff] at h
  omega

/-- A canonical direction is primitive. -/
theorem RealNum.coprime_of_canonical {a : RealNum} (h : a.canonical = true) : Int.gcd a.dx a.dy = 1 := by
  obtain ⟨hx, hy⟩ | ⟨-, -, hg⟩ := a.canonical_iff.1 h
  · rw [hx, hy]
    rfl
  · exact hg

/-- The direction of a vector other than 0: its turned vector over the common divisor of the components. -/
theorem direction_eq {x y : ℤ} (h : ¬ (x = 0 ∧ y = 0)) :
    ∃ a b g : ℤ, 0 < g ∧ 0 ≤ b ∧ b < a ∧ Int.gcd a b = 1 ∧ (octant x y).2.1 = g * a ∧ (octant x y).2.2 = g * b
      ∧ direction x y = ⟨0, (octant x y).1, a, b⟩ := by
  have ho := octant_spec h
  have hpos : 0 < Int.gcd (octant x y).2.1 (octant x y).2.2 :=
    Int.gcd_pos_of_ne_zero_left _ (ho.nonneg.trans_lt ho.lt).ne'
  obtain ⟨a, b, hg, ha, hb⟩ := Int.exists_gcd_one hpos
  have hpos' : (0 : ℤ) < Int.gcd (octant x y).2.1 (octant x y).2.2 := by exact_mod_cast hpos
  have hdir : direction x y = ⟨0, (octant x y).1, a, b⟩ := by
    rw [direction, if_neg h]
    dsimp only
    rw [Int.ediv_eq_of_eq_mul_left hpos'.ne' ha, Int.ediv_eq_of_eq_mul_left hpos'.ne' hb]
  have h0 : 0 ≤ b * (Int.gcd (octant x y).2.1 (octant x y).2.2 : ℤ) := hb ▸ ho.nonneg
  have h1 : b * (Int.gcd (octant x y).2.1 (octant x y).2.2 : ℤ)
      < a * (Int.gcd (octant x y).2.1 (octant x y).2.2 : ℤ) := by
    rw [← ha, ← hb]
    exact ho.lt
  exact ⟨a, b, _, hpos', nonneg_of_mul_nonneg_left h0 hpos', lt_of_mul_lt_mul_right h1 hpos'.le, hg,
    by rw [mul_comm]; exact ha, by rw [mul_comm]; exact hb, hdir⟩

theorem direction_canonical (x y : ℤ) : (direction x y).canonical = true := by
  by_cases h : x = 0 ∧ y = 0
  · rw [direction, if_pos h]
    rfl
  · obtain ⟨a, b, g, -, h0, h1, hg, -, -, hdir⟩ := direction_eq h
    rw [hdir]
    exact RealNum.canonical_of_coprime h0 h1 hg

theorem direction_rad (x y : ℤ) : (direction x y).rad = 0 := by
  unfold direction
  split <;> rfl

theorem direction_quarters (x y : ℤ) : ∃ k : ℤ, (direction x y).pis = k / 4 := by
  by_cases h : x = 0 ∧ y = 0
  · rw [direction, if_pos h]
    exact ⟨0, by simp [RealNum.zero]⟩
  · obtain ⟨a, b, g, -, -, -, -, -, -, hdir⟩ := direction_eq h
    rw [hdir]
    exact (octant_spec h).quarters

/-- The direction of a vector stands for its principal argument, and for 0 where the vector is 0 (rule R16). -/
theorem direction_toReal (x y : ℤ) : (direction x y).toReal = arg ⟨x, y⟩ := by
  by_cases h : x = 0 ∧ y = 0
  · obtain ⟨rfl, rfl⟩ := h
    have h0 : (⟨((0 : ℤ) : ℝ), ((0 : ℤ) : ℝ)⟩ : ℂ) = 0 := by apply Complex.ext <;> simp
    rw [h0, Complex.arg_zero]
    have hzero : direction 0 0 = RealNum.ofRat 0 := if_pos ⟨rfl, rfl⟩
    rw [hzero, RealNum.toReal_ofRat, Rat.cast_zero]
  · obtain ⟨a, b, g, hpos, -, -, -, ha, hb, hdir⟩ := direction_eq h
    rw [(octant_spec h).arg_eq, hdir, ha, hb]
    have hscale := arg_scale (c := g) (by exact_mod_cast hpos) a b
    push_cast
    rw [hscale]
    simp [RealNum.toReal]

/-! Arithmetic on exact numbers. -/

/-- What an exact number is worth beside its direction, and its direction's argument. -/
theorem RealNum.toReal_eq (a : RealNum) : a.toReal = a.rad + a.pis * pi + arg ⟨a.dx, a.dy⟩ := rfl

theorem direction_arg (x y : ℤ) :
    arg ⟨(direction x y).dx, (direction x y).dy⟩ = arg ⟨x, y⟩ - (direction x y).pis * pi := by
  have h := direction_toReal x y
  rw [RealNum.toReal_eq, direction_rad] at h
  rw [← h]
  push_cast
  ring

theorem RealNum.normalize_canonical (a : RealNum) : a.normalize.canonical = true := direction_canonical a.dx a.dy

@[simp] theorem RealNum.normalize_toReal (a : RealNum) : a.normalize.toReal = a.toReal := by
  simp only [RealNum.toReal_eq, RealNum.normalize, direction_arg]
  push_cast
  ring

/-- The argument of a canonical direction (rule R16). -/
theorem RealNum.arg_mem_of_canonical {a : RealNum} (h : a.canonical = true) :
    0 ≤ arg ⟨a.dx, a.dy⟩ ∧ arg ⟨a.dx, a.dy⟩ < pi / 4 := by
  obtain ⟨h0, h1⟩ := RealNum.octant_of_canonical h
  exact arg_mem_octant (by exact_mod_cast h0) (by exact_mod_cast h1)

theorem RealNum.dx_pos_of_canonical {a : RealNum} (h : a.canonical = true) : (0 : ℝ) < a.dx := by
  obtain ⟨h0, h1⟩ := RealNum.octant_of_canonical h
  exact_mod_cast h0.trans_lt h1

theorem RealNum.add_canonical (a b : RealNum) : (a.add b).canonical = true := direction_canonical _ _

theorem RealNum.addCanonical_toReal {a b : RealNum} (ha : a.canonical = true) (hb : b.canonical = true) :
    (a.addCanonical b).toReal = a.toReal + b.toReal := by
  obtain ⟨ha0, ha1⟩ := RealNum.arg_mem_of_canonical ha
  obtain ⟨hb0, hb1⟩ := RealNum.arg_mem_of_canonical hb
  have hpi := Real.pi_pos
  have hprod : arg ⟨((a.dx * b.dx - a.dy * b.dy : ℤ) : ℝ), ((a.dx * b.dy + a.dy * b.dx : ℤ) : ℝ)⟩
      = arg ⟨a.dx, a.dy⟩ + arg ⟨b.dx, b.dy⟩ :=
    arg_product one_pos (by push_cast; ring) (by push_cast; ring) (.inl (RealNum.dx_pos_of_canonical ha).ne')
      (.inl (RealNum.dx_pos_of_canonical hb).ne') ⟨by linarith, by linarith⟩
  simp only [RealNum.toReal_eq, RealNum.addCanonical, direction_arg, hprod]
  push_cast
  ring

@[simp] theorem RealNum.add_toReal (a b : RealNum) : (a.add b).toReal = a.toReal + b.toReal := by
  rw [RealNum.add, RealNum.addCanonical_toReal a.normalize_canonical b.normalize_canonical,
    RealNum.normalize_toReal, RealNum.normalize_toReal]

theorem RealNum.neg_canonical (a : RealNum) : a.neg.canonical = true := direction_canonical _ _

theorem RealNum.negCanonical_toReal {a : RealNum} (ha : a.canonical = true) : a.negCanonical.toReal = -a.toReal := by
  obtain ⟨ha0, ha1⟩ := RealNum.arg_mem_of_canonical ha
  have hpi := Real.pi_pos
  have hx := RealNum.dx_pos_of_canonical ha
  have hconj : arg ⟨a.dx, ((-a.dy : ℤ) : ℝ)⟩ = -arg ⟨a.dx, a.dy⟩ := by
    rw [arg_eq_arctan hx, arg_eq_arctan hx, ← Real.arctan_neg]
    push_cast
    rw [neg_div]
  simp only [RealNum.toReal_eq, RealNum.negCanonical, direction_arg, hconj]
  push_cast
  ring

@[simp] theorem RealNum.neg_toReal (a : RealNum) : a.neg.toReal = -a.toReal := by
  rw [RealNum.neg, RealNum.negCanonical_toReal a.normalize_canonical, RealNum.normalize_toReal]

/-- A number that is one rational number stands for it. -/
theorem RealNum.toReal_of_toRat? {a : RealNum} {q : ℚ} (h : a.toRat? = some q) : a.toReal = q := by
  unfold RealNum.toRat? at h
  dsimp only at h
  split at h
  · next hn =>
    obtain ⟨hpis, hdx, hdy⟩ := hn
    have hq : a.normalize = RealNum.ofRat q := by
      rw [← Option.some.inj h, RealNum.ofRat]
      generalize a.normalize = n at *
      cases n
      simp_all
    rw [← RealNum.normalize_toReal, hq, RealNum.toReal_ofRat]
  · cases h

/-! Arithmetic on numbers. -/

@[simp] theorem NumVal.toReal_exact (r : RealNum) : (NumVal.exact r).toReal = r.toReal := rfl

theorem NumVal.toReal_of_toRat? {a : NumVal} {q : ℚ} (h : a.toRat? = some q) : a.toReal = q := by
  cases a with
  | exact r => exact RealNum.toReal_of_toRat? h
  | _ => cases h

@[simp] theorem NumVal.normalize_toReal (a : NumVal) : a.normalize.toReal = a.toReal := by
  induction a <;> simp [NumVal.normalize, *]

theorem NumVal.normalize_canonical (a : NumVal) : a.normalize.canonical = true := by
  induction a <;> simp [NumVal.normalize, NumVal.canonical, RealNum.normalize_canonical, *]

@[simp] theorem NumVal.add_toReal (a b : NumVal) : (a.add b).toReal = a.toReal + b.toReal := by
  unfold NumVal.add
  split
  · exact RealNum.add_toReal _ _
  · rfl

@[simp] theorem NumVal.neg_toReal (a : NumVal) : a.neg.toReal = -a.toReal := by
  unfold NumVal.neg
  split
  · exact RealNum.neg_toReal _
  · rfl

@[simp] theorem NumVal.sub_toReal (a b : NumVal) : (a.sub b).toReal = a.toReal - b.toReal := by
  have hadd : (a.add b.neg).toReal = a.toReal - b.toReal := by simp [sub_eq_add_neg]
  unfold NumVal.sub
  split
  · next x y =>
    split
    · next h => simp [← h]
    · exact hadd
  · exact hadd

@[simp] theorem NumVal.mul_toReal (a b : NumVal) : (a.mul b).toReal = a.toReal * b.toReal := by
  unfold NumVal.mul
  split
  · next p q ha hb => simp [NumVal.toReal_of_toRat? ha, NumVal.toReal_of_toRat? hb]
  · rfl

@[simp] theorem NumVal.toReal_ofPi (q : ℚ) : (NumVal.ofPi q).toReal = q * pi := by
  have h : (⟨((1 : ℤ) : ℝ), ((0 : ℤ) : ℝ)⟩ : ℂ) = 1 := by apply Complex.ext <;> simp
  simp [NumVal.ofPi, RealNum.ofPi, RealNum.toReal_eq, -Int.cast_one, -Int.cast_zero, h]

/-! The operations keep the canonical form. -/

theorem NumVal.ofRat_canonical (q : ℚ) : (NumVal.ofRat q).canonical = true := rfl

theorem NumVal.ofPi_canonical (q : ℚ) : (NumVal.ofPi q).canonical = true := rfl

theorem NumVal.zero_canonical : NumVal.zero.canonical = true := rfl

section Canonical

variable {a b : NumVal} (ha : a.canonical = true) (hb : b.canonical = true)
include ha

theorem NumVal.neg_canonical : a.neg.canonical = true := by
  cases a with
  | exact r => exact r.neg_canonical
  | _ => exact ha

include hb

theorem NumVal.add_canonical : (a.add b).canonical = true := by
  unfold NumVal.add
  split
  · exact RealNum.add_canonical _ _
  · simp [NumVal.canonical, ha, hb]

theorem NumVal.sub_canonical : (a.sub b).canonical = true := by
  have hadd := NumVal.add_canonical ha (NumVal.neg_canonical hb)
  unfold NumVal.sub
  split
  · next x y =>
    split
    · exact (Bool.and_eq_true_iff.1 ha).2
    · exact hadd
  · exact hadd

theorem NumVal.mul_canonical : (a.mul b).canonical = true := by
  unfold NumVal.mul
  split
  · exact NumVal.ofRat_canonical _
  · simp [NumVal.canonical, ha, hb]

theorem referenceOf_canonical : (referenceOf a b).canonical = true := by
  unfold referenceOf
  split
  · exact NumVal.ofPi_canonical _
  · exact NumVal.mul_canonical (NumVal.mul_canonical ha (NumVal.ofPi_canonical 2)) hb

end Canonical

theorem wrap_canonical {t : NumVal} (ht : t.canonical = true) : (wrap t).canonical = true := by
  unfold wrap
  split
  · exact NumVal.sub_canonical ht (NumVal.ofPi_canonical 2)
  · split
    · exact ht
    · exact NumVal.add_canonical ht (NumVal.ofPi_canonical 2)

theorem Sample.normalize_canonical (v : Sample) : v.normalize.canonical = true := by
  simp [Sample.canonical, Sample.normalize, NumVal.normalize_canonical]

theorem argOf_canonical {v : Sample} (hv : v.canonical = true) : (argOf v).canonical = true := by
  unfold argOf
  split
  · exact direction_canonical _ _
  · exact hv

end Sys2Proof

/-! PROOFS. Every real number the block holds is in canonical form (log entry 1), and the state after reset is legal. -/

namespace Sys2Proof

/-- Every listed element of a buffer has a property. -/
def Buf.Holds {α : Type} (p : α → Prop) (b : Buf α) : Prop := ∀ c ∈ b.cells, p c.2

section Holds

variable {α : Type} {p : α → Prop} {b : Buf α}

theorem value_of_mem_insertCell {k : Nat} {v : α} {c : Nat × α} {cells : List (Nat × α)}
    (h : c ∈ insertCell k v cells) : c.2 = v ∨ c ∈ cells := by
  induction cells with
  | nil => exact .inl (by rw [List.mem_singleton.1 h])
  | cons d rest ih =>
    unfold insertCell at h
    split_ifs at h <;> simp only [List.mem_cons] at h ⊢
    · exact h.imp_left fun e => by rw [e]
    · exact h.imp (fun e => by rw [e]) .inr
    · obtain h | h := h
      · exact .inr (.inl h)
      · exact (ih h).imp_right .inr

theorem value_of_mem_numbered {c : Nat × α} {xs : List α} : ∀ {k : Nat}, c ∈ numbered k xs → c.2 ∈ xs := by
  induction xs with
  | nil => exact fun h => by cases h
  | cons x rest ih =>
    intro k h
    obtain rfl | h := List.mem_cons.1 h
    · exact List.mem_cons_self
    · exact List.mem_cons_of_mem _ (ih h)

theorem Buf.Holds.put (h : b.Holds p) (k : Nat) {v : α} (hv : p v) : (b.put k v).Holds p := by
  intro c hc
  obtain e | hc := value_of_mem_insertCell hc
  · exact e ▸ hv
  · exact h c hc

theorem Buf.Holds.fill (h : b.Holds p) (oldLen : Nat) {xs : List α} (hx : ∀ x ∈ xs, p x) :
    (b.fill oldLen xs).Holds p := by
  intro c hc
  unfold Buf.fill at hc
  split at hc
  · exact hx _ (value_of_mem_numbered hc)
  · obtain hc | hc := List.mem_append.1 hc
    · exact hx _ (value_of_mem_numbered hc)
    · exact h c (mem_dropBelow hc)

theorem Buf.Holds.forget : b.forget.Holds p := nofun

theorem Buf.Holds.empty : (Buf.empty : Buf α).Holds p := nofun

theorem mem_windowCells {free : Nat → α} (hfree : ∀ k, p (free k)) (n : Nat) :
    ∀ (k : Nat) (cells : List (Nat × α)), (∀ c ∈ cells, p c.2) → ∀ x ∈ windowCells free n k cells, p x := by
  induction n with
  | zero => exact fun k cells _ => nofun
  | succ n ih =>
    intro k cells hcells
    have hdrop : ∀ c ∈ dropBelow k cells, p c.2 := fun c hc => hcells c (mem_dropBelow hc)
    rcases hd : dropBelow k cells with _ | ⟨⟨j, v⟩, rest⟩
    · rw [windowCells_of_nil free n k cells hd, List.forall_mem_cons]
      exact ⟨hfree k, ih _ _ nofun⟩
    · rw [hd] at hdrop
      by_cases hj : j = k
      · subst hj
        rw [windowCells_of_eq free n j cells hd, List.forall_mem_cons]
        exact ⟨hdrop _ List.mem_cons_self, ih _ _ fun c hc => hdrop c (List.mem_cons_of_mem _ hc)⟩
      · rw [windowCells_of_ne free n k cells hd hj, List.forall_mem_cons]
        exact ⟨hfree k, ih _ _ hdrop⟩

/-- What every listed and every open element has, every element read has (rule R14). -/
theorem Buf.Holds.window (h : b.Holds p) {free : Nat → Nat → α} (hfree : ∀ g k, p (free g k)) (k n : Nat) :
    ∀ x ∈ b.window free k n, p x := mem_windowCells (hfree b.gen) n k b.cells h

end Holds

theorem forall_mem_differences {p : NumVal → Prop} (hp : ∀ {a b : NumVal}, p a → p b → p (b.sub a)) :
    ∀ {xs : List NumVal}, (∀ x ∈ xs, p x) → ∀ x ∈ Machine.differences xs, p x
  | [], _ => nofun
  | [_], _ => nofun
  | a :: b :: rest, h => by
    obtain ⟨ha, h⟩ := List.forall_mem_cons.1 h
    rw [Machine.differences, List.forall_mem_cons]
    exact ⟨hp ha (List.forall_mem_cons.1 h).1, forall_mem_differences hp h⟩

namespace Machine

theorem unwrapFrom_canonical {u p : NumVal} {xs : List NumVal} (hu : u.canonical = true) (hp : p.canonical = true)
    (hx : ∀ x ∈ xs, x.canonical = true) : ∀ x ∈ unwrapFrom u p xs, x.canonical = true := by
  induction xs generalizing u p with
  | nil => exact nofun
  | cons q rest ih =>
    obtain ⟨hq, hrest⟩ := List.forall_mem_cons.1 hx
    have hnext := NumVal.add_canonical hu (wrap_canonical (NumVal.sub_canonical hq hp))
    rw [unwrapFrom, List.forall_mem_cons]
    exact ⟨hnext, ih hnext hq hrest⟩

theorem unwrapPhases_canonical {xs : List NumVal} (hx : ∀ x ∈ xs, x.canonical = true) :
    ∀ x ∈ unwrapPhases xs, x.canonical = true := by
  cases xs with
  | nil => exact nofun
  | cons p rest =>
    obtain ⟨hp, hrest⟩ := List.forall_mem_cons.1 hx
    rw [unwrapPhases, List.forall_mem_cons]
    exact ⟨hp, unwrapFrom_canonical hp hp hrest⟩

/-- The frequency signal of canonical samples is canonical, under either strategy (rule R151). -/
theorem frequencies_canonical (ug : Bool) {xs : List Sample} (hx : ∀ x ∈ xs, x.canonical = true) :
    ∀ f ∈ frequencies ug xs, f.canonical = true := by
  have harg : ∀ a ∈ xs.map argOf, a.canonical = true := by
    rw [List.forall_mem_map]
    exact fun v hv => argOf_canonical (hx v hv)
  have hdiff : ∀ {ys : List NumVal}, (∀ y ∈ ys, y.canonical = true) → ∀ y ∈ differences ys, y.canonical = true :=
    forall_mem_differences fun ha hb => NumVal.sub_canonical hb ha
  cases ug with
  | false =>
    refine List.forall_mem_map.2 fun d hd => ?_
    exact wrap_canonical (hdiff harg d hd)
  | true => exact hdiff (unwrapPhases_canonical harg)

/-- Zeroing samples keeps them canonical (rule R134). -/
theorem squelched_canonical (spans : List Span) {xs : List Sample} (hx : ∀ x ∈ xs, x.canonical = true) :
    ∀ x ∈ squelched spans xs, x.canonical = true := by
  refine List.forall_mem_map.2 fun v hv => ?_
  split
  · exact hx _ (List.fst_mem_of_mem_zipIdx hv)
  · rfl

/-- Every real number the block holds is in canonical form. -/
structure State.Canonical (s : State) : Prop where
  cfgFs : s.cfgFs.canonical = true
  cfgThresh : s.cfgThresh.canonical = true
  thrLo : s.thrLo.canonical = true
  thrHi : s.thrHi.canonical = true
  cfgCfo : s.cfgCfo.canonical = true
  cfgRef : s.cfgRef.canonical = true
  fdRef : s.fdRef.canonical = true
  samp : s.mem.samp.Holds fun v => v.canonical = true
  sql : s.mem.sql.Holds fun v => v.canonical = true
  freq : s.mem.freq.Holds fun f => f.canonical = true

theorem State.canonical_iff (s : State) : s.Canonical ↔ s.numbersLegal = true := by
  simp only [State.numbersLegal, Bool.and_eq_true, List.all_eq_true, and_assoc]
  constructor
  · intro h
    exact ⟨h.cfgFs, h.cfgThresh, h.thrLo, h.thrHi, h.cfgCfo, h.cfgRef, h.fdRef, h.samp, h.sql, h.freq⟩
  · rintro ⟨cfgFs, cfgThresh, thrLo, thrHi, cfgCfo, cfgRef, fdRef, samp, sql, freq⟩
    exact ⟨cfgFs, cfgThresh, thrLo, thrHi, cfgCfo, cfgRef, fdRef, samp, sql, freq⟩

/-- The samples an operation reads are canonical: the written ones, and the open ones by their form (log entry 4). -/
theorem State.Canonical.window {s : State} (hs : s.Canonical) (k n : Nat) :
    ∀ v ∈ s.mem.samp.window (openSample .samp) k n, v.canonical = true :=
  hs.samp.window (fun _ _ => Sample.normalize_canonical _) k n

theorem Write.canonical {i : Instr} {s t : State} (h : Write i s t) (hs : s.Canonical) : t.Canonical := by
  cases h with
  | thresholds single _ value =>
    obtain ⟨rfl, rfl⟩ | ⟨rfl, rfl⟩ := value
    · exact { hs with thrLo := hs.cfgThresh, thrHi := hs.cfgThresh }
    · exact { hs with
        thrLo := NumVal.mul_canonical (NumVal.ofRat_canonical _) hs.cfgThresh
        thrHi := NumVal.mul_canonical (NumVal.ofRat_canonical _) hs.cfgThresh }
  | reference _ value =>
    obtain rfl | rfl | rfl := value
    · exact { hs with fdRef := NumVal.zero_canonical }
    · exact { hs with fdRef := referenceOf_canonical hs.cfgCfo hs.cfgFs }
    · exact { hs with fdRef := hs.cfgRef }
  | squelch spans => exact { hs with sql := hs.sql.fill _ (squelched_canonical spans (hs.window _ _)) }
  | freq ug legal => exact { hs with freq := hs.freq.fill _ (frequencies_canonical ug (hs.window _ _)) }
  | _ => exact { hs with }

/-- A number the host writes to a register is stored in canonical form. -/
theorem writeReg_canonical {s t : State} {r : Reg} {v : Value} (h : s.writeReg r v = .stored t) (hs : s.Canonical) :
    t.Canonical := by
  cases r <;> rw [State.writeReg] at h
  case cfgFs => obtain ⟨n, rfl⟩ := writeNum_stored h; exact { hs with cfgFs := n.normalize_canonical }
  case cfgThresh => obtain ⟨n, rfl⟩ := writeNum_stored h; exact { hs with cfgThresh := n.normalize_canonical }
  case thrLo => obtain ⟨n, rfl⟩ := writeNum_stored h; exact { hs with thrLo := n.normalize_canonical }
  case thrHi => obtain ⟨n, rfl⟩ := writeNum_stored h; exact { hs with thrHi := n.normalize_canonical }
  case cfgCfo => obtain ⟨n, rfl⟩ := writeNum_stored h; exact { hs with cfgCfo := n.normalize_canonical }
  case cfgRef => obtain ⟨n, rfl⟩ := writeNum_stored h; exact { hs with cfgRef := n.normalize_canonical }
  case fdRef => obtain ⟨n, rfl⟩ := writeNum_stored h; exact { hs with fdRef := n.normalize_canonical }
  case cfgMaxb | sampLen | burstCnt | freqLen | bitsLen | rawLen | candCnt | matchCnt | rbLen | dwLen =>
    obtain ⟨w, -, rfl⟩ := writeLength_stored h
    exact { hs with }
  case outCnt | status | err | cntFound | cntFailed | pfDecl => cases h
  all_goals
    obtain ⟨w, rfl⟩ := writeWord_stored h
    exact { hs with }

/-- A number or a sample the host writes to a buffer is stored in canonical form. -/
theorem writeElement_canonical {s t : State} {sp : Space} {k : Nat} {v : Value}
    (h : s.writeElement sp k v = .stored t) (hs : s.Canonical) : t.Canonical := by
  unfold State.writeElement at h
  split at h <;> cases h
  · exact { hs with samp := hs.samp.put k (Sample.normalize_canonical _) }
  · exact { hs with }
  · exact { hs with freq := hs.freq.put k (NumVal.normalize_canonical _) }
  all_goals exact { hs with }

theorem resetOf_canonical (b : Build) : (State.resetOf b).Canonical :=
  ⟨rfl, rfl, rfl, rfl, rfl, rfl, rfl, .empty, .empty, .empty⟩

theorem resetEvent_canonical (s : State) : s.resetEvent.Canonical :=
  ⟨rfl, rfl, rfl, rfl, rfl, rfl, rfl, .forget, .forget, .forget⟩

theorem canonical_kept : Kept State.Canonical where
  write := Write.canonical
  raise _ _ hs := { hs with }
  await _ hs := { hs with }
  reply _ hs := { hs with }
  reset {s} _ := resetEvent_canonical s
  register := writeReg_canonical
  element _ := writeElement_canonical

/-- Settles O57: the operations compute canonical numbers from canonical ones, and the host's numbers are stored so. -/
theorem stepKeepsNumbersCanonical : Obligations.StepKeepsNumbersCanonical := by
  intro s t hs h
  exact t.canonical_iff.1 (canonical_kept.step h (s.canonical_iff.2 hs))

theorem resetOf_legal {b : Build} (h : b.legal = true) : (State.resetOf b).legal = true := by
  obtain ⟨hlen, hwf, hwithin⟩ := (State.fits_iff _).1 (resetOf_fits h)
  have hnum := (State.canonical_iff _).1 (resetOf_canonical b)
  have hstatus : (State.resetOf b).statusLegal = true := by
    simp [State.statusLegal, State.fatalPending, State.flag, State.resetOf]
  rw [State.legal, hlen, hwf, hwithin, hnum, hstatus]
  rfl

/-- Settles O9: reset meets the invariants, since every length is 0 and `CFG_MAXB` is 260. -/
theorem resetIsLegal : Obligations.ResetIsLegal :=
  ⟨resetOf_legal (by decide), fun _ => resetOf_legal⟩

end Machine

end Sys2Proof

/-! PROOFS. The argument of a sample (rule R16). -/

namespace Sys2Proof

open Complex (arg)

theorem direction_isAngle (x y : ℤ) : (NumVal.exact (direction x y)).isAngle :=
  ⟨_, rfl, direction_canonical x y, direction_rad x y, direction_quarters x y⟩

/-- The argument of a sample stands for its principal argument, rational or not. -/
theorem argOf_toReal (v : Sample) : (argOf v).toReal = v.realArg := by
  unfold argOf
  split
  · next x y hx hy =>
    have hden : (0 : ℝ) < (x.den : ℝ) * y.den := by
      exact mul_pos (by exact_mod_cast x.den_pos) (by exact_mod_cast y.den_pos)
    have hre : ((x.num * y.den : ℤ) : ℝ) = (x.den : ℝ) * y.den * x := by
      have : (x : ℝ) * x.den = x.num := by exact_mod_cast Rat.mul_den_eq_num x
      push_cast
      linear_combination -(y.den : ℝ) * this
    have him : ((y.num * x.den : ℤ) : ℝ) = (x.den : ℝ) * y.den * y := by
      have : (y : ℝ) * y.den = y.num := by exact_mod_cast Rat.mul_den_eq_num y
      push_cast
      linear_combination -(x.den : ℝ) * this
    rw [NumVal.toReal_exact, direction_toReal, hre, him, arg_scale hden, Sample.realArg,
      NumVal.toReal_of_toRat? hx, NumVal.toReal_of_toRat? hy]
  · rfl

/-- The argument of a rational sample is one exact angle. -/
theorem argOf_isAngle {v : Sample} (h : v.isRational) : (argOf v).isAngle := by
  obtain ⟨hre, him⟩ := h
  obtain ⟨x, hx⟩ := Option.isSome_iff_exists.1 hre
  obtain ⟨y, hy⟩ := Option.isSome_iff_exists.1 him
  rw [argOf, hx, hy]
  exact direction_isAngle _ _

/-- Settles O27, from the direction of a vector. -/
theorem argumentIsThePrincipalArgument : Obligations.ArgumentIsThePrincipalArgument :=
  fun v => ⟨argOf_toReal v, argOf_isAngle⟩

end Sys2Proof

/-! PROOFS. Rational intervals that narrow to a real number (rules R16, R19; log entry 2). -/

namespace Sys2Proof

open Complex (arg)
open Real (pi)
open Filter Topology

/-- The interval contains the real number and is at most so wide. -/
structure RatInterval.Encloses (v : RatInterval) (x d : ℝ) : Prop where
  lo_le : (v.lo : ℝ) ≤ x
  le_hi : x ≤ (v.hi : ℝ)
  width : (v.hi : ℝ) - v.lo ≤ d

/-- The bound on the last term of an arctangent series with `2 * n + 1` terms. -/
noncomputable def lastTerm (n : ℕ) : ℝ := 1 / (4 * n + 1)

theorem lastTerm_nonneg (n : ℕ) : 0 ≤ lastTerm n := by
  unfold lastTerm
  positivity

theorem tendsto_lastTerm : Tendsto lastTerm atTop (𝓝 0) := by
  have h4 : Tendsto (fun n : ℕ => (4 * n + 1 : ℝ)) atTop atTop :=
    tendsto_atTop_add_const_right _ _ (tendsto_natCast_atTop_atTop.const_mul_atTop (by norm_num))
  exact h4.inv_tendsto_atTop.congr fun n => (one_div _).symm

/-! The arctangent series. -/

/-- The magnitudes of the terms of the arctangent series. -/
noncomputable def arctanTerm (t : ℝ) (k : ℕ) : ℝ := t ^ (2 * k + 1) / (2 * k + 1)

theorem arctanSum_cast (t : ℚ) (n : ℕ) :
    (arctanSum t n : ℝ) = ∑ k ∈ Finset.range n, (-1) ^ k * arctanTerm t k := by
  induction n with
  | zero => simp [arctanSum]
  | succ n ih =>
    rw [Finset.sum_range_succ, ← ih, arctanSum, arctanTerm]
    push_cast
    ring

theorem arctanTerm_antitone {t : ℝ} (h0 : 0 ≤ t) (h1 : t ≤ 1) : Antitone (arctanTerm t) := by
  refine antitone_nat_of_succ_le fun k => ?_
  have hpow : t ^ (2 * (k + 1) + 1) ≤ t ^ (2 * k + 1) := pow_le_pow_of_le_one h0 h1 (by omega)
  exact div_le_div₀ (by positivity) hpow (by positivity) (by push_cast; linarith)

theorem tendsto_arctanSum {t : ℝ} (h0 : 0 ≤ t) (h1 : t < 1) :
    Tendsto (fun n => ∑ k ∈ Finset.range n, (-1) ^ k * arctanTerm t k) atTop (𝓝 (Real.arctan t)) := by
  have hnorm : ‖t‖ < 1 := by rwa [Real.norm_of_nonneg h0]
  refine (Real.hasSum_arctan hnorm).tendsto_sum_nat.congr fun n => Finset.sum_congr rfl fun k _ => ?_
  rw [arctanTerm]
  push_cast
  ring

theorem arctanInterval_encloses (n : ℕ) {t : ℚ} (h0 : 0 ≤ t) (h1 : t < 1) :
    (arctanInterval n t).Encloses (Real.arctan t) (lastTerm n) := by
  have h0' : (0 : ℝ) ≤ t := by exact_mod_cast h0
  have h1' : (t : ℝ) < 1 := by exact_mod_cast h1
  have hanti := arctanTerm_antitone h0' h1'.le
  have hlim := tendsto_arctanSum h0' h1'
  refine ⟨?_, ?_, ?_⟩ <;> simp only [arctanInterval, arctanSum_cast]
  · exact hanti.alternating_series_le_tendsto hlim n
  · exact hanti.tendsto_le_alternating_series hlim n
  · rw [Finset.sum_range_succ, add_sub_cancel_left, Even.neg_one_pow (even_two_mul n), one_mul, arctanTerm, lastTerm]
    have hpow : (t : ℝ) ^ (2 * (2 * n) + 1) ≤ 1 := pow_le_one₀ h0' h1'.le
    push_cast
    rw [show (2 * (2 * (n : ℝ)) + 1) = 4 * n + 1 by ring]
    exact div_le_div_of_nonneg_right hpow (by positivity)

/-- Machin's formula, with the two series. -/
theorem piInterval_encloses (n : ℕ) : (piInterval n).Encloses pi (20 * lastTerm n) := by
  have ha := arctanInterval_encloses n (t := 1 / 5) (by norm_num) (by norm_num)
  have hb := arctanInterval_encloses n (t := 1 / 239) (by norm_num) (by norm_num)
  have hmachin := Real.four_mul_arctan_inv_5_sub_arctan_inv_239
  have h5 : ((1 / 5 : ℚ) : ℝ) = 5⁻¹ := by norm_num
  have h239 : ((1 / 239 : ℚ) : ℝ) = 239⁻¹ := by norm_num
  obtain ⟨ha1, ha2, ha3⟩ := h5 ▸ ha
  obtain ⟨hb1, hb2, hb3⟩ := h239 ▸ hb
  refine ⟨?_, ?_, ?_⟩ <;> simp only [piInterval] <;> push_cast <;> linarith

/-- Above the slope 1/2 the angle is `arctan (1/2)` and the rest. -/
theorem arctan_eq_half_add {t : ℝ} (h : 1 / 2 < t) :
    Real.arctan t = Real.arctan (1 / 2) + Real.arctan ((2 * t - 1) / (2 + t)) := by
  have hpos : 0 < 2 + t := by linarith
  rw [Real.arctan_add]
  · congr 1
    field_simp
    ring
  · rw [div_mul_div_comm, div_lt_one (by positivity)]
    linarith

theorem angleInterval_encloses (n : ℕ) {x y : ℤ} (h0 : 0 ≤ y) (h1 : y < x) :
    (angleInterval n x y).Encloses (arg ⟨x, y⟩) (2 * lastTerm n) := by
  have hx : (0 : ℚ) < x := by exact_mod_cast h0.trans_lt h1
  have hlast := lastTerm_nonneg n
  have harg : arg ⟨x, y⟩ = Real.arctan ((y / x : ℚ) : ℝ) := by
    rw [arg_eq_arctan (by exact_mod_cast hx)]
    push_cast
    rfl
  have ht0 : (0 : ℚ) ≤ y / x := div_nonneg (by exact_mod_cast h0) hx.le
  have ht1 : (y / x : ℚ) < 1 := (div_lt_one hx).2 (by exact_mod_cast h1)
  rw [harg]
  unfold angleInterval
  dsimp only
  generalize (y / x : ℚ) = t at ht0 ht1 ⊢
  split
  · next h =>
    obtain ⟨hlo, hhi, hw⟩ := arctanInterval_encloses n ht0 ht1
    exact ⟨hlo, hhi, by linarith⟩
  · next h =>
    have hhalf : 1 / 2 < t := not_le.1 h
    have hrest0 : 0 ≤ (2 * t - 1) / (2 + t) := div_nonneg (by linarith) (by linarith)
    have hrest1 : (2 * t - 1) / (2 + t) < 1 := (div_lt_one (by linarith)).2 (by linarith)
    have hhalf' : ((1 / 2 : ℚ) : ℝ) < t := Rat.cast_lt.2 hhalf
    have hsum := arctan_eq_half_add (t := (t : ℝ)) (by simpa using hhalf')
    obtain ⟨ha1, ha2, ha3⟩ := arctanInterval_encloses n (t := 1 / 2) (by norm_num) (by norm_num)
    obtain ⟨hb1, hb2, hb3⟩ := arctanInterval_encloses n hrest0 hrest1
    push_cast at ha1 ha2 hb1 hb2
    refine ⟨?_, ?_, ?_⟩ <;> push_cast <;> linarith

/-- The interval around a canonical number. -/
theorem RealNum.interval_encloses (n : ℕ) {a : RealNum} (ha : a.canonical = true) :
    (RealNum.interval n a).Encloses a.toReal ((20 * |(a.pis : ℝ)| + 2) * lastTerm n) := by
  obtain ⟨h0, h1⟩ := RealNum.octant_of_canonical ha
  obtain ⟨hp1, hp2, hp3⟩ := piInterval_encloses n
  obtain ⟨hv1, hv2, hv3⟩ := angleInterval_encloses n h0 h1
  rw [RealNum.toReal_eq]
  unfold RealNum.interval
  dsimp only
  split
  · next h =>
    have h' : (0 : ℝ) ≤ a.pis := by exact_mod_cast h
    rw [abs_of_nonneg h']
    refine ⟨?_, ?_, ?_⟩ <;> push_cast <;> nlinarith
  · next h =>
    have h' : (a.pis : ℝ) < 0 := by exact_mod_cast not_le.1 h
    rw [abs_of_neg h']
    refine ⟨?_, ?_, ?_⟩ <;> push_cast <;> nlinarith

end Sys2Proof

/-! PROOFS. What narrows to a real number: the intervals of every number narrow to the number it stands for, and the
sign is read from them (rules R16, R19; log entry 2). -/

namespace Sys2Proof

open Complex (arg)
open Filter Topology

/-- The ends of a sequence of intervals tend to a real number. -/
structure TendsTo (v : ℕ → RatInterval) (x : ℝ) : Prop where
  lo : Tendsto (fun n => ((v n).lo : ℝ)) atTop (𝓝 x)
  hi : Tendsto (fun n => ((v n).hi : ℝ)) atTop (𝓝 x)

/-- The interval contains the real number. -/
structure RatInterval.Contains (v : RatInterval) (x : ℝ) : Prop where
  lo_le : (v.lo : ℝ) ≤ x
  le_hi : x ≤ (v.hi : ℝ)

/-- Every interval asked for contains the real number; from some number on there is one, and they narrow to it. -/
structure Narrows (f : ℕ → Option RatInterval) (x : ℝ) : Prop where
  sound : ∀ n v, f n = some v → v.Contains x
  limit : ∃ v : ℕ → RatInterval, (∀ᶠ n in atTop, f n = some (v n)) ∧ TendsTo v x

theorem Narrows.of_encloses {f : ℕ → Option RatInterval} {x : ℝ} {v : ℕ → RatInterval} {c : ℝ}
    (hv : ∀ n, (v n).Encloses x (c * lastTerm n)) (hf : ∀ n, f n = some (v n)) : Narrows f x where
  sound n w h := by
    obtain rfl := Option.some.inj ((hf n).symm.trans h)
    exact ⟨(hv n).lo_le, (hv n).le_hi⟩
  limit := by
    have hlast : Tendsto (fun n => c * lastTerm n) atTop (𝓝 0) := by simpa using tendsto_lastTerm.const_mul c
    refine ⟨v, .of_forall hf, ?_, ?_⟩
    · have hlow : Tendsto (fun n => x - c * lastTerm n) atTop (𝓝 x) := by simpa using hlast.const_sub x
      refine tendsto_of_tendsto_of_tendsto_of_le_of_le hlow tendsto_const_nhds (fun n => ?_) fun n => (hv n).lo_le
      dsimp only
      linarith [(hv n).width, (hv n).le_hi]
    · have hhigh : Tendsto (fun n => x + c * lastTerm n) atTop (𝓝 x) := by simpa using hlast.const_add x
      refine tendsto_of_tendsto_of_tendsto_of_le_of_le tendsto_const_nhds hhigh (fun n => (hv n).le_hi) fun n => ?_
      dsimp only
      linarith [(hv n).width, (hv n).lo_le]

section Narrows

variable {f g : ℕ → Option RatInterval} {x y z : ℝ}

/-- An operation on intervals that is right on each and continuous where they narrow. -/
theorem Narrows.bind (hf : Narrows f x) {op : ℕ → RatInterval → Option RatInterval}
    (sound : ∀ n v w, v.Contains x → op n v = some w → w.Contains z)
    (limit : ∀ v, TendsTo v x → ∃ w : ℕ → RatInterval, (∀ᶠ n in atTop, op n (v n) = some (w n)) ∧ TendsTo w z) :
    Narrows (fun n => (f n).bind (op n)) z where
  sound n w h := by
    obtain ⟨v, hv, hw⟩ := Option.bind_eq_some_iff.1 h
    exact sound n v w (hf.sound n v hv) hw
  limit := by
    obtain ⟨v, hv, hvx⟩ := hf.limit
    obtain ⟨w, hw, hwz⟩ := limit v hvx
    exact ⟨w, (hv.and hw).mono fun n ⟨h1, h2⟩ => by rw [h1, Option.bind_some, h2], hwz⟩

theorem Narrows.map (hf : Narrows f x) {op : ℕ → RatInterval → RatInterval}
    (sound : ∀ n v, v.Contains x → (op n v).Contains z)
    (limit : ∀ v, TendsTo v x → TendsTo (fun n => op n (v n)) z) : Narrows (fun n => (f n).map (op n)) z where
  sound n w h := by
    obtain ⟨v, hv, rfl⟩ := Option.map_eq_some_iff.1 h
    exact sound n v (hf.sound n v hv)
  limit := by
    obtain ⟨v, hv, hvx⟩ := hf.limit
    exact ⟨_, hv.mono fun n h => by rw [h, Option.map_some], limit v hvx⟩

theorem Narrows.map₂ (hf : Narrows f x) (hg : Narrows g y) {op : RatInterval → RatInterval → RatInterval}
    (sound : ∀ v w, v.Contains x → w.Contains y → (op v w).Contains z)
    (limit : ∀ v w, TendsTo v x → TendsTo w y → TendsTo (fun n => op (v n) (w n)) z) :
    Narrows (fun n => (f n).bind fun v => (g n).map (op v)) z where
  sound n u h := by
    obtain ⟨v, hv, h⟩ := Option.bind_eq_some_iff.1 h
    obtain ⟨w, hw, rfl⟩ := Option.map_eq_some_iff.1 h
    exact sound v w (hf.sound n v hv) (hg.sound n w hw)
  limit := by
    obtain ⟨v, hv, hvx⟩ := hf.limit
    obtain ⟨w, hw, hwy⟩ := hg.limit
    exact ⟨_, (hv.and hw).mono fun n ⟨h1, h2⟩ => by rw [h1, h2, Option.bind_some, Option.map_some], limit v w hvx hwy⟩

/-! The operations on intervals. -/

theorem Narrows.add (hf : Narrows f x) (hg : Narrows g y) :
    Narrows (fun n => (f n).bind fun v => (g n).map v.add) (x + y) := by
  refine hf.map₂ hg (fun v w hv hw => ⟨?_, ?_⟩) fun v w hv hw => ⟨?_, ?_⟩
  · simpa [RatInterval.add] using add_le_add hv.lo_le hw.lo_le
  · simpa [RatInterval.add] using add_le_add hv.le_hi hw.le_hi
  · simpa [RatInterval.add] using hv.lo.add hw.lo
  · simpa [RatInterval.add] using hv.hi.add hw.hi

theorem Narrows.neg (hf : Narrows f x) : Narrows (fun n => (f n).map RatInterval.neg) (-x) := by
  refine hf.map (fun _ v hv => ⟨?_, ?_⟩) fun v hv => ⟨?_, ?_⟩
  · simpa [RatInterval.neg] using hv.le_hi
  · simpa [RatInterval.neg] using hv.lo_le
  · simpa [RatInterval.neg] using hv.hi.neg
  · simpa [RatInterval.neg] using hv.lo.neg

/-- A product lies between the products with the ends of an interval around one factor. -/
theorem mul_mem_ends {a b x c : ℝ} (ha : a ≤ x) (hb : x ≤ b) :
    min (a * c) (b * c) ≤ x * c ∧ x * c ≤ max (a * c) (b * c) := by
  obtain hc | hc := le_total 0 c
  · exact ⟨min_le_of_left_le (mul_le_mul_of_nonneg_right ha hc), le_max_of_le_right (mul_le_mul_of_nonneg_right hb hc)⟩
  · exact ⟨min_le_of_right_le (mul_le_mul_of_nonpos_right hb hc), le_max_of_le_left (mul_le_mul_of_nonpos_right ha hc)⟩

theorem RatInterval.Contains.mul {v w : RatInterval} (hv : v.Contains x) (hw : w.Contains y) :
    (v.mul w).Contains (x * y) := by
  obtain ⟨h1, h2⟩ := mul_mem_ends (c := y) hv.lo_le hv.le_hi
  obtain ⟨hl1, hl2⟩ := mul_mem_ends (c := v.lo) hw.lo_le hw.le_hi
  obtain ⟨hh1, hh2⟩ := mul_mem_ends (c := v.hi) hw.lo_le hw.le_hi
  simp only [mul_comm _ (v.lo : ℝ), mul_comm _ (v.hi : ℝ)] at hl1 hl2 hh1 hh2
  constructor <;> simp only [RatInterval.mul] <;> push_cast
  · exact (min_le_min hl1 hh1).trans h1
  · exact h2.trans (max_le_max hl2 hh2)

theorem Narrows.mul (hf : Narrows f x) (hg : Narrows g y) :
    Narrows (fun n => (f n).bind fun v => (g n).map v.mul) (x * y) := by
  refine hf.map₂ hg (fun v w hv hw => hv.mul hw) fun v w hv hw => ⟨?_, ?_⟩
  · simpa [RatInterval.mul] using
      ((hv.lo.mul hw.lo).min (hv.lo.mul hw.hi)).min ((hv.hi.mul hw.lo).min (hv.hi.mul hw.hi))
  · simpa [RatInterval.mul] using
      ((hv.lo.mul hw.lo).max (hv.lo.mul hw.hi)).max ((hv.hi.mul hw.lo).max (hv.hi.mul hw.hi))

/-- Intervals that narrow to a number other than 0 come to show its sign. -/
theorem TendsTo.eventually_sign? {v : ℕ → RatInterval} (hv : TendsTo v x) (hx : x ≠ 0) :
    ∀ᶠ n in atTop, (v n).sign? = some (cmp x 0) := by
  obtain h | h := hx.lt_or_gt
  · have hcmp : cmp x 0 = .lt := (cmp_eq_lt_iff _ _).2 h
    filter_upwards [hv.lo.eventually_lt_const h, hv.hi.eventually_lt_const h] with n hlo hhi
    have hlo' : ¬ 0 < (v n).lo := not_lt.2 (by exact_mod_cast hlo.le)
    have hhi' : (v n).hi < 0 := by exact_mod_cast hhi
    rw [hcmp, RatInterval.sign?, if_neg hlo', if_pos hhi']
  · have hcmp : cmp x 0 = .gt := (cmp_eq_gt_iff _ _).2 h
    filter_upwards [hv.lo.eventually_const_lt h] with n hlo
    have hlo' : 0 < (v n).lo := by exact_mod_cast hlo
    rw [hcmp, RatInterval.sign?, if_pos hlo']

/-- A sign that an interval around a number shows is the number's. -/
theorem RatInterval.Contains.sign?_eq {v : RatInterval} (hv : v.Contains x) {o : Ordering} (h : v.sign? = some o) :
    o = cmp x 0 ∧ x ≠ 0 := by
  obtain ⟨rfl, hx⟩ | ⟨rfl, hx⟩ := RatInterval.sign?_eq_some h hv.lo_le hv.le_hi
  · exact ⟨((cmp_eq_gt_iff _ _).2 hx).symm, hx.ne'⟩
  · exact ⟨((cmp_eq_lt_iff _ _).2 hx).symm, hx.ne⟩

theorem Narrows.shown_eq (hf : Narrows f x) {n : ℕ} {o : Ordering} (h : (f n).bind RatInterval.sign? = some o) :
    o = cmp x 0 ∧ x ≠ 0 := by
  obtain ⟨v, hv, ho⟩ := Option.bind_eq_some_iff.1 h
  exact (hf.sound n v hv).sign?_eq ho

/-- The search finds the sign of the number the intervals narrow to, 0 included (rule R19). -/
theorem Narrows.searchSign_eq (hf : Narrows f x) : searchSign f = cmp x 0 := by
  obtain ⟨m, hm⟩ | ⟨heq, hnone⟩ := searchSign_cases f
  · exact (hf.shown_eq hm).1
  · by_cases hx : x = 0
    · rw [heq, hx, cmp_self_eq_eq]
    · obtain ⟨v, hv, hvx⟩ := hf.limit
      obtain ⟨m, hm⟩ := eventually_atTop.1 (hv.and (hvx.eventually_sign? hx))
      have hshown : ∀ k, m ≤ k → (f k).bind RatInterval.sign? = some (cmp x 0) := fun k hk => by
        rw [(hm k hk).1, Option.bind_some, (hm k hk).2]
      rw [signSearch_eq_some (fun k p hp => (hf.shown_eq hp).1) hshown 64] at hnone
      cases hnone

theorem Narrows.inv (hf : Narrows f x) (hx : x ≠ 0) : Narrows (fun n => (f n).bind RatInterval.inv?) x⁻¹ := by
  refine hf.bind (fun _ v w hv hw => ?_) fun v hv => ?_
  · unfold RatInterval.inv? RatInterval.sign? at hw
    split_ifs at hw with hlo hhi <;> cases hw
    · have hlo' : (0 : ℝ) < v.lo := by exact_mod_cast hlo
      constructor <;> push_cast
      · exact inv_anti₀ (hlo'.trans_le hv.lo_le) hv.le_hi
      · exact inv_anti₀ hlo' hv.lo_le
    · have hhi' : (v.hi : ℝ) < 0 := by exact_mod_cast hhi
      have hx' := hv.le_hi.trans_lt hhi'
      constructor <;> push_cast
      · exact (inv_le_inv_of_neg hhi' hx').2 hv.le_hi
      · exact (inv_le_inv_of_neg hx' (hv.lo_le.trans_lt hx')).2 hv.lo_le
  · refine ⟨fun n => ⟨(v n).hi⁻¹, (v n).lo⁻¹⟩, ?_, ?_, ?_⟩
    · exact (hv.eventually_sign? hx).mono fun n hn => by rw [RatInterval.inv?, hn, Option.map_some]
    · simpa using hv.hi.inv₀ hx
    · simpa using hv.lo.inv₀ hx

/-- The interval around the arctangent of a rational number, from the direction of its fraction. -/
theorem slopeInterval_encloses (n : ℕ) (q : ℚ) :
    (RealNum.interval n (direction q.den q.num)).Encloses (Real.arctan q) (22 * lastTerm n) := by
  have hden : (0 : ℝ) < ((q.den : ℤ) : ℝ) := by exact_mod_cast q.den_pos
  have hcan := direction_canonical q.den q.num
  have harg : (direction q.den q.num).toReal = Real.arctan q := by
    rw [direction_toReal, arg_eq_arctan hden]
    push_cast
    rw [← Rat.cast_def]
  have hpis : |((direction q.den q.num).pis : ℝ)| ≤ 1 := by
    obtain ⟨h0, h1⟩ := RealNum.arg_mem_of_canonical hcan
    have hlo := Real.neg_pi_div_two_lt_arctan q
    have hhi := Real.arctan_lt_pi_div_two q
    have hpi := Real.pi_pos
    rw [← harg, RealNum.toReal_eq, direction_rad, Rat.cast_zero, zero_add] at hlo hhi
    rw [abs_le]
    constructor <;> nlinarith
  obtain ⟨hlo, hhi, hw⟩ := harg ▸ RealNum.interval_encloses n hcan
  refine ⟨hlo, hhi, hw.trans (mul_le_mul_of_nonneg_right ?_ (lastTerm_nonneg n))⟩
  linarith

theorem Narrows.arctan (hf : Narrows f x) :
    Narrows (fun n => (f n).map (RatInterval.arctan n)) (Real.arctan x) := by
  refine hf.map (fun n v hv => ⟨?_, ?_⟩) fun v hv => ?_
  · exact (slopeInterval_encloses n v.lo).lo_le.trans (Real.arctan_mono hv.lo_le)
  · exact (Real.arctan_mono hv.le_hi).trans (slopeInterval_encloses n v.hi).le_hi
  · have hlast : Tendsto (fun n => 22 * lastTerm n) atTop (𝓝 0) := by simpa using tendsto_lastTerm.const_mul 22
    have hlo := (Real.continuous_arctan.tendsto x).comp hv.lo
    have hhi := (Real.continuous_arctan.tendsto x).comp hv.hi
    constructor
    · refine tendsto_of_tendsto_of_tendsto_of_le_of_le (by simpa using hlo.sub hlast) hlo (fun n => ?_) fun n => ?_
      · have h := slopeInterval_encloses n (v n).lo
        simp only [RatInterval.arctan]
        linarith [h.le_hi, h.width]
      · exact (slopeInterval_encloses n (v n).lo).lo_le
    · refine tendsto_of_tendsto_of_tendsto_of_le_of_le hhi (by simpa using hhi.add hlast) (fun n => ?_) fun n => ?_
      · exact (slopeInterval_encloses n (v n).hi).le_hi
      · have h := slopeInterval_encloses n (v n).hi
        simp only [RatInterval.arctan]
        linarith [h.lo_le, h.width]

theorem quotientAngle_eq (n : ℕ) (v w : Option RatInterval) :
    quotientAngle n v w
      = (v.bind fun a => (w.bind RatInterval.inv?).map a.mul).map (RatInterval.arctan n) := by
  unfold quotientAngle
  cases v with
  | none => rfl
  | some a => cases w.bind RatInterval.inv? <;> rfl

theorem Narrows.quotient (hf : Narrows f y) (hg : Narrows g x) (hx : x ≠ 0) :
    Narrows (fun n => quotientAngle n (f n) (g n)) (Real.arctan (y / x)) := by
  simpa only [quotientAngle_eq, div_eq_mul_inv] using (hf.mul (hg.inv hx)).arctan

/-- The intervals around a canonical exact number. -/
theorem Narrows.exact {a : RealNum} (ha : a.canonical = true) :
    Narrows (fun n => some (RealNum.interval n a)) a.toReal :=
  .of_encloses (fun n => RealNum.interval_encloses n ha) fun _ => rfl

theorem Narrows.ofPi (q : ℚ) : Narrows (fun n => some (RealNum.interval n (RealNum.ofPi q))) (q * Real.pi) := by
  rw [← NumVal.toReal_ofPi]
  exact Narrows.exact rfl

/-- An angle taken off a fixed multiple of `pi`. -/
theorem Narrows.angle_sub (hf : Narrows f y) (q : ℚ) :
    Narrows (fun n => (f n).map fun v => (RealNum.interval n (RealNum.ofPi q)).add v.neg) (q * Real.pi - y) := by
  simpa [sub_eq_add_neg, Function.comp_def] using (Narrows.ofPi q).add hf.neg

end Narrows

/-! The sign of an exact number. -/

theorem compare_eq_cmp_cast (q : ℚ) : compare q 0 = cmp (q : ℝ) 0 := by
  have h := Rat.cast_strictMono (K := ℝ).cmp_map_eq q 0
  rw [Rat.cast_zero] at h
  rw [h, cmp_eq_compare]

/-- The sign of a canonical number, in the cases it is computed directly and by intervals. -/
theorem RealNum.signCanonical_eq {a : RealNum} (ha : a.canonical = true) : a.signCanonical = cmp a.toReal 0 := by
  obtain ⟨h0, h1⟩ := RealNum.arg_mem_of_canonical ha
  have hpi := Real.pi_pos
  have harg0 : a.dy = 0 → arg ⟨a.dx, a.dy⟩ = 0 := fun h => by
    rw [h, arg_eq_arctan (RealNum.dx_pos_of_canonical ha)]
    simp
  have hargpos : a.dy ≠ 0 → 0 < arg ⟨a.dx, a.dy⟩ := fun h => by
    refine arg_pos_of_octant ?_
    have := (RealNum.octant_of_canonical ha).1
    exact_mod_cast lt_of_le_of_ne this (Ne.symm h)
  unfold RealNum.signCanonical
  split_ifs with hrat hpis hpos hneg
  · rw [compare_eq_cmp_cast, RealNum.toReal_eq, hrat.1, harg0 hrat.2]
    simp
  · rw [compare_eq_cmp_cast, RealNum.toReal_eq, hpis.1, harg0 hpis.2]
    have hscale := cmp_mul_pos_right hpi (a.pis : ℝ) 0
    rw [zero_mul] at hscale
    simpa using hscale.symm
  · have hdy := hargpos fun h => hpis ⟨hpos.1, h⟩
    have hnonneg : (0 : ℝ) ≤ a.pis := by exact_mod_cast hpos.2
    refine ((cmp_eq_gt_iff _ _).2 ?_).symm
    rw [RealNum.toReal_eq, hpos.1, Rat.cast_zero]
    nlinarith
  · have hquarter : (a.pis : ℝ) ≤ -1 / 4 := by exact_mod_cast hneg.2
    refine ((cmp_eq_lt_iff _ _).2 ?_).symm
    rw [RealNum.toReal_eq, hneg.1, Rat.cast_zero]
    nlinarith
  · exact (Narrows.exact ha).searchSign_eq

theorem RealNum.sign_eq (a : RealNum) : a.sign = cmp a.toReal 0 := by
  rw [RealNum.sign, RealNum.signCanonical_eq a.normalize_canonical, RealNum.normalize_toReal]

/-! The numbers of the host. -/

/-- The value of the place `i` of the `k`-th number of the host. -/
noncomputable def hostPlace (k i : ℕ) : ℝ := if Config.hostBit k i then (1 / 2 : ℝ) ^ (i + 1) else 0

theorem hostReal_eq (k : ℕ) : hostReal k = Config.hostInt k + ∑' i, hostPlace k i := rfl

theorem hostPlace_nonneg (k i : ℕ) : 0 ≤ hostPlace k i := by
  unfold hostPlace
  split <;> positivity

theorem hostPlace_le (k i : ℕ) : hostPlace k i ≤ 1 / 2 * (1 / 2) ^ i := by
  unfold hostPlace
  split
  · rw [pow_succ']
  · positivity

theorem summable_hostPlace (k : ℕ) : Summable (hostPlace k) :=
  .of_nonneg_of_le (hostPlace_nonneg k) (hostPlace_le k) (summable_geometric_two.mul_left _)

theorem hostPlaces_cast (k n : ℕ) : (hostPlaces k n : ℝ) = ∑ i ∈ Finset.range n, hostPlace k i := by
  induction n with
  | zero => simp [hostPlaces]
  | succ n ih =>
    rw [Finset.sum_range_succ, ← ih, hostPlaces, hostPlace]
    split <;> push_cast <;> ring

/-- The places from `n` on are worth at most `2 ^ -n`. -/
theorem hostPlaces_tail (k n : ℕ) :
    (hostPlaces k n : ℝ) ≤ ∑' i, hostPlace k i ∧ ∑' i, hostPlace k i ≤ hostPlaces k n + (1 / 2) ^ n := by
  have hsplit := (summable_hostPlace k).sum_add_tsum_nat_add n
  rw [← hostPlaces_cast] at hsplit
  have hnonneg : 0 ≤ ∑' i, hostPlace k (i + n) := tsum_nonneg fun i => hostPlace_nonneg k _
  have hle : ∑' i, hostPlace k (i + n) ≤ ∑' i : ℕ, (1 / 2) ^ n * (1 / 2 * (1 / 2 : ℝ) ^ i) := by
    refine ((summable_nat_add_iff n).2 (summable_hostPlace k)).tsum_le_tsum (fun i => ?_)
      ((summable_geometric_two.mul_left _).mul_left _)
    refine (hostPlace_le k _).trans (le_of_eq ?_)
    rw [pow_add]
    ring
  rw [tsum_mul_left, tsum_mul_left, tsum_geometric_two] at hle
  constructor <;> linarith

theorem Narrows.host (k : ℕ) : Narrows (NumVal.host k).enclose (hostReal k) where
  sound n v h := by
    obtain ⟨h1, h2⟩ := hostPlaces_tail k n
    cases h
    rw [hostReal_eq]
    constructor <;> push_cast <;> linarith
  limit := by
    have hlo : Tendsto (fun n => (Config.hostInt k : ℝ) + hostPlaces k n) atTop (𝓝 (hostReal k)) := by
      simp only [hostPlaces_cast]
      exact (summable_hostPlace k).hasSum.tendsto_sum_nat.const_add _
    have hpow : Tendsto (fun n : ℕ => (1 / 2 : ℝ) ^ n) atTop (𝓝 0) :=
      tendsto_pow_atTop_nhds_zero_of_lt_one (by norm_num) (by norm_num)
    refine ⟨_, .of_forall fun n => rfl, ?_, ?_⟩ <;> push_cast
    · exact hlo
    · simpa using hlo.add hpow

/-! The argument of a vector from quotients. -/

/-- Above the axis the argument is measured from the vertical. -/
theorem arg_of_pos_im {x y : ℝ} (hy : 0 < y) : arg ⟨x, y⟩ = ((1 / 2 : ℚ) : ℝ) * Real.pi - Real.arctan (x / y) := by
  have hlo := Real.neg_pi_div_two_lt_arctan (-x / y)
  have hhi := Real.arctan_lt_pi_div_two (-x / y)
  have hpi := Real.pi_pos
  rw [arg_product (a := y) (b := -x) (p := 0) (q := 1) one_pos (by ring) (by ring) (.inl hy.ne') (by norm_num),
    arg_zero_one, arg_eq_arctan hy, neg_div, Real.arctan_neg]
  · push_cast
    ring
  · rw [arg_zero_one, arg_eq_arctan hy]
    constructor <;> linarith

/-- Below the axis likewise. -/
theorem arg_of_neg_im {x y : ℝ} (hy : y < 0) : arg ⟨x, y⟩ = ((-1 / 2 : ℚ) : ℝ) * Real.pi - Real.arctan (x / y) := by
  have hy' : 0 < -y := neg_pos.2 hy
  have hlo := Real.neg_pi_div_two_lt_arctan (x / -y)
  have hhi := Real.arctan_lt_pi_div_two (x / -y)
  have hpi := Real.pi_pos
  rw [arg_product (a := -y) (b := x) (p := 0) (q := -1) one_pos (by ring) (by ring) (.inl hy'.ne') (by norm_num),
    arg_zero_neg_one, arg_eq_arctan hy', div_neg, Real.arctan_neg]
  · push_cast
    ring
  · rw [arg_zero_neg_one, arg_eq_arctan hy']
    constructor <;> linarith

theorem Narrows.zero : Narrows (fun _ => some ⟨0, 0⟩) 0 :=
  .of_encloses (c := 0) (fun n => ⟨by simp, by simp, by simp⟩) fun _ => rfl

section Angle

variable {a b : NumVal} (ha : Narrows a.enclose a.toReal) (hb : Narrows b.enclose b.toReal)
  (hsa : a.signWithin a.enclose = cmp a.toReal 0)
include ha hb hsa

/-- Right of the vertical axis the argument is read from `b / a`. -/
theorem Narrows.angle_right (hx : 0 < a.toReal) : Narrows (NumVal.angle a b).enclose (NumVal.angle a b).toReal := by
  have hsign : a.signWithin a.enclose = .gt := hsa.trans ((cmp_eq_gt_iff _ _).2 hx)
  have henc : (NumVal.angle a b).enclose = fun n => quotientAngle n (b.enclose n) (a.enclose n) := by
    funext n
    rw [NumVal.enclose, hsign]
  rw [henc, NumVal.toReal_angle, arg_eq_arctan hx]
  exact hb.quotient ha hx.ne'

/-- Elsewhere it is read from `a / b`, above and below the horizontal axis, and is fixed on it. -/
theorem Narrows.angle_left (hsb : b.signWithin b.enclose = cmp b.toReal 0) (hx : a.toReal ≤ 0) :
    Narrows (NumVal.angle a b).enclose (NumVal.angle a b).toReal := by
  have hsign : a.signWithin a.enclose ≠ .gt := by
    rw [hsa, Ne, cmp_eq_gt_iff]
    exact hx.not_gt
  obtain hy | hy | hy := lt_trichotomy b.toReal 0
  · have hsign' : b.signWithin b.enclose = .lt := hsb.trans ((cmp_eq_lt_iff _ _).2 hy)
    have henc : (NumVal.angle a b).enclose = fun n => (quotientAngle n (a.enclose n) (b.enclose n)).map fun v =>
        (RealNum.interval n (RealNum.ofPi (-1 / 2))).add v.neg := by
      funext n
      rw [NumVal.enclose, hsign']
      cases h : a.signWithin a.enclose <;> simp_all
    rw [henc, NumVal.toReal_angle, arg_of_neg_im hy]
    exact (ha.quotient hb hy.ne).angle_sub _
  · have hsign' : b.signWithin b.enclose = .eq := hsb.trans ((cmp_eq_eq_iff _ _).2 hy)
    obtain hx | hx := hx.lt_or_eq
    · have hsign : a.signWithin a.enclose = .lt := hsa.trans ((cmp_eq_lt_iff _ _).2 hx)
      have henc : (NumVal.angle a b).enclose = fun n => some (RealNum.interval n (RealNum.ofPi 1)) := by
        funext n
        rw [NumVal.enclose, hsign, hsign']
      have harg : arg ⟨a.toReal, b.toReal⟩ = ((1 : ℚ) : ℝ) * Real.pi := by
        rw [Rat.cast_one, one_mul]
        exact Complex.arg_eq_pi_iff.2 ⟨hx, hy⟩
      rw [henc, NumVal.toReal_angle, harg]
      exact .ofPi 1
    · have hsign : a.signWithin a.enclose = .eq := hsa.trans ((cmp_eq_eq_iff _ _).2 hx)
      have henc : (NumVal.angle a b).enclose = fun _ => some ⟨0, 0⟩ := by
        funext n
        rw [NumVal.enclose, hsign, hsign']
      have harg : arg ⟨a.toReal, b.toReal⟩ = 0 := Complex.arg_eq_zero_iff.2 ⟨hx.ge, hy⟩
      rw [henc, NumVal.toReal_angle, harg]
      exact .zero
  · have hsign' : b.signWithin b.enclose = .gt := hsb.trans ((cmp_eq_gt_iff _ _).2 hy)
    have henc : (NumVal.angle a b).enclose = fun n => (quotientAngle n (a.enclose n) (b.enclose n)).map fun v =>
        (RealNum.interval n (RealNum.ofPi (1 / 2))).add v.neg := by
      funext n
      rw [NumVal.enclose, hsign']
      cases h : a.signWithin a.enclose <;> simp_all
    rw [henc, NumVal.toReal_angle, arg_of_pos_im hy]
    exact (ha.quotient hb hy.ne').angle_sub _

end Angle

/-- The reciprocal of 0 counts as 0. -/
theorem Narrows.recip {a : NumVal} (ha : Narrows a.enclose a.toReal)
    (hs : a.signWithin a.enclose = cmp a.toReal 0) :
    Narrows (NumVal.recip a).enclose (NumVal.recip a).toReal := by
  by_cases hx : a.toReal = 0
  · have hsign : a.signWithin a.enclose = .eq := hs.trans ((cmp_eq_eq_iff _ _).2 hx)
    have henc : (NumVal.recip a).enclose = fun _ => some ⟨0, 0⟩ := by
      funext n
      rw [NumVal.enclose, if_pos hsign]
    rw [henc, NumVal.toReal_recip, hx, inv_zero]
    exact .zero
  · have hsign : ¬ a.signWithin a.enclose = .eq := by rwa [hs, cmp_eq_eq_iff]
    have henc : (NumVal.recip a).enclose = fun n => (a.enclose n).bind RatInterval.inv? := by
      funext n
      rw [NumVal.enclose, if_neg hsign]
    rw [henc, NumVal.toReal_recip]
    exact ha.inv hx

/-- Where the intervals narrow to the number, its sign is the real one. -/
theorem NumVal.signWithin_eq {a : NumVal} (h : Narrows a.enclose a.toReal) :
    a.signWithin a.enclose = cmp a.toReal 0 := by
  cases a with
  | exact r => exact r.sign_eq
  | _ => exact h.searchSign_eq

/-- The intervals of every number narrow to the real number it stands for. -/
theorem NumVal.enclose_narrows (a : NumVal) : Narrows a.enclose a.toReal := by
  induction a with
  | exact r =>
    have h := Narrows.exact r.normalize_canonical
    rwa [RealNum.normalize_toReal] at h
  | host k => exact .host k
  | sum a b iha ihb => exact iha.add ihb
  | minus a iha => exact iha.neg
  | prod a b iha ihb => exact iha.mul ihb
  | recip a iha => exact iha.recip (NumVal.signWithin_eq iha)
  | angle a b iha ihb =>
    have hsa := NumVal.signWithin_eq iha
    have hsb := NumVal.signWithin_eq ihb
    obtain hx | hx := lt_or_ge 0 a.toReal
    · exact iha.angle_right ihb hsa hx
    · exact iha.angle_left ihb hsa hsb hx

/-- The sign of a number is the sign of the real number it stands for (rule R19). -/
theorem NumVal.sign_eq (a : NumVal) : a.sign = cmp a.toReal 0 := NumVal.signWithin_eq a.enclose_narrows

/-- The strict comparison is the one of the real numbers (rule R19). -/
theorem NumVal.gt_iff (a b : NumVal) : a.gt b = true ↔ b.toReal < a.toReal := by
  rw [NumVal.gt, beq_iff_eq, NumVal.sign_eq, cmp_eq_gt_iff, NumVal.sub_toReal, sub_pos]

/-- Settles O29: the intervals around every number narrow to the real number it stands for. -/
theorem orderIsTheRealOrder : Obligations.OrderIsTheRealOrder := by
  intro a b
  rw [NumVal.gt_iff, NumVal.sign_eq, cmp_eq_gt_iff, cmp_eq_lt_iff, cmp_eq_eq_iff]
  exact ⟨.rfl, .rfl, .rfl, .rfl⟩

end Sys2Proof

/-! PROOFS. The primitives of rule R17 in the real numbers: amplitudes without a square root, and the wrapped difference
of two arguments. -/

namespace Sys2Proof

open Complex (arg)
open Real (pi)

/-! Amplitudes. -/

@[simp] theorem amp2_toReal (v : Sample) :
    (amp2 v).toReal = v.re.toReal * v.re.toReal + v.im.toReal * v.im.toReal := by
  simp [amp2]

/-- Settles O22: a comparison of squares is the comparison of the magnitudes. -/
theorem amplitudeComparisonsAreExact : Obligations.AmplitudeComparisonsAreExact := by
  intro v q hq
  have hsum := add_nonneg (mul_self_nonneg v.re.toReal) (mul_self_nonneg v.im.toReal)
  rw [ampAbove, ampBelow, NumVal.gt_iff, NumVal.gt_iff, amp2_toReal, NumVal.mul_toReal, Sample.realAmp,
    Real.lt_sqrt hq, Real.sqrt_lt hsum hq, sq]
  exact ⟨.rfl, .rfl⟩

/-! Wrapping. -/

/-- Between two arguments `wrap` is the wrapping of the real numbers (rules R16, R17). -/
theorem wrap_toReal {t : NumVal} (hlo : -(2 * pi) < t.toReal) (hhi : t.toReal < 2 * pi) :
    (wrap t).toReal = realWrap t.toReal := by
  have hpi := Real.pi_pos
  symm
  rw [realWrap, toIocMod_eq_iff]
  unfold wrap
  split
  · next h =>
    have h := (NumVal.gt_iff _ _).1 h
    simp only [NumVal.toReal_ofPi, NumVal.sub_toReal] at h ⊢
    push_cast at h ⊢
    exact ⟨⟨by linarith, by linarith⟩, 1, by simp⟩
  · next h =>
    have h := (NumVal.gt_iff _ _).not.1 h
    split
    · next h' =>
      have h' := (NumVal.gt_iff _ _).1 h'
      simp only [NumVal.toReal_ofPi] at h h'
      push_cast at h h'
      exact ⟨⟨by linarith, by linarith⟩, 0, by simp⟩
    · next h' =>
      have h' := (NumVal.gt_iff _ _).not.1 h'
      simp only [NumVal.toReal_ofPi, NumVal.add_toReal] at h' ⊢
      push_cast at h' ⊢
      exact ⟨⟨by linarith, by linarith⟩, -1, by simp⟩

/-- The argument of `z * conj w` is the wrapped difference of the arguments (rule R17). -/
theorem arg_mul_conj {z w : ℂ} (hz : z ≠ 0) (hw : w ≠ 0) :
    arg (z * (starRingEnd ℂ) w) = realWrap (arg z - arg w) := by
  have hw' : (starRingEnd ℂ) w ≠ 0 := (map_ne_zero _).2 hw
  have hangle : ((arg z - arg w : ℝ) : Real.Angle) = arg (z * (starRingEnd ℂ) w) := by
    rw [Complex.arg_mul_coe_angle hz hw', Complex.arg_conj_coe_angle, Real.Angle.coe_sub, sub_eq_add_neg]
  obtain ⟨k, hk⟩ := Real.Angle.angle_eq_iff_two_pi_dvd_sub.1 hangle
  symm
  rw [realWrap, toIocMod_eq_iff]
  refine ⟨⟨Complex.neg_pi_lt_arg _, (Complex.arg_le_pi _).trans (by linarith)⟩, k, ?_⟩
  rw [zsmul_eq_mul]
  linarith

/-- A sample of an amplitude other than 0 is not the zero sample. -/
theorem Sample.ne_zero_of_realAmp {v : Sample} (h : v.realAmp ≠ 0) : (⟨v.re.toReal, v.im.toReal⟩ : ℂ) ≠ 0 := by
  intro e
  rw [Complex.ext_iff] at e
  simp [Sample.realAmp, show v.re.toReal = 0 from e.1, show v.im.toReal = 0 from e.2] at h

/-- The difference of two arguments wraps once at most. -/
theorem sub_arg_bounds (a b : Sample) :
    -(2 * pi) < ((argOf b).sub (argOf a)).toReal ∧ ((argOf b).sub (argOf a)).toReal < 2 * pi := by
  rw [NumVal.sub_toReal, argOf_toReal, argOf_toReal, Sample.realArg, Sample.realArg]
  have ha := Complex.arg_mem_Ioc ⟨a.re.toReal, a.im.toReal⟩
  have hb := Complex.arg_mem_Ioc ⟨b.re.toReal, b.im.toReal⟩
  constructor <;> linarith [ha.1, ha.2, hb.1, hb.2]

/-- The wrapped difference of the arguments of two samples other than 0 (rule R17). -/
theorem wrap_sub_arg_toReal {a b : Sample} (ha : a.realAmp ≠ 0) (hb : b.realAmp ≠ 0) :
    (wrap ((argOf b).sub (argOf a))).toReal
      = arg ⟨b.re.toReal * a.re.toReal + b.im.toReal * a.im.toReal,
          b.im.toReal * a.re.toReal - b.re.toReal * a.im.toReal⟩ := by
  obtain ⟨hlo, hhi⟩ := sub_arg_bounds a b
  have hmul : (⟨b.re.toReal * a.re.toReal + b.im.toReal * a.im.toReal,
      b.im.toReal * a.re.toReal - b.re.toReal * a.im.toReal⟩ : ℂ)
      = ⟨b.re.toReal, b.im.toReal⟩ * (starRingEnd ℂ) ⟨a.re.toReal, a.im.toReal⟩ := by
    apply Complex.ext
    · simp
    · simp
      ring
  rw [wrap_toReal hlo hhi, NumVal.sub_toReal, argOf_toReal, argOf_toReal, hmul,
    arg_mul_conj (Sample.ne_zero_of_realAmp hb) (Sample.ne_zero_of_realAmp ha)]
  rfl

/-! Exact angles. -/

/-- A whole multiple of a quarter. -/
def IsQuarters (q : ℚ) : Prop := ∃ k : ℤ, q = k / 4

theorem IsQuarters.add {p q : ℚ} (hp : IsQuarters p) (hq : IsQuarters q) : IsQuarters (p + q) := by
  obtain ⟨j, rfl⟩ := hp
  obtain ⟨k, rfl⟩ := hq
  exact ⟨j + k, by push_cast; ring⟩

theorem IsQuarters.neg {q : ℚ} (hq : IsQuarters q) : IsQuarters (-q) := by
  obtain ⟨k, rfl⟩ := hq
  exact ⟨-k, by push_cast; ring⟩

theorem NumVal.isAngle_ofPi {q : ℚ} (hq : IsQuarters q) : (NumVal.ofPi q).isAngle := ⟨_, rfl, rfl, rfl, hq⟩

theorem RealNum.normalize_quarters {a : RealNum} (ha : IsQuarters a.pis) : IsQuarters a.normalize.pis :=
  ha.add (direction_quarters a.dx a.dy)

theorem NumVal.isAngle.add {a b : NumVal} (ha : a.isAngle) (hb : b.isAngle) : (a.add b).isAngle := by
  obtain ⟨r, rfl, -, hr, hrp⟩ := ha
  obtain ⟨q, rfl, -, hq, hqp⟩ := hb
  refine ⟨r.add q, rfl, r.add_canonical q, ?_, ?_⟩
  · change r.rad + q.rad = 0
    rw [hr, hq, add_zero]
  · exact ((RealNum.normalize_quarters hrp).add (RealNum.normalize_quarters hqp)).add (direction_quarters _ _)

theorem NumVal.isAngle.neg {a : NumVal} (ha : a.isAngle) : a.neg.isAngle := by
  obtain ⟨r, rfl, -, hr, hrp⟩ := ha
  refine ⟨r.neg, rfl, r.neg_canonical, ?_, ?_⟩
  · change -r.rad = 0
    rw [hr, neg_zero]
  · exact (RealNum.normalize_quarters hrp).neg.add (direction_quarters _ _)

theorem NumVal.isAngle.sub {a b : NumVal} (ha : a.isAngle) (hb : b.isAngle) : (a.sub b).isAngle := by
  have h := ha.add hb.neg
  obtain ⟨r, rfl, -⟩ := ha
  exact h

theorem wrap_isAngle {t : NumVal} (ht : t.isAngle) : (wrap t).isAngle := by
  have htwo : (NumVal.ofPi 2).isAngle := NumVal.isAngle_ofPi ⟨8, by norm_num⟩
  unfold wrap
  split
  · exact ht.sub htwo
  · split
    · exact ht
    · exact ht.add htwo

/-- Canonical directions of one argument are one direction. -/
theorem RealNum.direction_unique {r q : RealNum} (hr : r.canonical = true) (hq : q.canonical = true)
    (h : arg ⟨r.dx, r.dy⟩ = arg ⟨q.dx, q.dy⟩) : r.dx = q.dx ∧ r.dy = q.dy := by
  have hrx := RealNum.dx_pos_of_canonical hr
  have hqx := RealNum.dx_pos_of_canonical hq
  rw [arg_eq_arctan hrx, arg_eq_arctan hqx, Real.arctan_inj, div_eq_div_iff hrx.ne' hqx.ne'] at h
  have hcross : r.dy * q.dx = q.dy * r.dx := by exact_mod_cast h
  have hrc : IsCoprime r.dx r.dy := Int.isCoprime_iff_gcd_eq_one.2 (RealNum.coprime_of_canonical hr)
  have hqc : IsCoprime q.dx q.dy := Int.isCoprime_iff_gcd_eq_one.2 (RealNum.coprime_of_canonical hq)
  have h1 : r.dx ∣ q.dx := hrc.dvd_of_dvd_mul_left ⟨q.dy, by rw [hcross, mul_comm]⟩
  have h2 : q.dx ∣ r.dx := hqc.dvd_of_dvd_mul_left ⟨r.dy, by rw [← hcross, mul_comm]⟩
  have hrx' : 0 < r.dx := by exact_mod_cast hrx
  have hqx' : 0 < q.dx := by exact_mod_cast hqx
  have hdx : r.dx = q.dx := Int.dvd_antisymm hrx'.le hqx'.le h1 h2
  rw [hdx] at hcross
  exact ⟨hdx, mul_right_cancel₀ hqx'.ne' hcross⟩

/-- Exact angles that stand for one real number are the same data (log entry 1). -/
theorem NumVal.isAngle.eq_of_toReal_eq {a b : NumVal} (ha : a.isAngle) (hb : b.isAngle) (h : a.toReal = b.toReal) :
    a = b := by
  obtain ⟨⟨rad, pis, dx, dy⟩, rfl, hrc, rfl, j, rfl⟩ := ha
  obtain ⟨⟨rad, pis, dx', dy'⟩, rfl, hqc, rfl, k, rfl⟩ := hb
  obtain ⟨hr0, hr1⟩ := RealNum.arg_mem_of_canonical hrc
  obtain ⟨hq0, hq1⟩ := RealNum.arg_mem_of_canonical hqc
  have hpi := Real.pi_pos
  simp only [NumVal.toReal_exact, RealNum.toReal_eq] at h hr0 hr1 hq0 hq1
  push_cast at h
  have hjk : j = k := by
    have hlt : ((j - k : ℤ) : ℝ) < 1 := by
      push_cast
      nlinarith
    have hgt : (-1 : ℝ) < ((j - k : ℤ) : ℝ) := by
      push_cast
      nlinarith
    have hlt' : j - k < 1 := by exact_mod_cast hlt
    have hgt' : -1 < j - k := by exact_mod_cast hgt
    omega
  subst hjk
  obtain ⟨hdx, hdy⟩ := RealNum.direction_unique hrc hqc (by simpa using h)
  simp only at hdx hdy
  rw [hdx, hdy]

/-! Rational numbers are closed under the operations. -/

@[simp] theorem direction_one_zero : direction 1 0 = RealNum.zero := by decide

@[simp] theorem RealNum.normalize_ofRat (q : ℚ) : (RealNum.ofRat q).normalize = RealNum.ofRat q := by
  simp [RealNum.normalize, RealNum.ofRat, RealNum.zero]

theorem RealNum.ofRat_add (p q : ℚ) : (RealNum.ofRat p).add (RealNum.ofRat q) = RealNum.ofRat (p + q) := by
  rw [RealNum.add, RealNum.normalize_ofRat, RealNum.normalize_ofRat]
  simp [RealNum.addCanonical, RealNum.ofRat, RealNum.zero]

theorem RealNum.ofRat_neg (q : ℚ) : (RealNum.ofRat q).neg = RealNum.ofRat (-q) := by
  rw [RealNum.neg, RealNum.normalize_ofRat]
  simp [RealNum.negCanonical, RealNum.ofRat, RealNum.zero]

@[simp] theorem NumVal.toRat?_ofRat (q : ℚ) : (NumVal.ofRat q).toRat? = some q := by
  rw [NumVal.ofRat, NumVal.toRat?, RealNum.toRat?, RealNum.normalize_ofRat]
  exact if_pos ⟨rfl, rfl, rfl⟩

theorem NumVal.ofRat_add (p q : ℚ) : (NumVal.ofRat p).add (NumVal.ofRat q) = NumVal.ofRat (p + q) :=
  congrArg NumVal.exact (RealNum.ofRat_add p q)

theorem NumVal.ofRat_sub (p q : ℚ) : (NumVal.ofRat p).sub (NumVal.ofRat q) = NumVal.ofRat (p - q) := by
  refine congrArg NumVal.exact ?_
  rw [RealNum.ofRat_neg, RealNum.ofRat_add, sub_eq_add_neg]

theorem NumVal.mul_of_toRat? {a b : NumVal} {p q : ℚ} (ha : a.toRat? = some p) (hb : b.toRat? = some q) :
    a.mul b = NumVal.ofRat (p * q) := by
  rw [NumVal.mul, ha, hb]

/-- The product `b * conj a` of rational samples is rational. -/
theorem mulConj_isRational {a b : Sample} (ha : a.isRational) (hb : b.isRational) :
    Sample.isRational ⟨(b.re.mul a.re).add (b.im.mul a.im), (b.im.mul a.re).sub (b.re.mul a.im)⟩ := by
  obtain ⟨har, hai⟩ := ha
  obtain ⟨hbr, hbi⟩ := hb
  obtain ⟨w, hw⟩ := Option.isSome_iff_exists.1 har
  obtain ⟨x, hx⟩ := Option.isSome_iff_exists.1 hai
  obtain ⟨y, hy⟩ := Option.isSome_iff_exists.1 hbr
  obtain ⟨z, hz⟩ := Option.isSome_iff_exists.1 hbi
  rw [NumVal.mul_of_toRat? hy hw, NumVal.mul_of_toRat? hz hx, NumVal.mul_of_toRat? hz hw, NumVal.mul_of_toRat? hy hx,
    NumVal.ofRat_add, NumVal.ofRat_sub]
  exact ⟨by simp, by simp⟩

/-- Settles O28: both sides are the argument of the product, and for rational samples both are exact angles. -/
theorem wrappedDifferenceIsTheArgumentOfTheProduct : Obligations.WrappedDifferenceIsTheArgumentOfTheProduct := by
  intro a b ha hb
  refine ⟨wrap_sub_arg_toReal ha hb, fun har hbr => ?_⟩
  have hdiff : (wrap ((argOf b).sub (argOf a))).isAngle := wrap_isAngle ((argOf_isAngle hbr).sub (argOf_isAngle har))
  refine hdiff.eq_of_toReal_eq (argOf_isAngle (mulConj_isRational har hbr)) ?_
  rw [wrap_sub_arg_toReal ha hb, argOf_toReal]
  simp [Sample.realArg]

end Sys2Proof

/-! PROOFS. What an operation does to the flags, the counters and the records (O17, O54, O50): one lemma over the writes
each. -/

namespace Sys2Proof.Machine

/-- A write changes only a flag its operation owns (rule R46). -/
theorem Write.flag_eq {i : Instr} {s t : State} {f : Flag} (h : Write i s t) (hf : ownsFlag f i = false) :
    t.flag f = s.flag f := by
  cases h with
  | flag g v owned =>
    rw [State.flag_setFlag, if_neg]
    rintro rfl
    simp [owns, hf] at owned
  | clear e => subst e; cases hf
  | _ => rfl

/-- A fatal condition sets no outcome flag (rules R46, R277). -/
theorem State.flag_raise_outcome (s : State) (x : Fatal) (src : Nat) {f : Flag}
    (hf : f ∈ [Flag.noburst, .syncnf, .shortClk, .shortPkt]) : (s.raise x src).flag f = s.flag f := by
  rw [State.flag_raise, if_neg]
  rintro rfl
  cases x <;> simp [Fatal.flag] at hf

/-- Settles O17: no write of the operation touches the flag, and a fatal entry touches no outcome flag. -/
theorem outcomeFlagsBelongToTheirOperations : Obligations.OutcomeFlagsBelongToTheirOperations := by
  intro i s t f hf h hown
  refine exec_keeps (P := fun u => u.flag f = s.flag f) (fun hw hu => (hw.flag_eq hown).trans hu) ?_ h rfl
  exact fun x src hu => (State.flag_raise_outcome _ x src hf).trans hu

/-- A saturating count never goes down (rule R300). -/
theorem le_sat_add (w : Word) (n : Nat) : w.toNat ≤ (sat (w.toNat + n)).toNat := by
  rw [sat_toNat]
  have := w.isLt
  omega

/-- Rule R300: a write moves the counters up, but for `CLRCNT`. -/
theorem Write.counters_le {i : Instr} {s t : State} (h : Write i s t) (hi : i ≠ .clrcnt) :
    s.cntFound.toNat ≤ t.cntFound.toNat ∧ s.cntFailed.toNat ≤ t.cntFailed.toNat := by
  cases h with
  | counters e => exact absurd e hi
  | found n => exact ⟨le_sat_add _ n, le_rfl⟩
  | failed => exact ⟨le_rfl, le_sat_add _ 1⟩
  | _ => exact ⟨le_rfl, le_rfl⟩

/-- Rule R48: a write of an operation that is no sync operation leaves the counters, but for `CLRCNT`. -/
theorem Write.counters_eq {i : Instr} {s t : State} (h : Write i s t) (hi : i ≠ .clrcnt)
    (hsync : owns i .syncnf = false) : t.cntFound = s.cntFound ∧ t.cntFailed = s.cntFailed := by
  cases h with
  | counters e => exact absurd e hi
  | found n owned | failed owned => cases owned.symm.trans hsync
  | _ => exact ⟨rfl, rfl⟩

/-- The operations that report a sync result: the sync operations and the pipelines (rule R46). -/
theorem owns_syncnf_eq_false {i : Instr} (hi : i ∉ [Instr.syExact, .syCorr, .syDedup]) (hp : isPipeline i = false) :
    owns i .syncnf = false := by
  cases i with
  | syExact | syCorr | syDedup => simp at hi
  | pipeBurst | pipeStream => cases hp
  | _ => rfl

/-- Settles O54: a fatal entry leaves the counters, and the writes move them as rules R48 and R300 say. -/
theorem countersMoveOnlyWithSyncOperations : Obligations.CountersMoveOnlyWithSyncOperations := by
  intro i s t h hi
  obtain ⟨hfound, hfailed⟩ := exec_keeps
    (P := fun u => s.cntFound.toNat ≤ u.cntFound.toNat ∧ s.cntFailed.toNat ≤ u.cntFailed.toNat)
    (fun hw hu => ⟨hu.1.trans (hw.counters_le hi).1, hu.2.trans (hw.counters_le hi).2⟩) (fun _ _ hu => hu) h
    ⟨le_rfl, le_rfl⟩
  refine ⟨hfound, hfailed, fun hsync hp => ?_⟩
  have heq := fun {u v : State} (hw : Write i u v) => hw.counters_eq hi (owns_syncnf_eq_false hsync hp)
  exact exec_keeps (P := fun u => u.cntFound = s.cntFound ∧ u.cntFailed = s.cntFailed)
    (fun hw hu => ⟨(heq hw).1.trans hu.1, (heq hw).2.trans hu.2⟩) (fun _ _ hu => hu) h ⟨rfl, rfl⟩

/-- The records of `s` stand unchanged in `t`, and `OUT` of `t` is within a legal capacity (rules R9, R51, R56). -/
structure State.RecordsIn (s t : State) : Prop where
  outCap_lt : t.build.outCap < 2 ^ 31
  outCnt_le : t.outCnt.toNat ≤ t.build.outCap
  count_le : s.outCnt.toNat ≤ t.outCnt.toNat
  packetAt_eq : ∀ k, k < s.outCnt.toNat → t.packetAt k = s.packetAt k

theorem State.RecordsIn.of_lengthsLegal {s : State} (h : s.lengthsLegal = true) : s.RecordsIn s := by
  simp only [State.lengthsLegal, Build.legal, Bool.and_eq_true, decide_eq_true_eq, and_assoc] at h
  obtain ⟨-, -, -, -, -, -, outCap_lt, -, -, -, -, -, -, -, -, -, outCnt_le, -⟩ := h
  exact ⟨outCap_lt, outCnt_le, le_rfl, fun _ _ => rfl⟩

/-- A new record stands after all there were (rule R226). -/
theorem State.RecordsIn.appendOut {s t : State} (h : s.RecordsIn t) (p : Packet)
    (room : t.outCnt.toNat ≠ t.build.outCap) : s.RecordsIn (t.appendOut p) := by
  obtain ⟨outCap_lt, outCnt_le, count_le, packetAt_eq⟩ := h
  have hcount : (t.appendOut p).outCnt.toNat = t.outCnt.toNat + 1 := by
    rw [State.appendOut_outCnt, BitVec.toNat_add]
    exact Nat.mod_eq_of_lt (by simp; omega)
  refine ⟨outCap_lt, ?_, by omega, fun k hk => ?_⟩
  · rw [hcount]
    exact lt_of_le_of_ne outCnt_le room
  · have hne : t.outCnt.toNat ≠ k := by omega
    rw [← packetAt_eq k hk]
    exact (Buf.get_put _ _ _ _ _).trans (if_neg hne)

theorem Write.recordsIn {i : Instr} {r s t : State} (h : Write i s t) (hi : i ≠ .outclr) (hs : r.RecordsIn s) :
    r.RecordsIn t := by
  cases h with
  | discard e => exact absurd e hi
  | packet p room => exact hs.appendOut p room
  | _ => exact { hs with }

/-- Settles O50: the writes of `OUT` append, and a fatal entry writes no record, so a raise part-way keeps them too. -/
theorem recordsAreImmutable : Obligations.RecordsAreImmutable := by
  intro i s t hlen hi h
  obtain ⟨-, -, count_le, packetAt_eq⟩ := exec_keeps (P := s.RecordsIn) (fun hw => hw.recordsIn hi)
    (fun _ _ hs => { hs with }) h (.of_lengthsLegal hlen)
  exact ⟨count_le, packetAt_eq⟩

end Sys2Proof.Machine

/-! PROOFS. The whitening table is the output of the shift register of rule R54 (O47). -/

namespace Sys2Proof

/-- The whitening sequence of a block built with `W_LEN = 127`, continued with period 127 (rules R52, R54). -/
def tableBit (n : Nat) : Bool := Config.wseq.getD (n % 127) 0 == 1

theorem tableBit_add_mod (n k : Nat) : tableBit (n % 127 + k) = tableBit (n + k) := by
  rw [tableBit, tableBit, Nat.mod_add_mod]

theorem Build.whitenBit_mod_wLen {b : Build} (h : b.wLen = 127) (n : Nat) : b.whitenBit (n % b.wLen) = tableBit n := by
  rw [h]
  cases hb : b.lastBit with
  | none => rw [Build.whitenBit, Build.wseq, hb, tableBit]
  | some v => simp [Build.wLen, hb] at h

/-- The recurrence of the whitening sequence: the feedback of rule R54 read off its outputs. -/
theorem tableBit_recurrence (n : Nat) : (tableBit (n + 7) ^^ tableBit (n + 4)) = tableBit n := by
  have h : ∀ m < 127, (tableBit (m + 7) ^^ tableBit (m + 4)) = tableBit m := by decide
  calc (tableBit (n + 7) ^^ tableBit (n + 4))
      = (tableBit (n % 127 + 7) ^^ tableBit (n % 127 + 4)) := by rw [tableBit_add_mod, tableBit_add_mod]
    _ = tableBit (n % 127) := h _ (Nat.mod_lt n (by decide))
    _ = tableBit n := tableBit_add_mod n 0

/-- The register whose next outputs stand in the table from place `n` on: `p6`, `p5` and `p4` are the next three, and
the others reach the output after the feedback was added to them on the way from `p3` to `p4`. -/
def tableRegister (n : Nat) : List Bool :=
  [tableBit (n + 6) ^^ tableBit (n + 3), tableBit (n + 5) ^^ tableBit (n + 2), tableBit (n + 4) ^^ tableBit (n + 1),
    tableBit (n + 3) ^^ tableBit n, tableBit (n + 2), tableBit (n + 1), tableBit n]

theorem lfsrStep_tableRegister (n : Nat) : lfsrStep (tableRegister n) = (tableBit n, tableRegister (n + 1)) := by
  have h := tableBit_recurrence n
  simp only [lfsrStep, tableRegister, Nat.add_assoc, Nat.reduceAdd, h, Bool.xor_assoc, Bool.xor_self, Bool.xor_false]

theorem lfsrOutput_tableRegister (k : Nat) : ∀ n, lfsrOutput k (tableRegister n) = tableBit (n + k) := by
  induction k with
  | zero => exact fun n => by rw [lfsrOutput, lfsrStep_tableRegister]; rfl
  | succ k ih =>
    intro n
    rw [lfsrOutput, lfsrStep_tableRegister, ih, Nat.add_right_comm]
    rfl

/-- The seed of a channel is the register at the channel's start index (rules R53, R54). -/
theorem lfsrSeed_eq_tableRegister : ∀ ch < 40, lfsrSeed ch = tableRegister (Config.chidx.getD ch 0) := by decide

/-- Settles O47: the seeded register is the table's at the start index, and walks along it. -/
theorem tablesAreTheShiftRegister : Obligations.TablesAreTheShiftRegister := by
  intro b ch k hb hch
  rw [Build.whitenBit_mod_wLen hb, lfsrSeed_eq_tableRegister ch hch, lfsrOutput_tableRegister]

end Sys2Proof

/-! PROOFS. The host's register writes (O59) and the reset values of the registers (O7). -/

namespace Sys2Proof

/-- A primitive vector of the first octant is its own direction. -/
theorem RealNum.direction_of_canonical {a : RealNum} (h : a.canonical = true) :
    direction a.dx a.dy = ⟨0, 0, a.dx, a.dy⟩ := by
  obtain ⟨hy, hyx⟩ := RealNum.octant_of_canonical h
  have hoct : octant a.dx a.dy = (0, a.dx, a.dy) := by
    rw [octant, if_pos hy, if_pos (hy.trans_lt hyx), if_pos hyx]
  have hne : ¬ (a.dx = 0 ∧ a.dy = 0) := by omega
  rw [direction, if_neg hne]
  simp [hoct, RealNum.coprime_of_canonical h]

theorem RealNum.normalize_of_canonical {a : RealNum} (h : a.canonical = true) : a.normalize = a := by
  simp [RealNum.normalize, RealNum.direction_of_canonical h]

/-- The canonical form of a number in canonical form is the number itself (log entry 1). -/
theorem NumVal.normalize_of_canonical {a : NumVal} (h : a.canonical = true) : a.normalize = a := by
  induction a with
  | exact r => rw [NumVal.normalize, RealNum.normalize_of_canonical h]
  | host k => rfl
  | minus a ih | recip a ih => rw [NumVal.normalize, ih h]
  | sum a b iha ihb | prod a b iha ihb | angle a b iha ihb =>
    rw [NumVal.canonical, Bool.and_eq_true] at h
    rw [NumVal.normalize, iha h.1, ihb h.2]

namespace Machine

/-- A stored register write changes no other register, no buffer and none of the model's own fields (rules R81,
R261). -/
structure State.SameBut (s t : State) (r : Reg) : Prop where
  readReg : ∀ q, q ≠ r → t.readReg q = s.readReg q
  mem : t.mem = s.mem
  build : t.build = s.build
  pending : t.pending = s.pending
  replies : t.replies = s.replies

theorem writeReg_sameBut {s t : State} {r : Reg} {v : Value} (h : s.writeReg r v = .stored t) : s.SameBut t r := by
  cases r <;> rw [State.writeReg] at h
  case cfgFs | cfgThresh | thrLo | thrHi | cfgCfo | cfgRef | fdRef =>
    obtain ⟨n, rfl⟩ := writeNum_stored h
    exact ⟨fun q hq => by cases q <;> trivial, rfl, rfl, rfl, rfl⟩
  case cfgMaxb | sampLen | burstCnt | freqLen | bitsLen | rawLen | candCnt | matchCnt | rbLen | dwLen =>
    obtain ⟨w, -, rfl⟩ := writeLength_stored h
    exact ⟨fun q hq => by cases q <;> trivial, rfl, rfl, rfl, rfl⟩
  case outCnt | status | err | cntFound | cntFailed | pfDecl => cases h
  all_goals
    obtain ⟨w, rfl⟩ := writeWord_stored h
    exact ⟨fun q hq => by cases q <;> trivial, rfl, rfl, rfl, rfl⟩

/-- The `RO` registers refuse every value (rule R32). -/
theorem writeReg_of_readOnly (s : State) {r : Reg} (hr : r.readOnly = true) (v : Value) :
    s.writeReg r v = .denied := by
  cases r with
  | outCnt | status | err | cntFound | cntFailed | pfDecl => rfl
  | _ => cases hr

/-- A register with a limit is written through `writeLength` (rule R81). -/
theorem writeReg_of_limit {s : State} {r : Reg} {c : Nat} (hc : r.limit s.build = some c) :
    ∃ f : Word → State, (∀ v, s.writeReg r v = writeLength c v f) ∧ ∀ w, (f w).readReg r = .word w := by
  cases r with
  | sampLen | freqLen | bitsLen | rawLen | burstCnt | candCnt | matchCnt | rbLen | dwLen | cfgMaxb =>
    cases hc
    exact ⟨_, fun _ => rfl, fun _ => rfl⟩
  | _ => cases hc

theorem writeReg_of_limit_lt {s : State} {r : Reg} {c : Nat} (hc : r.limit s.build = some c) {w : Word}
    (h : c < w.toNat) : s.writeReg r (.word w) = .denied := by
  obtain ⟨f, hf, -⟩ := writeReg_of_limit hc
  rw [hf]
  exact if_neg h.not_ge

theorem writeReg_of_le_limit {s : State} {r : Reg} {c : Nat} (hc : r.limit s.build = some c) {w : Word}
    (h : w.toNat ≤ c) : ∃ t, s.writeReg r (.word w) = .stored t ∧ t.readReg r = .word w := by
  obtain ⟨f, hf, hread⟩ := writeReg_of_limit hc
  rw [hf]
  exact ⟨f w, if_pos h, hread w⟩

/-- An integer register that is not read-only stores a `U32` within its limit (rules R32, R261). -/
theorem writeReg_word {s : State} {r : Reg} {w : Word} (hro : r.readOnly = false) (hnum : r.isNum = false)
    (hlim : ∀ c, r.limit s.build = some c → w.toNat ≤ c) :
    ∃ t, s.writeReg r (.word w) = .stored t ∧ t.readReg r = .word w := by
  cases hc : r.limit s.build with
  | some c => exact writeReg_of_le_limit hc (hlim c hc)
  | none =>
    cases r with
    | sampLen | freqLen | bitsLen | rawLen | burstCnt | candCnt | matchCnt | rbLen | dwLen | cfgMaxb => cases hc
    | outCnt | status | err | cntFound | cntFailed | pfDecl => cases hro
    | cfgFs | cfgThresh | thrLo | thrHi | cfgCfo | cfgRef | fdRef => cases hnum
    | _ => exact ⟨_, rfl, rfl⟩

/-- A `Num` register stores every number, in canonical form (rule R34; log entry 1). -/
theorem writeReg_num (s : State) {r : Reg} (hnum : r.isNum = true) (x : NumVal) :
    ∃ t, s.writeReg r (.num x) = .stored t ∧ t.readReg r = .num x.normalize := by
  cases r with
  | cfgFs | cfgThresh | thrLo | thrHi | cfgCfo | cfgRef | fdRef => exact ⟨_, rfl, rfl⟩
  | _ => cases hnum

theorem hostRegWrite_of_stored {s t : State} {n : Nat} {r : Reg} {v : Value} (hn : Reg.ofIndex n = some r)
    (h : s.writeReg r v = .stored t) : hostRegWrite n v s = .next t := by
  rw [hostRegWrite, hn]
  exact congrArg (Access.finish · s) h

/-- A write that the register refuses, or that names none, raises AccessFault (rules R81, R282). -/
theorem hostRegWrite_of_denied {s : State} {n : Nat} {v : Value}
    (h : ∀ r, Reg.ofIndex n = some r → s.writeReg r v = .denied) :
    hostRegWrite n v s = .next (s.entered 12 5 0xFF) := by
  rw [hostRegWrite, show s.entered 12 5 0xFF = s.denied from (s.raise_eq_entered .accessFault hostSource).symm]
  cases hr : Reg.ofIndex n with
  | none => rfl
  | some r => exact congrArg (Access.finish · s) (h r hr)

/-- Settles O59: the register decides whether it stores, and what it stores changes nothing else. -/
theorem hostRegisterWriteStoresOrFaults : Obligations.HostRegisterWriteStoresOrFaults := by
  intro s n
  refine ⟨fun r w hn hro hnum hlim => ?_, fun r x hn hnum => ?_, fun w h => ?_, fun v h => ?_⟩
  · obtain ⟨t, ht, hread⟩ := writeReg_word hro hnum hlim
    obtain ⟨hregs, hmem, hbuild, hpending, hreplies⟩ := writeReg_sameBut ht
    exact ⟨t, hostRegWrite_of_stored hn ht, hread, hregs, hmem, hbuild, hpending, hreplies⟩
  · obtain ⟨t, ht, hread⟩ := writeReg_num s hnum x
    obtain ⟨hregs, hmem, hbuild, hpending, hreplies⟩ := writeReg_sameBut ht
    exact ⟨t, x.normalize, hostRegWrite_of_stored hn ht, hread, x.normalize_toReal, NumVal.normalize_of_canonical,
      hregs, hmem, hbuild, hpending, hreplies⟩
  · refine hostRegWrite_of_denied fun r hn => ?_
    obtain hro | ⟨c, hc, hlt⟩ := h r hn
    · exact writeReg_of_readOnly s hro _
    · exact writeReg_of_limit_lt hc hlt
  · exact hostRegWrite_of_denied fun r hn => writeReg_of_readOnly s (h r hn) v

/-- Settles O7: the five registers with a value of their own, and every other one. -/
theorem resetValues : Obligations.ResetValues := by
  refine ⟨rfl, ?_⟩
  rintro b s rfl
  refine ⟨rfl, rfl, rfl, rfl, rfl, fun r hr => ?_, rfl, rfl, rfl⟩
  cases r with
  | cfgSkip | cfgSync | cfgTol | cfgChan | cfgMaxb => exact absurd (by decide) hr
  | _ => rfl

end Machine

end Sys2Proof

/-! PROOFS. What one step does to `STATUS` and `ERR`: the fatal flags are sticky (O16), and the two registers stay legal
(O56). -/

namespace Sys2Proof

/-- What a row of the opcode map asks of the two other fields (rule R99). -/
theorem selectRow_eq_ok {opc width mod imm : Nat} {used : Bool} {i j : Instr}
    (h : selectRow opc width used mod imm i = .ok j) : j = i ∧ mod < 2 ^ width ∧ (used = false → imm = 0) := by
  unfold selectRow at h
  split_ifs at h with hmod himm
  cases h
  refine ⟨rfl, not_le.1 hmod, ?_⟩
  rintro rfl
  simpa using himm

theorem opc_of_selectSetref {mod imm : Nat} {i : Instr} (h : selectSetref mod imm = .ok i) : i.opc = 0x04 := by
  unfold selectSetref at h
  split at h
  case h_4 | h_5 => cases h
  all_goals
    obtain ⟨rfl, -⟩ := selectRow_eq_ok h
    rfl

theorem opc_of_selectGetb {mod imm : Nat} {i : Instr} (h : selectGetb mod imm = .ok i) : i.opc = 0x34 := by
  unfold selectGetb at h
  split at h
  all_goals
    obtain ⟨rfl, -⟩ := selectRow_eq_ok h
    rfl

/-- A row selects only its own `OPC` (rule R99). -/
theorem opc_of_decodeFields {opc mod imm : Nat} {i : Instr} (h : decodeFields opc mod imm = .ok i) : i.opc = opc := by
  unfold decodeFields at h
  split at h
  case h_5 => exact opc_of_selectSetref h
  case h_20 => exact opc_of_selectGetb h
  case h_25 => cases h
  all_goals
    obtain ⟨rfl, -⟩ := selectRow_eq_ok h
    rfl

/-- The fields of a command word are all of it (rule R96). -/
theorem toNat_eq_fields (w : Word) : w.toNat = opcField w + modField w * 2 ^ 8 + immField w * 2 ^ 16 := by
  simp only [opcField, modField, immField]
  omega

/-- `CLRST` has one word (rules R99, R256). -/
theorem eq_of_decode_clrst {w : Word} (h : decode w = .ok .clrst) : w = 0x00000001 := by
  have hopc : 1 = opcField w := opc_of_decodeFields h
  rw [decode, ← hopc] at h
  obtain ⟨-, hmod, himm⟩ := selectRow_eq_ok h
  have hw := toNat_eq_fields w
  rw [← hopc, Nat.lt_one_iff.1 hmod, himm rfl] at hw
  exact BitVec.eq_of_toNat_eq hw

theorem opcField_lt (w : Word) : opcField w < 2 ^ 8 := Nat.mod_lt _ (by decide)

theorem Instr.opc_lt (i : Instr) : i.opc < 2 ^ 8 := by cases i <;> exact of_decide_eq_true rfl

namespace Machine

/-- `STATUS` and `ERR` are the same in two states. -/
structure State.SameStatus (s t : State) : Prop where
  status : t.status = s.status
  err : t.err = s.err

theorem State.SameStatus.refl (s : State) : s.SameStatus s := ⟨rfl, rfl⟩

theorem State.SameBut.sameStatus {s t : State} {r : Reg} (h : s.SameBut t r) (hr : r.readOnly = false) :
    s.SameStatus t where
  status := Value.word.inj (h.readReg .status (by rintro rfl; cases hr))
  err := Value.word.inj (h.readReg .err (by rintro rfl; cases hr))

/-- The host writes neither `STATUS` nor `ERR` (rule R32). -/
theorem writeReg_sameStatus {s t : State} {r : Reg} {v : Value} (h : s.writeReg r v = .stored t) : s.SameStatus t := by
  refine (writeReg_sameBut h).sameStatus (Bool.eq_false_iff.2 fun hro => ?_)
  rw [writeReg_of_readOnly s hro] at h
  cases h

theorem writeElement_sameStatus {s t : State} {sp : Space} {k : Nat} {v : Value}
    (h : s.writeElement sp k v = .stored t) : s.SameStatus t := by
  unfold State.writeElement at h
  split at h <;> cases h <;> exact ⟨rfl, rfl⟩

/-- What a host access of a register or a buffer does to `STATUS` and `ERR`: nothing, or an AccessFault (rules R81,
R282). -/
def State.Accessed (s t : State) : Prop := s.SameStatus t ∨ s.denied.SameStatus t

theorem Access.accessed_of_finish {a : Access} {s t : State} (ha : ∀ u, a = .stored u → s.SameStatus u)
    (h : a.finish s = .next t) : s.Accessed t := by
  cases a with
  | stored u =>
    cases h
    exact .inl (ha t rfl)
  | denied =>
    cases h
    exact .inr (.refl _)

theorem hostRegRead_accessed {n : Nat} {s t : State} (h : hostRegRead n s = .next t) : s.Accessed t := by
  unfold hostRegRead at h
  split at h <;> cases h
  · exact .inl ⟨rfl, rfl⟩
  · exact .inr ⟨rfl, rfl⟩

theorem hostRegWrite_accessed {n : Nat} {v : Value} {s t : State} (h : hostRegWrite n v s = .next t) :
    s.Accessed t := by
  unfold hostRegWrite at h
  split at h
  · exact Access.accessed_of_finish (fun _ => writeReg_sameStatus) h
  · cases h
    exact .inr (.refl _)

theorem hostBufRead_accessed {n k : Nat} {s t : State} (h : hostBufRead n k s = .next t) : s.Accessed t := by
  unfold hostBufRead at h
  split at h
  · split at h <;> cases h
    · exact .inl ⟨rfl, rfl⟩
    · exact .inr ⟨rfl, rfl⟩
  · cases h
    exact .inr ⟨rfl, rfl⟩

theorem hostBufWrite_accessed {n k : Nat} {v : Value} {s t : State} (h : hostBufWrite n k v s = .next t) :
    s.Accessed t := by
  unfold hostBufWrite at h
  split at h
  · split at h
    · exact Access.accessed_of_finish (fun _ => writeElement_sameStatus) h
    · cases h
      exact .inr (.refl _)
  · cases h
    exact .inr (.refl _)

/-- Everything a step can do to `STATUS` and `ERR`: nothing, one fatal entry, the operation of the next command word, or
a `Reset`. -/
inductive StatusStep (s t : State) : Prop
  | same (h : s.SameStatus t)
  | raised (x : Fatal) {src : Nat} (hsrc : src < 2 ^ 8) (h : (s.raise x src).SameStatus t)
  | command {w : Word} {i : Instr} {u : State} (hnext : s.pending.head? = some (.cmd w)) (hdec : decode w = .ok i)
      (hu : s.SameStatus u) (hrun : exec i u = .next t)
  | reset (hnext : s.pending.head? = some .reset) (hstatus : t.status = 0) (herr : t.err = 0)

theorem State.Accessed.statusStep {s t : State} {rest : List HostTxn} (h : (s.await rest).Accessed t) :
    StatusStep s t := by
  obtain ⟨hstatus, herr⟩ | ⟨hstatus, herr⟩ := h
  · exact .same ⟨hstatus, herr⟩
  · exact .raised .accessFault (src := hostSource) (by decide) ⟨hstatus, herr⟩

/-- The three ends of a command word: ignored, run, or illegal (rules R95, R281, R292). -/
theorem hostCmd_cases {w : Word} {s t : State} (h : hostCmd w s = .next t) :
    t = s ∨ (∃ i, decode w = .ok i ∧ exec i s = .next t) ∨ t = s.raise .illegalCommand (opcField w) := by
  unfold hostCmd at h
  split at h
  · cases h
    exact .inl rfl
  · split at h
    · next i hdec => exact .inr (.inl ⟨i, hdec, h⟩)
    · cases h
      exact .inr (.inr rfl)

theorem step_statusStep {s t : State} (h : step s = .next t) : StatusStep s t := by
  unfold step nextTransaction at h
  split at h
  · cases h
    exact .same (.refl s)
  · next txn rest hpending =>
    have hnext : s.pending.head? = some txn := by rw [hpending]; rfl
    have hawait : s.SameStatus (s.await rest) := ⟨rfl, rfl⟩
    cases txn with
    | regRead n => exact (hostRegRead_accessed h).statusStep
    | regWrite n v => exact (hostRegWrite_accessed h).statusStep
    | bufRead n k => exact (hostBufRead_accessed h).statusStep
    | bufWrite n k v => exact (hostBufWrite_accessed h).statusStep
    | cmd w =>
      obtain rfl | ⟨i, hdec, hrun⟩ | rfl := hostCmd_cases h
      · exact .same hawait
      · exact .command hnext hdec hawait hrun
      · exact .raised .illegalCommand (opcField_lt w) ⟨rfl, rfl⟩
    | reset =>
      cases h
      exact .reset hnext rfl rfl

/-! Sticky flags. -/

/-- `CLRST` alone owns the fatal flags (rules R46, R293). -/
theorem ownsFlag_fatal {i : Instr} (hi : i ≠ .clrst) (x : Fatal) : ownsFlag x.flag i = false := by
  cases i with
  | clrst => exact absurd rfl hi
  | _ => cases x <;> rfl

/-- A fatal entry sets flags only (rule R291). -/
theorem State.flag_raise_of_flag {s : State} {f : Flag} (h : s.flag f = true) (x : Fatal) (src : Nat) :
    (s.raise x src).flag f = true := by
  rw [State.flag_raise, h, ite_self]

theorem exec_keeps_fatalFlag {i : Instr} {s t : State} (hi : i ≠ .clrst) (h : exec i s = .next t) (x : Fatal)
    (hs : s.flag x.flag = true) : t.flag x.flag = true :=
  exec_keeps (P := fun u => u.flag x.flag = true) (fun hw hu => (hw.flag_eq (ownsFlag_fatal hi x)).trans hu)
    (fun y src hu => State.flag_raise_of_flag hu y src) h hs

/-- Settles O16: of the operations only `CLRST` owns a fatal flag, and it has one word. -/
theorem fatalFlagsAreSticky : Obligations.FatalFlagsAreSticky := by
  intro s t x h hflag
  cases step_statusStep h with
  | same hst => exact .inl ((State.flag_eq_of_status hst.status _).trans hflag)
  | raised y _ hst => exact .inl ((State.flag_eq_of_status hst.status _).trans (State.flag_raise_of_flag hflag y _))
  | @command w i u hnext hdec hu hrun =>
    by_cases hi : i = .clrst
    · subst hi
      rw [eq_of_decode_clrst hdec] at hnext
      exact .inr (.inl hnext)
    · exact .inl (exec_keeps_fatalFlag hi hrun x ((State.flag_eq_of_status hu.status _).trans hflag))
  | reset hnext => exact .inr (.inr hnext)

/-! The form of `STATUS` and `ERR`. -/

/-- The legality of `STATUS` and `ERR`, clause by clause (rules R46, R47, R277). -/
structure State.StatusLegal (s : State) : Prop where
  undefined : s.status &&& 0xFFFFE0F0 = 0
  err_lt : s.err.toNat < 2 ^ 16
  code_le : s.err.toNat % 2 ^ 8 ≤ 5
  pending_iff : s.fatalPending = true ↔ s.err.toNat % 2 ^ 8 ≠ 0

theorem State.statusLegal_iff (s : State) : s.StatusLegal ↔ s.statusLegal = true := by
  have hpending : (s.fatalPending == decide (s.err.toNat % 2 ^ 8 ≠ 0)) = true
      ↔ (s.fatalPending = true ↔ s.err.toNat % 2 ^ 8 ≠ 0) := by
    rw [beq_iff_eq, Bool.eq_iff_iff, decide_eq_true_eq]
  simp only [State.statusLegal, Bool.and_eq_true, decide_eq_true_eq, hpending, and_assoc]
  constructor
  · rintro ⟨undefined, err_lt, code_le, pending_iff⟩
    exact ⟨undefined, err_lt, code_le, pending_iff⟩
  · rintro ⟨undefined, err_lt, code_le, pending_iff⟩
    exact ⟨undefined, err_lt, code_le, pending_iff⟩

theorem State.fatalPending_eq_of_status {s t : State} (h : s.status = t.status) : s.fatalPending = t.fatalPending := by
  simp only [State.fatalPending, State.flag_eq_of_status h]

theorem State.StatusLegal.of_same {s t : State} (hs : s.StatusLegal) (h : s.SameStatus t) : t.StatusLegal := by
  obtain ⟨undefined, err_lt, code_le, pending_iff⟩ := hs
  rw [← h.status] at undefined
  rw [← h.err] at err_lt code_le pending_iff
  rw [← State.fatalPending_eq_of_status h.status] at pending_iff
  exact ⟨undefined, err_lt, code_le, pending_iff⟩

theorem State.StatusLegal.of_zero {s : State} (hstatus : s.status = 0) (herr : s.err = 0) : s.StatusLegal where
  undefined := by rw [hstatus]; rfl
  err_lt := by rw [herr]; decide
  code_le := by rw [herr]; decide
  pending_iff := by simp [State.fatalPending, State.flag, hstatus, herr]

/-- The undefined bits of `STATUS` are no flag's (rule R46). -/
theorem State.undefined_setFlag (s : State) (f : Flag) (v : Bool) :
    (s.setFlag f v).status &&& 0xFFFFE0F0 = s.status &&& 0xFFFFE0F0 := by
  refine BitVec.eq_of_getLsbD_eq fun k _ => ?_
  rw [BitVec.getLsbD_and, BitVec.getLsbD_and, State.setFlag_status, getLsbD_writeStatusBit _ _ _ _ f.bit_lt]
  split
  · next h =>
    have hmask : (0xFFFFE0F0 : Word).getLsbD f.bit = false := by cases f <;> rfl
    rw [h, hmask, Bool.and_false, Bool.and_false]
  · rfl

/-- The codes of the fatal conditions (rule R277). -/
theorem Fatal.code_bounds (x : Fatal) : 0 < x.code ∧ x.code ≤ 5 := by cases x <;> decide

/-- `ERR` after a fatal entry: the first condition's code and source, which stay (rules R291, R294). -/
theorem State.err_raise (s : State) (x : Fatal) {src : Nat} (hsrc : src < 2 ^ 8) :
    (s.err.toNat % 2 ^ 8 = 0 ∧ (s.raise x src).err.toNat = x.code + src * 2 ^ 8)
      ∨ s.err.toNat % 2 ^ 8 ≠ 0 ∧ (s.raise x src).err = s.err := by
  rw [State.raise]
  by_cases h : s.err.toNat % 2 ^ 8 = 0
  · have hcode := x.code_bounds
    refine .inl ⟨h, ?_⟩
    rw [if_pos h, BitVec.toNat_ofNat]
    exact Nat.mod_eq_of_lt (by omega)
  · exact .inr ⟨h, if_neg h⟩

theorem State.StatusLegal.raise {s : State} (hs : s.StatusLegal) (x : Fatal) {src : Nat} (hsrc : src < 2 ^ 8) :
    (s.raise x src).StatusLegal := by
  have undefined := (s.undefined_setFlag x.flag true).trans hs.undefined
  have hcode := x.code_bounds
  obtain ⟨-, herr⟩ | ⟨hne, herr⟩ := s.err_raise x hsrc
  · refine ⟨undefined, ?_, ?_, iff_of_true (s.fatalPending_raise x src) ?_⟩ <;> rw [herr] <;> omega
  · refine ⟨undefined, ?_, ?_, iff_of_true (s.fatalPending_raise x src) ?_⟩ <;> rw [herr]
    exacts [hs.err_lt, hs.code_le, hne]

/-- An operation writes single bits only of the outcome flags (rule R46). -/
theorem outcome_of_owns {i : Instr} {f : Flag} (h : owns i f = true) :
    f = .noburst ∨ f = .syncnf ∨ f = .shortClk ∨ f = .shortPkt := by
  have hbit := bit_lt_of_owns h
  cases f with
  | noburst | syncnf | shortClk | shortPkt => simp
  | _ => simp [Flag.bit] at hbit

theorem Write.statusLegal {i : Instr} {s t : State} (h : Write i s t) (hs : s.StatusLegal) : t.StatusLegal := by
  cases h with
  | flag f v owned =>
    refine ⟨(s.undefined_setFlag f v).trans hs.undefined, hs.err_lt, hs.code_le, ?_⟩
    rw [State.fatalPending_setFlag_outcome s f v (outcome_of_owns owned)]
    exact hs.pending_iff
  | clear => exact .of_zero rfl rfl
  | _ => exact hs.of_same ⟨rfl, rfl⟩

theorem exec_statusLegal {i : Instr} {s t : State} (h : exec i s = .next t) (hs : s.StatusLegal) : t.StatusLegal := by
  obtain ⟨u, hw, rfl | ⟨x, rfl⟩⟩ := exec_cases h
  · exact hw.keeps Write.statusLegal hs
  · exact (hw.keeps Write.statusLegal hs).raise x i.opc_lt

/-- Settles O56: the sources of a fatal entry fit one byte, and its code is recorded with its flag. -/
theorem stepKeepsStatusLegal : Obligations.StepKeepsStatusLegal := by
  intro s t hs h
  rw [← State.statusLegal_iff] at hs ⊢
  cases step_statusStep h with
  | same hst => exact hs.of_same hst
  | raised x hsrc hst => exact (hs.raise x hsrc).of_same hst
  | command _ _ hu hrun => exact exec_statusLegal hrun (hs.of_same hu)
  | reset _ hstatus herr => exact .of_zero hstatus herr

end Machine

end Sys2Proof

/-! PROOFS. The host's reads (O58) and its buffer writes (O60). -/

namespace Sys2Proof

theorem Buf.get_put_self {α : Type} (free : Nat → Nat → α) (b : Buf α) (i : Nat) (v : α) :
    (b.put i v).get free i = v :=
  (b.get_put free i i v).trans (if_pos rfl)

theorem Buf.get_put_of_ne {α : Type} (free : Nat → Nat → α) (b : Buf α) {i j : Nat} (h : j ≠ i) (v : α) :
    (b.put i v).get free j = b.get free j :=
  (b.get_put free i j v).trans (if_neg h.symm)

/-- The canonical form of a sample in canonical form is the sample itself (log entry 1). -/
theorem Sample.normalize_of_canonical {v : Sample} (h : v.canonical = true) : v.normalize = v := by
  obtain ⟨hre, him⟩ := Bool.and_eq_true_iff.1 h
  rw [Sample.normalize, NumVal.normalize_of_canonical hre, NumVal.normalize_of_canonical him]

namespace Machine

/-- A refused host transaction is the entry of AccessFault with the host's source byte (rules R282, R291). -/
theorem State.denied_eq_entered (s : State) : s.denied = s.entered 12 5 0xFF :=
  s.raise_eq_entered .accessFault hostSource

/-- A refused read raises AccessFault and replies with the value it is given (rules R81, R282). -/
theorem State.denied_reply (s : State) (v : Value) :
    s.denied.reply v = { s.entered 12 5 0xFF with replies := s.replies ++ [v] } := by
  rw [s.denied_eq_entered]
  rfl

theorem Space.covers_iff (sp : Space) (b : Build) (i : Nat) : sp.covers b i = true ↔ i < sp.capacity b := by
  cases sp <;> exact decide_eq_true_iff

/-! Reads (rules R81, R261, R282). -/

theorem hostRegRead_of_register {n : Nat} {r : Reg} (hn : Reg.ofIndex n = some r) (s : State) :
    hostRegRead n s = .next (s.reply (s.readReg r)) := by
  rw [hostRegRead, hn]

theorem hostRegRead_of_reserved {n : Nat} (hn : Reg.ofIndex n = none) (s : State) :
    hostRegRead n s = .next (s.denied.reply (.word 0)) := by
  rw [hostRegRead, hn]

theorem hostBufRead_of_lt_capacity {n i : Nat} {sp : Space} {s : State} (hn : Space.ofId n = some sp)
    (hi : i < sp.capacity s.build) : hostBufRead n i s = .next (s.reply (s.readElement sp i)) := by
  rw [hostBufRead, hn]
  exact if_pos ((sp.covers_iff s.build i).2 hi)

/-- A read of a reserved space, or of an index at or above the capacity, is refused. -/
theorem hostBufRead_of_refused {n i : Nat} {s : State}
    (h : ∀ sp, Space.ofId n = some sp → sp.capacity s.build ≤ i) :
    hostBufRead n i s = .next (s.denied.reply (.word 0)) := by
  rw [hostBufRead]
  cases hn : Space.ofId n with
  | none => rfl
  | some sp => exact if_neg fun hcov => (h sp hn).not_gt ((sp.covers_iff s.build i).1 hcov)

/-- Settles O58: the index or the space decides whether the read replies with the value or is refused. -/
theorem hostReadsHaveNoSideEffect : Obligations.HostReadsHaveNoSideEffect := by
  intro s
  refine ⟨fun n r hn => ?_, fun n hn => ?_, fun n sp i hn hi => ?_, fun n i h => ?_⟩
  · exact hostRegRead_of_register hn s
  · rw [hostRegRead_of_reserved hn, s.denied_reply]
  · exact hostBufRead_of_lt_capacity hn hi
  · rw [hostBufRead_of_refused h, s.denied_reply]

/-! Buffer writes (rules R80, R81, R282). -/

/-- A stored element write changes no other element of any space, and nothing outside the memory (rule R81). -/
structure State.SameButElement (s t : State) (sp : Space) (i : Nat) : Prop where
  outside : t = { s with mem := t.mem }
  readElement : ∀ q j, (q ≠ sp ∨ j ≠ i) → t.readElement q j = s.readElement q j

theorem writeElement_outside {s t : State} {sp : Space} {i : Nat} {v : Value}
    (h : s.writeElement sp i v = .stored t) : t = { s with mem := t.mem } := by
  unfold State.writeElement at h
  split at h <;> cases h <;> rfl

/-- Each space is a buffer of its own, so a stored write of one leaves every other as it was. -/
theorem writeElement_readElement_of_space_ne {s t : State} {sp q : Space} {i : Nat} {v : Value}
    (h : s.writeElement sp i v = .stored t) (hq : q ≠ sp) (j : Nat) : t.readElement q j = s.readElement q j := by
  unfold State.writeElement at h
  split at h <;> cases h <;> cases q <;> trivial

theorem writeElement_readElement_of_index_ne {s t : State} {sp : Space} {i j : Nat} {v : Value}
    (h : s.writeElement sp i v = .stored t) (hj : j ≠ i) : t.readElement sp j = s.readElement sp j := by
  unfold State.writeElement at h
  split at h <;> cases h <;> exact congrArg _ (Buf.get_put_of_ne _ _ hj _)

theorem writeElement_sameButElement {s t : State} {sp : Space} {i : Nat} {v : Value}
    (h : s.writeElement sp i v = .stored t) : s.SameButElement t sp i where
  outside := writeElement_outside h
  readElement q j hne := by
    obtain rfl | hq := eq_or_ne q sp
    · exact writeElement_readElement_of_index_ne h (hne.resolve_left fun hq => hq rfl)
    · exact writeElement_readElement_of_space_ne h hq j

/-- `SQL`, `OUT` and the tables refuse every value (rule R80). -/
theorem writeElement_of_not_writable (s : State) {sp : Space} (h : sp.writable = false) (i : Nat) (v : Value) :
    s.writeElement sp i v = .denied := by
  cases sp with
  | sql | out | wseq | chidx => rfl
  | _ => cases h

/-- A writable space stores every value of its element type (rule R80); a real number in canonical form is stored as it
is (log entry 1). -/
theorem writeElement_of_holds (s : State) {sp : Space} {v : Value} (hw : sp.writable = true) (hv : sp.holds v = true)
    (i : Nat) : ∃ t, s.writeElement sp i v = .stored t ∧ t.readElement sp i = v := by
  cases sp with
  | sql | out | wseq | chidx => cases hw
  | samp =>
    cases v with
    | sample x =>
      have hx : x.normalize = x := Sample.normalize_of_canonical hv
      exact ⟨_, rfl, congrArg Value.sample ((Buf.get_put_self _ _ _ _).trans hx)⟩
    | _ => cases hv
  | freq =>
    cases v with
    | num x =>
      have hx : x.normalize = x := NumVal.normalize_of_canonical hv
      exact ⟨_, rfl, congrArg Value.num ((Buf.get_put_self _ _ _ _).trans hx)⟩
    | _ => cases hv
  | burst | bits | raw | cand | hits | rb | dw =>
    cases v <;> cases hv
    exact ⟨_, rfl, congrArg _ (Buf.get_put_self _ _ _ _)⟩

theorem hostBufWrite_of_stored {s t : State} {n i : Nat} {sp : Space} {v : Value} (hn : Space.ofId n = some sp)
    (hi : i < sp.capacity s.build) (h : s.writeElement sp i v = .stored t) : hostBufWrite n i v s = .next t := by
  rw [hostBufWrite, hn]
  exact (if_pos ((sp.covers_iff s.build i).2 hi)).trans (congrArg (Access.finish · s) h)

/-- A write that the space refuses, that lies at or above the capacity, or that names no space, raises AccessFault
(rules R81, R282). -/
theorem hostBufWrite_of_refused {s : State} {n i : Nat} {v : Value}
    (h : ∀ sp, Space.ofId n = some sp → s.writeElement sp i v = .denied ∨ sp.capacity s.build ≤ i) :
    hostBufWrite n i v s = .next s.denied := by
  rw [hostBufWrite]
  cases hn : Space.ofId n with
  | none => rfl
  | some sp =>
    obtain hden | hcap := h sp hn
    · exact ite_eq_right_iff.2 fun _ => congrArg (Access.finish · s) hden
    · exact if_neg fun hcov => hcap.not_gt ((sp.covers_iff s.build i).1 hcov)

/-- Settles O60: the space decides whether it stores, and what it stores changes nothing else. -/
theorem hostBufferWriteStoresOrFaults : Obligations.HostBufferWriteStoresOrFaults := by
  intro s n i v
  refine ⟨fun sp hn hw hi hv => ?_, fun h => ?_⟩
  · obtain ⟨t, ht, hread⟩ := writeElement_of_holds s hw hv i
    obtain ⟨houtside, hothers⟩ := writeElement_sameButElement ht
    exact ⟨t, hostBufWrite_of_stored hn hi ht, houtside, hread, hothers⟩
  · rw [← s.denied_eq_entered]
    exact hostBufWrite_of_refused fun sp hn => (h sp hn).imp_left fun hw => writeElement_of_not_writable s hw i v

end Machine

end Sys2Proof

/-! PROOFS. The command word (rules R95 to R104): its three fields determine the instruction and the instruction
determines them, so decoding and encoding are inverse to each other (O1, O2, O3). -/

namespace Sys2Proof

/-! The fields of an encoded instruction. -/

theorem Instr.modBits_lt (i : Instr) : i.modBits < 2 ^ 8 := by
  cases i with
  | setthr single => cases single <;> decide
  | fdFreq ug => cases ug <;> decide
  | fdDemod ug ck => cases ug <;> cases ck <;> decide
  | pipeBurst ug ck cr => cases ug <;> cases ck <;> cases cr <;> decide
  | pipeStream ug => cases ug <;> decide
  | _ => exact of_decide_eq_true rfl

/-- An instruction is well-formed exactly when its match index, 0 for most, fits the field `IMM` (rule R98). -/
theorem Instr.wellFormed_iff (i : Instr) : i.wellFormed = true ↔ i.immBits < 2 ^ 16 := by
  cases i with
  | syGetbR index => exact decide_eq_true_iff
  | _ => exact iff_of_true rfl (by decide : 0 < 2 ^ 16)

/-- The fields do not overlap, so a well-formed instruction's word holds their sum without a carry (rules R96, R104). -/
theorem toNat_encode {i : Instr} (h : i.wellFormed = true) :
    (encode i).toNat = i.opc + i.modBits * 2 ^ 8 + i.immBits * 2 ^ 16 := by
  have hopc := i.opc_lt
  have hmod := i.modBits_lt
  have himm := i.wellFormed_iff.1 h
  rw [encode, BitVec.toNat_ofNat]
  exact Nat.mod_eq_of_lt (by omega)

/-- Rule R104: a well-formed instruction and a word belong together exactly when the three fields agree. -/
theorem encode_eq_iff_fields {i : Instr} (h : i.wellFormed = true) (w : Word) :
    encode i = w ↔ i.opc = opcField w ∧ i.modBits = modField w ∧ i.immBits = immField w := by
  have hopc := i.opc_lt
  have hmod := i.modBits_lt
  rw [← BitVec.toNat_inj, toNat_encode h]
  simp only [opcField, modField, immField]
  omega

/-! The opcode map of rule R99. -/

theorem decodeFields_of_instr (i : Instr) : decodeFields i.opc i.modBits i.immBits = .ok i := by
  cases i with
  | setthr single => cases single <;> rfl
  | fdFreq ug => cases ug <;> rfl
  | fdDemod ug ck => cases ug <;> cases ck <;> rfl
  | pipeBurst ug ck cr => cases ug <;> cases ck <;> cases cr <;> rfl
  | pipeStream ug => cases ug <;> rfl
  | _ => rfl

theorem fields_of_selectSetref {mod imm : Nat} {i : Instr} (h : selectSetref mod imm = .ok i) :
    i.modBits = mod ∧ i.immBits = imm := by
  unfold selectSetref at h
  split at h
  case h_4 | h_5 => cases h
  all_goals
    obtain ⟨rfl, -, himm⟩ := selectRow_eq_ok h
    exact ⟨rfl, (himm rfl).symm⟩

theorem fields_of_selectGetb {mod imm : Nat} {i : Instr} (h : selectGetb mod imm = .ok i) :
    i.modBits = mod ∧ i.immBits = imm := by
  unfold selectGetb at h
  split at h
  · next hr =>
    obtain ⟨rfl, -⟩ := selectRow_eq_ok h
    exact ⟨hr.symm, rfl⟩
  · next hr =>
    obtain ⟨rfl, hmod, himm⟩ := selectRow_eq_ok h
    have hzero : 0 = mod := by omega
    exact ⟨hzero, (himm rfl).symm⟩

/-- A row reads every bit of the two other fields: its modifier bits are the whole of `MOD`, and `IMM` is 0 or its match
index (rules R97 to R99). -/
theorem fields_of_decodeFields {opc mod imm : Nat} {i : Instr} (h : decodeFields opc mod imm = .ok i) :
    i.modBits = mod ∧ i.immBits = imm := by
  unfold decodeFields at h
  split at h
  case h_5 => exact fields_of_selectSetref h
  case h_20 => exact fields_of_selectGetb h
  case h_25 => cases h
  all_goals
    obtain ⟨rfl, hmod, himm⟩ := selectRow_eq_ok h
    refine ⟨?_, (himm rfl).symm⟩
    simp only [Instr.modBits, Nat.toNat_testBit]
    omega

theorem decodeFields_eq_ok_iff {opc mod imm : Nat} {i : Instr} :
    decodeFields opc mod imm = .ok i ↔ i.opc = opc ∧ i.modBits = mod ∧ i.immBits = imm := by
  constructor
  · exact fun h => ⟨opc_of_decodeFields h, fields_of_decodeFields h⟩
  · rintro ⟨rfl, rfl, rfl⟩
    exact decodeFields_of_instr i

/-! Both directions of the round trip. -/

theorem immField_lt (w : Word) : immField w < 2 ^ 16 := by
  have hw := w.isLt
  rw [immField]
  omega

theorem wellFormed_of_decode {w : Word} {i : Instr} (h : decode w = .ok i) : i.wellFormed = true := by
  obtain ⟨-, himm⟩ := fields_of_decodeFields h
  rw [Instr.wellFormed_iff, himm]
  exact immField_lt w

/-- Rule R99: a word selects a well-formed instruction exactly when it is that instruction's encoding. -/
theorem decode_eq_ok_iff_encode {i : Instr} (h : i.wellFormed = true) (w : Word) :
    decode w = .ok i ↔ encode i = w := by
  rw [decode, decodeFields_eq_ok_iff, encode_eq_iff_fields h]

/-- Settles O1: the word's three fields are the instruction's, and the opcode map reads every instruction from them. -/
theorem decodeOfEncode : Obligations.DecodeOfEncode :=
  fun i h => (decode_eq_ok_iff_encode h (encode i)).2 rfl

/-- Settles O2: what the opcode map answers has the word's own three fields, which are all of the word. -/
theorem encodeOfDecode : Obligations.EncodeOfDecode := by
  intro w i h
  have hwf := wellFormed_of_decode h
  exact ⟨hwf, (decode_eq_ok_iff_encode hwf w).1 h⟩

/-- Settles O3: each example word is the encoding of its instruction, so the round trip of O1 reads it back. -/
theorem exampleWordsDecode : Obligations.ExampleWordsDecode :=
  ⟨decodeOfEncode .bdNext rfl, decodeOfEncode (.setthr true) rfl, decodeOfEncode .setrefC rfl,
    decodeOfEncode (.fdDemod false true) rfl, decodeOfEncode (.fdDemod true true) rfl, decodeOfEncode (.syGetbR 3) rfl,
    decodeOfEncode (.pipeBurst false true true) rfl, decodeOfEncode (.pipeStream false) rfl,
    decodeOfEncode (.syGetbR 65535) rfl, decodeOfEncode (.pipeStream true) rfl⟩

end Sys2Proof

/-! PROOFS. When a command word is blocked (rule R292), and the step that runs one that is not (O5). -/

namespace Sys2Proof.Machine

/-- Rule R46: the mask of the fatal bits holds the bits of the five fatal flags and no other. -/
theorem getLsbD_fatalMask_iff (k : Nat) : (0x1F00#32).getLsbD k = true ↔ ∃ x : Fatal, x.flag.bit = k := by
  constructor
  · intro h
    have hk : k < 32 := BitVec.lt_of_getLsbD h
    have hbits : k = 8 ∨ k = 9 ∨ k = 10 ∨ k = 11 ∨ k = 12 := by
      revert h
      interval_cases k <;> decide
    obtain rfl | rfl | rfl | rfl | rfl := hbits
    exacts [⟨.invalidChannel, rfl⟩, ⟨.configError, rfl⟩, ⟨.rangeError, rfl⟩, ⟨.illegalCommand, rfl⟩,
      ⟨.accessFault, rfl⟩]
  · rintro ⟨x, rfl⟩
    cases x <;> rfl

theorem State.fatalPending_iff (s : State) : s.fatalPending = true ↔ ∃ x : Fatal, s.flag x.flag = true := by
  simp only [State.fatalPending, Bool.or_eq_true, or_assoc]
  constructor
  · rintro (h | h | h | h | h)
    exacts [⟨.invalidChannel, h⟩, ⟨.configError, h⟩, ⟨.rangeError, h⟩, ⟨.illegalCommand, h⟩, ⟨.accessFault, h⟩]
  · rintro ⟨x, h⟩
    cases x <;> simp only [Fatal.flag] at h <;> simp [h]

/-- A fatal flag is 1 exactly when the fatal bits of `STATUS` are not all 0 (rule R46). -/
theorem State.fatalBits_eq_zero_iff (s : State) : s.fatalBits = 0 ↔ s.fatalPending = false := by
  rw [← Bool.not_eq_true, State.fatalPending_iff]
  constructor
  · rintro h ⟨x, hx⟩
    have hbit : s.fatalBits.getLsbD x.flag.bit = true := by
      rw [State.getLsbD_fatalBits, (getLsbD_fatalMask_iff _).2 ⟨x, rfl⟩, Bool.and_true]
      exact hx
    rw [h] at hbit
    exact Bool.false_ne_true (BitVec.getLsbD_zero.symm.trans hbit)
  · intro h
    refine BitVec.eq_of_getLsbD_eq fun k _ => ?_
    rw [State.getLsbD_fatalBits]
    refine (Bool.eq_false_iff.2 fun hbit => ?_).trans BitVec.getLsbD_zero.symm
    obtain ⟨hstatus, hmask⟩ := Bool.and_eq_true_iff.1 hbit
    obtain ⟨x, rfl⟩ := (getLsbD_fatalMask_iff k).1 hmask
    exact h ⟨x, hstatus⟩

theorem runsWhileFatal_iff (opc : Nat) : runsWhileFatal opc = true ↔ opc ∈ [0x00, 0x01, 0x02, 0x05] := by
  simp [runsWhileFatal, or_assoc]

/-- Rule R292: when a command word is not ignored. -/
theorem State.blocks_eq_false_iff (s : State) (w : Word) :
    s.blocks w = false ↔ s.fatalBits = 0 ∨ w.toNat % 256 ∈ [0x00, 0x01, 0x02, 0x05] := by
  rw [State.blocks, Bool.and_eq_false_iff, Bool.not_eq_false', runsWhileFatal_iff, State.fatalBits_eq_zero_iff]
  rfl

/-- Rule R95: a command word that is not blocked runs the instruction it decodes to. -/
theorem hostCmd_of_decode {s : State} {w : Word} {i : Instr} (hb : s.blocks w = false) (hd : decode w = .ok i) :
    hostCmd w s = exec i s := by
  rw [hostCmd, hb, hd]
  rfl

theorem step_of_pending {s : State} {txn : HostTxn} {rest : List HostTxn} (h : s.pending = txn :: rest) :
    step s = transact txn (s.await rest) := by
  rw [step, nextTransaction, h]

/-- Settles O5: taking the transaction off the list changes nothing that blocking looks at. -/
theorem stepRunsDecodedCommand : Obligations.StepRunsDecodedCommand := by
  intro s w rest i hpending hfree hdec
  have hb : (s.await rest).blocks w = false := ((s.await rest).blocks_eq_false_iff w).2 hfree
  rw [step_of_pending hpending]
  exact hostCmd_of_decode hb hdec

end Sys2Proof.Machine

/-! PROOFS. The two derived quantities of the control operations in the real numbers: the threshold pair of rule R101
(O20) and the zero-reference of rule R102 (O21). -/

namespace Sys2Proof

open Real (pi)

theorem NumVal.isNegative_iff (a : NumVal) : a.isNegative = true ↔ a.toReal < 0 := by
  rw [NumVal.isNegative, beq_iff_eq, NumVal.sign_eq, cmp_eq_lt_iff]

theorem NumVal.isPositive_iff (a : NumVal) : a.isPositive = true ↔ 0 < a.toReal := by
  rw [NumVal.isPositive, beq_iff_eq, NumVal.sign_eq, cmp_eq_gt_iff]

/-- The zero-reference is rule R102's in both forms it is computed in, as an exact multiple of pi and as a product. -/
@[simp] theorem referenceOf_toReal (cfo fs : NumVal) :
    (referenceOf cfo fs).toReal = cfo.toReal * 2 * pi / fs.toReal := by
  unfold referenceOf
  split
  · next c f hc hf =>
    rw [NumVal.toReal_ofPi, NumVal.toReal_of_toRat? hc, NumVal.toReal_of_toRat? hf]
    push_cast
    ring
  · rw [NumVal.mul_toReal, NumVal.mul_toReal, NumVal.toReal_ofPi, NumVal.toReal_recip]
    push_cast
    ring

namespace Machine

/-- A run of an operation that raises ConfigError ends in its fatal entry (rules R277, R291). -/
theorem exec_of_configError {i : Instr} {s : State} (h : s.run i = .raised .configError s) :
    exec i s = .next (s.entered 9 2 i.opc) := by
  rw [exec_eq_finish, h, Run.finish_raised, State.raise_eq_entered]
  rfl

/-- A run that is done is the command's next state. -/
theorem exec_of_done {i : Instr} {s t : State} (h : s.run i = .done t) : exec i s = .next t := by
  rw [exec_eq_finish, h, Run.finish_done]

theorem setthrRun_of_negative {s : State} (h : s.cfgThresh.toReal < 0) (single : Bool) :
    setthrRun single s = .raised .configError s :=
  if_pos (s.cfgThresh.isNegative_iff.2 h)

theorem setthrRun_single {s : State} (h : 0 ≤ s.cfgThresh.toReal) :
    setthrRun true s = .done { s with thrLo := s.cfgThresh, thrHi := s.cfgThresh } :=
  if_neg (s.cfgThresh.isNegative_iff.not.2 h.not_gt)

theorem setthrRun_pair {s : State} (h : 0 ≤ s.cfgThresh.toReal) :
    setthrRun false s = .done { s with
      thrLo := (NumVal.ofRat Config.lowFactor).mul s.cfgThresh
      thrHi := (NumVal.ofRat Config.highFactor).mul s.cfgThresh } :=
  if_neg (s.cfgThresh.isNegative_iff.not.2 h.not_gt)

/-- Settles O20: the sign of the base threshold is the real one, and so are the two products. -/
theorem setthrDerivesTheThresholds : Obligations.SetthrDerivesTheThresholds := by
  intro single s
  refine ⟨fun h => ?_, fun h => exec_of_configError (setthrRun_of_negative h single)⟩
  cases single with
  | true => exact ⟨_, _, exec_of_done (setthrRun_single h), by simp, by simp⟩
  | false =>
    refine ⟨_, _, exec_of_done (setthrRun_pair h), ?_, ?_⟩
    · simp [Config.lowFactor]
    · simp [Config.highFactor]

theorem setrefC_run_of_positive {s : State} (h : 0 < s.cfgFs.toReal) :
    s.run .setrefC = .done { s with fdRef := referenceOf s.cfgCfo s.cfgFs } :=
  if_pos (s.cfgFs.isPositive_iff.2 h)

theorem setrefC_run_of_not_positive {s : State} (h : s.cfgFs.toReal ≤ 0) :
    s.run .setrefC = .raised .configError s :=
  if_neg (s.cfgFs.isPositive_iff.not.2 h.not_gt)

/-- Settles O21: one run for each mode, and the sign of the sample rate is the real one. -/
theorem setrefSelectsTheReference : Obligations.SetrefSelectsTheReference := by
  intro s
  refine ⟨⟨.zero, exec_of_done rfl, NumVal.toReal_zero⟩, fun h => ?_, fun h => ?_, exec_of_done rfl⟩
  · exact ⟨_, exec_of_done (setrefC_run_of_positive h), referenceOf_toReal _ _⟩
  · exact exec_of_configError (setrefC_run_of_not_positive h)

end Machine

end Sys2Proof

/-! PROOFS. The burst detector (rules R131 to R136): the scan for one burst in the words of rule R132 (O23, O24), a whole
pass over the stream (O25), what `SQUELCH` makes of it (O26), and the operations without a check (O18). -/

namespace Sys2Proof.Machine

/-! The scan for an index: the least one at or after a start (rule R13). -/

section Scan

variable {α : Type} {p : α → Bool} {P : Nat → Prop} {xs : List α} {c i j : Nat}
  (hp : ∀ n (hn : n < xs.length), p xs[n] = true ↔ P n)
include hp

theorem firstFrom_eq_none_iff : firstFrom p c xs = none ↔ ∀ n, c ≤ n → n < xs.length → ¬ P n := by
  rw [firstFrom, Option.map_eq_none_iff, List.findIdx?_eq_none_iff]
  constructor
  · intro h n hc hn hP
    have hmem : xs[n] ∈ xs.drop c := List.mem_drop_iff_getElem.2 ⟨n - c, by omega, by simp [Nat.add_sub_cancel' hc]⟩
    exact Bool.false_ne_true ((h _ hmem).symm.trans ((hp n hn).2 hP))
  · intro h x hx
    obtain ⟨k, hk, rfl⟩ := List.mem_drop_iff_getElem.1 hx
    exact Bool.eq_false_iff.2 fun hpx => h (c + k) (by omega) (by omega) ((hp _ _).1 hpx)

theorem firstFrom_eq_some_iff :
    firstFrom p c xs = some i ↔ c ≤ i ∧ i < xs.length ∧ P i ∧ ∀ n, c ≤ n → n < i → ¬ P n := by
  simp only [firstFrom, Option.map_eq_some_iff, List.findIdx?_eq_some_iff_getElem, List.getElem_drop, List.length_drop]
  constructor
  · rintro ⟨k, ⟨hk, hfound, hleast⟩, rfl⟩
    refine ⟨by omega, by omega, (hp _ _).1 hfound, fun n hc hn hP => ?_⟩
    refine hleast (n - c) (by omega) ?_
    simpa only [Nat.add_sub_cancel' hc] using (hp n (by omega)).2 hP
  · rintro ⟨hc, hi, hfound, hleast⟩
    refine ⟨i - c, ⟨by omega, ?_, fun k hk => ?_⟩, by omega⟩
    · simpa only [Nat.add_sub_cancel' hc] using (hp i hi).2 hfound
    · exact fun hpk => hleast (c + k) (by omega) (by omega) ((hp _ _).1 hpk)

/-- The least index, or the end of the list where there is none. -/
theorem firstFrom_getD_eq_iff (hc : c ≤ xs.length) :
    (firstFrom p c xs).getD xs.length = j ↔
      c ≤ j ∧ j ≤ xs.length ∧ (∀ n, c ≤ n → n < j → ¬ P n) ∧ (j < xs.length → P j) := by
  cases h : firstFrom p c xs with
  | none =>
    have hnone := (firstFrom_eq_none_iff hp).1 h
    refine ⟨?_, fun ⟨hcj, hj, _, hend⟩ => ?_⟩
    · rintro rfl
      exact ⟨hc, le_rfl, hnone, fun hlt => absurd hlt (lt_irrefl _)⟩
    · by_contra hne
      have hlt : j < xs.length := lt_of_le_of_ne hj (Ne.symm hne)
      exact hnone j hcj hlt (hend hlt)
  | some i =>
    obtain ⟨hci, hi, hfound, hleast⟩ := (firstFrom_eq_some_iff hp).1 h
    refine ⟨?_, fun ⟨hcj, _, hbefore, hend⟩ => ?_⟩
    · rintro rfl
      exact ⟨hci, hi.le, hleast, fun _ => hfound⟩
    · rcases lt_trichotomy i j with hij | hij | hij
      · exact absurd hfound (hbefore i hci hij)
      · exact hij
      · exact absurd (hend (hij.trans hi)) (hleast j hcj hij)

end Scan

/-! One burst (rule R132). -/

theorem Memory.samp_wf {m : Memory} (h : m.wf = true) : m.samp.wf = true := by
  simp only [Memory.wf, Bool.and_eq_true, and_assoc] at h
  exact h.1

theorem Memory.burst_wf {m : Memory} (h : m.wf = true) : m.burst.wf = true := by
  simp only [Memory.wf, Bool.and_eq_true, and_assoc] at h
  obtain ⟨-, -, hburst, -⟩ := h
  exact hburst

theorem State.getElem_samples {s : State} (hwf : s.mem.samp.wf = true) (n : Nat) (hn : n < s.samples.length) :
    s.samples[n] = s.sampAt n :=
  (Buf.getElem_window _ _ _ _ _ hwf hn).trans (by rw [Nat.zero_add, State.sampAt])

/-- The check of rules R39 and R40 passes exactly for a legal configuration. -/
theorem State.detectorIllegal_eq_false_iff (s : State) : s.detectorIllegal = false ↔ s.detectorReady := by
  rw [State.detectorIllegal, Bool.or_eq_false_iff, Bool.or_eq_false_iff, ← Bool.not_eq_true, NumVal.isNegative_iff,
    ← Bool.not_eq_true, NumVal.gt_iff, decide_eq_false_iff_not, not_lt, not_lt, not_le, and_assoc]
  rfl

section Burst

variable {s : State} {c : Nat} (hwf : s.mem.samp.wf = true) (hr : s.detectorReady)
include hwf hr

theorem State.ampAbove_samples_iff (n : Nat) (hn : n < s.samples.length) :
    ampAbove s.thrHi s.samples[n] = true ↔ s.loud n := by
  obtain ⟨hlo, hlohi, -⟩ := hr
  rw [State.getElem_samples hwf]
  exact (amplitudeComparisonsAreExact _ _ (hlo.trans hlohi)).1

theorem State.ampBelow_samples_iff (n : Nat) (hn : n < s.samples.length) :
    ampBelow s.thrLo s.samples[n] = true ↔ s.quiet n := by
  obtain ⟨hlo, -, -⟩ := hr
  rw [State.getElem_samples hwf]
  exact (amplitudeComparisonsAreExact _ _ hlo).2

theorem nextBurst_eq_none_iff :
    nextBurst s.samples s.thrLo s.thrHi s.cfgPad.toNat c = none ↔ s.noBurstFrom c := by
  rw [nextBurst, Option.map_eq_none_iff, firstFrom_eq_none_iff (State.ampAbove_samples_iff hwf hr),
    State.length_samples]
  rfl

/-- The model's scan finds a burst exactly where the words of rule R132 give it. -/
theorem nextBurst_eq_some_iff (b : Span) :
    nextBurst s.samples s.thrLo s.thrHi s.cfgPad.toNat c = some (b.start.toNat, b.stop.toNat) ↔ s.burstFrom c b := by
  have hstart := fun i => firstFrom_eq_some_iff (c := c) (i := i) (State.ampAbove_samples_iff hwf hr)
  have hend := fun i j => firstFrom_getD_eq_iff (c := i) (j := j) (State.ampBelow_samples_iff hwf hr)
  simp only [State.length_samples] at hstart hend
  simp only [nextBurst, Option.map_eq_some_iff, hstart, State.length_samples, Prod.mk.injEq]
  constructor
  · rintro ⟨i, ⟨hc, hi, hloud, hleast⟩, hb, he⟩
    obtain ⟨hij, hj, hbefore, hquiet⟩ := (hend i _ hi.le).1 rfl
    exact ⟨i, _, hc, hi, hloud, hleast, hij, hj, hbefore, hquiet, hb.symm, he.symm⟩
  · rintro ⟨i, j, hc, hi, hloud, hleast, hij, hj, hbefore, hquiet, hb, he⟩
    refine ⟨i, ⟨hc, hi, hloud, hleast⟩, hb.symm, ?_⟩
    rw [(hend i j hi.le).2 ⟨hij, hj, hbefore, hquiet⟩, he]

/-- The bounds of a burst the scan finds are indices of the stream, so two words hold them. -/
theorem State.exists_burstFrom (h : ¬ s.noBurstFrom c) : ∃ b, s.burstFrom c b := by
  rw [← nextBurst_eq_none_iff hwf hr] at h
  obtain ⟨⟨start, stop⟩, hb⟩ := Option.ne_none_iff_exists'.1 h
  have hlen := s.sampLen.isLt
  have hstop : stop ≤ s.sampLen.toNat := (nextBurst_stop_le hb).trans_eq s.length_samples
  have hstart : start < s.sampLen.toNat := by
    obtain ⟨i, hi, hpair⟩ := Option.map_eq_some_iff.1 hb
    obtain ⟨hci, hlt, -⟩ := (firstFrom_eq_some_iff (State.ampAbove_samples_iff hwf hr)).1 hi
    rw [State.length_samples] at hlt
    have := (Prod.mk.inj hpair).1
    omega
  refine ⟨⟨BitVec.ofNat 32 start, BitVec.ofNat 32 stop⟩, (nextBurst_eq_some_iff hwf hr _).1 ?_⟩
  rw [hb, BitVec.toNat_ofNat, BitVec.toNat_ofNat, Nat.mod_eq_of_lt (by omega), Nat.mod_eq_of_lt (by omega)]

end Burst

/-- Rule R132's writes after the burst `b` was found: `State.enterBurst` on the words of the burst. -/
def State.enterSpan (s : State) (b : Span) : State :=
  { s.setFlag .noburst false with
    burstCnt := s.burstCnt + 1
    segStart := b.start
    segStop := b.stop
    bdCur := b.stop
    mem := { s.mem with burst := s.mem.burst.put s.burstCnt.toNat b } }

theorem State.enterBurst_toNat (s : State) (b : Span) :
    s.enterBurst (b.start.toNat, b.stop.toNat) = s.enterSpan b := by
  simp [State.enterBurst, State.enterSpan, State.appendBurst, State.setFlag]

theorem State.burstAt_enterSpan (s : State) (b : Span) (k : Nat) :
    (s.enterSpan b).burstAt k = if k = s.burstCnt.toNat then b else s.burstAt k := by
  simp only [State.burstAt, State.enterSpan, Buf.get_put, eq_comm (a := k)]

section Next

variable {s : State} (hwf : s.mem.samp.wf = true) (hr : s.detectorReady)
include hwf hr

theorem bdNextRun_of_noBurstFrom (hcur : s.bdCur.toNat ≤ s.sampLen.toNat) (h : s.noBurstFrom s.bdCur.toNat) :
    bdNextRun s = .done (s.setFlag .noburst true) := by
  have hlegal := s.detectorIllegal_eq_false_iff.2 hr
  have hin : ¬ s.sampLen < s.bdCur := not_lt.2 hcur
  simp [bdNextRun, hlegal, hin, (nextBurst_eq_none_iff hwf hr).2 h]

theorem bdNextRun_of_burstFrom {b : Span} (hcur : s.bdCur.toNat ≤ s.sampLen.toNat)
    (hroom : s.burstCnt.toNat ≠ s.build.burstCap) (h : s.burstFrom s.bdCur.toNat b) :
    bdNextRun s = .done (s.enterSpan b) := by
  have hlegal := s.detectorIllegal_eq_false_iff.2 hr
  have hin : ¬ s.sampLen < s.bdCur := not_lt.2 hcur
  simp [bdNextRun, hlegal, hin, (nextBurst_eq_some_iff hwf hr b).2 h, hroom, State.enterBurst_toNat]

end Next

/-- Settles O23: the model's scan is the one of rule R132, and the entry is the only element it writes. -/
theorem bdNextEntersTheNextBurst : Obligations.BdNextEntersTheNextBurst := by
  intro s b hwf hr hcur hroom hb
  exact ⟨s.enterSpan b, exec_of_done (bdNextRun_of_burstFrom (Memory.samp_wf hwf) hr hcur hroom hb), rfl,
    s.burstAt_enterSpan b⟩

/-- Settles O24: without a sample above the high threshold the scan finds nothing. -/
theorem bdNextReportsNoBurst : Obligations.BdNextReportsNoBurst := by
  intro s hwf hr hcur hnone
  exact exec_of_done (bdNextRun_of_noBurstFrom (Memory.samp_wf hwf) hr hcur hnone)

/-! A whole pass (rules R133, R135, R136). -/

/-- A complete pass from the cursor `c`: the bursts `bs` one after the other, and no burst after the last. -/
def State.passFrom (s : State) (c : Nat) : List Span → Prop
  | [] => s.noBurstFrom c
  | b :: rest => s.burstFrom c b ∧ s.passFrom b.stop.toNat rest

/-- Every stream has a complete pass: each burst moves the cursor on (rule R136). -/
theorem State.exists_passFrom {s : State} (hwf : s.mem.samp.wf = true) (hr : s.detectorReady) (c : Nat) :
    ∃ bs, s.passFrom c bs := by
  by_cases h : s.noBurstFrom c
  · exact ⟨[], h⟩
  · obtain ⟨b, hb⟩ := State.exists_burstFrom hwf hr h
    have hbounds := State.burstFrom_bounds hr hb
    obtain ⟨rest, hrest⟩ := State.exists_passFrom hwf hr b.stop.toNat
    exact ⟨b :: rest, hb, hrest⟩
termination_by s.sampLen.toNat - c
decreasing_by omega

theorem State.passFrom.burstsFrom {s : State} {bs : List Span} : ∀ {c : Nat}, s.passFrom c bs → s.burstsFrom c bs := by
  induction bs with
  | nil => exact fun _ => trivial
  | cons b rest ih => exact fun h => ⟨h.1, ih h.2⟩

/-- After a complete pass no burst begins at or after the last stop. -/
theorem State.passFrom.noBurstFrom_last {s : State} {bs : List Span} :
    ∀ {c : Word}, s.passFrom c.toNat bs → s.noBurstFrom ((bs.getLast?.map Span.stop).getD c).toNat := by
  induction bs with
  | nil => exact fun h => h
  | cons b rest ih =>
    intro c h
    have := ih h.2
    rw [List.getLast?_cons]
    cases hlast : rest.getLast? <;> simpa [hlast] using this

/-- The bursts of a pass are not empty and lie inside the stream (rule R135 (1)). -/
theorem State.burstsFrom.bounds {s : State} (hr : s.detectorReady) {bs : List Span} :
    ∀ {c : Nat}, s.burstsFrom c bs →
      ∀ b ∈ bs, c ≤ b.start.toNat ∧ b.start.toNat < b.stop.toNat ∧ b.stop.toNat ≤ s.sampLen.toNat := by
  induction bs with
  | nil => exact fun _ b hb => absurd hb List.not_mem_nil
  | cons d rest ih =>
    rintro c ⟨hd, hrest⟩ b hb
    have hbounds := State.burstFrom_bounds hr hd
    obtain rfl | hb := List.mem_cons.1 hb
    · exact hbounds
    · have := ih hrest b hb
      omega

/-- The bursts of a pass are ordered and do not overlap (rule R135 (2)). -/
theorem State.burstsFrom.pairwise {s : State} (hr : s.detectorReady) {bs : List Span} :
    ∀ {c : Nat}, s.burstsFrom c bs → bs.Pairwise (fun a b => a.stop.toNat ≤ b.start.toNat) := by
  induction bs with
  | nil => exact fun _ => .nil
  | cons d rest ih =>
    exact fun ⟨_, hrest⟩ => .cons (fun b hb => (State.burstsFrom.bounds hr hrest b hb).1) (ih hrest)

/-- The bursts of a stream depend on nothing that `BD.NEXT` writes. -/
theorem State.passFrom_congr {s t : State} (hburst : ∀ c b, s.burstFrom c b ↔ t.burstFrom c b)
    (hnone : ∀ c, s.noBurstFrom c ↔ t.noBurstFrom c) (bs : List Span) :
    ∀ c, s.passFrom c bs ↔ t.passFrom c bs := by
  induction bs with
  | nil => exact hnone
  | cons b rest ih => exact fun c => and_congr (hburst c b) (ih _)

theorem State.passFrom_enterSpan (s : State) (d : Span) (c : Nat) (bs : List Span) :
    (s.enterSpan d).passFrom c bs ↔ s.passFrom c bs :=
  State.passFrom_congr (s := s.enterSpan d) (t := s) (fun _ _ => .rfl) (fun _ => .rfl) bs c

theorem passFrom_bdRstOp (s : State) (c : Nat) (bs : List Span) : (bdRstOp s).passFrom c bs ↔ s.passFrom c bs :=
  State.passFrom_congr (s := bdRstOp s) (t := s) (fun _ _ => .rfl) (fun _ => .rfl) bs c

/-- What a pass that finds the bursts `bs` writes: each of them, and at the end `NOBURST`. -/
def State.enterSpans (s : State) : List Span → State
  | [] => s.setFlag .noburst true
  | b :: rest => (s.enterSpan b).enterSpans rest

/-- A flag that is written twice holds what was written last. -/
theorem State.setFlag_setFlag (s : State) (f : Flag) (v w : Bool) : (s.setFlag f v).setFlag f w = s.setFlag f w := by
  have hstatus : writeStatusBit (writeStatusBit s.status f.bit v) f.bit w = writeStatusBit s.status f.bit w := by
    refine BitVec.eq_of_getLsbD_eq fun i _ => ?_
    simp only [getLsbD_writeStatusBit _ _ _ _ f.bit_lt]
    split <;> rfl
  simp only [State.setFlag, hstatus]

/-- The registers and the buffer a pass writes; all else is as before. -/
theorem State.enterSpans_eq (bs : List Span) : ∀ s : State,
    s.enterSpans bs = { s.setFlag .noburst true with
      bdCur := (bs.getLast?.map Span.stop).getD s.bdCur
      burstCnt := s.burstCnt + BitVec.ofNat 32 bs.length
      segStart := (bs.getLast?.map Span.start).getD s.segStart
      segStop := (bs.getLast?.map Span.stop).getD s.segStop
      mem := { s.mem with burst := (s.enterSpans bs).mem.burst } } := by
  induction bs with
  | nil => intro s; simp [State.enterSpans, State.setFlag]
  | cons b rest ih =>
    intro s
    have hflag : writeStatusBit (s.enterSpan b).status Flag.noburst.bit true = (s.setFlag .noburst true).status :=
      congrArg State.status (s.setFlag_setFlag .noburst false true)
    have hcount : s.burstCnt + 1 + BitVec.ofNat 32 rest.length = s.burstCnt + BitVec.ofNat 32 (rest.length + 1) := by
      rw [BitVec.ofNat_add, BitVec.add_comm (BitVec.ofNat 32 _), BitVec.add_assoc]
      rfl
    rw [State.enterSpans, ih, State.setFlag, hflag, List.getLast?_cons, List.length_cons, ← hcount]
    cases rest.getLast? <;> rfl

theorem State.toNat_burstCnt_enterSpans (s : State) {bs : List Span} (h : s.burstCnt.toNat + bs.length < 2 ^ 32) :
    (s.enterSpans bs).burstCnt.toNat = s.burstCnt.toNat + bs.length := by
  rw [State.enterSpans_eq, BitVec.toNat_add, BitVec.toNat_ofNat, Nat.add_mod_mod, Nat.mod_eq_of_lt h]

/-- The entries of a pass follow the ones there were; every other element of `BURST` is as before. -/
theorem State.burstAt_enterSpans {bs : List Span} : ∀ {s : State}, s.burstCnt.toNat + bs.length < 2 ^ 32 → ∀ k,
    (s.enterSpans bs).burstAt k =
      if k < s.burstCnt.toNat then s.burstAt k else (bs[k - s.burstCnt.toNat]?).getD (s.burstAt k) := by
  induction bs with
  | nil => intro s _ k; simp [State.enterSpans, State.burstAt]
  | cons b rest ih =>
    intro s h k
    rw [List.length_cons] at h
    have hcount : (s.enterSpan b).burstCnt.toNat = s.burstCnt.toNat + 1 := by
      rw [State.enterSpan, BitVec.toNat_add, Nat.mod_eq_of_lt]
      · rfl
      · change s.burstCnt.toNat + 1 < 2 ^ 32
        omega
    rw [State.enterSpans, ih (by omega), hcount, State.burstAt_enterSpan]
    rcases lt_trichotomy k s.burstCnt.toNat with hk | rfl | hk
    · simp [hk, hk.ne, hk.trans (Nat.lt_succ_self _)]
    · simp
    · have hsub : k - s.burstCnt.toNat = k - (s.burstCnt.toNat + 1) + 1 := by omega
      simp [hsub, hk.not_gt, hk.ne', not_lt.2 (Nat.succ_le_of_lt hk)]

theorem State.enterSpans_burst_wf {bs : List Span} : ∀ {s : State}, s.mem.burst.wf = true →
    (s.enterSpans bs).mem.burst.wf = true := by
  induction bs with
  | nil => exact fun h => h
  | cons b rest ih => exact fun h => ih (Buf.wf_put _ _ _ h)

/-- The list of a pass that began with an empty one. -/
theorem State.burstList_enterSpans {s : State} {bs : List Span} (hwf : s.mem.burst.wf = true) (hcnt : s.burstCnt = 0)
    (hlen : bs.length < 2 ^ 32) : (s.enterSpans bs).burstList = bs := by
  have hzero : s.burstCnt.toNat = 0 := by rw [hcnt]; rfl
  have hroom : s.burstCnt.toNat + bs.length < 2 ^ 32 := by omega
  have hcount : (s.enterSpans bs).burstList.length = bs.length := by
    rw [State.burstList, Buf.length_window, s.toNat_burstCnt_enterSpans hroom, hzero, Nat.zero_add]
  refine List.ext_getElem hcount fun k hk hk' => ?_
  have hread := State.burstAt_enterSpans hroom k
  rw [hzero, if_neg (Nat.not_lt_zero k), Nat.sub_zero, List.getElem?_eq_getElem hk', Option.getD_some] at hread
  refine (Buf.getElem_window _ _ _ _ _ (State.enterSpans_burst_wf hwf) hk).trans ?_
  rw [Nat.zero_add]
  exact hread

/-- The loop of rule R133 makes the pass: one round for each burst and one more that finds none. -/
theorem bdLoop_of_passFrom {bs : List Span} : ∀ {n : Nat} {s : State}, s.mem.samp.wf = true → s.detectorReady →
    s.bdCur.toNat ≤ s.sampLen.toNat → s.passFrom s.bdCur.toNat bs → bs.length < n →
    s.burstCnt.toNat + bs.length ≤ s.build.burstCap → bdLoop n s = .done (s.enterSpans bs) := by
  induction bs with
  | nil =>
    rintro (_ | n) s hwf hr hcur hpass hn -
    · exact absurd hn (Nat.not_lt_zero _)
    · rw [bdLoop, bdNextRun_of_noBurstFrom hwf hr hcur hpass, Run.done_andThen, State.flag_setFlag, if_pos rfl]
      rfl
  | cons b rest ih =>
    rintro (_ | n) s hwf hr hcur ⟨hb, hrest⟩ hn hroom
    · exact absurd hn (Nat.not_lt_zero _)
    · rw [List.length_cons] at hn hroom
      have hflag : (s.enterSpan b).flag .noburst = false := (s.flag_setFlag .noburst .noburst false).trans (if_pos rfl)
      have hcount := toNat_add_one_le s.burstCnt
      have hroom' : (s.burstCnt + 1).toNat + rest.length ≤ s.build.burstCap := by omega
      obtain ⟨-, -, hstop⟩ := State.burstFrom_bounds hr hb
      rw [bdLoop, bdNextRun_of_burstFrom hwf hr hcur (by omega) hb, Run.done_andThen, hflag, if_neg Bool.false_ne_true]
      exact ih hwf hr hstop ((s.passFrom_enterSpan b _ _).2 hrest) (by omega) hroom'

/-- The count of rule R133 is the number of bursts of the pass. -/
theorem burstCount_of_passFrom {s : State} (hwf : s.mem.samp.wf = true) (hr : s.detectorReady) {bs : List Span} :
    ∀ {n c : Nat}, s.passFrom c bs → bs.length < n →
      burstCount s.samples s.thrLo s.thrHi s.cfgPad.toNat n c = bs.length := by
  induction bs with
  | nil =>
    rintro (_ | n) c hpass hn
    · rfl
    · rw [burstCount, (nextBurst_eq_none_iff hwf hr).2 hpass]
      rfl
  | cons b rest ih =>
    rintro (_ | n) c ⟨hb, hrest⟩ hn
    · exact absurd hn (Nat.not_lt_zero _)
    · rw [List.length_cons] at hn ⊢
      rw [burstCount, (nextBurst_eq_some_iff hwf hr b).2 hb]
      exact (congrArg (1 + ·) (ih hrest (Nat.lt_of_succ_lt_succ hn))).trans (Nat.add_comm _ _)

/-- `BD.ALL` with room in `BURST` makes one complete pass from 0 (rule R133). -/
theorem bdAllRun_of_room {s : State} (hwf : s.mem.samp.wf = true) (hr : s.detectorReady)
    (hroom : ¬ rangeCause s .bdAll) :
    ∃ bs, s.passFrom 0 bs ∧ bs.length ≤ s.sampLen.toNat ∧ bdAllRun s = .done ((bdRstOp s).enterSpans bs) := by
  obtain ⟨bs, hpass⟩ := State.exists_passFrom hwf hr 0
  have hlen := State.length_burstsFrom_le hr bs 0 (Nat.zero_le _) hpass.burstsFrom
  rw [Nat.zero_add] at hlen
  have hcap : bs.length ≤ s.build.burstCap := not_lt.1 fun h => hroom ⟨bs, hpass.burstsFrom, h⟩
  have hloop : bdLoop (s.sampLen.toNat + 1) (bdRstOp s) = .done ((bdRstOp s).enterSpans bs) :=
    bdLoop_of_passFrom hwf hr (Nat.zero_le _) ((passFrom_bdRstOp s 0 bs).2 hpass) (Nat.lt_succ_of_le hlen)
      ((Nat.zero_add _).trans_le hcap)
  refine ⟨bs, hpass, hlen, ?_⟩
  rw [bdAllRun, s.detectorIllegal_eq_false_iff.2 hr, if_neg Bool.false_ne_true,
    burstCount_of_passFrom hwf hr hpass (Nat.lt_succ_of_le hlen), if_neg (not_lt.2 hcap), hloop]

/-- What `BD.ALL` writes: rule R131's registers first, then the pass. -/
theorem enterSpans_bdRstOp_eq (s : State) (bs : List Span) :
    (bdRstOp s).enterSpans bs = { s.setFlag .noburst true with
      bdCur := (bs.getLast?.map Span.stop).getD 0
      burstCnt := BitVec.ofNat 32 bs.length
      segStart := (bs.getLast?.map Span.start).getD s.segStart
      segStop := (bs.getLast?.map Span.stop).getD s.segStop
      mem := { s.mem with burst := ((bdRstOp s).enterSpans bs).mem.burst } } := by
  have hflag : writeStatusBit (bdRstOp s).status Flag.noburst.bit true = (s.setFlag .noburst true).status :=
    congrArg State.status (s.setFlag_setFlag .noburst false true)
  have hcount : (bdRstOp s).burstCnt + BitVec.ofNat 32 bs.length = BitVec.ofNat 32 bs.length := BitVec.zero_add _
  rw [State.enterSpans_eq, State.setFlag, hflag, hcount]
  rfl

/-- Elements of `BURST` that a pass from an empty list does not reach (log entry 5). -/
theorem burstAt_enterSpans_bdRstOp (s : State) {bs : List Span} (hfit : bs.length < 2 ^ 32) {k : Nat}
    (hk : bs.length ≤ k) : ((bdRstOp s).enterSpans bs).burstAt k = s.burstAt k := by
  have hzero : (bdRstOp s).burstCnt.toNat = 0 := rfl
  rw [State.burstAt_enterSpans (by omega), hzero, if_neg (Nat.not_lt_zero k), List.getElem?_eq_none (by simpa using hk)]
  rfl

/-- Settles O25: a complete pass holds every burst, and the bursts of a pass are ordered. -/
theorem bdAllEntersEveryBurst : Obligations.BdAllEntersEveryBurst := by
  intro s hwf hr hroom
  obtain ⟨bs, hpass, hlen, hrun⟩ := bdAllRun_of_room (Memory.samp_wf hwf) hr hroom
  have hfit : bs.length < 2 ^ 32 := hlen.trans_lt s.sampLen.isLt
  have heq := enterSpans_bdRstOp_eq s bs
  have hlist : ((bdRstOp s).enterSpans bs).burstList = bs :=
    State.burstList_enterSpans (Memory.burst_wf hwf) rfl hfit
  have hcur : ((bdRstOp s).enterSpans bs).bdCur = (bs.getLast?.map Span.stop).getD 0 := congrArg State.bdCur heq
  have hcount : ((bdRstOp s).enterSpans bs).burstCnt.toNat = bs.length := by
    rw [heq]
    exact Nat.mod_eq_of_lt hfit
  have hbursts := hpass.burstsFrom
  refine ⟨_, exec_of_done hrun, by rw [heq], ?_⟩
  rw [hlist, hcur, hcount]
  exact ⟨hbursts, rfl, State.passFrom.noBurstFrom_last (c := 0) hpass, congrArg State.segStart heq,
    congrArg State.segStop heq, hlen, fun b hb => (State.burstsFrom.bounds hr hbursts b hb).2,
    State.burstsFrom.pairwise hr hbursts, fun k hk => burstAt_enterSpans_bdRstOp s hfit hk⟩

/-! `SQUELCH` (rule R134). -/

theorem insideAny_iff (spans : List Span) (n : Nat) :
    insideAny spans n = true ↔ ∃ b ∈ spans, b.start.toNat ≤ n ∧ n < b.stop.toNat := by
  simp [insideAny]

/-- What `SQUELCH` leaves in `SQL`, element by element. -/
theorem State.sqlAt_storeSql_squelched {s : State} (hwf : s.mem.samp.wf = true) (spans : List Span) (n : Nat) :
    (s.storeSql (squelched spans s.samples)).sqlAt n =
      if n < s.sampLen.toNat then if insideAny spans n then s.sampAt n else ⟨.zero, .zero⟩ else s.sqlAt n := by
  have hlen : (squelched spans s.samples).length = s.sampLen.toNat := by simp
  split
  · next h =>
    refine (Buf.get_fill_lt _ _ _ _ _ (hlen ▸ h)).trans ?_
    simp [squelched, State.getElem_samples hwf]
  · next h => exact Buf.get_fill_ge _ _ _ _ _ (Nat.zero_le _) (hlen ▸ not_lt.1 h)

/-- Settles O26: the pass of `BD.ALL` leaves `SAMP` and `SQL` as they were, and `SQUELCH` then writes `SQL` alone. -/
theorem squelchZeroesOutsideTheBursts : Obligations.SquelchZeroesOutsideTheBursts := by
  intro s hwf hr hroom
  obtain ⟨bs, -, -, hrun⟩ := bdAllRun_of_room (Memory.samp_wf hwf) hr hroom
  have heq := enterSpans_bdRstOp_eq s bs
  generalize (bdRstOp s).enterSpans bs = u at heq hrun
  have hsq : s.run .squelch = .done (u.storeSql (squelched u.burstList u.samples)) := by
    rw [State.run, squelchRun, hrun, Run.done_andThen]
  have hread : ∀ n, (u.storeSql (squelched u.burstList u.samples)).sqlAt n =
      if n < s.sampLen.toNat then if insideAny u.burstList n then s.sampAt n else ⟨.zero, .zero⟩ else s.sqlAt n := by
    have hwfu : u.mem.samp.wf = true := by
      rw [heq]
      exact Memory.samp_wf (m := s.mem) hwf
    intro n
    rw [State.sqlAt_storeSql_squelched hwfu, heq]
    rfl
  refine ⟨u, _, exec_of_done hrun, exec_of_done hsq, rfl, fun n b hn hb hstart hstop => ?_, fun n hn hout => ?_,
    fun n hn => ?_⟩
  · rw [hread, if_pos hn, if_pos ((insideAny_iff _ _).2 ⟨b, hb, hstart, hstop⟩)]
  · rw [hread, if_pos hn, if_neg fun h => ?_]
    obtain ⟨b, hb, hstart, hstop⟩ := (insideAny_iff _ _).1 h
    have := hout b hb
    omega
  · rw [hread, if_neg (not_lt.2 hn)]

/-! The operations without a check (rules R131, R255 to R257). -/

theorem bdRstOp_eq (s : State) :
    bdRstOp s = { s with bdCur := 0, burstCnt := 0, status := s.status &&& 0xFFFFFFFE } := rfl

/-- Settles O18: the runs of the four operations, and the words that decode to them. -/
theorem statusAndCounterOperations : Obligations.StatusAndCounterOperations := by
  intro s
  have free : ∀ {w : Word}, w.toNat % 256 ∈ [0x00, 0x01, 0x02, 0x05] → s.blocks w = false :=
    fun hw => (s.blocks_eq_false_iff _).2 (.inr hw)
  exact ⟨exec_of_done rfl, hostCmd_of_decode (free (by decide)) (decodeOfEncode .nop rfl),
    exec_of_done rfl, hostCmd_of_decode (free (by decide)) (decodeOfEncode .clrst rfl),
    exec_of_done rfl, hostCmd_of_decode (free (by decide)) (decodeOfEncode .clrcnt rfl),
    exec_of_done (congrArg Run.done (bdRstOp_eq s)),
    fun hf => hostCmd_of_decode ((s.blocks_eq_false_iff _).2 (.inl hf)) (decodeOfEncode .bdRst rfl)⟩

end Sys2Proof.Machine

/-! PROOFS. Taking back a term that was added: for the phases the demodulator adds up, the difference is the term itself
as data, not only as a real number (rule R152). -/

namespace Sys2Proof

/-- Every exact number a number is summed up from is an exact angle. -/
def NumVal.AnglesOnly : NumVal → Prop
  | .exact r => (NumVal.exact r).isAngle
  | .sum a b => a.AnglesOnly ∧ b.AnglesOnly
  | .minus a => a.AnglesOnly
  | .host _ | .prod _ _ | .recip _ | .angle _ _ => True

theorem NumVal.isAngle.anglesOnly {a : NumVal} (h : a.isAngle) : a.AnglesOnly := by
  obtain ⟨r, rfl, hr⟩ := h
  exact ⟨r, rfl, hr⟩

/-- Two exact numbers are added up; any other sum is kept as a sum. -/
theorem NumVal.add_cases (a b : NumVal) : (∃ r q, a = .exact r ∧ b = .exact q) ∨ a.add b = .sum a b := by
  unfold NumVal.add
  split
  · exact .inl ⟨_, _, rfl, rfl⟩
  · exact .inr rfl

theorem NumVal.AnglesOnly.add {a b : NumVal} (ha : a.AnglesOnly) (hb : b.AnglesOnly) : (a.add b).AnglesOnly := by
  obtain ⟨r, q, rfl, rfl⟩ | h := a.add_cases b
  · exact (NumVal.isAngle.add ha hb).anglesOnly
  · rw [h]
    exact ⟨ha, hb⟩

theorem NumVal.AnglesOnly.neg {a : NumVal} (ha : a.AnglesOnly) : a.neg.AnglesOnly := by
  cases a with
  | exact r => exact (NumVal.isAngle.neg ha).anglesOnly
  | _ => exact ha

theorem NumVal.AnglesOnly.sub {a b : NumVal} (ha : a.AnglesOnly) (hb : b.AnglesOnly) : (a.sub b).AnglesOnly := by
  unfold NumVal.sub
  split
  · split
    · exact ha.2
    · exact ha.add hb.neg
  · exact ha.add hb.neg

theorem wrap_anglesOnly {t : NumVal} (ht : t.AnglesOnly) : (wrap t).AnglesOnly := by
  have htwo : (NumVal.ofPi 2).AnglesOnly := (NumVal.isAngle_ofPi ⟨8, by norm_num⟩).anglesOnly
  unfold wrap
  split
  · exact ht.sub htwo
  · split
    · exact ht
    · exact ht.add htwo

theorem argOf_anglesOnly (v : Sample) : (argOf v).AnglesOnly := by
  unfold argOf
  split
  · exact (direction_isAngle _ _).anglesOnly
  · trivial

/-- Exact angles are data that their real number determines; any other sum still holds both of its terms. -/
theorem NumVal.AnglesOnly.add_sub_self_left {u w : NumVal} (hu : u.AnglesOnly) (hw : w.AnglesOnly) :
    (u.add w).sub u = w := by
  obtain ⟨r, q, rfl, rfl⟩ | h := u.add_cases w
  · refine ((NumVal.isAngle.add hu hw).sub hu).eq_of_toReal_eq hw ?_
    rw [NumVal.sub_toReal, NumVal.add_toReal, add_sub_cancel_left]
  · rw [h, NumVal.sub]
    exact if_pos rfl

end Sys2Proof

/-! PROOFS. The FSK demodulator (rules R151 to R158): the frequency signal and its two strategies (O30, O31), the symbol
clock (O32), the bit decisions (O33, O34), and the three stages as one operation (O35). -/

namespace Sys2Proof.Machine

/-! The frequency signal (rules R151 to R153). -/

/-- Unwrapped phases differ by the wrapped differences of the phases they were made from. -/
theorem differences_unwrapFrom {rest : List NumVal} : ∀ {u p : NumVal}, u.AnglesOnly → p.AnglesOnly →
    (∀ q ∈ rest, q.AnglesOnly) →
    differences (u :: unwrapFrom u p rest) = (differences (p :: rest)).map wrap := by
  induction rest with
  | nil => exact fun _ _ _ => rfl
  | cons q rest ih =>
    intro u p hu hp hrest
    obtain ⟨hq, hrest⟩ := List.forall_mem_cons.1 hrest
    have hw : (wrap (q.sub p)).AnglesOnly := wrap_anglesOnly (hq.sub hp)
    rw [unwrapFrom, differences, differences, List.map_cons, hu.add_sub_self_left hw, ih (hu.add hw) hq hrest]

/-- Rule R152: gradient of the unwrapped phase and wrapped difference are the same data. -/
theorem gradientFrequencies_eq (xs : List Sample) : gradientFrequencies xs = directFrequencies xs := by
  cases xs with
  | nil => rfl
  | cons v rest =>
    have hrest : ∀ q ∈ rest.map argOf, q.AnglesOnly := by
      intro q hq
      obtain ⟨x, -, rfl⟩ := List.mem_map.1 hq
      exact argOf_anglesOnly x
    exact differences_unwrapFrom (argOf_anglesOnly v) (argOf_anglesOnly v) hrest

theorem frequencies_eq_direct (ug : Bool) (xs : List Sample) : frequencies ug xs = directFrequencies xs := by
  cases ug with
  | false => rfl
  | true => exact gradientFrequencies_eq xs

/-- Settles O31: the two strategies store one list, and their commands have one `OPC` for `ERR`. -/
theorem frequencyStrategiesAgree : Obligations.FrequencyStrategiesAgree := by
  intro s
  have hrun : s.run (.fdFreq true) = s.run (.fdFreq false) := by
    simp only [State.run, fdFreqRun, frequencies_eq_direct]
  rw [exec_eq_finish, exec_eq_finish, hrun]
  rfl

@[simp] theorem length_differences (xs : List NumVal) : (differences xs).length = xs.length - 1 := by
  induction xs with
  | nil => rfl
  | cons a rest ih =>
    cases rest with
    | nil => rfl
    | cons b rest => simp [differences, ih]

theorem getElem_differences (xs : List NumVal) : ∀ (k : Nat) (hk : k < (differences xs).length),
    (differences xs)[k] =
      (xs[k + 1]'(by rw [length_differences] at hk; omega)).sub (xs[k]'(by rw [length_differences] at hk; omega)) := by
  induction xs with
  | nil => intro k hk; exact absurd hk (Nat.not_lt_zero k)
  | cons a rest ih =>
    cases rest with
    | nil => intro k hk; exact absurd hk (Nat.not_lt_zero k)
    | cons b rest =>
      rintro (_ | k) hk
      · rfl
      · exact ih k (Nat.lt_of_succ_lt_succ hk)

@[simp] theorem length_frequencies (ug : Bool) (xs : List Sample) : (frequencies ug xs).length = xs.length - 1 := by
  simp [frequencies_eq_direct, directFrequencies]

/-- Rule R151, element by element, under either strategy. -/
theorem getElem_frequencies (ug : Bool) (xs : List Sample) (k : Nat) (hk : k + 1 < xs.length) :
    (frequencies ug xs)[k]'(by rw [length_frequencies]; omega) = wrap ((argOf xs[k + 1]).sub (argOf xs[k])) := by
  simp [frequencies_eq_direct, directFrequencies, getElem_differences]

theorem wrap_sub_argOf_toReal (a b : Sample) :
    (wrap ((argOf b).sub (argOf a))).toReal = realWrap (b.realArg - a.realArg) := by
  obtain ⟨hlo, hhi⟩ := sub_arg_bounds a b
  rw [wrap_toReal hlo hhi, NumVal.sub_toReal, argOf_toReal, argOf_toReal]

@[simp] theorem State.length_segment (s : State) : s.segment.length = s.segStop.toNat - s.segStart.toNat := by
  simp [State.segment]

theorem State.getElem_segment {s : State} (hwf : s.mem.samp.wf = true) (k : Nat) (hk : k < s.segment.length) :
    s.segment[k] = s.sampAt (s.segStart.toNat + k) :=
  Buf.getElem_window _ _ _ _ _ hwf hk

/-- The check of rule R151 passes exactly for a segment inside the loaded stream. -/
theorem State.segmentIllegal_eq_false_iff (s : State) : s.segmentIllegal = false ↔
    s.segStart.toNat ≤ s.segStop.toNat ∧ s.segStop.toNat ≤ s.sampLen.toNat := by
  rw [State.segmentIllegal, Bool.or_eq_false_iff, decide_eq_false_iff_not, decide_eq_false_iff_not, BitVec.not_lt,
    BitVec.not_lt]
  rfl

theorem fdFreqRun_of_legal (ug : Bool) {s : State} (h : s.segmentIllegal = false) :
    fdFreqRun ug s = .done (s.storeFreq (frequencies ug s.segment)) := by
  rw [fdFreqRun, h, if_neg Bool.false_ne_true]

/-- What `FD.FREQ` leaves in `FREQ` below its new length. -/
theorem State.freqAt_storeFreq_frequencies (ug : Bool) {s : State} (hwf : s.mem.samp.wf = true) {k : Nat}
    (hk : k + 1 < s.segStop.toNat - s.segStart.toNat) :
    (s.storeFreq (frequencies ug s.segment)).freqAt k
      = wrap ((argOf (s.sampAt (s.segStart.toNat + k + 1))).sub (argOf (s.sampAt (s.segStart.toNat + k)))) := by
  have hlen : k + 1 < s.segment.length := by rwa [State.length_segment]
  refine (Buf.get_fill_lt _ _ _ _ _ (by rw [length_frequencies]; omega)).trans ?_
  rw [getElem_frequencies ug _ k hlen, State.getElem_segment hwf, State.getElem_segment hwf, Nat.add_assoc]

/-- Settles O30: each stored number is a wrapped difference of two arguments. -/
theorem fdFreqIsTheWrappedPhaseDifference : Obligations.FdFreqIsTheWrappedPhaseDifference := by
  intro ug s hwf hstart hstop
  have hrun : s.run (.fdFreq ug) = .done (s.storeFreq (frequencies ug s.segment)) :=
    fdFreqRun_of_legal ug (s.segmentIllegal_eq_false_iff.2 ⟨hstart, hstop⟩)
  have hlen : (frequencies ug s.segment).length = s.segStop.toNat - s.segStart.toNat - 1 := by simp
  refine ⟨_, exec_of_done hrun, by rw [← hlen]; rfl, fun k hk => ?_, fun hle k hk => ?_⟩
  · rw [State.freqAt_storeFreq_frequencies ug (Memory.samp_wf hwf) hk]
    exact ⟨wrap_sub_argOf_toReal _ _, fun hb ha => wrap_isAngle ((argOf_isAngle hb).sub (argOf_isAngle ha))⟩
  · rw [← hlen] at hle hk
    exact Buf.get_fill_ge _ _ _ _ _ hle hk

/-! The symbol clock (rule R154). -/

/-- The position `m` holds the first greatest of the values `f 0, …, f (n - 1)`. -/
structure IsFirstGreatest (f : Nat → ℝ) (n m : Nat) : Prop where
  lt : m < n
  le : ∀ k, k < n → f k ≤ f m
  before : ∀ k, k < m → f k < f m

/-- One more value that is no greater leaves the first greatest where it was. -/
theorem IsFirstGreatest.succ_of_le {f : Nat → ℝ} {n m : Nat} (h : IsFirstGreatest f n m) (hf : f n ≤ f m) :
    IsFirstGreatest f (n + 1) m where
  lt := h.lt.trans (Nat.lt_succ_self n)
  le k hk := (Nat.lt_succ_iff_lt_or_eq.1 hk).elim (h.le k) fun e => e ▸ hf
  before := h.before

/-- One more value that is greater is the first greatest. -/
theorem IsFirstGreatest.succ_of_lt {f : Nat → ℝ} {n m : Nat} (h : IsFirstGreatest f n m) (hf : f m < f n) :
    IsFirstGreatest f (n + 1) n where
  lt := Nat.lt_succ_self n
  le k hk := (Nat.lt_succ_iff_lt_or_eq.1 hk).elim (fun hk => (h.le k hk).trans hf.le) fun e => (congrArg f e).le
  before k hk := (h.le k hk).trans_lt hf

/-- The scan for the first greatest value, from the values seen so far. -/
theorem firstMaxFrom_isFirstGreatest {f : Nat → ℝ} {rest : List NumVal} : ∀ {best : NumVal} {pos n : Nat},
    IsFirstGreatest f n pos → best.toReal = f pos → (∀ k (hk : k < rest.length), rest[k].toReal = f (n + k)) →
    IsFirstGreatest f (n + rest.length) (firstMaxFrom best pos n rest) := by
  induction rest with
  | nil => exact fun h _ _ => h
  | cons x rest ih =>
    intro best pos n h hbest hrest
    have hx : x.toReal = f n := hrest 0 (Nat.zero_lt_succ _)
    have hrest' : ∀ k (hk : k < rest.length), rest[k].toReal = f (n + 1 + k) := by
      intro k hk
      rw [Nat.add_right_comm]
      exact hrest (k + 1) (Nat.succ_lt_succ hk)
    have hlen : n + (x :: rest).length = n + 1 + rest.length := by rw [List.length_cons]; omega
    rw [firstMaxFrom, hlen]
    split
    · next hgt =>
      rw [NumVal.gt_iff, hbest, hx] at hgt
      exact ih (h.succ_of_lt hgt) hx hrest'
    · next hle =>
      rw [NumVal.gt_iff, hbest, hx, not_lt] at hle
      exact ih (h.succ_of_le hle) hbest hrest'

theorem firstMax_isFirstGreatest {f : Nat → ℝ} {xs : List NumVal} (hne : 0 < xs.length)
    (hf : ∀ k (hk : k < xs.length), xs[k].toReal = f k) : IsFirstGreatest f xs.length (firstMax xs) := by
  cases xs with
  | nil => exact absurd hne (lt_irrefl 0)
  | cons x rest =>
    have hone : IsFirstGreatest f 1 0 :=
      ⟨Nat.zero_lt_one, fun k hk => by rw [Nat.lt_one_iff.1 hk], fun k hk => absurd hk (Nat.not_lt_zero k)⟩
    rw [List.length_cons, Nat.add_comm]
    refine firstMaxFrom_isFirstGreatest hone (hf 0 hne) fun k hk => ?_
    rw [Nat.add_comm]
    exact hf (k + 1) (Nat.succ_lt_succ hk)

theorem Memory.freq_wf {m : Memory} (h : m.wf = true) : m.freq.wf = true := by
  simp only [Memory.wf, Bool.and_eq_true, and_assoc] at h
  obtain ⟨-, -, -, hfreq, -⟩ := h
  exact hfreq

theorem State.getElem_freqs {s : State} (hwf : s.mem.freq.wf = true) (n : Nat) (hn : n < s.freqs.length) :
    s.freqs[n] = s.freqAt n :=
  (Buf.getElem_window _ _ _ _ _ hwf hn).trans (by rw [Nat.zero_add, State.freqAt])

/-- The second symbol period of the frequency signal: where rule R154 looks for the peak. -/
theorem State.firstMax_secondPeriod {s : State} (hwf : s.mem.freq.wf = true) (hsps : 0 < s.cfgSps.toNat)
    (hlong : 2 * s.cfgSps.toNat ≤ s.freqLen.toNat) :
    IsFirstGreatest (fun k => (s.freqAt (s.cfgSps.toNat + k)).toReal) s.cfgSps.toNat
      (firstMax ((s.freqs.drop s.cfgSps.toNat).take s.cfgSps.toNat)) := by
  have hlen : ((s.freqs.drop s.cfgSps.toNat).take s.cfgSps.toNat).length = s.cfgSps.toNat := by
    rw [List.length_take, List.length_drop, State.length_freqs]
    omega
  have h := firstMax_isFirstGreatest (f := fun k => (s.freqAt (s.cfgSps.toNat + k)).toReal) (hlen ▸ hsps)
    fun k hk => by rw [List.getElem_take, List.getElem_drop, State.getElem_freqs hwf]
  rwa [hlen] at h

theorem toNat_ne_zero {w : Word} (h : w ≠ 0) : w.toNat ≠ 0 := BitVec.toNat_ne.1 h

theorem fdClkRun_of_legal {s : State} (hsps : s.cfgSps ≠ 0) (hskip : 2 ≤ s.cfgSkip.toNat) :
    fdClkRun s = .done s.recoverClock :=
  if_neg (not_or.2 ⟨toNat_ne_zero hsps, not_lt.2 hskip⟩)

theorem State.recoverClock_of_short {s : State} (h : s.freqLen.toNat < s.cfgSkip.toNat * s.cfgSps.toNat) :
    s.recoverClock = { s.setFlag .shortClk true with fdOff := 0 } := if_pos h

theorem State.recoverClock_of_long {s : State} (h : s.cfgSkip.toNat * s.cfgSps.toNat ≤ s.freqLen.toNat) :
    s.recoverClock = { s.setFlag .shortClk false with
      fdOff := BitVec.ofNat 32 (firstMax ((s.freqs.drop s.cfgSps.toNat).take s.cfgSps.toNat)) } := if_neg (not_lt.2 h)

/-- Settles O32: a segment that is long enough holds the whole second period, and the scan finds its first peak. -/
theorem fdClkPicksTheFirstPeak : Obligations.FdClkPicksTheFirstPeak := by
  intro s hwf hsps hskip
  have hrun : s.run .fdClk = .done s.recoverClock := fdClkRun_of_legal hsps hskip
  refine ⟨fun hshort => exec_of_done (hrun.trans (congrArg Run.done (State.recoverClock_of_short hshort))),
    fun hlong => ?_⟩
  have hpeak := State.firstMax_secondPeriod (Memory.freq_wf hwf) (Nat.pos_of_ne_zero (toNat_ne_zero hsps))
    ((Nat.mul_le_mul_right _ hskip).trans hlong)
  rw [State.recoverClock_of_long hlong] at hrun
  generalize firstMax _ = m at hpeak hrun
  have hlt := hpeak.lt
  refine ⟨s.cfgSps.toNat + m, by omega, by omega, fun n hlo hhi => ?_, fun n hlo hhi => ?_, ?_⟩
  · have := hpeak.le (n - s.cfgSps.toNat) (by omega)
    rwa [Nat.add_sub_cancel' hlo] at this
  · have := hpeak.before (n - s.cfgSps.toNat) (by omega)
    rwa [Nat.add_sub_cancel' hlo] at this
  · rw [Nat.add_sub_cancel_left]
    exact exec_of_done hrun

/-! The bit decisions (rules R156, R157, R159). -/

/-- The positions of a strided reading that lie inside the list (rule R90). -/
theorem lt_availableBits_iff {stride : Nat} (hs : 0 < stride) (base n k : Nat) :
    k < availableBits base stride n ↔ base + k * stride < n := by
  rw [availableBits, Nat.lt_div_iff_mul_lt hs]
  omega

/-- Strided reading takes one element for every position inside the list (rule R90). -/
theorem length_everyNth {α : Type} {stride : Nat} (hs : 0 < stride) (skip : Nat) (xs : List α) :
    (everyNth stride skip xs).length = availableBits skip stride xs.length := by
  refine eq_of_forall_lt_iff fun k => ?_
  rw [lt_availableBits_iff hs, ← not_le, ← List.getElem?_eq_none_iff, getElem?_everyNth stride hs,
    List.getElem?_eq_none_iff, not_le]

theorem getElem_everyNth {α : Type} {stride : Nat} (hs : 0 < stride) (skip : Nat) (xs : List α) (k : Nat)
    (hk : skip + k * stride < xs.length) :
    (everyNth stride skip xs)[k]'(by rwa [length_everyNth hs, lt_availableBits_iff hs]) = xs[skip + k * stride] := by
  have h := getElem?_everyNth stride hs xs skip k
  rwa [List.getElem?_eq_getElem hk, List.getElem?_eq_some_iff.2 ⟨_, rfl⟩, Option.some.injEq] at h

theorem fdSliceRun_of_legal {s : State} (hsps : s.cfgSps ≠ 0) : fdSliceRun s = .done s.slice :=
  if_neg (toNat_ne_zero hsps)

theorem State.length_sliceBits {s : State} (hsps : 0 < s.cfgSps.toNat) :
    (sliceBits s.fdRef s.cfgSps.toNat s.fdOff.toNat s.freqs).length
      = availableBits s.fdOff.toNat s.cfgSps.toNat s.freqLen.toNat := by
  rw [sliceBits, List.length_map, length_everyNth hsps, State.length_freqs]

/-- What `FD.SLICE` leaves in `BITS` below its new length. -/
theorem State.bitAt_slice_iff {s : State} (hwf : s.mem.freq.wf = true) (hsps : 0 < s.cfgSps.toNat) {n : Nat}
    (hn : s.fdOff.toNat + n * s.cfgSps.toNat < s.freqLen.toNat) :
    s.slice.bitAt n = true ↔ s.fdRef.toReal < (s.freqAt (s.fdOff.toNat + n * s.cfgSps.toNat)).toReal := by
  have hlt : n < (sliceBits s.fdRef s.cfgSps.toNat s.fdOff.toNat s.freqs).length := by
    rwa [State.length_sliceBits hsps, lt_availableBits_iff hsps]
  have hin : s.fdOff.toNat + n * s.cfgSps.toNat < s.freqs.length := by rwa [State.length_freqs]
  have hread : s.slice.bitAt n = (s.freqAt (s.fdOff.toNat + n * s.cfgSps.toNat)).gt s.fdRef := by
    refine (Buf.get_fill_lt _ _ _ _ _ hlt).trans ?_
    simp only [sliceBits, List.getElem_map, getElem_everyNth hsps _ _ _ hin, State.getElem_freqs hwf]
  rw [hread, NumVal.gt_iff]

/-- Settles O33: the strided reading of `FREQ`, one comparison for each element. -/
theorem fdSliceDecidesEverySymbol : Obligations.FdSliceDecidesEverySymbol := by
  intro s hwf hsps
  have hrun : s.run .fdSlice = .done s.slice := fdSliceRun_of_legal hsps
  have hpos : 0 < s.cfgSps.toNat := Nat.pos_of_ne_zero (toNat_ne_zero hsps)
  have hlen := s.length_sliceBits hpos
  have hcount : s.slice.bitsLen.toNat = (sliceBits s.fdRef s.cfgSps.toNat s.fdOff.toNat s.freqs).length := by
    refine Nat.mod_eq_of_lt ((List.length_map _).trans_le (length_everyNth_le _ _ _) |>.trans_lt ?_)
    rw [State.length_freqs]
    exact s.freqLen.isLt
  refine ⟨_, exec_of_done hrun, by rw [← hlen]; rfl, fun n hn => State.bitAt_slice_iff (Memory.freq_wf hwf) hpos hn,
    fun hle n hn => ?_⟩
  rw [hcount] at hle hn
  exact Buf.get_fill_ge _ _ _ _ _ hle hn

/-- What `FD.BIN` leaves in `RAW` below its new length. -/
theorem rawAt_fdBinOp_iff {s : State} (hwf : s.mem.freq.wf = true) {k : Nat} (hk : k < s.freqLen.toNat) :
    (fdBinOp s).rawAt k = true ↔ s.fdRef.toReal < (s.freqAt k).toReal := by
  have hread : (fdBinOp s).rawAt k = (s.freqAt k).gt s.fdRef := by
    refine (Buf.get_fill_lt _ _ _ _ _ (by rwa [List.length_map, State.length_freqs])).trans ?_
    rw [List.getElem_map, State.getElem_freqs hwf]
  rw [hread, NumVal.gt_iff]

/-- What `FD.BIN` writes: `RAW`, and `FREQ_LEN` as its length. -/
theorem fdBinOp_eq (s : State) :
    fdBinOp s = { s with rawLen := s.freqLen, mem := { s.mem with raw := (fdBinOp s).mem.raw } } := by
  have hword : (fdBinOp s).rawLen = s.freqLen := by
    rw [fdBinOp, State.storeRaw_rawLen, List.length_map, State.length_freqs, BitVec.ofNat_toNat, BitVec.setWidth_eq]
  calc fdBinOp s = { s with rawLen := (fdBinOp s).rawLen, mem := { s.mem with raw := (fdBinOp s).mem.raw } } := rfl
    _ = _ := by rw [hword]

/-- Settles O34: one comparison for each element of `FREQ`. -/
theorem fdBinDecidesEverySample : Obligations.FdBinDecidesEverySample := by
  intro s hwf
  have hlen : (s.freqs.map fun f => f.gt s.fdRef).length = s.freqLen.toNat := by simp
  refine ⟨_, exec_of_done (i := .fdBin) rfl, fdBinOp_eq s, fun k hk => rawAt_fdBinOp_iff (Memory.freq_wf hwf) hk,
    fun hle k hk => ?_⟩
  rw [← hlen] at hle hk
  exact Buf.get_fill_ge _ _ _ _ _ hle hk

/-! The composite (rule R158). -/

/-- The second stage writes `FD_OFF` and `STATUS.SHORT_CLK` alone. -/
theorem clockStage_eq (ck : Bool) (s : State) :
    clockStage ck s = { s with fdOff := (clockStage ck s).fdOff, status := (clockStage ck s).status } := by
  unfold clockStage State.recoverClock
  split_ifs <;> rfl

theorem clockStage_fatalBits (ck : Bool) (s : State) : (clockStage ck s).fatalBits = s.fatalBits := by
  have hwrite (k : Word) (v : Bool) : ({ s with fdOff := k }.setFlag .shortClk v).fatalBits = s.fatalBits :=
    State.fatalBits_setFlag { s with fdOff := k } (by decide) v
  unfold clockStage State.recoverClock
  split_ifs <;> exact hwrite _ _

/-- Past the checks of rule R158 no stage raises. -/
theorem fdDemodRun_of_legal (ug : Bool) {ck : Bool} {s : State} (hsps : s.cfgSps ≠ 0)
    (hskip : ck = true → 2 ≤ s.cfgSkip.toNat) (hseg : s.segmentIllegal = false) :
    fdDemodRun ug ck s = .done (clockStage ck (s.storeFreq (frequencies ug s.segment))).slice := by
  have hcfg : ¬ (s.cfgSps.toNat = 0 ∨ (ck = true ∧ s.cfgSkip.toNat < 2)) :=
    not_or.2 ⟨toNat_ne_zero hsps, fun ⟨hck, hlt⟩ => absurd (hskip hck) (not_le.2 hlt)⟩
  rw [fdDemodRun, if_neg hcfg, hseg, if_neg Bool.false_ne_true, fdFreqRun_of_legal ug hseg, Run.done_andThen]
  cases ck with
  | false => exact fdSliceRun_of_legal hsps
  | true =>
    have hclk := fdClkRun_of_legal (s := s.storeFreq (frequencies ug s.segment)) hsps (hskip rfl)
    rw [if_pos rfl, hclk, Run.done_andThen]
    exact fdSliceRun_of_legal ((clockStage_cfgSps true _).trans_ne hsps)

/-- Settles O35: the composite run is the chain of the runs of its stages, whose writes are known one by one. -/
theorem fdDemodIsItsThreeStages : Obligations.FdDemodIsItsThreeStages := by
  intro ug ck s hconfig hrange
  obtain ⟨hsps, hck⟩ := not_or.1 hconfig
  obtain ⟨hstart, hstop⟩ := not_or.1 hrange
  have hskip : ck = true → 2 ≤ s.cfgSkip.toNat := fun h => not_lt.1 fun hlt => hck ⟨h, hlt⟩
  have hseg : s.segmentIllegal = false := s.segmentIllegal_eq_false_iff.2 ⟨not_lt.1 hstart, not_lt.1 hstop⟩
  refine ⟨s.storeFreq (frequencies ug s.segment), clockStage ck (s.storeFreq (frequencies ug s.segment)),
    State.slice _, exec_of_done (fdFreqRun_of_legal ug hseg), ?_, ?_,
    exec_of_done (fdSliceRun_of_legal ((clockStage_cfgSps ck _).trans_ne hsps)),
    exec_of_done (fdDemodRun_of_legal ug hsps hskip hseg), ?_, clockStage_fatalBits ck _⟩
  · rintro rfl
    exact exec_of_done (fdClkRun_of_legal hsps (hskip rfl))
  · rintro rfl
    rfl
  · rw [clockStage_eq]
    rfl

end Sys2Proof.Machine

/-! PROOFS. The sync locator: the two single-phase scans (rules R181 to R184). The correlation is the distance in
disguise (O36), the exact scan finds the earliest occurrence (O37), and the correlation scan tests the earliest best
position (O38), which at tolerance 0 is the exact scan (O39). -/

namespace Sys2Proof.Machine

/-! Distance and correlation (rule R181). -/

theorem plusMinus_mul (a b : Bool) : plusMinus a * plusMinus b = if a != b then -1 else 1 := by
  cases a <;> cases b <;> rfl

/-- Each place in which two lists agree adds 1 to the correlation, each other one takes 1 from it. -/
theorem correlation_eq_length_sub (xs ys : List Bool) :
    correlation xs ys = ((xs.zip ys).length : Int) - 2 * (hamming xs ys : Int) := by
  unfold correlation hamming
  induction xs.zip ys with
  | nil => rfl
  | cons p rest ih =>
    rw [List.map_cons, List.sum_cons, ih, plusMinus_mul, List.countP_cons, List.length_cons]
    split <;> push_cast <;> ring

/-- Settles O36: all 32 places count. -/
theorem correlationCountsAgreement : Obligations.CorrelationCountsAgreement := by
  intro xs ys hx hy
  rw [correlation_eq_length_sub, List.length_zip, hx, hy]
  rfl

/-- Lists of one length are at distance 0 exactly when they are equal. -/
theorem hamming_eq_zero_iff {xs : List Bool} : ∀ {ys : List Bool}, xs.length = ys.length →
    (hamming xs ys = 0 ↔ xs = ys) := by
  induction xs with
  | nil => intro ys h; simp [hamming, List.length_eq_zero_iff.1 h.symm]
  | cons x xs ih =>
    rintro (_ | ⟨y, ys⟩) h
    · cases h
    · have htail := ih (Nat.succ.inj h)
      rw [hamming] at htail
      simp [hamming, List.countP_cons, htail, and_comm]

@[simp] theorem length_syncBits (sync : Word) : (syncBits sync).length = 32 := by simp [syncBits]

theorem length_bitsAt {bits : List Bool} {p : Nat} (h : p + 32 ≤ bits.length) : (bitsAt bits p).length = 32 := by
  rw [bitsAt, List.length_take, List.length_drop]
  omega

/-- A pattern of 32 bits stands at a position exactly when all its bits lie inside and none differs. -/
theorem prefix_drop_iff_hamming {pat bits : List Bool} (hpat : pat.length = 32) (p : Nat) :
    pat <+: bits.drop p ↔ p + 32 ≤ bits.length ∧ hamming pat (bitsAt bits p) = 0 := by
  constructor
  · intro h
    have hlen := h.length_le
    rw [List.length_drop, hpat] at hlen
    have hin : p + 32 ≤ bits.length := by omega
    refine ⟨hin, (hamming_eq_zero_iff (hpat.trans (length_bitsAt hin).symm)).2 ?_⟩
    rw [bitsAt, ← hpat]
    exact List.prefix_iff_eq_take.1 h
  · rintro ⟨hin, hzero⟩
    rw [(hamming_eq_zero_iff (hpat.trans (length_bitsAt hin).symm)).1 hzero]
    exact List.take_prefix _ _

/-! The buffer `BITS` and the distance the statements speak of. -/

theorem Memory.bits_wf {m : Memory} (h : m.wf = true) : m.bits.wf = true := by
  simp only [Memory.wf, Bool.and_eq_true, and_assoc] at h
  obtain ⟨-, -, -, -, hbits, -⟩ := h
  exact hbits

@[simp] theorem State.length_bitList (s : State) : s.bitList.length = s.bitsLen.toNat := by simp [State.bitList]

theorem State.getElem_bitList {s : State} (hwf : s.mem.bits.wf = true) (n : Nat) (hn : n < s.bitList.length) :
    s.bitList[n] = s.bitAt n :=
  (Buf.getElem_window _ _ _ _ _ hwf hn).trans (by rw [Nat.zero_add, State.bitAt])

theorem State.bitsAt_bitList {s : State} (hwf : s.mem.bits.wf = true) {p : Nat} (hp : p + 32 ≤ s.bitsLen.toNat) :
    bitsAt s.bitList p = (List.range 32).map fun i => s.bitAt (p + i) := by
  have hlen : (bitsAt s.bitList p).length = 32 := length_bitsAt (by rwa [State.length_bitList])
  refine List.ext_getElem (by rw [hlen, List.length_map, List.length_range]) fun i _ _ => ?_
  simp only [bitsAt, List.getElem_take, List.getElem_drop, State.getElem_bitList hwf, List.getElem_map,
    List.getElem_range]

/-- The distance counted bit by bit is the model's distance of the two lists. -/
theorem State.distanceAt_eq_hamming {s : State} (hwf : s.mem.bits.wf = true) {p : Nat}
    (hp : p + 32 ≤ s.bitsLen.toNat) : s.distanceAt p = hamming (syncBits s.cfgSync) (bitsAt s.bitList p) := by
  rw [State.bitsAt_bitList hwf hp, hamming, syncBits, List.zip_map', List.countP_map, State.distanceAt]
  exact List.countP_congr fun i _ => by rw [bne_comm]; rfl

/-- `CFG_SYNC` stands in `BITS` at the positions of distance 0. -/
theorem State.sync_prefix_drop_bitList_iff {s : State} (hwf : s.mem.bits.wf = true) (p : Nat) :
    syncBits s.cfgSync <+: s.bitList.drop p ↔ p + 32 ≤ s.bitsLen.toNat ∧ s.distanceAt p = 0 := by
  rw [prefix_drop_iff_hamming (length_syncBits _), State.length_bitList]
  exact and_congr_right fun hp => by rw [State.distanceAt_eq_hamming hwf hp]

/-! The exact scan (rule R183). -/

/-- The exact scan is the search for the first tail that begins with the pattern. -/
theorem findExact_eq_findIdx? {pat : List Bool} (hpat : pat ≠ []) (bits : List Bool) :
    ∀ p, findExact pat p bits = (bits.tails.findIdx? pat.isPrefixOf).map (p + ·) := by
  induction bits with
  | nil => intro p; simp [findExact, hpat]
  | cons b rest ih =>
    intro p
    rw [findExact, ih, List.tails_cons, List.findIdx?_cons]
    split
    · rfl
    · rw [Option.map_map]
      exact congrArg (Option.map · _) (funext fun k => by simp only [Function.comp_apply]; omega)

theorem isPrefixOf_getElem_tails {pat bits : List Bool} (n : Nat)
    (hn : n < bits.tails.length) :
    pat.isPrefixOf bits.tails[n] = true ↔ pat <+: bits.drop n := by
  rw [List.isPrefixOf_iff_prefix, List.getElem_tails]

section Exact

variable {pat bits : List Bool} (hpat : pat.length = 32)
include hpat

theorem findExact_eq_firstFrom : findExact pat 0 bits = firstFrom pat.isPrefixOf 0 bits.tails :=
  findExact_eq_findIdx? (List.ne_nil_of_length_pos (by omega)) bits 0

/-- The pattern stands at no position beyond the bits. -/
theorem lt_length_tails_of_prefix {n : Nat} (h : pat <+: bits.drop n) : n < bits.tails.length := by
  have hin := (prefix_drop_iff_hamming hpat n).1 h
  rw [List.length_tails]
  omega

theorem findExact_eq_none_iff : findExact pat 0 bits = none ↔ ∀ p, ¬ pat <+: bits.drop p := by
  rw [findExact_eq_firstFrom hpat, firstFrom_eq_none_iff isPrefixOf_getElem_tails]
  exact ⟨fun h p hp => h p (Nat.zero_le p) (lt_length_tails_of_prefix hpat hp) hp, fun h p _ _ => h p⟩

theorem findExact_eq_some_iff {p : Nat} :
    findExact pat 0 bits = some p ↔ pat <+: bits.drop p ∧ ∀ q, q < p → ¬ pat <+: bits.drop q := by
  rw [findExact_eq_firstFrom hpat, firstFrom_eq_some_iff isPrefixOf_getElem_tails]
  exact ⟨fun ⟨_, _, h, hleast⟩ => ⟨h, fun q => hleast q (Nat.zero_le q)⟩,
    fun ⟨h, hleast⟩ => ⟨Nat.zero_le p, lt_length_tails_of_prefix hpat h, h, fun q _ => hleast q⟩⟩

end Exact

theorem syExactOp_of_found {s : State} {p : Nat} (h : findExact (syncBits s.cfgSync) 0 s.bitList = some p) :
    syExactOp s = s.syncFound p 0 := by rw [syExactOp, h]

theorem syExactOp_of_missed {s : State} (h : findExact (syncBits s.cfgSync) 0 s.bitList = none) :
    syExactOp s = s.syncMissed := by rw [syExactOp, h]

/-- Settles O37: the scan's answer, read through the distances. -/
theorem syExactFindsTheEarliestOccurrence : Obligations.SyExactFindsTheEarliestOccurrence := by
  intro s hwf
  have hat := State.sync_prefix_drop_bitList_iff (Memory.bits_wf hwf)
  constructor
  · intro p hp hzero hleast
    have hfound : findExact (syncBits s.cfgSync) 0 s.bitList = some p :=
      (findExact_eq_some_iff (length_syncBits _)).2
        ⟨(hat p).2 ⟨hp, hzero⟩, fun q hq h => hleast q hq ((hat q).1 h).2⟩
    exact exec_of_done (congrArg Run.done (syExactOp_of_found hfound))
  · intro hnone
    have hmissed : findExact (syncBits s.cfgSync) 0 s.bitList = none :=
      (findExact_eq_none_iff (length_syncBits _)).2 fun p h => hnone p ((hat p).1 h).1 ((hat p).1 h).2
    exact exec_of_done (congrArg Run.done (syExactOp_of_missed hmissed))

/-! The correlation scan (rule R184). -/

/-- The scan for the first greatest integer, from the integers seen so far. -/
theorem firstMaxIntFrom_isFirstGreatest {f : Nat → ℝ} {rest : List Int} : ∀ {best : Int} {pos n : Nat},
    IsFirstGreatest f n pos → (best : ℝ) = f pos → (∀ k (hk : k < rest.length), (rest[k] : ℝ) = f (n + k)) →
    IsFirstGreatest f (n + rest.length) (firstMaxIntFrom best pos n rest) := by
  induction rest with
  | nil => exact fun h _ _ => h
  | cons x rest ih =>
    intro best pos n h hbest hrest
    have hx : (x : ℝ) = f n := hrest 0 (Nat.zero_lt_succ _)
    have hrest' : ∀ k (hk : k < rest.length), (rest[k] : ℝ) = f (n + 1 + k) := by
      intro k hk
      rw [Nat.add_assoc, Nat.add_comm 1]
      exact hrest (k + 1) (Nat.succ_lt_succ hk)
    rw [firstMaxIntFrom, List.length_cons, Nat.add_comm rest.length, ← Nat.add_assoc]
    have hgt : best < x ↔ f pos < f n := by rw [← hbest, ← hx, Int.cast_lt]
    split
    · next hlt => exact ih (h.succ_of_lt (hgt.1 hlt)) hx hrest'
    · next hle => exact ih (h.succ_of_le (not_lt.1 (mt hgt.2 hle))) hbest hrest'

theorem firstMaxInt_isFirstGreatest {f : Nat → ℝ} {xs : List Int} (hne : 0 < xs.length)
    (hf : ∀ k (hk : k < xs.length), (xs[k] : ℝ) = f k) :
    ∃ m, firstMaxInt xs = some m ∧ IsFirstGreatest f xs.length m := by
  cases xs with
  | nil => exact absurd hne (lt_irrefl 0)
  | cons x rest =>
    have hone : IsFirstGreatest f 1 0 :=
      ⟨Nat.zero_lt_one, fun k hk => by rw [Nat.lt_one_iff.1 hk], fun k hk => absurd hk (Nat.not_lt_zero k)⟩
    refine ⟨_, rfl, ?_⟩
    rw [List.length_cons, Nat.add_comm]
    refine firstMaxIntFrom_isFirstGreatest hone (hf 0 hne) fun k hk => ?_
    rw [Nat.add_comm]
    exact hf (k + 1) (Nat.succ_lt_succ hk)

theorem length_alignments (n : Nat) : ∀ bits, (alignments n bits).length = n := by
  induction n with
  | zero => exact fun _ => rfl
  | succ n ih => exact fun bits => congrArg Nat.succ (ih bits.tail)

theorem getElem_alignments (n : Nat) : ∀ (bits : List Bool) (k : Nat) (hk : k < (alignments n bits).length),
    (alignments n bits)[k] = bitsAt bits k := by
  induction n with
  | zero => exact fun _ k hk => absurd hk (Nat.not_lt_zero k)
  | succ n ih =>
    rintro bits (_ | k) hk
    · rfl
    · simp only [alignments, List.getElem_cons_succ, ih, bitsAt, List.drop_tail]

/-- The earliest position of least distance, the one rule R184 tests. -/
structure IsBestPosition (pat bits : List Bool) (q : Nat) : Prop where
  inside : q + 32 ≤ bits.length
  le : ∀ p, p + 32 ≤ bits.length → hamming pat (bitsAt bits q) ≤ hamming pat (bitsAt bits p)
  before : ∀ p, p < q → hamming pat (bitsAt bits q) < hamming pat (bitsAt bits p)

theorem IsBestPosition.unique {pat bits : List Bool} {p q : Nat} (hp : IsBestPosition pat bits p)
    (hq : IsBestPosition pat bits q) : p = q := by
  obtain h | h | h := lt_trichotomy p q
  · exact absurd (hq.before p h) (not_lt.2 (hp.le q hq.inside))
  · exact h
  · exact absurd (hp.before q h) (not_lt.2 (hq.le p hp.inside))

section Correlate

variable {pat bits : List Bool} (hpat : pat.length = 32)
include hpat

theorem correlation_lt_iff {p q : Nat} (hp : p + 32 ≤ bits.length) (hq : q + 32 ≤ bits.length) :
    correlation pat (bitsAt bits p) < correlation pat (bitsAt bits q)
      ↔ hamming pat (bitsAt bits q) < hamming pat (bitsAt bits p) := by
  rw [correlationCountsAgreement _ _ hpat (length_bitsAt hp), correlationCountsAgreement _ _ hpat (length_bitsAt hq)]
  omega

/-- The first greatest correlation is at the earliest position of least distance. -/
theorem IsFirstGreatest.isBestPosition {q : Nat}
    (h : IsFirstGreatest (fun p => (correlation pat (bitsAt bits p) : ℝ)) (bits.length - 31) q) :
    IsBestPosition pat bits q := by
  have hin : q + 32 ≤ bits.length := by have := h.lt; omega
  refine ⟨hin, fun p hp => ?_, fun p hp => ?_⟩
  · have hle := Int.cast_le.1 (h.le p (by omega))
    exact not_lt.1 (mt (correlation_lt_iff hpat hin hp).2 (not_lt.2 hle))
  · exact (correlation_lt_iff hpat (by omega) hin).1 (Int.cast_lt.1 (h.before p hp))

/-- With 32 bits or more, rule R184's scan answers the best position. -/
theorem exists_isBestPosition (hlen : 32 ≤ bits.length) :
    ∃ q, firstMaxInt (correlations pat bits) = some q ∧ IsBestPosition pat bits q := by
  have hcount : (correlations pat bits).length = bits.length - 31 := by
    rw [correlations, List.length_map, length_alignments]
  have hget : ∀ k (hk : k < (correlations pat bits).length),
      ((correlations pat bits)[k] : ℝ) = (correlation pat (bitsAt bits k) : ℝ) := fun k hk => by
    simp only [correlations, List.getElem_map, getElem_alignments]
  obtain ⟨q, hq, h⟩ := firstMaxInt_isFirstGreatest (by omega) hget
  rw [hcount] at h
  exact ⟨q, hq, h.isBestPosition hpat⟩

end Correlate

theorem syCorrOp_of_best {s : State} {q : Nat} (h : IsBestPosition (syncBits s.cfgSync) s.bitList q) :
    syCorrOp s = if hamming (syncBits s.cfgSync) (bitsAt s.bitList q) ≤ s.cfgTol.toNat then
      s.syncFound q (hamming (syncBits s.cfgSync) (bitsAt s.bitList q)) else s.syncMissed := by
  obtain ⟨m, hm, hbest⟩ := exists_isBestPosition (bits := s.bitList) (length_syncBits s.cfgSync)
    (by have := h.inside; omega)
  unfold syCorrOp
  rw [hm, h.unique hbest]

theorem syCorrOp_of_short {s : State} (h : s.bitsLen.toNat < 32) : syCorrOp s = s.syncMissed := by
  have hnone : s.bitList.length - 31 = 0 := by rw [State.length_bitList]; omega
  have hcorr : firstMaxInt (correlations (syncBits s.cfgSync) s.bitList) = none := by rw [correlations, hnone]; rfl
  unfold syCorrOp
  rw [hcorr]

/-- Settles O38: least distance is greatest correlation, and the scan keeps the earliest. -/
theorem syCorrTestsTheBestPosition : Obligations.SyCorrTestsTheBestPosition := by
  intro s hwf
  have hdist := fun {p} => State.distanceAt_eq_hamming (p := p) (Memory.bits_wf hwf)
  constructor
  · intro q hq hle hbefore
    have hbest : IsBestPosition (syncBits s.cfgSync) s.bitList q := by
      refine ⟨by rwa [State.length_bitList], fun p hp => ?_, fun p hp => ?_⟩
      · rw [State.length_bitList] at hp
        rw [← hdist hq, ← hdist hp]
        exact hle p hp
      · rw [← hdist hq, ← hdist (p := p) (by omega)]
        exact hbefore p hp
    refine exec_of_done (congrArg Run.done ((syCorrOp_of_best hbest).trans ?_))
    rw [← hdist hq]
    rfl
  · exact fun h => exec_of_done (congrArg Run.done (syCorrOp_of_short h))

/-- Settles O39: a best position at distance 0 is the earliest occurrence, and at any other distance there is none. -/
theorem syCorrWithoutToleranceIsSyExact : Obligations.SyCorrWithoutToleranceIsSyExact := by
  intro s htol
  have hpat := length_syncBits s.cfgSync
  suffices h : syCorrOp s = syExactOp s from
    (exec_of_done (i := .syCorr) (congrArg Run.done h)).trans (exec_of_done (i := .syExact) rfl).symm
  obtain hshort | hlong := lt_or_ge s.bitList.length 32
  · rw [syCorrOp_of_short (by rwa [← State.length_bitList]), syExactOp_of_missed]
    exact (findExact_eq_none_iff hpat).2 fun p h => by
      have hin := ((prefix_drop_iff_hamming hpat p).1 h).1
      omega
  · obtain ⟨q, -, hbest⟩ := exists_isBestPosition hpat hlong
    have htol : s.cfgTol.toNat = 0 := congrArg BitVec.toNat htol
    rw [syCorrOp_of_best hbest, htol]
    split
    · next hzero =>
      rw [Nat.le_zero] at hzero
      rw [hzero, syExactOp_of_found]
      refine (findExact_eq_some_iff hpat).2 ⟨(prefix_drop_iff_hamming hpat q).2 ⟨hbest.inside, hzero⟩, fun p hp h => ?_⟩
      exact Nat.not_lt_zero _ (((prefix_drop_iff_hamming hpat p).1 h).2 ▸ hbest.before p hp)
    · next hpos =>
      rw [syExactOp_of_missed]
      refine (findExact_eq_none_iff hpat).2 fun p h => hpos (Nat.le_zero.2 ?_)
      obtain ⟨hin, hzero⟩ := (prefix_drop_iff_hamming hpat p).1 h
      exact Nat.le_zero.1 (hzero ▸ hbest.le p hin)

end Sys2Proof.Machine

/-! PROOFS. The sync locator: the bytes after the pattern (rule R190). Both forms of `SY.GETB` pack the bits of a strided
reading and store the bytes (O42, O43). -/

namespace Sys2Proof.Machine

/-! Packing bits into bytes (rules R83, R90). -/

/-- The bytes after the first `m` are packed from the bits after the first `8 * m`. -/
theorem drop_packBytes (m : Nat) : ∀ (n : Nat) (bits : List Bool),
    (packBytes n bits).drop m = packBytes (n - m) (bits.drop (8 * m)) := by
  induction m with
  | zero => exact fun _ _ => rfl
  | succ m ih =>
    rintro (_ | n) bits
    · rw [Nat.zero_sub, packBytes, packBytes, List.drop_nil]
    · rw [packBytes, List.drop_succ_cons, ih, List.drop_drop, Nat.add_sub_add_right, Nat.mul_succ, Nat.add_comm]

/-- The earliest bit of each byte is its bit 0 (rule R83). -/
theorem getLsbD_getElem_packBytes {n m i : Nat} (bits : List Bool) (hm : m < (packBytes n bits).length) (hi : i < 8) :
    (packBytes n bits)[m].getLsbD i = bits.getD (8 * m + i) false := by
  have hget : (packBytes n bits)[m] = ((packBytes n bits).drop m)[0]'(by rw [List.length_drop]; omega) := by
    rw [List.getElem_drop]
    rfl
  obtain ⟨k, hk⟩ : ∃ k, n - m = k + 1 := ⟨n - m - 1, by rw [length_packBytes] at hm; omega⟩
  simp only [hget, drop_packBytes, hk, packBytes, List.getElem_cons_zero, BitVec.getLsbD_ofNat, hi, decide_true,
    Bool.true_and, testBit_bitsToNat]
  simp [List.getD_eq_getElem?_getD, hi]

/-- Rule R190 reads as many complete bytes as the source holds, up to the limit. -/
theorem length_readBytes {stride : Nat} (hs : 0 < stride) (base most : Nat) (src : List Bool) :
    (readBytes base stride most src).length = min (availableBits base stride src.length / 8) most := by
  rw [readBytes, length_packBytes, length_everyNth hs]

/-- Each bit of a byte that rule R190 reads is an element of the source. -/
theorem getElem?_of_readBytes {base stride most : Nat} (hs : 0 < stride) (src : List Bool) {m i : Nat}
    (hm : m < (readBytes base stride most src).length) (hi : i < 8) :
    src[base + (8 * m + i) * stride]? = some ((readBytes base stride most src)[m].getLsbD i) := by
  have hin : 8 * m + i < (everyNth stride base src).length := by
    rw [readBytes, length_packBytes] at hm
    omega
  simp only [readBytes, getLsbD_getElem_packBytes _ _ hi]
  rw [← getElem?_everyNth stride hs, List.getElem?_eq_getElem hin, List.getD_eq_getElem _ _ hin]

/-! What the two forms store. -/

theorem State.rbAt_storeRb_of_lt (s : State) {xs : List Byte} {m : Nat} (h : m < xs.length) :
    (s.storeRb xs).rbAt m = xs[m] := Buf.get_fill_lt _ _ _ _ _ h

theorem State.rbAt_storeRb_of_le (s : State) {xs : List Byte} {m : Nat} (hl : s.rbLen.toNat ≤ xs.length)
    (h : xs.length ≤ m) : (s.storeRb xs).rbAt m = s.rbAt m := Buf.get_fill_ge _ _ _ _ _ hl h

theorem Memory.raw_wf {m : Memory} (h : m.wf = true) : m.raw.wf = true := by
  simp only [Memory.wf, Bool.and_eq_true, and_assoc] at h
  obtain ⟨-, -, -, -, -, hraw, -⟩ := h
  exact hraw

@[simp] theorem State.length_rawList (s : State) : s.rawList.length = s.rawLen.toNat := by simp [State.rawList]

theorem State.getElem_rawList {s : State} (hwf : s.mem.raw.wf = true) (n : Nat) (hn : n < s.rawList.length) :
    s.rawList[n] = s.rawAt n :=
  (Buf.getElem_window _ _ _ _ _ hwf hn).trans (by rw [Nat.zero_add, State.rawAt])

/-- Settles O42: the bytes are packed from `BITS` with stride 1, or there are none. -/
theorem syGetbReadsTheBytesAfterThePattern : Obligations.SyGetbReadsTheBytesAfterThePattern := by
  intro s hwf
  cases hflag : s.flag .syncnf with
  | true =>
    have hrun : s.run .syGetb = .done (s.storeRb []) := congrArg Run.done (if_pos hflag)
    exact ⟨_, 0, exec_of_done hrun, rfl, rfl, fun m i hm => absurd hm (Nat.not_lt_zero m),
      fun hle m hm => State.rbAt_storeRb_of_le s hle hm⟩
  | false =>
    have hrun : s.run .syGetb = .done (s.storeRb (readBytes (s.syPos.toNat + 32) 1 s.cfgMaxb.toNat s.bitList)) :=
      congrArg Run.done (if_neg (Bool.eq_false_iff.1 hflag))
    have hlen := length_readBytes Nat.one_pos (s.syPos.toNat + 32) s.cfgMaxb.toNat s.bitList
    rw [State.length_bitList] at hlen
    refine ⟨_, _, exec_of_done hrun, hlen, rfl, fun m i hm hi => ?_, fun hle m hm => State.rbAt_storeRb_of_le s hle hm⟩
    obtain ⟨hin, hbit⟩ := List.getElem?_eq_some_iff.1 (getElem?_of_readBytes Nat.one_pos s.bitList hm hi)
    rw [State.rbAt_storeRb_of_lt s hm, ← hbit, State.getElem_bitList (Memory.bits_wf hwf), Nat.mul_one, Nat.add_assoc,
      Nat.add_assoc, Nat.add_assoc]

theorem syGetbRRun_of_match {index : Nat} {s : State} (hsps : s.cfgSps ≠ 0) (hindex : index < s.matchCnt.toNat) :
    syGetbRRun index s = .done (s.storeRb (readBytes ((s.hitAt index).pos.toNat + 32 * s.cfgSps.toNat) s.cfgSps.toNat
      s.cfgMaxb.toNat s.rawList)) := by
  rw [syGetbRRun, if_neg (toNat_ne_zero hsps), if_neg (not_le.2 hindex)]

/-- Settles O43: the bytes are packed from `RAW` with the symbol period as the stride. -/
theorem syGetbRReadsTheBytesOfTheMatch : Obligations.SyGetbRReadsTheBytesOfTheMatch := by
  intro index s hwf hsps hindex
  have hpos : 0 < s.cfgSps.toNat := Nat.pos_of_ne_zero (toNat_ne_zero hsps)
  have hrun : s.run (.syGetbR index) = .done _ := syGetbRRun_of_match hsps hindex
  have hlen := length_readBytes hpos ((s.hitAt index).pos.toNat + 32 * s.cfgSps.toNat) s.cfgMaxb.toNat s.rawList
  rw [State.length_rawList] at hlen
  refine ⟨_, _, _, exec_of_done hrun, rfl, hlen, rfl, fun m i hm hi => ?_,
    fun hle m hm => State.rbAt_storeRb_of_le s hle hm⟩
  obtain ⟨hin, hbit⟩ := List.getElem?_eq_some_iff.1 (getElem?_of_readBytes hpos s.rawList hm hi)
  rw [State.rbAt_storeRb_of_lt s hm, ← hbit, State.getElem_rawList (Memory.raw_wf hwf)]

end Sys2Proof.Machine

/-! PROOFS. The sync locator: the phase search (rules R186, R187). A decimation, an alignment and a byte index name one
frequency index, so the candidates are the positions of the pattern, each once (O40). -/

namespace Sys2Proof.Machine

/-! The pattern as bits and as bytes (rules R83, R100). -/

theorem getElem_syncBits (sync : Word) (i : Nat) (hi : i < (syncBits sync).length) :
    (syncBits sync)[i] = sync.getLsbD i := by simp [syncBits]

/-- The pattern begins a list that has each of the 32 bits in its place. -/
theorem syncBits_prefix_iff (sync : Word) (xs : List Bool) :
    syncBits sync <+: xs ↔ ∀ i, i < 32 → xs[i]? = some (sync.getLsbD i) := by
  simp only [List.prefix_iff_getElem?, length_syncBits, getElem_syncBits]

/-- The pattern's bytes begin the packed bytes exactly when its bits begin the bits and four bytes are complete. -/
theorem syncBytes_prefix_packBytes_iff (sync : Word) {n : Nat} {bits : List Bool} (hn : 8 * n ≤ bits.length) :
    syncBytes sync <+: packBytes n bits ↔ 4 ≤ n ∧ syncBits sync <+: bits := by
  have hbytes : (syncBytes sync).length = 4 := rfl
  have hpattern : ∀ k (hk : k < (syncBytes sync).length) (i : Nat), i < 8 →
      (syncBytes sync)[k].getLsbD i = sync.getLsbD (8 * k + i) := by
    intro k hk i hi
    simp only [syncBytes, List.getElem_map, List.getElem_range, BitVec.getLsbD_extractLsb', hi, decide_true,
      Bool.true_and]
  have hpacked : ∀ k (hk : k < (packBytes n bits).length) (i : Nat), i < 8 →
      bits[8 * k + i]? = some ((packBytes n bits)[k].getLsbD i) := by
    intro k hk i hi
    rw [length_packBytes] at hk
    have hin : 8 * k + i < bits.length := by omega
    rw [getLsbD_getElem_packBytes bits _ hi, List.getElem?_eq_getElem hin, List.getD_eq_getElem _ _ hin]
  rw [syncBits_prefix_iff, List.prefix_iff_getElem?]
  constructor
  · intro h
    have hle : 4 ≤ n := by simpa [hbytes] using (List.prefix_iff_getElem?.2 h).length_le
    refine ⟨hle, fun i hi => ?_⟩
    obtain ⟨hk, hbyte⟩ := List.getElem?_eq_some_iff.1 (h (i / 8) (by omega))
    have hbit := hpacked (i / 8) hk (i % 8) (Nat.mod_lt _ (by decide))
    rwa [hbyte, hpattern _ _ _ (Nat.mod_lt _ (by decide)), Nat.div_add_mod] at hbit
  · rintro ⟨hle, h⟩ k hk
    have hkn : k < (packBytes n bits).length := by rw [length_packBytes]; omega
    refine List.getElem?_eq_some_iff.2 ⟨hkn, BitVec.eq_of_getLsbD_eq fun i hi => ?_⟩
    rw [hpattern k hk i hi, ← Option.some_inj, ← hpacked k hkn i hi, h (8 * k + i) (by omega)]

/-! One decimation and one alignment (rule R186). -/

/-- The byte search keeps the indices at which the pattern's bytes begin, in order. -/
theorem byteMatches_eq_filter (pb : List Byte) (bytes : List Byte) : ∀ m,
    byteMatches pb m bytes = (List.range' m bytes.length).filter fun k => pb.isPrefixOf (bytes.drop (k - m)) := by
  induction bytes with
  | nil => exact fun _ => rfl
  | cons b rest ih =>
    intro m
    have htail : byteMatches pb (m + 1) rest = (List.range' (m + 1) rest.length).filter
        fun k => pb.isPrefixOf ((b :: rest).drop (k - m)) := by
      rw [ih]
      refine List.filter_congr fun k hk => ?_
      obtain ⟨hk, -⟩ := List.mem_range'_1.1 hk
      rw [show k - m = k - (m + 1) + 1 by omega, List.drop_succ_cons]
    rw [byteMatches, htail, List.length_cons, List.range'_succ, List.filter_cons, Nat.sub_self, List.drop_zero]

theorem pairwise_alignmentMatches (pb : List Byte) (d : List Bool) (al : Nat) :
    (alignmentMatches pb d al).Pairwise (· < ·) := by
  rw [alignmentMatches, byteMatches_eq_filter]
  exact (List.pairwise_lt_range' _).filter _

/-- At one alignment, byte `m` matches exactly when the pattern begins at bit `al + 8 * m`. -/
theorem mem_alignmentMatches_iff (sync : Word) (d : List Bool) (al m : Nat) :
    m ∈ alignmentMatches (syncBytes sync) d al ↔ syncBits sync <+: d.drop (al + 8 * m) := by
  have hcomplete : 8 * ((d.length - al) / 8 - m) ≤ ((d.drop al).drop (8 * m)).length := by
    simp only [List.length_drop]
    omega
  rw [alignmentMatches, byteMatches_eq_filter, List.mem_filter, List.mem_range'_1, List.isPrefixOf_iff_prefix,
    Nat.sub_zero, drop_packBytes, syncBytes_prefix_packBytes_iff sync hcomplete, length_packBytes, List.drop_drop]
  refine ⟨fun ⟨_, _, h⟩ => h, fun h => ?_⟩
  have hlen := h.length_le
  rw [length_syncBits, List.length_drop] at hlen
  exact ⟨by omega, by omega, h⟩

/-- A tail of a strided reading is the strided reading from there on. -/
theorem drop_everyNth {α : Type} {stride : Nat} (hs : 0 < stride) (skip k : Nat) (xs : List α) :
    (everyNth stride skip xs).drop k = everyNth stride (skip + k * stride) xs := by
  refine List.ext_getElem? fun i => ?_
  rw [List.getElem?_drop, getElem?_everyNth stride hs, getElem?_everyNth stride hs, Nat.add_mul, Nat.add_assoc]

/-! All phases. -/

section Candidates

variable {sps : Nat}

/-- The candidates are the indices at which the pattern stands, one bit every `sps` elements. -/
theorem mem_candidates_iff (hs : 0 < sps) (sync : Word) (raw : List Bool) (n : Nat) :
    n ∈ candidates (syncBytes sync) sps raw ↔ syncBits sync <+: everyNth sps n raw := by
  simp only [candidates, phaseCandidates, List.mem_flatMap, List.mem_map, List.mem_range, mem_alignmentMatches_iff,
    drop_everyNth hs]
  constructor
  · rintro ⟨ph, -, al, -, m, h, rfl⟩
    exact h
  · intro h
    have hsplit : n % sps + (n / sps % 8 + 8 * (n / sps / 8)) * sps = n := by
      rw [Nat.mod_add_div, Nat.mod_add_div']
    have hn : n < raw.length := by
      have hfirst := (syncBits_prefix_iff sync _).1 h 0 (by decide)
      rw [getElem?_everyNth sps hs] at hfirst
      obtain ⟨hlt, -⟩ := List.getElem?_eq_some_iff.1 hfirst
      omega
    refine ⟨n % sps, lt_min (Nat.mod_lt _ hs) ((Nat.mod_le _ _).trans_lt hn), n / sps % 8, Nat.mod_lt _ (by decide),
      n / sps / 8, ?_, hsplit⟩
    rwa [hsplit]

/-- Rule R186's order: by phase, then by alignment, then by byte. -/
def scanKey (sps n : Nat) : Nat ×ₗ Nat ×ₗ Nat := toLex (n % sps, toLex (n / sps % 8, n / sps / 8))

theorem scanKey_candidate {ph al : Nat} (hph : ph < sps) (hal : al < 8) (m : Nat) :
    scanKey sps (ph + (al + 8 * m) * sps) = toLex (ph, toLex (al, m)) := by
  have hphase : (ph + (al + 8 * m) * sps) % sps = ph := by rw [Nat.add_mul_mod_self_right, Nat.mod_eq_of_lt hph]
  have hquot : (ph + (al + 8 * m) * sps) / sps = al + 8 * m := by
    rw [Nat.add_mul_div_right _ _ (by omega), Nat.div_eq_of_lt hph, Nat.zero_add]
  have halign : (al + 8 * m) % 8 = al := by omega
  have hbyte : (al + 8 * m) / 8 = m := by omega
  rw [scanKey, hphase, hquot, halign, hbyte]

theorem scanKey_of_mem_phaseCandidates {pb : List Byte} {raw : List Bool} {ph n : Nat} (hph : ph < sps)
    (h : n ∈ phaseCandidates pb sps raw ph) : ∃ key, scanKey sps n = toLex (ph, key) := by
  simp only [phaseCandidates, List.mem_flatMap, List.mem_range, List.mem_map] at h
  obtain ⟨al, hal, m, -, rfl⟩ := h
  exact ⟨_, scanKey_candidate hph hal m⟩

theorem pairwise_phaseCandidates (pb : List Byte) (raw : List Bool) {ph : Nat} (hph : ph < sps) :
    (phaseCandidates pb sps raw ph).Pairwise fun a b => scanKey sps a < scanKey sps b := by
  refine List.pairwise_flatMap.2 ⟨fun al hal => ?_, List.pairwise_lt_range.imp_of_mem ?_⟩
  · refine List.pairwise_map.2 ((pairwise_alignmentMatches pb _ al).imp fun {m m'} hlt => ?_)
    rw [scanKey_candidate hph (List.mem_range.1 hal), scanKey_candidate hph (List.mem_range.1 hal)]
    simp only [Prod.Lex.toLex_lt_toLex, lt_irrefl, true_and, false_or, hlt]
  · intro al al' hal hal' hlt x hx y hy
    obtain ⟨m, -, rfl⟩ := List.mem_map.1 hx
    obtain ⟨m', -, rfl⟩ := List.mem_map.1 hy
    rw [scanKey_candidate hph (List.mem_range.1 hal), scanKey_candidate hph (List.mem_range.1 hal')]
    simp only [Prod.Lex.toLex_lt_toLex, lt_irrefl, true_and, false_or, hlt, true_or]

/-- The candidates are collected in rule R186's order. -/
theorem pairwise_candidates (pb : List Byte) (raw : List Bool) :
    (candidates pb sps raw).Pairwise fun a b => scanKey sps a < scanKey sps b := by
  have hphase : ∀ {ph}, ph ∈ List.range (min sps raw.length) → ph < sps :=
    fun h => (List.mem_range.1 h).trans_le (min_le_left _ _)
  refine List.pairwise_flatMap.2
    ⟨fun ph hph => pairwise_phaseCandidates pb raw (hphase hph), List.pairwise_lt_range.imp_of_mem ?_⟩
  intro ph ph' hph hph' hlt x hx y hy
  obtain ⟨kx, hkx⟩ := scanKey_of_mem_phaseCandidates (hphase hph) hx
  obtain ⟨ky, hky⟩ := scanKey_of_mem_phaseCandidates (hphase hph') hy
  rw [hkx, hky]
  exact Prod.Lex.toLex_lt_toLex.2 (.inl hlt)

theorem nodup_candidates (pb : List Byte) (raw : List Bool) : (candidates pb sps raw).Nodup :=
  (pairwise_candidates pb raw).imp fun h => ne_of_apply_ne (scanKey sps) h.ne

end Candidates

/-! The closed form (rule R187). -/

/-- The closed form is the pattern at the start of the strided reading of `RAW`. -/
theorem State.patternAt_iff {s : State} (hwf : s.mem.raw.wf = true) (hsps : 0 < s.cfgSps.toNat) (n : Nat) :
    s.patternAt n = true ↔ syncBits s.cfgSync <+: everyNth s.cfgSps.toNat n s.rawList := by
  have hread : ∀ i, s.rawList[n + i * s.cfgSps.toNat]? = some (s.cfgSync.getLsbD i) ↔
      n + i * s.cfgSps.toNat < s.rawLen.toNat ∧ s.rawAt (n + i * s.cfgSps.toNat) = s.cfgSync.getLsbD i := fun i => by
    simp only [List.getElem?_eq_some_iff, State.length_rawList, State.getElem_rawList hwf, exists_prop]
  simp only [syncBits_prefix_iff, getElem?_everyNth _ hsps, hread, State.patternAt, Bool.and_eq_true, decide_eq_true_eq,
    List.all_eq_true, List.mem_range, beq_iff_eq]
  refine ⟨fun ⟨hlast, h⟩ i hi => ⟨lt_of_le_of_lt ?_ hlast, h i hi⟩,
    fun h => ⟨(h 31 (by decide)).1, fun i hi => (h i hi).2⟩⟩
  exact Nat.add_le_add_left (Nat.mul_le_mul_right _ (Nat.le_of_lt_succ hi)) n

theorem State.lt_rawLen_of_patternAt {s : State} {n : Nat} (h : s.patternAt n = true) : n < s.rawLen.toNat := by
  rw [State.patternAt, Bool.and_eq_true, decide_eq_true_eq] at h
  omega

/-- The candidates `SY.SCAN` collects in a state. -/
def State.scanned (s : State) : List Nat := candidates (syncBytes s.cfgSync) s.cfgSps.toNat s.rawList

section Scanned

variable {s : State} (hwf : s.mem.raw.wf = true) (hsps : s.cfgSps ≠ 0)
include hwf hsps

theorem State.mem_scanned_iff (n : Nat) : n ∈ s.scanned ↔ s.patternAt n = true := by
  have hpos : 0 < s.cfgSps.toNat := Nat.pos_of_ne_zero (toNat_ne_zero hsps)
  rw [State.scanned, mem_candidates_iff hpos, State.patternAt_iff hwf hpos]

/-- There is one candidate for each position of the pattern. -/
theorem State.length_scanned : s.scanned.length = (List.range s.rawLen.toNat).countP s.patternAt := by
  rw [List.countP_eq_length_filter]
  refine List.Perm.length_eq ((List.perm_ext_iff_of_nodup (nodup_candidates _ _) (List.nodup_range.filter _)).2 fun n => ?_)
  rw [List.mem_filter, List.mem_range]
  exact (State.mem_scanned_iff hwf hsps n).trans ⟨fun h => ⟨State.lt_rawLen_of_patternAt h, h⟩, fun h => h.2⟩

theorem State.length_scanned_lt : s.scanned.length < 2 ^ 32 := by
  have hle := List.countP_le_length (p := s.patternAt) (l := List.range s.rawLen.toNat)
  rw [List.length_range, ← State.length_scanned hwf hsps] at hle
  exact hle.trans_lt s.rawLen.isLt

/-- Past its checks `SY.SCAN` stores the candidates. -/
theorem syScanRun_of_room (room : ¬ rangeCause s .syScan) :
    syScanRun s = .done (s.storeCand (s.scanned.map (BitVec.ofNat 32))) := by
  have hlen := State.length_scanned hwf hsps
  rw [rangeCause, ← hlen] at room
  rw [syScanRun, if_neg (toNat_ne_zero hsps)]
  exact if_neg room

theorem State.candCnt_storeCand_scanned :
    (s.storeCand (s.scanned.map (BitVec.ofNat 32))).candCnt.toNat = s.scanned.length := by
  rw [State.storeCand_candCnt, List.length_map, BitVec.toNat_ofNat, Nat.mod_eq_of_lt (State.length_scanned_lt hwf hsps)]

theorem State.candAt_storeCand_scanned {k : Nat} (hk : k < s.scanned.length) :
    ((s.storeCand (s.scanned.map (BitVec.ofNat 32))).candAt k).toNat = s.scanned[k] := by
  have hread : (s.storeCand (s.scanned.map (BitVec.ofNat 32))).candAt k = BitVec.ofNat 32 s.scanned[k] :=
    (Buf.get_fill_lt _ _ _ _ _ (by rwa [List.length_map])).trans (List.getElem_map _)
  have hlt := State.lt_rawLen_of_patternAt ((State.mem_scanned_iff hwf hsps _).1 (List.getElem_mem hk))
  rw [hread, BitVec.toNat_ofNat, Nat.mod_eq_of_lt (hlt.trans s.rawLen.isLt)]

/-- Each position of the pattern is one of the stored candidates, and no other index is. -/
theorem State.patternAt_iff_candAt (n : Nat) : s.patternAt n = true ↔
    ∃ k, k < (s.storeCand (s.scanned.map (BitVec.ofNat 32))).candCnt.toNat
      ∧ ((s.storeCand (s.scanned.map (BitVec.ofNat 32))).candAt k).toNat = n := by
  have hread := fun {k} => State.candAt_storeCand_scanned hwf hsps (k := k)
  rw [← State.mem_scanned_iff hwf hsps, List.mem_iff_getElem, State.candCnt_storeCand_scanned hwf hsps]
  exact exists_congr fun k =>
    ⟨fun ⟨hk, h⟩ => ⟨hk, (hread hk).trans h⟩, fun ⟨hk, h⟩ => ⟨hk, (hread hk).symm.trans h⟩⟩

end Scanned

/-- Settles O40: the stored list is the list of the candidates, whose members, length and order are known. -/
theorem syScanCollectsTheClosedForm : Obligations.SyScanCollectsTheClosedForm := by
  intro s hmem hsps room
  have hwf := Memory.raw_wf hmem
  have hrun : s.run .syScan = .done _ := syScanRun_of_room hwf hsps room
  have hcount := State.candCnt_storeCand_scanned hwf hsps
  have hread := fun {k} => State.candAt_storeCand_scanned hwf hsps (k := k)
  refine ⟨_, exec_of_done hrun, rfl, hcount.trans (State.length_scanned hwf hsps),
    State.patternAt_iff_candAt hwf hsps, fun k l hkl hl => ?_, fun hle k hk => ?_⟩
  · rw [hcount] at hl
    rw [hread (hkl.trans hl), hread hl]
    exact List.pairwise_iff_getElem.1 (pairwise_candidates _ _) k l (hkl.trans hl) hl hkl
  · rw [hcount, ← List.length_map (BitVec.ofNat 32)] at hle hk
    exact Buf.get_fill_ge _ _ _ _ _ hle hk

end Sys2Proof.Machine

/-! PROOFS. The sync locator: de-duplication (rule R189). The fold over the sorted candidates accepts what the rule's
words accept (O41). -/

namespace Sys2Proof.Machine

/-! The fold (rule R189). -/

/-- The list `acc` rises and holds those of `xs` that no smaller accepted one is closer to than `sps`. -/
def IsAccepted (sps : Nat) (xs acc : List Nat) : Prop :=
  acc.Pairwise (· < ·) ∧ ∀ c, c ∈ acc ↔ c ∈ xs ∧ ¬ ∃ q, q ∈ acc ∧ q < c ∧ c - q < sps

/-- A first candidate at least one symbol period below all others is accepted and rejects none of them. -/
theorem IsAccepted.cons_of_far {sps l : Nat} {xs acc : List Nat} (hs : 0 < sps) (hfar : ∀ x ∈ xs, l + sps ≤ x)
    (h : IsAccepted sps xs acc) : IsAccepted sps (l :: xs) (l :: acc) := by
  obtain ⟨hrise, hmem⟩ := h
  have hacc : ∀ q ∈ acc, l + sps ≤ q := fun q hq => hfar q ((hmem q).1 hq).1
  refine ⟨.cons (fun q hq => by have := hacc q hq; omega) hrise, fun c => ?_⟩
  have hclose : (∃ q, q ∈ l :: acc ∧ q < c ∧ c - q < sps) ↔
      (l < c ∧ c - l < sps) ∨ ∃ q, q ∈ acc ∧ q < c ∧ c - q < sps := by
    simp only [List.mem_cons, or_and_right, exists_or, exists_eq_left]
  rw [hclose, List.mem_cons, List.mem_cons]
  constructor
  · rintro (rfl | hc)
    · refine ⟨.inl rfl, ?_⟩
      rintro (⟨hlt, -⟩ | ⟨q, hq, hlt, -⟩)
      · omega
      · have := hacc q hq
        omega
    · obtain ⟨hx, hnone⟩ := (hmem c).1 hc
      have := hfar c hx
      exact ⟨.inr hx, fun hor => hor.elim (fun h => by omega) hnone⟩
  · rintro ⟨rfl | hx, hnone⟩
    · exact .inl rfl
    · exact .inr ((hmem c).2 ⟨hx, fun h => hnone (.inr h)⟩)

/-- A candidate less than one symbol period above the accepted `l`, or equal to it, changes nothing. -/
theorem IsAccepted.cons_cons_of_near {sps l c : Nat} {xs acc : List Nat} (hl : l ∈ acc) (hlc : l ≤ c)
    (hnear : c - l < sps) (h : IsAccepted sps (l :: xs) acc) : IsAccepted sps (l :: c :: xs) acc := by
  obtain ⟨hrise, hmem⟩ := h
  refine ⟨hrise, fun x => ?_⟩
  rw [hmem x]
  simp only [List.mem_cons]
  refine and_congr_left fun hnone => ⟨fun h => h.imp_right .inr, ?_⟩
  rintro (rfl | rfl | hx)
  · exact .inl rfl
  · exact .inl (le_antisymm (not_lt.1 fun hlt => hnone ⟨l, hl, hlt, hnear⟩) hlc)
  · exact .inr hx

/-- The fold goes on from the last accepted candidate `l`. -/
theorem isAccepted_dedup_some {sps : Nat} (hs : 0 < sps) {xs : List Nat} : ∀ {l : Nat},
    (l :: xs).Pairwise (· ≤ ·) → IsAccepted sps (l :: xs) (l :: dedup sps (some l) xs) := by
  induction xs with
  | nil =>
    exact fun _ => IsAccepted.cons_of_far hs (fun x hx => absurd hx List.not_mem_nil) ⟨.nil, fun c => by simp [dedup]⟩
  | cons c rest ih =>
    intro l hsorted
    obtain ⟨hl, hc, hrest⟩ : (∀ x ∈ c :: rest, l ≤ x) ∧ (∀ x ∈ rest, c ≤ x) ∧ rest.Pairwise (· ≤ ·) := by
      simpa only [List.pairwise_cons] using hsorted
    rw [dedup]
    split
    · next hfar =>
      refine (ih (.cons hc hrest)).cons_of_far hs fun x hx => ?_
      have hcx : c ≤ x := (List.mem_cons.1 hx).elim (fun e => e.ge) (hc x)
      omega
    · next hnear =>
      have hlrest : ∀ x ∈ rest, l ≤ x := fun x hx => hl x (List.mem_cons_of_mem _ hx)
      exact (ih (.cons hlrest hrest)).cons_cons_of_near List.mem_cons_self (hl c List.mem_cons_self) (not_le.1 hnear)

/-- Over sorted candidates the fold accepts what rule R189 accepts. -/
theorem isAccepted_dedup {sps : Nat} (hs : 0 < sps) {xs : List Nat} (hsorted : xs.Pairwise (· ≤ ·)) :
    IsAccepted sps xs (dedup sps none xs) := by
  cases xs with
  | nil => exact ⟨.nil, fun c => by simp [dedup]⟩
  | cons c rest => exact isAccepted_dedup_some hs hsorted

/-! The candidates of a state. -/

theorem Memory.cand_wf {m : Memory} (h : m.wf = true) : m.cand.wf = true := by
  simp only [Memory.wf, Bool.and_eq_true, and_assoc] at h
  obtain ⟨-, -, -, -, -, -, hcand, -⟩ := h
  exact hcand

@[simp] theorem State.length_candList (s : State) : s.candList.length = s.candCnt.toNat := by simp [State.candList]

theorem State.getElem_candList {s : State} (hwf : s.mem.cand.wf = true) (n : Nat) (hn : n < s.candList.length) :
    s.candList[n] = s.candAt n :=
  (Buf.getElem_window _ _ _ _ _ hwf hn).trans (by rw [Nat.zero_add, State.candAt])

theorem State.pairwise_sortedCandidates (s : State) : s.sortedCandidates.Pairwise (· ≤ ·) :=
  List.pairwise_insertionSort _ _

theorem State.mem_sortedCandidates_iff {s : State} (hwf : s.mem.cand.wf = true) (c : Nat) :
    c ∈ s.sortedCandidates ↔ ∃ k, k < s.candCnt.toNat ∧ (s.candAt k).toNat = c := by
  rw [State.sortedCandidates, List.mem_insertionSort, List.mem_map]
  simp only [List.mem_iff_getElem, State.length_candList, State.getElem_candList hwf]
  constructor
  · rintro ⟨_, ⟨k, hk, rfl⟩, h⟩
    exact ⟨k, hk, h⟩
  · rintro ⟨k, hk, h⟩
    exact ⟨_, ⟨k, hk, rfl⟩, h⟩

theorem State.lt_of_mem_sortedCandidates {s : State} {c : Nat} (h : c ∈ s.sortedCandidates) : c < 2 ^ 32 := by
  obtain ⟨w, -, rfl⟩ := List.mem_map.1 ((List.mem_insertionSort _).1 h)
  exact w.isLt

/-- The candidates as words, in ascending order. -/
def State.sortedWords (s : State) : List Word := s.sortedCandidates.map (BitVec.ofNat 32)

@[simp] theorem State.length_sortedWords (s : State) : s.sortedWords.length = s.candCnt.toNat := by
  rw [State.sortedWords, List.length_map, State.length_sortedCandidates]

/-- Sorting moves the words of the list and changes none. -/
theorem State.sortedWords_perm (s : State) : s.sortedWords.Perm s.candList := by
  have hback : (s.candList.map BitVec.toNat).map (BitVec.ofNat 32) = s.candList := by
    rw [List.map_map]
    exact (List.map_congr_left fun w _ => BitVec.ofNat_toNat _ _ |>.trans (BitVec.setWidth_eq w)).trans (List.map_id _)
  exact ((List.perm_insertionSort _ _).map _).trans (.of_eq hback)

theorem State.pairwise_sortedWords (s : State) : s.sortedWords.Pairwise fun a b => a.toNat ≤ b.toNat := by
  refine List.pairwise_map.2 (s.pairwise_sortedCandidates.imp_of_mem fun {a b} ha hb hab => ?_)
  rwa [BitVec.toNat_ofNat, BitVec.toNat_ofNat, Nat.mod_eq_of_lt (State.lt_of_mem_sortedCandidates ha),
    Nat.mod_eq_of_lt (State.lt_of_mem_sortedCandidates hb)]

/-! What `SY.DEDUP` stores. -/

/-- The positions `SY.DEDUP` accepts in a state. -/
def State.accepted (s : State) : List Nat := dedup s.cfgSps.toNat none s.sortedCandidates

theorem State.acceptedIs_accepted {s : State} (hwf : s.mem.cand.wf = true) (hsps : s.cfgSps ≠ 0) :
    s.acceptedIs s.accepted := by
  obtain ⟨hrise, hmem⟩ :=
    isAccepted_dedup (Nat.pos_of_ne_zero (toNat_ne_zero hsps)) s.pairwise_sortedCandidates
  exact ⟨hrise, fun c => (hmem c).trans (and_congr_left' (State.mem_sortedCandidates_iff hwf c))⟩

/-- Past its checks `SY.DEDUP` stores the sorted candidates and the accepted positions. -/
theorem syDedupRun_of_room {s : State} (hwf : s.mem.cand.wf = true) (hsps : s.cfgSps ≠ 0)
    (room : ¬ rangeCause s .syDedup) : syDedupRun s = .done (s.enterMatches s.sortedCandidates s.accepted) := by
  rw [syDedupRun, if_neg (toNat_ne_zero hsps)]
  exact if_neg fun hfull => room ⟨s.accepted, State.acceptedIs_accepted hwf hsps, hfull⟩

/-- The registers and the two buffers `SY.DEDUP` writes; `CAND_CNT` is written with the value it has. -/
theorem State.enterMatches_eq (s : State) (acc : List Nat) :
    s.enterMatches s.sortedCandidates acc = { s.setFlag .syncnf acc.isEmpty with
      matchCnt := BitVec.ofNat 32 acc.length
      cntFound := if acc.isEmpty then s.cntFound else sat (s.cntFound.toNat + acc.length)
      cntFailed := if acc.isEmpty then sat (s.cntFailed.toNat + 1) else s.cntFailed
      mem := { s.mem with
        cand := s.mem.cand.fill s.candCnt.toNat s.sortedWords
        hits := s.mem.hits.fill s.matchCnt.toNat (acc.map (hitOf s.cfgSps.toNat)) } } := by
  have hcount : BitVec.ofNat 32 s.sortedWords.length = s.candCnt := by
    rw [State.length_sortedWords, BitVec.ofNat_toNat, BitVec.setWidth_eq]
  have hcand : s.storeCand (s.sortedCandidates.map (BitVec.ofNat 32)) =
      { s with mem := { s.mem with cand := s.mem.cand.fill s.candCnt.toNat s.sortedWords } } :=
    congrArg (fun n => { s.storeCand s.sortedWords with candCnt := n }) hcount
  rw [State.enterMatches, hcand, State.storeHits, List.length_map]
  cases acc with
  | nil => rfl
  | cons c rest => rfl

theorem State.candList_enterMatches (s : State) (acc : List Nat) :
    (s.enterMatches s.sortedCandidates acc).candList = s.sortedWords := by
  have h := Buf.window_fill (Config.freeWord .cand) s.mem.cand s.candCnt.toNat s.sortedWords
  rw [State.length_sortedWords] at h
  rw [State.enterMatches_eq]
  exact h

theorem State.candAt_enterMatches_of_lt (s : State) (acc : List Nat) {k : Nat} (hk : k < s.sortedWords.length) :
    (s.enterMatches s.sortedCandidates acc).candAt k = s.sortedWords[k] := by
  rw [State.enterMatches_eq]
  exact Buf.get_fill_lt _ _ _ _ _ hk

theorem State.candAt_enterMatches_of_le (s : State) (acc : List Nat) {k : Nat} (hk : s.candCnt.toNat ≤ k) :
    (s.enterMatches s.sortedCandidates acc).candAt k = s.candAt k := by
  rw [State.enterMatches_eq]
  exact Buf.get_fill_ge _ _ _ _ _ s.length_sortedWords.ge (s.length_sortedWords.trans_le hk)

theorem State.hitAt_enterMatches_of_lt (s : State) {acc : List Nat} {k : Nat} (hk : k < acc.length) :
    (s.enterMatches s.sortedCandidates acc).hitAt k = hitOf s.cfgSps.toNat acc[k] := by
  rw [State.enterMatches_eq]
  exact (Buf.get_fill_lt _ _ _ _ _ (by rwa [List.length_map])).trans (List.getElem_map _)

theorem State.hitAt_enterMatches_of_le (s : State) {acc : List Nat} (hle : s.matchCnt.toNat ≤ acc.length) {k : Nat}
    (hk : acc.length ≤ k) : (s.enterMatches s.sortedCandidates acc).hitAt k = s.hitAt k := by
  rw [State.enterMatches_eq]
  rw [← List.length_map (hitOf s.cfgSps.toNat)] at hle hk
  exact Buf.get_fill_ge _ _ _ _ _ hle hk

/-- Settles O41: the stored lists are the sorted candidates and the fold's accepted positions. -/
theorem syDedupKeepsTheEarliestOfEachCluster : Obligations.SyDedupKeepsTheEarliestOfEachCluster := by
  intro s hmem hsps room
  have hwf := Memory.cand_wf hmem
  have hrun : s.run .syDedup = .done _ := syDedupRun_of_room hwf hsps room
  refine ⟨_, s.accepted, exec_of_done hrun, State.acceptedIs_accepted hwf hsps, ?_, ?_, fun k l hkl hl => ?_,
    fun k hk => State.candAt_enterMatches_of_le s _ hk, fun k c hc => ?_,
    fun hle k hk => State.hitAt_enterMatches_of_le s hle hk⟩
  · rw [State.enterMatches_eq]
    rfl
  · rw [State.candList_enterMatches]
    exact s.sortedWords_perm
  · rw [← s.length_sortedWords] at hl
    rw [State.candAt_enterMatches_of_lt s _ (hkl.trans hl), State.candAt_enterMatches_of_lt s _ hl]
    exact List.pairwise_iff_getElem.1 s.pairwise_sortedWords k l (hkl.trans hl) hl hkl
  · obtain ⟨hk, rfl⟩ := List.getElem?_eq_some_iff.1 hc
    exact State.hitAt_enterMatches_of_lt s hk

end Sys2Proof.Machine

/-! PROOFS. The sync locator: the two searches of one signal (rule R191). The sliced bits are a strided reading of the
decisions the phase search reads, so the exact scan's position is a candidate and a match reports it (O44). -/

namespace Sys2Proof.Machine

theorem map_everyNth {α β : Type} {stride : Nat} (hs : 0 < stride) (f : α → β) (skip : Nat) (xs : List α) :
    (everyNth stride skip xs).map f = everyNth stride skip (xs.map f) := by
  refine List.ext_getElem? fun k => ?_
  rw [List.getElem?_map, getElem?_everyNth stride hs, getElem?_everyNth stride hs, List.getElem?_map]

theorem State.bitList_storeBits (s : State) {xs : List Bool} (h : xs.length < 2 ^ 32) :
    (s.storeBits xs).bitList = xs := by
  have hlen : (BitVec.ofNat 32 xs.length).toNat = xs.length := Nat.mod_eq_of_lt h
  rw [State.bitList, State.storeBits_bitsLen, hlen]
  exact Buf.window_fill _ _ _ _

theorem State.rawList_storeRaw (s : State) {xs : List Bool} (h : xs.length < 2 ^ 32) :
    (s.storeRaw xs).rawList = xs := by
  have hlen : (BitVec.ofNat 32 xs.length).toNat = xs.length := Nat.mod_eq_of_lt h
  rw [State.rawList, State.storeRaw_rawLen, hlen]
  exact Buf.window_fill _ _ _ _

/-- `BITS` after `FD.SLICE` holds every `CFG_SPS`-th decision of `FD.BIN`, from `FD_OFF` on (rules R156, R157). -/
theorem State.bitList_slice {s : State} (hsps : 0 < s.cfgSps.toNat) :
    s.slice.bitList = everyNth s.cfgSps.toNat s.fdOff.toNat (fdBinOp s).rawList := by
  have hraw : (fdBinOp s).rawList = s.freqs.map fun f => f.gt s.fdRef :=
    State.rawList_storeRaw s (by rw [List.length_map, State.length_freqs]; exact s.freqLen.isLt)
  have hbits : s.slice.bitList = sliceBits s.fdRef s.cfgSps.toNat s.fdOff.toNat s.freqs := by
    refine State.bitList_storeBits s ((List.length_map _).trans_le (length_everyNth_le _ _ _) |>.trans_lt ?_)
    rw [State.length_freqs]
    exact s.freqLen.isLt
  rw [hbits, hraw, sliceBits, map_everyNth hsps]

/-- Where `SY.EXACT` clears `SYNCNF`, the pattern stands in `BITS` at `SY_POS`. -/
theorem sync_prefix_of_syExactOp {s : State} (h : (syExactOp s).flag .syncnf = false) :
    syncBits s.cfgSync <+: s.bitList.drop (syExactOp s).syPos.toNat := by
  obtain ⟨p, hfound, hop⟩ | ⟨-, hop⟩ := syExactOp_cases s
  · have hat := ((findExact_eq_some_iff (length_syncBits _)).1 hfound).1
    have hin := ((prefix_drop_iff_hamming (length_syncBits _) p).1 hat).1
    rw [State.length_bitList] at hin
    have hpos : (BitVec.ofNat 32 p).toNat = p := Nat.mod_eq_of_lt (by have := s.bitsLen.isLt; omega)
    rw [hop, State.syncFound, State.countFound_syPos, State.setFlag_syPos, hpos]
    exact hat
  · rw [hop, State.syncMissed, State.flag_countFailed, State.flag_setFlag, if_pos rfl] at h
    cases h

/-- The position of the exact scan is a position of the closed form of rule R187. -/
theorem patternAt_fdBinOp_of_syExactOp {s : State} (hwf : s.mem.raw.wf = true) (hsps : 0 < s.cfgSps.toNat)
    (h : (syExactOp s.slice).flag .syncnf = false) :
    (fdBinOp s).patternAt (s.fdOff.toNat + (syExactOp s.slice).syPos.toNat * s.cfgSps.toNat) = true := by
  have hat := sync_prefix_of_syExactOp h
  rw [State.bitList_slice hsps, drop_everyNth hsps] at hat
  exact (State.patternAt_iff (s := fdBinOp s) (Buf.wf_fill _ _ _ hwf) hsps _).2 hat

/-- Every candidate has an accepted one at or less than one symbol period below it. -/
theorem State.acceptedIs.exists_near {s : State} {acc : List Nat} (h : s.acceptedIs acc) (hsps : 0 < s.cfgSps.toNat)
    {n : Nat} (hn : ∃ k, k < s.candCnt.toNat ∧ (s.candAt k).toNat = n) :
    ∃ q, q ∈ acc ∧ q ≤ n ∧ n < q + s.cfgSps.toNat := by
  by_cases hacc : n ∈ acc
  · exact ⟨n, hacc, le_rfl, Nat.lt_add_of_pos_right hsps⟩
  · have hnear := mt (fun hnone => (h.2 n).2 ⟨hn, hnone⟩) hacc
    obtain ⟨q, hq, hlt, hclose⟩ := not_not.1 hnear
    exact ⟨q, hq, hlt.le, by omega⟩

/-- Every candidate has a match at or less than one symbol period below it. -/
theorem State.exists_hit_of_candidate {s : State} (hwf : s.mem.cand.wf = true) (hsps : s.cfgSps ≠ 0) {n : Nat}
    (hn : ∃ k, k < s.candCnt.toNat ∧ (s.candAt k).toNat = n) :
    ∃ k, k < (s.enterMatches s.sortedCandidates s.accepted).matchCnt.toNat
      ∧ ((s.enterMatches s.sortedCandidates s.accepted).hitAt k).pos.toNat ≤ n
      ∧ n < ((s.enterMatches s.sortedCandidates s.accepted).hitAt k).pos.toNat + s.cfgSps.toNat := by
  have hacc := State.acceptedIs_accepted hwf hsps
  obtain ⟨q, hq, hle, hlt⟩ := hacc.exists_near (Nat.pos_of_ne_zero (toNat_ne_zero hsps)) hn
  obtain ⟨k, hk, rfl⟩ := List.mem_iff_getElem.1 hq
  have hcount : (s.enterMatches s.sortedCandidates s.accepted).matchCnt.toNat = s.accepted.length := by
    rw [State.enterMatches_eq]
    exact Nat.mod_eq_of_lt ((State.length_acceptedIs_le hacc).trans_lt s.candCnt.isLt)
  have hn32 : n < 2 ^ 32 := State.lt_of_mem_sortedCandidates ((State.mem_sortedCandidates_iff hwf n).2 hn)
  have hpos : ((s.enterMatches s.sortedCandidates s.accepted).hitAt k).pos.toNat = s.accepted[k] := by
    rw [State.hitAt_enterMatches_of_lt s hk]
    exact Nat.mod_eq_of_lt (hle.trans_lt hn32)
  exact ⟨k, hk.trans_eq hcount.symm, hpos.trans_le hle, by rwa [hpos]⟩

theorem eq_of_exec_of_done {i : Instr} {s t u : State} (h : exec i s = .next t) (hrun : s.run i = .done u) : t = u :=
  Host.Outcome.next.inj (h.symm.trans (exec_of_done hrun))

/-- Settles O44: the exact scan's position is a candidate, and every candidate has its match. -/
theorem theTwoSearchesFindTheSamePacket : Obligations.TheTwoSearchesFindTheSamePacket := by
  intro s a b c d e hmem hsps _ hslice hexact hfound hbin hscanRoom hscan hdedupRoom hdedup
  obtain rfl := eq_of_exec_of_done hslice (fdSliceRun_of_legal hsps)
  obtain rfl := eq_of_exec_of_done hexact rfl
  obtain rfl := eq_of_exec_of_done hbin rfl
  have hraw : (fdBinOp s).mem.raw.wf = true := Buf.wf_fill _ _ _ (Memory.raw_wf hmem)
  obtain rfl := eq_of_exec_of_done hscan (syScanRun_of_room hraw hsps hscanRoom)
  have hcand := (State.patternAt_iff_candAt hraw hsps _).1
    (patternAt_fdBinOp_of_syExactOp (Memory.raw_wf hmem) (Nat.pos_of_ne_zero (toNat_ne_zero hsps)) hfound)
  have hwf : ((fdBinOp s).storeCand ((fdBinOp s).scanned.map (BitVec.ofNat 32))).mem.cand.wf = true :=
    Buf.wf_fill _ _ _ (Memory.cand_wf (m := s.mem) hmem)
  obtain rfl := eq_of_exec_of_done hdedup (syDedupRun_of_room hwf hsps hdedupRoom)
  exact ⟨hcand, State.exists_hit_of_candidate hwf hsps hcand⟩

end Sys2Proof.Machine

/-! PROOFS. The de-whitening engine (rule R211). Each bit is XORed with the table entry at the rolling index (O45), so a
second pass from the same start index takes the first one back (O46). -/

namespace Sys2Proof.Machine

/-! The rolling index. -/

theorem indexAfter_add (b : Build) (m n : Nat) :
    ∀ idx, indexAfter b (m + n) idx = indexAfter b n (indexAfter b m idx) := by
  induction m with
  | zero => exact fun idx => by rw [Nat.zero_add, indexAfter]
  | succ m ih => exact fun idx => by rw [Nat.succ_add, indexAfter, ih, indexAfter]

/-- Inside the table the rolling index is the distance walked, modulo `W_LEN`. -/
theorem indexAfter_of_lt {b : Build} (n : Nat) : ∀ {idx}, idx < b.wLen → indexAfter b n idx = (idx + n) % b.wLen := by
  induction n with
  | zero => exact fun h => (Nat.mod_eq_of_lt h).symm
  | succ n ih =>
    intro idx h
    rw [indexAfter, nextIndex, ih (Nat.mod_lt _ (Nat.zero_lt_of_lt h)), Nat.mod_add_mod, Nat.add_assoc, Nat.add_comm 1]

/-- Every start index lies inside the table (rules R53, R283). -/
theorem startIndex_lt_wLen (b : Build) {ch : Nat} (h : ch ≤ 39) : startIndex ch < b.wLen := by
  have hstart : ∀ ch < 40, startIndex ch < 127 := by decide
  have hlen : 127 ≤ b.wLen := by unfold Build.wLen; split <;> decide
  exact (hstart ch (Nat.lt_succ_of_le h)).trans_le hlen

/-! The bits of a de-whitened byte. -/

@[simp] theorem length_byteBits (v : Byte) : (byteBits v).length = 8 := by simp [byteBits]

theorem getElem_byteBits (v : Byte) (i : Nat) (h : i < (byteBits v).length) : (byteBits v)[i] = v.getLsbD i := by
  simp [byteBits]

theorem getElem_dewhitenBits (b : Build) (bits : List Bool) : ∀ (idx i : Nat) (h : i < bits.length),
    (dewhitenBits b idx bits)[i]'(by rwa [length_dewhitenBits]) = (bits[i] ^^ b.whitenBit (indexAfter b i idx)) := by
  induction bits with
  | nil => exact fun _ i h => absurd h (Nat.not_lt_zero i)
  | cons v rest ih =>
    intro idx i h
    cases i with
    | zero => rfl
    | succ i => exact ih (nextIndex b idx) i (Nat.lt_of_succ_lt_succ h)

theorem getLsbD_ofNat_bitsToNat (bits : List Bool) {i : Nat} (hi : i < 8) :
    (BitVec.ofNat 8 (bitsToNat bits)).getLsbD i = bits.getD i false := by
  rw [BitVec.getLsbD_ofNat, testBit_bitsToNat, decide_eq_true hi, Bool.true_and]

/-- Rule R211, bit by bit: bit `i` of byte `m` meets the entry `8 * m + i` places along. -/
theorem getLsbD_getElem_dewhiten (b : Build) {i : Nat} (hi : i < 8) (xs : List Byte) :
    ∀ (idx m : Nat) (h : m < xs.length),
    ((dewhiten b idx xs)[m]'(by rwa [length_dewhiten])).getLsbD i
      = (xs[m].getLsbD i ^^ b.whitenBit (indexAfter b (8 * m + i) idx)) := by
  induction xs with
  | nil => exact fun _ m h => absurd h (Nat.not_lt_zero m)
  | cons v rest ih =>
    intro idx m h
    cases m with
    | zero =>
      have hbit : i < (byteBits v).length := by rwa [length_byteBits]
      simp only [dewhiten, List.getElem_cons_zero, getLsbD_ofNat_bitsToNat _ hi, Nat.mul_zero, Nat.zero_add]
      rw [List.getD_eq_getElem _ _ (by rwa [length_dewhitenBits]), getElem_dewhitenBits b _ idx i hbit,
        getElem_byteBits]
    | succ m =>
      have hindex : indexAfter b (8 * (m + 1) + i) idx = indexAfter b (8 * m + i) (indexAfter b 8 idx) := by
        rw [← indexAfter_add]
        congr 1
        omega
      rw [hindex]
      exact ih (indexAfter b 8 idx) m (Nat.lt_of_succ_lt_succ h)

/-- Each bit is XORed twice with the same entry, whatever the table holds (rule R212). -/
theorem dewhiten_dewhiten (b : Build) (idx : Nat) (xs : List Byte) : dewhiten b idx (dewhiten b idx xs) = xs := by
  refine List.ext_getElem (by simp) fun m _ hm => BitVec.eq_of_getLsbD_eq fun i hi => ?_
  rw [getLsbD_getElem_dewhiten b hi _ idx m (by rwa [length_dewhiten]), getLsbD_getElem_dewhiten b hi xs idx m hm,
    Bool.xor_assoc, Bool.xor_self, Bool.xor_false]

/-! What `DW.RUN` stores. -/

theorem Memory.rb_wf {m : Memory} (h : m.wf = true) : m.rb.wf = true := by
  simp only [Memory.wf, Bool.and_eq_true, and_assoc] at h
  obtain ⟨-, -, -, -, -, -, -, -, hrb, -⟩ := h
  exact hrb

theorem State.getElem_rbList {s : State} (hwf : s.mem.rb.wf = true) (n : Nat) (hn : n < s.rbList.length) :
    s.rbList[n] = s.rbAt n :=
  (Buf.getElem_window _ _ _ _ _ hwf hn).trans (by rw [Nat.zero_add, State.rbAt])

theorem State.dwAt_storeDw_of_lt (s : State) {xs : List Byte} {m : Nat} (h : m < xs.length) :
    (s.storeDw xs).dwAt m = xs[m] := Buf.get_fill_lt _ _ _ _ _ h

theorem State.dwAt_storeDw_of_le (s : State) {xs : List Byte} {m : Nat} (hl : s.dwLen.toNat ≤ xs.length)
    (h : xs.length ≤ m) : (s.storeDw xs).dwAt m = s.dwAt m := Buf.get_fill_ge _ _ _ _ _ hl h

theorem State.dwList_storeDw (s : State) {xs : List Byte} (h : xs.length < 2 ^ 32) : (s.storeDw xs).dwList = xs := by
  have hlen : (BitVec.ofNat 32 xs.length).toNat = xs.length := Nat.mod_eq_of_lt h
  rw [State.dwList, State.storeDw_dwLen, hlen]
  exact Buf.window_fill _ _ _ _

/-- The bytes that `DW.RUN` computes (rule R211). -/
def State.dewhitened (s : State) : List Byte := dewhiten s.build (startIndex s.cfgChan.toNat) s.rbList

@[simp] theorem State.length_dewhitened (s : State) : s.dewhitened.length = s.rbLen.toNat := by simp [State.dewhitened]

theorem exec_dwRun_of_legal {s : State} (h : s.cfgChan.toNat ≤ 39) :
    exec .dwRun s = .next (s.storeDw s.dewhitened) := by
  obtain ⟨hch, -⟩ | ⟨-, hrun⟩ := dwRunRun_cases s
  · exact absurd h (not_le.2 hch)
  · exact exec_of_done hrun

theorem exec_dwRun_of_illegal {s : State} (h : 39 < s.cfgChan.toNat) : exec .dwRun s = .next (s.entered 8 1 0x40) := by
  obtain ⟨-, hrun⟩ | ⟨hch, -⟩ := dwRunRun_cases s
  · have hraised : s.run .dwRun = .raised .invalidChannel s := hrun
    rw [exec_eq_finish, hraised, Run.finish_raised, State.raise_eq_entered]
    rfl
  · exact absurd h (not_lt.2 hch)

theorem State.dwList_of_exec_dwRun {s t : State} (h : s.cfgChan.toNat ≤ 39) (hrun : exec .dwRun s = .next t) :
    t.dwList = s.dewhitened := by
  obtain rfl := Host.Outcome.next.inj ((exec_dwRun_of_legal h).symm.trans hrun)
  exact s.dwList_storeDw (s.length_dewhitened.trans_lt s.rbLen.isLt)

theorem State.storeDw_dewhitened_eq (s : State) :
    s.storeDw s.dewhitened
      = { s with dwLen := s.rbLen, mem := { s.mem with dw := (s.storeDw s.dewhitened).mem.dw } } := by
  have hword : (s.storeDw s.dewhitened).dwLen = s.rbLen := by
    rw [State.storeDw_dwLen, State.length_dewhitened, BitVec.ofNat_toNat, BitVec.setWidth_eq]
  exact congrArg (fun w => { s with dwLen := w, mem := (s.storeDw s.dewhitened).mem }) hword

/-- Rule R211 in the elements of the two buffers. -/
theorem State.getLsbD_dwAt_storeDw_dewhitened {s : State} (hwf : s.mem.rb.wf = true) (h : s.cfgChan.toNat ≤ 39)
    {m i : Nat} (hm : m < s.rbLen.toNat) (hi : i < 8) :
    ((s.storeDw s.dewhitened).dwAt m).getLsbD i = ((s.rbAt m).getLsbD i
      ^^ s.build.whitenBit ((startIndex s.cfgChan.toNat + 8 * m + i) % s.build.wLen)) := by
  have hrb : m < s.rbList.length := by rwa [State.length_rbList]
  rw [State.dwAt_storeDw_of_lt s (by rwa [State.length_dewhitened])]
  simp only [State.dewhitened]
  rw [getLsbD_getElem_dewhiten _ hi _ _ _ hrb, State.getElem_rbList hwf,
    indexAfter_of_lt _ (startIndex_lt_wLen _ h), Nat.add_assoc]

/-- Settles O45: the rolling index is the start index plus the place of the bit, modulo the table's length. -/
theorem dwRunXorsTheWhiteningSequence : Obligations.DwRunXorsTheWhiteningSequence := by
  intro s hwf
  refine ⟨fun h => ⟨_, exec_dwRun_of_legal h, s.storeDw_dewhitened_eq, fun m i hm hi => ?_, fun hle m hm => ?_⟩,
    exec_dwRun_of_illegal⟩
  · exact State.getLsbD_dwAt_storeDw_dewhitened (Memory.rb_wf hwf) h hm hi
  · exact s.dwAt_storeDw_of_le (by rwa [State.length_dewhitened]) (by rwa [State.length_dewhitened])

/-- Settles O46: both passes run over the same entries of the table. -/
theorem dewhiteningIsItsOwnInverse : Obligations.DewhiteningIsItsOwnInverse := by
  intro s t u v hch hst hbuild hchan hback huv
  calc v.dwList
      = dewhiten u.build (startIndex u.cfgChan.toNat) u.rbList := State.dwList_of_exec_dwRun (by rwa [hchan]) huv
    _ = dewhiten s.build (startIndex s.cfgChan.toNat) s.dewhitened := by
      rw [hbuild, hchan, hback, State.dwList_of_exec_dwRun hch hst]
    _ = s.rbList := dewhiten_dewhiten _ _ _

end Sys2Proof.Machine

/-! PROOFS. The packet framer (rule R226). The bytes of the record are the first ones of `DW`, as many as the header
declares or as there are, and the record stands in `OUT` at the old count. -/

namespace Sys2Proof.Machine

/-! The header and the bytes it asks for. -/

theorem declaredLength_of_short {bytes : List Byte} (h : bytes.length < 2) : declaredLength bytes = 0 := by
  match bytes, h with
  | [], _ | [_], _ => rfl

theorem declaredLength_of_header {bytes : List Byte} (h : 1 < bytes.length) :
    declaredLength bytes = 2 + bytes[1].toNat + 3 := by
  match bytes, h with
  | _ :: _ :: _, _ => rfl

theorem packetBytes_prefix (bytes : List Byte) : packetBytes bytes <+: bytes := by
  unfold packetBytes
  split
  · exact List.prefix_rfl
  · exact List.take_prefix _ _

theorem length_packetBytes (bytes : List Byte) :
    (packetBytes bytes).length
      = if bytes.length < 2 then bytes.length else min (declaredLength bytes) bytes.length := by
  rw [packetBytes, apply_ite List.length, List.length_take]

/-! The bytes of `DW`. -/

theorem Memory.dw_wf {m : Memory} (h : m.wf = true) : m.dw.wf = true := by
  simp only [Memory.wf, Bool.and_eq_true, and_assoc] at h
  obtain ⟨-, -, -, -, -, -, -, -, -, hdw, -⟩ := h
  exact hdw

@[simp] theorem State.length_dwList (s : State) : s.dwList.length = s.dwLen.toNat := by simp [State.dwList]

theorem State.getElem_dwList {s : State} (hwf : s.mem.dw.wf = true) (n : Nat) (hn : n < s.dwList.length) :
    s.dwList[n] = s.dwAt n :=
  (Buf.getElem_window _ _ _ _ _ hwf hn).trans (by rw [Nat.zero_add, State.dwAt])

theorem State.declaredLength_dwList {s : State} (hwf : s.mem.dw.wf = true) :
    declaredLength s.dwList = if s.dwLen.toNat < 2 then 0 else 2 + (s.dwAt 1).toNat + 3 := by
  rw [← s.length_dwList]
  split
  next hshort => exact declaredLength_of_short hshort
  next hlong => rw [declaredLength_of_header (not_lt.1 hlong), State.getElem_dwList hwf]

theorem State.getElem?_packetBytes_dwList {s : State} (hwf : s.mem.dw.wf = true) {k : Nat}
    (hk : k < (packetBytes s.dwList).length) : (packetBytes s.dwList)[k]? = some (s.dwAt k) := by
  have hprefix := packetBytes_prefix s.dwList
  rw [List.getElem?_eq_getElem hk, hprefix.getElem hk, State.getElem_dwList hwf]

/-! What `PF.FRAME` leaves. -/

theorem exec_pfFrame_of_room {s : State} (h : s.outCnt.toNat ≠ s.build.outCap) :
    exec .pfFrame s = .next s.emitPacket := by
  obtain ⟨hfull, -⟩ | ⟨-, hrun⟩ := pfFrameRun_cases s
  · exact absurd hfull h
  · exact exec_of_done hrun

theorem State.packetAt_emitPacket_self (s : State) :
    s.emitPacket.packetAt s.outCnt.toNat = ⟨s.cfgChan, shortPacket s.dwList, packetBytes s.dwList⟩ :=
  Buf.get_put_self _ _ _ _

theorem State.packetAt_emitPacket_of_ne (s : State) {k : Nat} (h : k ≠ s.outCnt.toNat) :
    s.emitPacket.packetAt k = s.packetAt k := Buf.get_put_of_ne _ _ h _

/-- Settles O49: the record's bytes are the first ones of `DW`, as many as the header asks for, or all there are. -/
theorem pfFrameEmitsOneRecord : Obligations.PfFrameEmitsOneRecord := by
  intro s hwf hroom
  have hdw := Memory.dw_wf hwf
  refine ⟨s.emitPacket, declaredLength s.dwList, (packetBytes s.dwList).length, shortPacket s.dwList,
    exec_pfFrame_of_room hroom, State.declaredLength_dwList hdw, ?_, ?_, rfl, ?_⟩
  · rw [length_packetBytes, State.length_dwList]
  · rw [shortPacket, State.length_dwList]
  · rw [State.packetAt_emitPacket_self]
    exact ⟨rfl, rfl, rfl, fun k hk => State.getElem?_packetBytes_dwList hdw hk,
      fun k hk => s.packetAt_emitPacket_of_ne hk⟩

end Sys2Proof.Machine

/-! PROOFS. What the two pipelines share (rules R241 to R244): how a run that raises RangeError is entered, and what
reading, de-whitening and framing the bytes of one packet leave of a state. -/

namespace Sys2Proof.Machine

/-! How a pipeline ends (rules R243, R291). -/

theorem exec_of_raised_rangeError {i : Instr} {s u : State} (h : s.run i = .raised .rangeError u) :
    exec i s = .next (u.entered 10 3 i.opc) := by
  rw [exec_eq_finish, h, Run.finish_raised, State.raise_eq_entered]
  rfl

/-- A run that is done has set no fatal flag. -/
theorem flag_range_of_run_done {i : Instr} {s t : State} (h : s.run i = .done t) (hs : s.fatalBits = 0) :
    t.flag .range = false := by
  have hw := run_writes i s
  rw [h] at hw
  have hzero : t.fatalBits = 0 := hw.fatalBits_eq.elim (fun e => e.trans hs) id
  rw [State.fatalBits_eq_zero_iff, ← Bool.not_eq_true, State.fatalPending_iff] at hzero
  exact Bool.eq_false_iff.2 fun hrange => hzero ⟨.rangeError, hrange⟩

/-- Where a run is done or raises RangeError, the flag tells the two apart. -/
theorem run_raised_of_flag_range {i : Instr} {s t : State} {P : State → Prop} (hs : s.fatalBits = 0)
    (hexec : exec i s = .next t) (hflag : t.flag .range = true)
    (hcases : (∃ u, s.run i = .done u) ∨ ∃ u, s.run i = .raised .rangeError u ∧ P u) :
    ∃ u, P u ∧ t = u.entered 10 3 i.opc := by
  obtain ⟨u, hdone⟩ | ⟨u, hraised, hu⟩ := hcases
  · obtain rfl := eq_of_exec_of_done hexec hdone
    rw [flag_range_of_run_done hdone hs] at hflag
    cases hflag
  · exact ⟨u, hu, Host.Outcome.next.inj (hexec.symm.trans (exec_of_raised_rangeError hraised))⟩

/-! De-whitening and framing. -/

/-- The state `DW.RUN` leaves (rule R211). -/
def State.whitened (s : State) : State := s.storeDw s.dewhitened

theorem dwRunRun_of_legal {s : State} (h : s.cfgChan.toNat ≤ 39) : dwRunRun s = .done s.whitened := by
  obtain ⟨hch, -⟩ | ⟨-, hrun⟩ := dwRunRun_cases s
  · exact absurd h (not_le.2 hch)
  · exact hrun

theorem pfFrameRun_of_room {s : State} (h : ¬ rangeCause s .pfFrame) : pfFrameRun s = .done s.emitPacket := if_neg h

theorem pfFrameRun_of_full {s : State} (h : rangeCause s .pfFrame) : pfFrameRun s = .raised .rangeError s := if_pos h

theorem State.toNat_outCnt_emitPacket {s : State} (h : s.outCnt.toNat + 1 < 2 ^ 32) :
    s.emitPacket.outCnt.toNat = s.outCnt.toNat + 1 :=
  (BitVec.toNat_add _ _).trans (Nat.mod_eq_of_lt h)

/-- `t` is `s` but for what reading, de-whitening and framing the bytes of a packet write (rules R190, R211, R226). -/
structure State.Framed (s t : State) : Prop where
  eq : t = { s with
    rbLen := t.rbLen
    dwLen := t.dwLen
    outCnt := t.outCnt
    status := t.status
    pfDecl := t.pfDecl
    mem := { s.mem with rb := t.mem.rb, dw := t.mem.dw, out := t.mem.out } }
  fatalBits : t.fatalBits = s.fatalBits

theorem State.Framed.refl (s : State) : s.Framed s := ⟨rfl, rfl⟩

theorem State.Framed.trans {s t u : State} (h : s.Framed t) (k : t.Framed u) : s.Framed u :=
  ⟨k.eq.trans (by rw [h.eq]), k.fatalBits.trans h.fatalBits⟩

theorem State.framed_storeRb (s : State) (xs : List Byte) : s.Framed (s.storeRb xs) := ⟨rfl, rfl⟩

theorem State.framed_whitened (s : State) : s.Framed s.whitened := ⟨rfl, rfl⟩

theorem State.framed_emitPacket (s : State) : s.Framed s.emitPacket :=
  ⟨rfl, State.fatalBits_setFlag _ (by decide) _⟩

/-- One packet: its bytes read, de-whitened and framed. -/
theorem State.framed_packet (s : State) (xs : List Byte) : s.Framed (s.storeRb xs).whitened.emitPacket :=
  ((s.framed_storeRb xs).trans (State.framed_whitened _)).trans (State.framed_emitPacket _)

end Sys2Proof.Machine

/-! PROOFS. `PIPE.BURST`, one round (rules R241, R243, R244): the body of the loop is the commands of the sequence for one
burst. -/

namespace Sys2Proof.Machine

/-! The commands of one round. -/

/-- The state `FD.DEMOD` leaves (rule R158). -/
def State.demodulated (ug ck : Bool) (s : State) : State :=
  (clockStage ck (s.storeFreq (frequencies ug s.segment))).slice

/-- The state the single-phase scan leaves, by correlation or exact (rules R183, R184). -/
def State.searched (cr : Bool) (s : State) : State := if cr then syCorrOp s else syExactOp s

theorem exec_searched (cr : Bool) (s : State) : exec (if cr then .syCorr else .syExact) s = .next (s.searched cr) := by
  cases cr <;> rfl

theorem State.searched_cases (cr : Bool) (s : State) :
    (∃ p hd, s.searched cr = s.syncFound p hd) ∨ s.searched cr = s.syncMissed := by
  cases cr with
  | true => exact syCorrOp_cases s
  | false =>
    obtain ⟨p, -, h⟩ | ⟨-, h⟩ := syExactOp_cases s
    · exact .inl ⟨p, 0, h⟩
    · exact .inr h

theorem syGetbOp_eq_storeRb (s : State) : ∃ xs, syGetbOp s = s.storeRb xs := by
  unfold syGetbOp
  split
  · exact ⟨_, rfl⟩
  · exact ⟨_, rfl⟩

/-- `t` is `s` but for what the commands of one round write: the detector, the stream and the candidates stay. -/
structure State.Received (s t : State) : Prop where
  eq : t = { s with
    freqLen := t.freqLen
    fdOff := t.fdOff
    bitsLen := t.bitsLen
    syPos := t.syPos
    syHd := t.syHd
    rbLen := t.rbLen
    dwLen := t.dwLen
    outCnt := t.outCnt
    status := t.status
    cntFound := t.cntFound
    cntFailed := t.cntFailed
    pfDecl := t.pfDecl
    mem := { s.mem with
      freq := t.mem.freq, bits := t.mem.bits, rb := t.mem.rb, dw := t.mem.dw, out := t.mem.out } }
  fatalBits : t.fatalBits = s.fatalBits

theorem State.Received.trans {s t u : State} (h : s.Received t) (k : t.Received u) : s.Received u :=
  ⟨k.eq.trans (by rw [h.eq]), k.fatalBits.trans h.fatalBits⟩

theorem State.Framed.received {s t : State} (h : s.Framed t) : s.Received t := ⟨by rw [h.eq], h.fatalBits⟩

theorem State.demodulated_eq (ug ck : Bool) (s : State) : s.demodulated ug ck =
    { s with
      freqLen := (s.demodulated ug ck).freqLen
      fdOff := (s.demodulated ug ck).fdOff
      bitsLen := (s.demodulated ug ck).bitsLen
      status := (s.demodulated ug ck).status
      mem := { s.mem with freq := (s.demodulated ug ck).mem.freq, bits := (s.demodulated ug ck).mem.bits } } := by
  unfold State.demodulated
  rw [clockStage_eq]
  rfl

theorem State.received_demodulated (ug ck : Bool) (s : State) : s.Received (s.demodulated ug ck) :=
  ⟨by rw [State.demodulated_eq], clockStage_fatalBits ck _⟩

theorem State.received_searched (cr : Bool) (s : State) : s.Received (s.searched cr) := by
  obtain ⟨p, hd, h⟩ | h := s.searched_cases cr <;> rw [h]
  · exact ⟨rfl, State.fatalBits_setFlag { s with syPos := _, syHd := _ } (by decide) _⟩
  · exact ⟨rfl, State.fatalBits_setFlag s (by decide) _⟩

theorem State.searched_outCnt (cr : Bool) (s : State) : (s.searched cr).outCnt = s.outCnt := by
  obtain ⟨p, hd, h⟩ | h := s.searched_cases cr <;> rw [h] <;> rfl

theorem State.demodulated_outCnt (ug ck : Bool) (s : State) : (s.demodulated ug ck).outCnt = s.outCnt := by
  rw [State.demodulated_eq]

/-- The commands of rule R244 for one burst, after the `BD.NEXT` that entered it. -/
inductive BurstRound (ug ck cr : Bool) : State → State → Prop
  | miss {a b c : State} (demod : exec (.fdDemod ug ck) a = .next b)
      (scan : exec (if cr then .syCorr else .syExact) b = .next c) (missed : c.flag .syncnf = true) :
      BurstRound ug ck cr a c
  | packet {a b c d e f : State} (demod : exec (.fdDemod ug ck) a = .next b)
      (scan : exec (if cr then .syCorr else .syExact) b = .next c) (found : c.flag .syncnf = false)
      (bytes : exec .syGetb c = .next d) (white : exec .dwRun d = .next e) (space : ¬ rangeCause e .pfFrame)
      (frame : exec .pfFrame e = .next f) : BurstRound ug ck cr a f

/-- The commands of rule R244 for one burst up to a full `OUT` (rule R243). -/
inductive BurstFull (ug ck cr : Bool) : State → State → Prop
  | record {a b c d e : State} (demod : exec (.fdDemod ug ck) a = .next b)
      (scan : exec (if cr then .syCorr else .syExact) b = .next c) (found : c.flag .syncnf = false)
      (bytes : exec .syGetb c = .next d) (white : exec .dwRun d = .next e) (full : rangeCause e .pfFrame) :
      BurstFull ug ck cr a e

theorem BurstPass.round {ug ck cr : Bool} {s a c t : State} (next : exec .bdNext s = .next a)
    (some : a.flag .noburst = false) (round : BurstRound ug ck cr a c) (rest : BurstPass ug ck cr c t) :
    BurstPass ug ck cr s t := by
  cases round with
  | miss demod scan missed => exact .miss next some demod scan missed rest
  | packet demod scan found bytes white _ frame => exact .packet next some demod scan found bytes white frame rest

theorem BurstHalt.round {ug ck cr : Bool} {s a c u : State} (room : ¬ rangeCause s .bdNext)
    (next : exec .bdNext s = .next a) (some : a.flag .noburst = false) (round : BurstRound ug ck cr a c)
    (rest : BurstHalt ug ck cr c u) : BurstHalt ug ck cr s u := by
  cases round with
  | miss demod scan missed => exact .miss room next some demod scan missed rest
  | packet demod scan found bytes white space frame =>
    exact .packet room next some demod scan found bytes white space frame rest

theorem BurstHalt.last {ug ck cr : Bool} {s a u : State} (room : ¬ rangeCause s .bdNext)
    (next : exec .bdNext s = .next a) (some : a.flag .noburst = false) (full : BurstFull ug ck cr a u) :
    BurstHalt ug ck cr s u := by
  cases full with
  | record demod scan found bytes white full => exact .record room next some demod scan found bytes white full

/-- What rule R241 checks before the pass, with the cursor inside the stream (rule R135). -/
structure BurstReady (ck : Bool) (s : State) : Prop where
  samp_wf : s.mem.samp.wf = true
  burst_wf : s.mem.burst.wf = true
  detector : s.detectorReady
  sps : s.cfgSps ≠ 0
  skip : ck = true → 2 ≤ s.cfgSkip.toNat
  chan : s.cfgChan.toNat ≤ 39
  cursor : s.bdCur.toNat ≤ s.sampLen.toNat

theorem BurstReady.received {ck : Bool} {s t : State} (hs : BurstReady ck s) (h : s.Received t) : BurstReady ck t := by
  rw [h.eq]
  exact { hs with }

theorem BurstReady.enterSpan {ck : Bool} {s : State} {b : Span} (hs : BurstReady ck s)
    (hb : s.burstFrom s.bdCur.toNat b) : BurstReady ck (s.enterSpan b) := by
  obtain ⟨-, -, hstop⟩ := State.burstFrom_bounds hs.detector hb
  exact { hs with
    burst_wf := Buf.wf_put _ _ _ hs.burst_wf
    cursor := hstop }

/-- A burst that was entered is a legal segment (rules R135, R151). -/
theorem State.segmentIllegal_enterSpan {s : State} {b : Span} (hr : s.detectorReady) {c : Nat}
    (hb : s.burstFrom c b) : (s.enterSpan b).segmentIllegal = false := by
  obtain ⟨-, hlt, hstop⟩ := State.burstFrom_bounds hr hb
  exact (s.enterSpan b).segmentIllegal_eq_false_iff.2 ⟨hlt.le, hstop⟩

theorem State.flag_enterSpan_noburst (s : State) (b : Span) : (s.enterSpan b).flag .noburst = false :=
  (s.flag_setFlag .noburst .noburst false).trans (if_pos rfl)

/-! One round of the loop is one round of the sequence. -/

section Round

variable {ug ck cr : Bool} {a : State} (ha : BurstReady ck a)
include ha

/-- The channel was checked before the pass, so `DW.RUN` does not raise. -/
theorem BurstReady.chan_syGetbOp : (syGetbOp ((a.demodulated ug ck).searched cr)).cfgChan.toNat ≤ 39 := by
  obtain ⟨xs, hxs⟩ := syGetbOp_eq_storeRb ((a.demodulated ug ck).searched cr)
  rw [hxs]
  exact (ha.received ((a.received_demodulated ug ck).trans (State.received_searched cr _))).chan

variable (hseg : a.segmentIllegal = false)
include hseg

theorem exec_fdDemod_of_ready : exec (.fdDemod ug ck) a = .next (a.demodulated ug ck) :=
  exec_of_done (fdDemodRun_of_legal ug ha.sps ha.skip hseg)

/-- The body of the loop: past the checks only `PF.FRAME` can raise. -/
theorem burstBody_eq : burstBody ug ck cr a =
    if ((a.demodulated ug ck).searched cr).flag .syncnf then .done ((a.demodulated ug ck).searched cr)
    else pfFrameRun (syGetbOp ((a.demodulated ug ck).searched cr)).whitened := by
  have hdemod : fdDemodRun ug ck a = .done (a.demodulated ug ck) := fdDemodRun_of_legal ug ha.sps ha.skip hseg
  rw [burstBody, hdemod, Run.done_andThen, ← Run.done_andThen (syGetbOp _).whitened pfFrameRun,
    ← dwRunRun_of_legal (ha.chan_syGetbOp (ug := ug) (cr := cr))]
  rfl

theorem BurstRound.burstBody_eq_done {c : State} (h : BurstRound ug ck cr a c) : burstBody ug ck cr a = .done c := by
  rw [burstBody_eq ha hseg]
  cases h with
  | miss demod scan missed =>
    obtain rfl := Host.Outcome.next.inj ((exec_fdDemod_of_ready ha hseg).symm.trans demod)
    obtain rfl := Host.Outcome.next.inj ((exec_searched cr _).symm.trans scan)
    rw [if_pos missed]
  | packet demod scan found bytes white space frame =>
    obtain rfl := Host.Outcome.next.inj ((exec_fdDemod_of_ready ha hseg).symm.trans demod)
    obtain rfl := Host.Outcome.next.inj ((exec_searched cr _).symm.trans scan)
    obtain rfl := eq_of_exec_of_done bytes rfl
    obtain rfl := eq_of_exec_of_done white (dwRunRun_of_legal (ha.chan_syGetbOp))
    obtain rfl := eq_of_exec_of_done frame (pfFrameRun_of_room space)
    rw [found, if_neg Bool.false_ne_true, pfFrameRun_of_room space]

theorem BurstFull.burstBody_eq_raised {u : State} (h : BurstFull ug ck cr a u) :
    burstBody ug ck cr a = .raised .rangeError u := by
  obtain ⟨demod, scan, found, bytes, white, full⟩ := h
  obtain rfl := Host.Outcome.next.inj ((exec_fdDemod_of_ready ha hseg).symm.trans demod)
  obtain rfl := Host.Outcome.next.inj ((exec_searched cr _).symm.trans scan)
  obtain rfl := eq_of_exec_of_done bytes rfl
  obtain rfl := eq_of_exec_of_done white (dwRunRun_of_legal (ha.chan_syGetbOp))
  rw [burstBody_eq ha hseg, found, if_neg Bool.false_ne_true, pfFrameRun_of_full full]

/-- A round ends, with at most one more record, or it meets a full `OUT`. -/
theorem burstRound_cases :
    (∃ c, BurstRound ug ck cr a c ∧ a.Received c
      ∧ (a.outCnt.toNat + 1 < 2 ^ 32 → a.outCnt.toNat ≤ c.outCnt.toNat ∧ c.outCnt.toNat ≤ a.outCnt.toNat + 1))
    ∨ ∃ u, BurstFull ug ck cr a u ∧ a.outCnt.toNat = a.build.outCap := by
  have hdemod := exec_fdDemod_of_ready ha hseg (ug := ug)
  have hscan := exec_searched cr (a.demodulated ug ck)
  have hwhite : exec .dwRun _ = .next (State.whitened _) :=
    exec_dwRun_of_legal (ha.chan_syGetbOp (ug := ug) (cr := cr))
  have hreceived := (a.received_demodulated ug ck).trans (State.received_searched cr _)
  have hcount : ((a.demodulated ug ck).searched cr).outCnt = a.outCnt :=
    (State.searched_outCnt cr _).trans (a.demodulated_outCnt ug ck)
  obtain ⟨xs, hxs⟩ := syGetbOp_eq_storeRb ((a.demodulated ug ck).searched cr)
  have hbytes : exec .syGetb _ = .next _ := exec_of_done (congrArg Run.done hxs)
  rw [hxs] at hwhite
  generalize (a.demodulated ug ck).searched cr = c at *
  cases hflag : c.flag .syncnf with
  | true => exact .inl ⟨c, .miss hdemod hscan hflag, hreceived, fun _ => by rw [hcount]; omega⟩
  | false =>
    by_cases hfull : rangeCause (c.storeRb xs).whitened .pfFrame
    · refine .inr ⟨_, .record hdemod hscan hflag hbytes hwhite hfull, ?_⟩
      have hcap : c.outCnt.toNat = c.build.outCap := hfull
      rwa [hcount, hreceived.eq] at hcap
    · refine .inl ⟨_, .packet hdemod hscan hflag hbytes hwhite hfull (exec_of_done (pfFrameRun_of_room hfull)),
        hreceived.trans (c.framed_packet xs).received, fun hlt => ?_⟩
      rw [← hcount] at hlt ⊢
      have hone : (c.storeRb xs).whitened.emitPacket.outCnt.toNat = c.outCnt.toNat + 1 :=
        State.toNat_outCnt_emitPacket hlt
      omega

theorem BurstRound.received {c : State} (h : BurstRound ug ck cr a c) : a.Received c := by
  have hrun := h.burstBody_eq_done ha hseg
  obtain ⟨d, hd, hreceived, -⟩ | ⟨u, hu, -⟩ := burstRound_cases ha hseg (ug := ug) (cr := cr)
  · obtain rfl := Run.done.inj (hrun.symm.trans (hd.burstBody_eq_done ha hseg))
    exact hreceived
  · cases hrun.symm.trans (hu.burstBody_eq_raised ha hseg)

end Round

end Sys2Proof.Machine

/-! PROOFS. `PIPE.BURST` is its command sequence (rules R241, R243, R244; O51): round by round, the loop makes the pass
where the lists have room, and halts where the sequence meets a full one. -/

namespace Sys2Proof.Machine

/-! The search for the next burst, on the way through a pass. -/

section Next

variable {ck : Bool} {s : State} (hs : BurstReady ck s)
include hs

/-- Past the checks `BD.NEXT` finds nothing, enters the next burst, or meets a full `BURST`. -/
theorem BurstReady.next_cases :
    (s.noBurstFrom s.bdCur.toNat ∧ bdNextRun s = .done (s.setFlag .noburst true))
    ∨ (∃ b, s.burstFrom s.bdCur.toNat b ∧ ¬ rangeCause s .bdNext ∧ bdNextRun s = .done (s.enterSpan b))
    ∨ rangeCause s .bdNext := by
  by_cases hnone : s.noBurstFrom s.bdCur.toNat
  · exact .inl ⟨hnone, bdNextRun_of_noBurstFrom hs.samp_wf hs.detector hs.cursor hnone⟩
  · obtain ⟨b, hb⟩ := State.exists_burstFrom hs.samp_wf hs.detector hnone
    by_cases hfull : rangeCause s .bdNext
    · exact .inr (.inr hfull)
    · have hroom : s.burstCnt.toNat ≠ s.build.burstCap := fun h => hfull (.inr ⟨h, hnone⟩)
      exact .inr (.inl ⟨b, hb, hfull, bdNextRun_of_burstFrom hs.samp_wf hs.detector hs.cursor hroom hb⟩)

theorem BurstReady.bdNextRun_of_full (h : rangeCause s .bdNext) : bdNextRun s = .raised .rangeError s := by
  have hcur := hs.cursor
  obtain h | ⟨hfull, hsome⟩ := h
  · omega
  · obtain ⟨b, hb⟩ := State.exists_burstFrom hs.samp_wf hs.detector hsome
    have hlegal := s.detectorIllegal_eq_false_iff.2 hs.detector
    have hin : ¬ s.sampLen < s.bdCur := not_lt.2 hcur
    simp [bdNextRun, hlegal, hin, (nextBurst_eq_some_iff hs.samp_wf hs.detector b).2 hb, hfull]

/-- A `BD.NEXT` of the sequence that had room and did not report `NOBURST` entered a burst. -/
theorem BurstReady.enterSpan_of_next {a : State} (room : ¬ rangeCause s .bdNext) (next : exec .bdNext s = .next a)
    (some : a.flag .noburst = false) :
    ∃ b, s.burstFrom s.bdCur.toNat b ∧ a = s.enterSpan b ∧ bdNextRun s = .done (s.enterSpan b) := by
  obtain ⟨-, hrun⟩ | ⟨b, hb, -, hrun⟩ | hfull := hs.next_cases
  · obtain rfl := eq_of_exec_of_done next hrun
    rw [State.flag_setFlag, if_pos rfl] at some
    cases some
  · exact ⟨b, hb, eq_of_exec_of_done next hrun, hrun⟩
  · exact absurd hfull room

end Next

theorem State.Received.passFrom_iff {s t : State} (h : s.Received t) (bs : List Span) (c : Nat) :
    t.passFrom c bs ↔ s.passFrom c bs :=
  State.passFrom_congr (fun _ _ => by rw [h.eq]; exact .rfl) (fun _ => by rw [h.eq]; exact .rfl) bs c

/-! One round of the loop. -/

section Loop

variable {ug ck cr : Bool} {n : Nat}

theorem burstLoop_succ_of_enterSpan {s : State} {b : Span} (h : bdNextRun s = .done (s.enterSpan b)) :
    burstLoop ug ck cr (n + 1) s = (burstBody ug ck cr (s.enterSpan b)).andThen (burstLoop ug ck cr n) := by
  rw [burstLoop, h, Run.done_andThen, s.flag_enterSpan_noburst, if_neg Bool.false_ne_true]

theorem burstLoop_succ_of_none {s : State} (h : bdNextRun s = .done (s.setFlag .noburst true)) :
    burstLoop ug ck cr (n + 1) s = .done (s.setFlag .noburst true) := by
  rw [burstLoop, h, Run.done_andThen, State.flag_setFlag, if_pos rfl, if_pos rfl]

/-- A round of the sequence is a round of the loop, and it moves the cursor on, so fewer rounds are left (rule R136). -/
theorem BurstReady.loop_round {s c : State} {b : Span} (hs : BurstReady ck s)
    (hn : s.sampLen.toNat - s.bdCur.toNat < n + 1) (hb : s.burstFrom s.bdCur.toNat b)
    (hrun : bdNextRun s = .done (s.enterSpan b)) (hround : BurstRound ug ck cr (s.enterSpan b) c) :
    burstLoop ug ck cr (n + 1) s = burstLoop ug ck cr n c ∧ BurstReady ck c
      ∧ c.sampLen.toNat - c.bdCur.toNat < n := by
  have ha := hs.enterSpan hb
  have hseg := State.segmentIllegal_enterSpan hs.detector hb
  have hreceived := hround.received ha hseg
  obtain ⟨hlo, hlt, hhi⟩ := State.burstFrom_bounds hs.detector hb
  refine ⟨?_, ha.received hreceived, ?_⟩
  · rw [burstLoop_succ_of_enterSpan hrun, hround.burstBody_eq_done ha hseg, Run.done_andThen]
  · rw [hreceived.eq]
    change s.sampLen.toNat - b.stop.toNat < n
    omega

/-- A round that meets a full `OUT` ends the loop (rule R243). -/
theorem BurstReady.loop_full {s u : State} {b : Span} (hs : BurstReady ck s) (hb : s.burstFrom s.bdCur.toNat b)
    (hrun : bdNextRun s = .done (s.enterSpan b)) (hfull : BurstFull ug ck cr (s.enterSpan b) u) :
    burstLoop ug ck cr (n + 1) s = .raised .rangeError u := by
  rw [burstLoop_succ_of_enterSpan hrun,
    hfull.burstBody_eq_raised (hs.enterSpan hb) (State.segmentIllegal_enterSpan hs.detector hb), Run.raised_andThen]

end Loop

/-! Where a list is full (rule R243). -/

section Halt

variable {ug ck cr : Bool}

/-- The sequence up to the full list, taken apart at its rounds and not at their commands. -/
theorem BurstHalt.cases_round {s u : State} (h : BurstHalt ug ck cr s u) :
    (rangeCause s .bdNext ∧ u = s) ∨ ∃ a, ¬ rangeCause s .bdNext ∧ exec .bdNext s = .next a
      ∧ a.flag .noburst = false
      ∧ (BurstFull ug ck cr a u ∨ ∃ c, BurstRound ug ck cr a c ∧ BurstHalt ug ck cr c u) := by
  cases h with
  | full full => exact .inl ⟨full, rfl⟩
  | miss room next some demod scan missed rest =>
    exact .inr ⟨_, room, next, some, .inr ⟨_, .miss demod scan missed, rest⟩⟩
  | record room next some demod scan found bytes white full =>
    exact .inr ⟨_, room, next, some, .inl (.record demod scan found bytes white full)⟩
  | packet room next some demod scan found bytes white space frame rest =>
    exact .inr ⟨_, room, next, some, .inr ⟨_, .packet demod scan found bytes white space frame, rest⟩⟩

/-- The loop halts where the sequence does. -/
theorem BurstHalt.burstLoop_eq {n : Nat} : ∀ {s u : State}, BurstHalt ug ck cr s u → BurstReady ck s →
    s.sampLen.toNat - s.bdCur.toNat < n → burstLoop ug ck cr n s = .raised .rangeError u := by
  induction n with
  | zero => exact fun _ _ hn => absurd hn (Nat.not_lt_zero _)
  | succ n ih =>
    intro s u hhalt hs hn
    obtain ⟨full, rfl⟩ | ⟨a, room, next, some, hrest⟩ := hhalt.cases_round
    · rw [burstLoop, hs.bdNextRun_of_full full, Run.raised_andThen]
    · obtain ⟨b, hb, rfl, hrun⟩ := hs.enterSpan_of_next room next some
      obtain hfull | ⟨c, hround, hhalt⟩ := hrest
      · exact hs.loop_full hb hrun hfull
      · obtain ⟨hloop, hc, hleft⟩ := hs.loop_round hn hb hrun hround
        rw [hloop]
        exact ih hhalt hc hleft

/-- The loop ends, or it halts where the sequence does. -/
theorem burstLoop_cases {n : Nat} : ∀ {s : State}, BurstReady ck s → s.sampLen.toNat - s.bdCur.toNat < n →
    (∃ t, burstLoop ug ck cr n s = .done t)
    ∨ ∃ u, burstLoop ug ck cr n s = .raised .rangeError u ∧ BurstHalt ug ck cr s u := by
  induction n with
  | zero => exact fun _ hn => absurd hn (Nat.not_lt_zero _)
  | succ n ih =>
    intro s hs hn
    obtain ⟨-, hrun⟩ | ⟨b, hb, room, hrun⟩ | hfull := hs.next_cases
    · exact .inl ⟨_, burstLoop_succ_of_none hrun⟩
    · have hnext : exec .bdNext s = .next (s.enterSpan b) := exec_of_done hrun
      obtain ⟨c, hround, -⟩ | ⟨u, hu, -⟩ := burstRound_cases (ug := ug) (cr := cr) (hs.enterSpan hb)
        (State.segmentIllegal_enterSpan hs.detector hb)
      · obtain ⟨hloop, hc, hleft⟩ := hs.loop_round hn hb hrun hround
        rw [hloop]
        refine (ih hc hleft).imp_right fun ⟨u, hraised, hhalt⟩ => ⟨u, hraised, ?_⟩
        exact .round room hnext (s.flag_enterSpan_noburst b) hround hhalt
      · exact .inr ⟨u, hs.loop_full hb hrun hu, .last room hnext (s.flag_enterSpan_noburst b) hu⟩
    · refine .inr ⟨s, ?_, .full hfull⟩
      rw [burstLoop, hs.bdNextRun_of_full hfull, Run.raised_andThen]

end Halt

/-! Where the lists have room (rule R244). -/

/-- Entering a burst appends it to the list (rule R132). -/
theorem State.burstList_enterSpan {s : State} (hwf : s.mem.burst.wf = true) (hroom : s.burstCnt.toNat + 1 < 2 ^ 32)
    (b : Span) : (s.enterSpan b).burstList = s.burstList ++ [b] := by
  have hcount : (s.enterSpan b).burstCnt.toNat = s.burstCnt.toNat + 1 :=
    (BitVec.toNat_add _ _).trans (Nat.mod_eq_of_lt hroom)
  have hlen : s.burstList.length = s.burstCnt.toNat := by simp [State.burstList]
  have hlen' : (s.enterSpan b).burstList.length = s.burstCnt.toNat + 1 := by simp [State.burstList, hcount]
  refine List.ext_getElem (by rw [hlen', List.length_append, hlen]; rfl) fun k hk hk' => ?_
  have hread : (s.enterSpan b).burstList[k] = (s.enterSpan b).burstAt k :=
    (Buf.getElem_window _ _ _ _ _ (Buf.wf_put _ _ _ hwf) hk).trans (by rw [Nat.zero_add]; rfl)
  rw [hread, State.burstAt_enterSpan, List.getElem_append]
  split_ifs with hself hlt hlt
  · omega
  · simp
  · exact ((Buf.getElem_window _ _ _ _ _ hwf hlt).trans (by rw [Nat.zero_add]; rfl)).symm
  · omega

/-- What a whole pass over the bursts `bs` leaves of a state (rules R241, R244, R246). -/
structure BurstResult (s : State) (bs : List Span) (t : State) : Prop where
  noburst : t.flag .noburst = true
  fatalBits : t.fatalBits = s.fatalBits
  err : t.err = s.err
  list : t.burstList = s.burstList ++ bs
  last : s.noBurstFrom t.bdCur.toNat
  le_outCnt : s.outCnt.toNat ≤ t.outCnt.toNat
  outCnt_le : t.outCnt.toNat ≤ s.outCnt.toNat + bs.length
  rawLen : t.rawLen = s.rawLen
  candCnt : t.candCnt = s.candCnt
  matchCnt : t.matchCnt = s.matchCnt
  mem : t.mem = { s.mem with
    burst := t.mem.burst, freq := t.mem.freq, bits := t.mem.bits, rb := t.mem.rb, dw := t.mem.dw, out := t.mem.out }

theorem BurstResult.nil {s : State} (h : s.noBurstFrom s.bdCur.toNat) : BurstResult s [] (s.setFlag .noburst true) where
  noburst := (s.flag_setFlag .noburst .noburst true).trans (if_pos rfl)
  fatalBits := s.fatalBits_setFlag (by decide) true
  err := rfl
  list := (List.append_nil _).symm
  last := h
  le_outCnt := le_rfl
  outCnt_le := le_rfl
  rawLen := rfl
  candCnt := rfl
  matchCnt := rfl
  mem := rfl

theorem BurstResult.cons {s c t : State} {b : Span} {bs : List Span} (hwf : s.mem.burst.wf = true)
    (hroom : s.burstCnt.toNat + 1 < 2 ^ 32) (hreceived : (s.enterSpan b).Received c)
    (hle : s.outCnt.toNat ≤ c.outCnt.toNat) (hge : c.outCnt.toNat ≤ s.outCnt.toNat + 1) (h : BurstResult c bs t) :
    BurstResult s (b :: bs) t where
  noburst := h.noburst
  fatalBits := h.fatalBits.trans (hreceived.fatalBits.trans (s.fatalBits_setFlag (by decide) false))
  err := h.err.trans (by rw [hreceived.eq]; rfl)
  list := by
    have hlist : c.burstList = (s.enterSpan b).burstList := by rw [hreceived.eq]; rfl
    rw [h.list, hlist, State.burstList_enterSpan hwf hroom, List.append_assoc, List.singleton_append]
  last := by
    have hlast := h.last
    rw [hreceived.eq] at hlast
    exact hlast
  le_outCnt := hle.trans h.le_outCnt
  outCnt_le := by have := h.outCnt_le; rw [List.length_cons]; omega
  rawLen := h.rawLen.trans (by rw [hreceived.eq]; rfl)
  candCnt := h.candCnt.trans (by rw [hreceived.eq]; rfl)
  matchCnt := h.matchCnt.trans (by rw [hreceived.eq]; rfl)
  mem := h.mem.trans (by rw [hreceived.eq]; rfl)

/-- The loop makes the pass: one round for each burst and one more `BD.NEXT` that finds none. -/
theorem burstLoop_of_passFrom {ug ck cr : Bool} {bs : List Span} : ∀ {n : Nat} {s : State}, BurstReady ck s →
    s.sampLen.toNat - s.bdCur.toNat < n → s.passFrom s.bdCur.toNat bs →
    s.build.burstCap < 2 ^ 31 → s.build.outCap < 2 ^ 31 → s.burstCnt.toNat + bs.length ≤ s.build.burstCap →
    s.outCnt.toNat + bs.length ≤ s.build.outCap →
    ∃ t, burstLoop ug ck cr n s = .done t ∧ BurstPass ug ck cr s t ∧ BurstResult s bs t := by
  induction bs with
  | nil =>
    rintro (_ | n) s hs hn hpass - - - -
    · exact absurd hn (Nat.not_lt_zero _)
    · have hrun := bdNextRun_of_noBurstFrom hs.samp_wf hs.detector hs.cursor hpass
      have hresult := BurstResult.nil hpass
      exact ⟨_, burstLoop_succ_of_none hrun, .stop (exec_of_done hrun) hresult.noburst, hresult⟩
  | cons b rest ih =>
    rintro (_ | n) s hs hn ⟨hb, hrest⟩ hburstCap houtCap hbursts hout
    · exact absurd hn (Nat.not_lt_zero _)
    · rw [List.length_cons] at hbursts hout
      have hrun := bdNextRun_of_burstFrom hs.samp_wf hs.detector hs.cursor (by omega) hb
      obtain ⟨c, hround, hreceived, hcount⟩ | ⟨u, -, hfull⟩ := burstRound_cases (ug := ug) (cr := cr)
        (hs.enterSpan hb) (State.segmentIllegal_enterSpan hs.detector hb)
      · obtain ⟨hle, hge⟩ : s.outCnt.toNat ≤ c.outCnt.toNat ∧ c.outCnt.toNat ≤ s.outCnt.toNat + 1 :=
          hcount (show s.outCnt.toNat + 1 < 2 ^ 32 by omega)
        obtain ⟨hloop, hc, hleft⟩ := hs.loop_round hn hb hrun hround
        have hcur : c.bdCur = b.stop := by rw [hreceived.eq]; rfl
        have hpass : c.passFrom c.bdCur.toNat rest := by
          rw [hreceived.passFrom_iff, s.passFrom_enterSpan, hcur]
          exact hrest
        have hbuild : c.build = s.build := by rw [hreceived.eq]; rfl
        have hburst : c.burstCnt = s.burstCnt + 1 := by rw [hreceived.eq]; rfl
        have hnext := toNat_add_one_le s.burstCnt
        obtain ⟨t, hloop', hseq, hresult⟩ := ih hc hleft hpass (by rwa [hbuild]) (by rwa [hbuild])
          (by rw [hbuild, hburst]; omega) (by rw [hbuild]; omega)
        exact ⟨t, hloop.trans hloop', .round (exec_of_done hrun) (s.flag_enterSpan_noburst b) hround hseq,
          .cons hs.burst_wf (by omega) hreceived hle hge hresult⟩
      · have hcap : s.outCnt.toNat = s.build.outCap := hfull
        omega

/-! The operation. -/

theorem Build.caps_lt_of_legal {b : Build} (h : b.legal = true) : b.burstCap < 2 ^ 31 ∧ b.outCap < 2 ^ 31 := by
  simp only [Build.legal, Bool.and_eq_true, decide_eq_true_eq] at h
  omega

theorem burstReady_bdRstOp {ug ck cr : Bool} {s : State} (hmem : s.mem.wf = true) (hchan : s.cfgChan.toNat ≤ 39)
    (hcfg : ¬ configCause s (.pipeBurst ug ck cr)) : BurstReady ck (bdRstOp s) := by
  obtain ⟨hsps, hrest⟩ := not_or.1 hcfg
  obtain ⟨hskip, hdet⟩ := not_or.1 hrest
  exact ⟨Memory.samp_wf hmem, Memory.burst_wf hmem, not_not.1 hdet, hsps,
    fun hck => not_lt.1 fun hlt => hskip ⟨hck, hlt⟩, hchan, Nat.zero_le _⟩

/-- Past the checks of rule R241 `PIPE.BURST` is its loop from a fresh pass. -/
theorem pipeBurstRun_of_ready {ug ck cr : Bool} {s : State} (h : BurstReady ck (bdRstOp s)) :
    pipeBurstRun ug ck cr s = burstLoop ug ck cr (s.sampLen.toNat + 1) (bdRstOp s) := by
  have hchan : s.channelIllegal = false := decide_eq_false (not_lt.2 h.chan)
  have hcfg : ¬ (s.cfgSps.toNat = 0 ∨ (ck = true ∧ s.cfgSkip.toNat < 2)) :=
    not_or.2 ⟨toNat_ne_zero h.sps, fun ⟨hck, hlt⟩ => absurd (h.skip hck) (not_le.2 hlt)⟩
  have hdet : s.detectorIllegal = false := s.detectorIllegal_eq_false_iff.2 h.detector
  rw [pipeBurstRun, hchan, if_neg Bool.false_ne_true, if_neg hcfg, hdet, if_neg Bool.false_ne_true]

theorem fatalBits_bdRstOp (s : State) : (bdRstOp s).fatalBits = s.fatalBits :=
  State.fatalBits_setFlag { s with bdCur := 0, burstCnt := 0 } (by decide) false

/-- Settles O51: the loop is the sequence round by round, with room for the whole pass or up to the full list. -/
theorem pipeBurstIsItsCommandSequence : Obligations.PipeBurstIsItsCommandSequence := by
  intro ug ck cr s hmem hbuild hchan hcfg
  have hready := burstReady_bdRstOp hmem hchan hcfg
  have hrun := pipeBurstRun_of_ready hready (ug := ug) (cr := cr)
  have hrst : exec .bdRst s = .next (bdRstOp s) := rfl
  have hrounds : (bdRstOp s).sampLen.toNat - (bdRstOp s).bdCur.toNat < s.sampLen.toNat + 1 :=
    Nat.lt_succ_of_le (Nat.sub_le _ _)
  refine ⟨fun hroom hout => ?_, fun a u ha hhalt => ?_, fun t hs hexec hflag => ?_⟩
  · obtain ⟨bs, hpass⟩ := State.exists_passFrom (Memory.samp_wf hmem) hready.detector 0 (s := s)
    obtain ⟨hburstCap, houtCap⟩ := Build.caps_lt_of_legal hbuild
    have hfit : bs.length ≤ s.build.burstCap := not_lt.1 fun h => hroom ⟨bs, hpass.burstsFrom, h⟩
    obtain ⟨t, hloop, hseq, h⟩ := burstLoop_of_passFrom (ug := ug) (cr := cr) hready hrounds
      ((passFrom_bdRstOp s 0 bs).2 hpass) hburstCap houtCap ((Nat.zero_add _).trans_le hfit) (hout bs hpass.burstsFrom)
    have hlist : t.burstList = bs := h.list
    have hcount : t.burstCnt.toNat = bs.length := by rw [← hlist]; simp [State.burstList]
    exact ⟨_, t, hrst, hseq, exec_of_done (hrun.trans hloop), h.noburst, h.fatalBits.trans (fatalBits_bdRstOp s),
      h.err, hlist ▸ hpass.burstsFrom, h.last, h.le_outCnt, hcount ▸ h.outCnt_le, h.rawLen, h.candCnt, h.matchCnt,
      h.mem⟩
  · obtain rfl := Host.Outcome.next.inj (hrst.symm.trans ha)
    exact exec_of_raised_rangeError (hrun.trans (hhalt.burstLoop_eq hready hrounds))
  · have hcases := burstLoop_cases (ug := ug) (cr := cr) hready hrounds
    rw [← hrun] at hcases
    obtain ⟨u, hu, rfl⟩ := run_raised_of_flag_range hs hexec hflag hcases
    exact ⟨_, u, hrst, hu, rfl⟩

end Sys2Proof.Machine

/-! PROOFS. `PIPE.STREAM` is its command sequence (rules R242, R243, R244; O52). The candidates of the chunk are the
positions of the pattern in its decisions, so the room the statement asks for is the room the checks of the scan and of
the de-duplication ask for. -/

namespace Sys2Proof.Machine

/-! The loop over the matches. -/

/-- What the loop over `n` matches needs of a state; no round writes any of it. -/
structure MatchReady (n : Nat) (s : State) : Prop where
  sps : s.cfgSps ≠ 0
  chan : s.cfgChan.toNat ≤ 39
  count : s.matchCnt.toNat = n

theorem MatchReady.framed {n : Nat} {s t : State} (hs : MatchReady n s) (h : s.Framed t) : MatchReady n t := by
  rw [h.eq]
  exact { hs with }

section Matches

variable {n k i : Nat} {s : State} (hs : MatchReady n s)
include hs

/-- The bytes of one match are read and de-whitened without a raise. -/
theorem MatchReady.exists_bytes (hi : i < n) : ∃ xs, syGetbRRun i s = .done (s.storeRb xs)
    ∧ dwRunRun (s.storeRb xs) = .done (s.storeRb xs).whitened :=
  ⟨_, syGetbRRun_of_match hs.sps (hi.trans_eq hs.count.symm), dwRunRun_of_legal hs.chan⟩

/-- One round reads, de-whitens and frames, and only `PF.FRAME` can raise. -/
theorem MatchReady.matchLoop_succ {a b : State} (hi : i < n) (bytes : exec (.syGetbR i) s = .next a)
    (white : exec .dwRun a = .next b) :
    matchLoop (k + 1) i s = (pfFrameRun b).andThen (matchLoop k (i + 1)) ∧ ∃ xs, b = (s.storeRb xs).whitened := by
  obtain ⟨xs, hbytes, hwhite⟩ := hs.exists_bytes hi
  obtain rfl := eq_of_exec_of_done bytes hbytes
  obtain rfl := eq_of_exec_of_done white hwhite
  refine ⟨?_, xs, rfl⟩
  rw [matchLoop, hbytes, Run.done_andThen, hwhite, Run.done_andThen]

end Matches

/-- With room in `OUT` the loop makes one record for each match (rules R242, R246). -/
theorem matchLoop_of_room {n : Nat} (k : Nat) : ∀ {i : Nat} {s : State}, MatchReady n s → i + k = n →
    s.build.outCap < 2 ^ 31 → s.outCnt.toNat + k ≤ s.build.outCap →
    ∃ t, matchLoop k i s = .done t ∧ MatchPass n i s t ∧ s.Framed t ∧ t.outCnt.toNat = s.outCnt.toNat + k := by
  induction k with
  | zero => exact fun {i s} _ hik _ _ => ⟨s, rfl, .stop hik.ge, .refl s, rfl⟩
  | succ k ih =>
    intro i s hs hik hcap hroom
    have hi : i < n := by omega
    obtain ⟨xs, hbytes, hwhite⟩ := hs.exists_bytes hi
    have bytes : exec (.syGetbR i) s = .next _ := exec_of_done hbytes
    have white : exec .dwRun _ = .next _ := exec_of_done hwhite
    have space : ¬ rangeCause (s.storeRb xs).whitened .pfFrame := fun hfull => by
      have hfull : s.outCnt.toNat = s.build.outCap := hfull
      omega
    have hcount : (s.storeRb xs).whitened.emitPacket.outCnt.toNat = s.outCnt.toNat + 1 :=
      State.toNat_outCnt_emitPacket (show s.outCnt.toNat + 1 < 2 ^ 32 by omega)
    have hframed := s.framed_packet xs
    obtain ⟨t, hloop, hseq, hrest, hout⟩ := ih (i := i + 1) (hs.framed hframed) (by omega) hcap
      (by rw [hcount]; change s.outCnt.toNat + 1 + k ≤ s.build.outCap; omega)
    refine ⟨t, ?_, .packet hi bytes white (exec_of_done (pfFrameRun_of_room space)) hseq, hframed.trans hrest,
      by rw [hout, hcount]; omega⟩
    rw [(hs.matchLoop_succ hi bytes white).1, pfFrameRun_of_room space, Run.done_andThen, hloop]

/-- The loop halts where the sequence meets a full `OUT` (rule R243). -/
theorem MatchHalt.matchLoop_eq {n i : Nat} {s u : State} (h : MatchHalt n i s u) :
    ∀ {k : Nat}, MatchReady n s → i + k = n → matchLoop k i s = .raised .rangeError u := by
  induction h with
  | record hi bytes white full =>
    rintro (_ | k) hs hik
    · omega
    · rw [(hs.matchLoop_succ hi bytes white).1, pfFrameRun_of_full full, Run.raised_andThen]
  | packet hi bytes white space frame _ ih =>
    rintro (_ | k) hs hik
    · omega
    · obtain ⟨hloop, xs, rfl⟩ := hs.matchLoop_succ (k := k) hi bytes white
      obtain rfl := eq_of_exec_of_done frame (pfFrameRun_of_room space)
      rw [hloop, pfFrameRun_of_room space, Run.done_andThen]
      exact ih (hs.framed (State.framed_packet _ xs)) (by omega)

/-- The loop ends, or it halts where the sequence does. -/
theorem matchLoop_cases {n : Nat} (k : Nat) : ∀ {i : Nat} {s : State}, MatchReady n s → i + k = n →
    (∃ t, matchLoop k i s = .done t) ∨ ∃ u, matchLoop k i s = .raised .rangeError u ∧ MatchHalt n i s u := by
  induction k with
  | zero => exact fun {i s} _ _ => .inl ⟨s, rfl⟩
  | succ k ih =>
    intro i s hs hik
    have hi : i < n := by omega
    obtain ⟨xs, hbytes, hwhite⟩ := hs.exists_bytes hi
    have bytes : exec (.syGetbR i) s = .next _ := exec_of_done hbytes
    have white : exec .dwRun _ = .next _ := exec_of_done hwhite
    rw [(hs.matchLoop_succ hi bytes white).1]
    by_cases full : rangeCause (s.storeRb xs).whitened .pfFrame
    · rw [pfFrameRun_of_full full, Run.raised_andThen]
      exact .inr ⟨_, rfl, .record hi bytes white full⟩
    · rw [pfFrameRun_of_room full, Run.done_andThen]
      refine (ih (i := i + 1) (hs.framed (s.framed_packet xs)) (by omega)).imp_right fun ⟨u, hraised, hhalt⟩ => ?_
      exact ⟨u, hraised, .packet hi bytes white full (exec_of_done (pfFrameRun_of_room full)) hhalt⟩

/-! The states of the sequence, and what its commands leave as it was. -/

/-- The state after the frequency signal of the whole chunk. -/
def State.chunkFreqs (ug : Bool) (s : State) : State :=
  s.wholeChunk.storeFreq (frequencies ug s.wholeChunk.segment)

/-- The state after the decisions on the whole chunk. -/
def State.chunkBits (ug : Bool) (s : State) : State := fdBinOp (s.chunkFreqs ug)

/-- The state after `SY.SCAN` collected the candidates of the chunk. -/
def State.chunkCands (ug : Bool) (s : State) : State :=
  (s.chunkBits ug).storeCand ((s.chunkBits ug).scanned.map (BitVec.ofNat 32))

/-- The state after `SY.DEDUP` entered the matches of the chunk. -/
def State.chunkMatches (ug : Bool) (s : State) : State :=
  (s.chunkCands ug).enterMatches (s.chunkCands ug).sortedCandidates (s.chunkCands ug).accepted

/-- `t` is `s` but for what the commands of rule R244 for `PIPE.STREAM` write: the burst detector, clock recovery and
`BITS` stay (rule R242). -/
structure State.Streamed (s t : State) : Prop where
  eq : t = { s with
    segStart := t.segStart
    segStop := t.segStop
    freqLen := t.freqLen
    rawLen := t.rawLen
    candCnt := t.candCnt
    matchCnt := t.matchCnt
    rbLen := t.rbLen
    dwLen := t.dwLen
    outCnt := t.outCnt
    status := t.status
    cntFound := t.cntFound
    cntFailed := t.cntFailed
    pfDecl := t.pfDecl
    mem := { s.mem with
      freq := t.mem.freq, raw := t.mem.raw, cand := t.mem.cand, hits := t.mem.hits, rb := t.mem.rb, dw := t.mem.dw
      out := t.mem.out } }
  fatalBits : t.fatalBits = s.fatalBits

theorem State.Streamed.trans {s t u : State} (h : s.Streamed t) (k : t.Streamed u) : s.Streamed u :=
  ⟨k.eq.trans (by rw [h.eq]), k.fatalBits.trans h.fatalBits⟩

theorem State.Framed.streamed {s t : State} (h : s.Framed t) : s.Streamed t := ⟨by rw [h.eq], h.fatalBits⟩

theorem State.streamed_chunkFreqs (ug : Bool) (s : State) : s.Streamed (s.chunkFreqs ug) := ⟨rfl, rfl⟩

theorem State.streamed_fdBinOp (s : State) : s.Streamed (fdBinOp s) := ⟨rfl, rfl⟩

theorem State.streamed_storeCand (s : State) (xs : List Word) : s.Streamed (s.storeCand xs) := ⟨rfl, rfl⟩

theorem State.streamed_enterMatches (s : State) (acc : List Nat) :
    s.Streamed (s.enterMatches s.sortedCandidates acc) := by
  rw [State.enterMatches_eq]
  exact ⟨rfl, s.fatalBits_setFlag (by decide) _⟩

theorem State.streamed_chunkBits (ug : Bool) (s : State) : s.Streamed (s.chunkBits ug) :=
  (s.streamed_chunkFreqs ug).trans (State.streamed_fdBinOp _)

theorem State.streamed_chunkCands (ug : Bool) (s : State) : s.Streamed (s.chunkCands ug) :=
  (s.streamed_chunkBits ug).trans (State.streamed_storeCand _ _)

theorem State.streamed_chunkMatches (ug : Bool) (s : State) : s.Streamed (s.chunkMatches ug) :=
  (s.streamed_chunkCands ug).trans (State.streamed_enterMatches _ _)

theorem State.Streamed.build_eq {s t : State} (h : s.Streamed t) : t.build = s.build := by rw [h.eq]

theorem State.Streamed.cfgSps_eq {s t : State} (h : s.Streamed t) : t.cfgSps = s.cfgSps := by rw [h.eq]

theorem State.Streamed.cfgSync_eq {s t : State} (h : s.Streamed t) : t.cfgSync = s.cfgSync := by rw [h.eq]

theorem State.chunkBits_sps {ug : Bool} {s : State} (h : s.cfgSps ≠ 0) : (s.chunkBits ug).cfgSps ≠ 0 :=
  (s.streamed_chunkBits ug).cfgSps_eq.trans_ne h

theorem State.chunkCands_sps {ug : Bool} {s : State} (h : s.cfgSps ≠ 0) : (s.chunkCands ug).cfgSps ≠ 0 :=
  (s.streamed_chunkCands ug).cfgSps_eq.trans_ne h

theorem State.Streamed.matchReady {s t : State} (h : s.Streamed t) (hchan : s.cfgChan.toNat ≤ 39)
    (hsps : s.cfgSps ≠ 0) : MatchReady t.matchCnt.toNat t := by
  refine ⟨?_, ?_, rfl⟩ <;> rw [h.eq]
  · exact hsps
  · exact hchan

theorem State.enterMatches_outCnt (s : State) (acc : List Nat) :
    (s.enterMatches s.sortedCandidates acc).outCnt = s.outCnt := by
  rw [State.enterMatches_eq]
  rfl

theorem State.outCnt_chunkMatches (ug : Bool) (s : State) : (s.chunkMatches ug).outCnt = s.outCnt :=
  calc (s.chunkMatches ug).outCnt
    _ = (s.chunkCands ug).outCnt := State.enterMatches_outCnt _ _
    _ = (s.chunkBits ug).outCnt := State.storeCand_outCnt _ _
    _ = (s.chunkFreqs ug).outCnt := State.storeRaw_outCnt _ _
    _ = s.outCnt := State.storeFreq_outCnt _ _

/-! The decisions on the chunk (rules R151, R157). -/

theorem fdFreqRun_wholeChunk (ug : Bool) (s : State) : fdFreqRun ug s.wholeChunk = .done (s.chunkFreqs ug) :=
  fdFreqRun_of_legal ug (s.wholeChunk.segmentIllegal_eq_false_iff.2 ⟨Nat.zero_le _, le_rfl⟩)

theorem State.toNat_freqLen_chunkFreqs (ug : Bool) (s : State) :
    (s.chunkFreqs ug).freqLen.toNat = s.sampLen.toNat - 1 := by
  have hlen : (frequencies ug s.wholeChunk.segment).length = s.sampLen.toNat - 1 := by
    rw [length_frequencies, State.length_segment]
    rfl
  have hlt := s.sampLen.isLt
  rw [State.chunkFreqs, State.storeFreq_freqLen, hlen, BitVec.toNat_ofNat, Nat.mod_eq_of_lt (by omega)]

theorem State.toNat_rawLen_chunkBits (ug : Bool) (s : State) :
    (s.chunkBits ug).rawLen.toNat = s.sampLen.toNat - 1 := by
  rw [State.chunkBits, fdBinOp_eq]
  exact s.toNat_freqLen_chunkFreqs ug

section Decisions

variable {ug : Bool} {s : State} (hmem : s.mem.wf = true)
include hmem

theorem State.rawAt_chunkBits_iff {k : Nat} (hk : k + 1 < s.sampLen.toNat) :
    (s.chunkBits ug).rawAt k = true ↔ s.decidesOne k := by
  have hwf : (s.chunkFreqs ug).mem.freq.wf = true := Buf.wf_fill _ _ _ (Memory.freq_wf hmem)
  have hfreq := State.freqAt_storeFreq_frequencies ug (s := s.wholeChunk) (Memory.samp_wf hmem) (k := k) hk
  have hstart : s.wholeChunk.segStart.toNat + k = k := Nat.zero_add k
  rw [hstart] at hfreq
  have hreal : ((s.chunkFreqs ug).freqAt k).toReal = realWrap ((s.sampAt (k + 1)).realArg - (s.sampAt k).realArg) :=
    (congrArg NumVal.toReal hfreq).trans (wrap_sub_argOf_toReal _ _)
  rw [State.chunkBits, rawAt_fdBinOp_iff hwf (by rw [State.toNat_freqLen_chunkFreqs]; omega), hreal]
  rfl

/-- The closed form over the decisions is the pattern in the chunk. -/
theorem State.patternAt_chunkBits_iff (n : Nat) : (s.chunkBits ug).patternAt n = true ↔ s.holdsPatternAt n := by
  have hsps := (s.streamed_chunkBits ug).cfgSps_eq
  have hsync := (s.streamed_chunkBits ug).cfgSync_eq
  simp only [State.patternAt, State.holdsPatternAt, hsps, hsync, State.toNat_rawLen_chunkBits, Bool.and_eq_true,
    decide_eq_true_eq, List.all_eq_true, List.mem_range, beq_iff_eq]
  have hend : n + 31 * s.cfgSps.toNat < s.sampLen.toNat - 1 ↔ n + 31 * s.cfgSps.toNat + 1 < s.sampLen.toNat := by
    omega
  rw [hend]
  refine and_congr_right fun hin => forall₂_congr fun i hi => ?_
  have hle : i * s.cfgSps.toNat ≤ 31 * s.cfgSps.toNat := Nat.mul_le_mul_right _ (Nat.le_of_lt_succ hi)
  rw [Bool.eq_iff_iff, State.rawAt_chunkBits_iff hmem (by omega)]

end Decisions

/-! The candidates and the matches of the chunk (rules R186, R189). -/

theorem syScanRun_of_full {s : State} (hwf : s.mem.raw.wf = true) (hsps : s.cfgSps ≠ 0)
    (full : rangeCause s .syScan) : syScanRun s = .raised .rangeError s := by
  rw [rangeCause, ← State.length_scanned hwf hsps] at full
  rw [syScanRun, if_neg (toNat_ne_zero hsps)]
  exact if_pos full

/-- Rule R189 accepts one list alone: whether a candidate is accepted depends on the smaller accepted ones. -/
theorem State.acceptedIs.mem_iff {s : State} {acc acc' : List Nat} (h : s.acceptedIs acc) (h' : s.acceptedIs acc')
    (c : Nat) : c ∈ acc ↔ c ∈ acc' := by
  induction c using Nat.strong_induction_on with
  | _ c ih =>
    rw [h.2, h'.2]
    refine and_congr_right' (not_congr (exists_congr fun q => ?_))
    exact and_congr_left fun ⟨hq, _⟩ => ih q hq

theorem State.acceptedIs.length_eq {s : State} {acc acc' : List Nat} (h : s.acceptedIs acc)
    (h' : s.acceptedIs acc') : acc.length = acc'.length :=
  ((List.perm_ext_iff_of_nodup (h.1.imp fun hlt => hlt.ne) (h'.1.imp fun hlt => hlt.ne)).2 (h.mem_iff h')).length_eq

theorem State.toNat_matchCnt_enterMatches {s : State} {acc : List Nat} (h : s.acceptedIs acc) :
    (s.enterMatches s.sortedCandidates acc).matchCnt.toNat = acc.length := by
  rw [State.enterMatches_eq]
  exact Nat.mod_eq_of_lt ((State.length_acceptedIs_le h).trans_lt s.candCnt.isLt)

theorem syDedupRun_of_full {s : State} (hwf : s.mem.cand.wf = true) (hsps : s.cfgSps ≠ 0)
    (full : rangeCause s .syDedup) : syDedupRun s = .raised .rangeError s := by
  obtain ⟨acc, hacc, hlen⟩ := full
  rw [hacc.length_eq (State.acceptedIs_accepted hwf hsps)] at hlen
  rw [syDedupRun, if_neg (toNat_ne_zero hsps)]
  exact if_pos hlen

section Chunk

variable {ug : Bool} {s : State} (hmem : s.mem.wf = true)
include hmem

theorem State.chunkBits_raw_wf : (s.chunkBits ug).mem.raw.wf = true :=
  Buf.wf_fill _ _ _ (Memory.raw_wf (m := s.mem) hmem)

theorem State.chunkCands_cand_wf : (s.chunkCands ug).mem.cand.wf = true :=
  Buf.wf_fill _ _ _ (Memory.cand_wf (m := s.mem) hmem)

variable (hsps : s.cfgSps ≠ 0)
include hsps

theorem State.mem_scanned_chunkBits_iff (n : Nat) : n ∈ (s.chunkBits ug).scanned ↔ s.holdsPatternAt n :=
  (State.mem_scanned_iff (State.chunkBits_raw_wf hmem) (State.chunkBits_sps hsps) n).trans
    (State.patternAt_chunkBits_iff hmem n)

/-- The candidates in `CAND` are the positions of the pattern in the chunk. -/
theorem State.candAt_chunkCands_iff (n : Nat) :
    (∃ k, k < (s.chunkCands ug).candCnt.toNat ∧ ((s.chunkCands ug).candAt k).toNat = n) ↔ s.holdsPatternAt n :=
  (State.patternAt_iff_candAt (State.chunkBits_raw_wf hmem) (State.chunkBits_sps hsps) n).symm.trans
    (State.patternAt_chunkBits_iff hmem n)

theorem State.acceptedIs_chunkCands : (s.chunkCands ug).acceptedIs (s.chunkCands ug).accepted :=
  State.acceptedIs_accepted (State.chunkCands_cand_wf hmem) (State.chunkCands_sps hsps)

theorem State.toNat_matchCnt_chunkMatches :
    (s.chunkMatches ug).matchCnt.toNat = (s.chunkCands ug).accepted.length :=
  State.toNat_matchCnt_enterMatches (State.acceptedIs_chunkCands hmem hsps)

/-- A chunk that fits has room in the three lists (rules R186, R189, R226). -/
theorem State.streamFits.room (hfits : s.streamFits) :
    ¬ rangeCause (s.chunkBits ug) .syScan ∧ ¬ rangeCause (s.chunkCands ug) .syDedup
      ∧ s.outCnt.toNat + (s.chunkMatches ug).matchCnt.toNat ≤ s.build.outCap := by
  obtain ⟨hcands, hmatches⟩ := hfits
  have hacc := State.acceptedIs_chunkCands hmem hsps (ug := ug)
  have hscanned : (s.chunkBits ug).scanned.length ≤ s.build.candCap :=
    hcands _ (nodup_candidates _ _) fun n hn => (State.mem_scanned_chunkBits_iff hmem hsps n).1 hn
  obtain ⟨hmatch, hout⟩ := hmatches _ hacc.1 fun c => by
    rw [hacc.2 c, State.candAt_chunkCands_iff hmem hsps, (s.streamed_chunkCands ug).cfgSps_eq]
  refine ⟨fun hfull => ?_, ?_, ?_⟩
  · rw [rangeCause, ← State.length_scanned (State.chunkBits_raw_wf hmem) (State.chunkBits_sps hsps),
      (s.streamed_chunkBits ug).build_eq] at hfull
    exact absurd hscanned (not_le.2 hfull)
  · rintro ⟨acc, h, hfull⟩
    rw [h.length_eq hacc, (s.streamed_chunkCands ug).build_eq] at hfull
    exact absurd hmatch (not_le.2 hfull)
  · rwa [State.toNat_matchCnt_chunkMatches hmem hsps]

end Chunk

/-! The operation. -/

/-- Past the checks of rule R242 `PIPE.STREAM` is the search over the chunk and the loop over its matches. -/
theorem pipeStreamRun_of_legal {ug : Bool} {s : State} (hchan : s.cfgChan.toNat ≤ 39) (hsps : s.cfgSps ≠ 0) :
    pipeStreamRun ug s = (syScanRun (s.chunkBits ug)).andThen fun u =>
      (syDedupRun u).andThen fun v => matchLoop v.matchCnt.toNat 0 v := by
  have hlegal : s.channelIllegal = false := decide_eq_false (not_lt.2 hchan)
  have hfreq : fdFreqRun ug s.selectChunk = .done (s.chunkFreqs ug) := fdFreqRun_wholeChunk ug s
  rw [pipeStreamRun, hlegal, if_neg Bool.false_ne_true, if_neg (toNat_ne_zero hsps), hfreq, Run.done_andThen]
  rfl

section Stream

variable {ug : Bool} {s : State} (hmem : s.mem.wf = true) (hchan : s.cfgChan.toNat ≤ 39) (hsps : s.cfgSps ≠ 0)

include hmem hsps

theorem syScanRun_chunkBits (room : ¬ rangeCause (s.chunkBits ug) .syScan) :
    syScanRun (s.chunkBits ug) = .done (s.chunkCands ug) :=
  syScanRun_of_room (State.chunkBits_raw_wf hmem) (State.chunkBits_sps hsps) room

theorem syDedupRun_chunkCands (room : ¬ rangeCause (s.chunkCands ug) .syDedup) :
    syDedupRun (s.chunkCands ug) = .done (s.chunkMatches ug) :=
  syDedupRun_of_room (State.chunkCands_cand_wf hmem) (State.chunkCands_sps hsps) room

include hchan

/-- With room for the candidates and the matches only the loop over the matches is left. -/
theorem pipeStreamRun_of_room (hscan : ¬ rangeCause (s.chunkBits ug) .syScan)
    (hdedup : ¬ rangeCause (s.chunkCands ug) .syDedup) :
    pipeStreamRun ug s = matchLoop (s.chunkMatches ug).matchCnt.toNat 0 (s.chunkMatches ug) := by
  rw [pipeStreamRun_of_legal hchan hsps, syScanRun_chunkBits hmem hsps hscan, Run.done_andThen,
    syDedupRun_chunkCands hmem hsps hdedup, Run.done_andThen]

theorem pipeStreamRun_of_full_cand (full : rangeCause (s.chunkBits ug) .syScan) :
    pipeStreamRun ug s = .raised .rangeError (s.chunkBits ug) := by
  rw [pipeStreamRun_of_legal hchan hsps,
    syScanRun_of_full (State.chunkBits_raw_wf hmem) (State.chunkBits_sps hsps) full, Run.raised_andThen]

theorem pipeStreamRun_of_full_match (room : ¬ rangeCause (s.chunkBits ug) .syScan)
    (full : rangeCause (s.chunkCands ug) .syDedup) :
    pipeStreamRun ug s = .raised .rangeError (s.chunkCands ug) := by
  rw [pipeStreamRun_of_legal hchan hsps, syScanRun_chunkBits hmem hsps room, Run.done_andThen,
    syDedupRun_of_full (State.chunkCands_cand_wf hmem) (State.chunkCands_sps hsps) full, Run.raised_andThen]

/-- `PIPE.STREAM` halts where the sequence meets the full list (rule R243). -/
theorem StreamHalt.pipeStreamRun_eq {u : State} (h : StreamHalt ug s u) :
    pipeStreamRun ug s = .raised .rangeError u := by
  cases h with
  | scan freq bin full =>
    obtain rfl := eq_of_exec_of_done freq (fdFreqRun_wholeChunk ug s)
    obtain rfl := eq_of_exec_of_done (u := s.chunkBits ug) bin rfl
    exact pipeStreamRun_of_full_cand hmem hchan hsps full
  | dedup freq bin room scan full =>
    obtain rfl := eq_of_exec_of_done freq (fdFreqRun_wholeChunk ug s)
    obtain rfl := eq_of_exec_of_done (u := s.chunkBits ug) bin rfl
    obtain rfl := eq_of_exec_of_done scan (syScanRun_chunkBits hmem hsps room)
    exact pipeStreamRun_of_full_match hmem hchan hsps room full
  | record freq bin room scan space dedup rest =>
    obtain rfl := eq_of_exec_of_done freq (fdFreqRun_wholeChunk ug s)
    obtain rfl := eq_of_exec_of_done (u := s.chunkBits ug) bin rfl
    obtain rfl := eq_of_exec_of_done scan (syScanRun_chunkBits hmem hsps room)
    obtain rfl := eq_of_exec_of_done dedup (syDedupRun_chunkCands hmem hsps space)
    rw [pipeStreamRun_of_room hmem hchan hsps room space]
    exact rest.matchLoop_eq ((s.streamed_chunkMatches ug).matchReady hchan hsps) (Nat.zero_add _)

/-- `PIPE.STREAM` ends, or it halts where the sequence does. -/
theorem pipeStreamRun_cases : (∃ t, pipeStreamRun ug s = .done t)
    ∨ ∃ u, pipeStreamRun ug s = .raised .rangeError u ∧ StreamHalt ug s u := by
  have hfreq : exec (.fdFreq ug) s.wholeChunk = .next (s.chunkFreqs ug) := exec_of_done (fdFreqRun_wholeChunk ug s)
  have hbin : exec .fdBin (s.chunkFreqs ug) = .next (s.chunkBits ug) := rfl
  by_cases hscan : rangeCause (s.chunkBits ug) .syScan
  · exact .inr ⟨_, pipeStreamRun_of_full_cand hmem hchan hsps hscan, .scan hfreq hbin hscan⟩
  · have hcands : exec .syScan _ = .next _ := exec_of_done (syScanRun_chunkBits hmem hsps hscan)
    by_cases hdedup : rangeCause (s.chunkCands ug) .syDedup
    · exact .inr ⟨_, pipeStreamRun_of_full_match hmem hchan hsps hscan hdedup,
        .dedup hfreq hbin hscan hcands hdedup⟩
    · have hmatches : exec .syDedup _ = .next _ := exec_of_done (syDedupRun_chunkCands hmem hsps hdedup)
      rw [pipeStreamRun_of_room hmem hchan hsps hscan hdedup]
      refine (matchLoop_cases _ ((s.streamed_chunkMatches ug).matchReady hchan hsps) (Nat.zero_add _)).imp_right ?_
      exact fun ⟨u, hraised, hhalt⟩ => ⟨u, hraised, .record hfreq hbin hscan hcands hdedup hmatches hhalt⟩

end Stream

/-- Settles O52: the search over the chunk and the loop over its matches, with room for all lists or up to the full
one. -/
theorem pipeStreamIsItsCommandSequence : Obligations.PipeStreamIsItsCommandSequence := by
  intro ug s hmem hbuild hchan hsps
  refine ⟨fun hfits => ?_, fun u hhalt => ?_, fun t hs hexec hflag => ?_⟩
  · obtain ⟨hscan, hdedup, hout⟩ := hfits.room hmem hsps (ug := ug)
    have hsearch := s.streamed_chunkMatches ug
    have hcap := (Build.caps_lt_of_legal hbuild).2
    have hbuildEq := hsearch.build_eq
    have houtEq := s.outCnt_chunkMatches ug
    obtain ⟨t, hloop, hseq, hframed, hcount⟩ := matchLoop_of_room _ (i := 0) (hsearch.matchReady hchan hsps)
      (Nat.zero_add _) (by rwa [hbuildEq]) (by rw [hbuildEq, houtEq]; exact hout)
    have hstream := hsearch.trans hframed.streamed
    rw [houtEq] at hcount
    refine ⟨s.chunkFreqs ug, s.chunkBits ug, s.chunkCands ug, s.chunkMatches ug, t,
      exec_of_done (fdFreqRun_wholeChunk ug s), rfl, exec_of_done (syScanRun_chunkBits hmem hsps hscan),
      exec_of_done (syDedupRun_chunkCands hmem hsps hdedup), hseq,
      exec_of_done ((pipeStreamRun_of_room hmem hchan hsps hscan hdedup).trans hloop), hstream.fatalBits, ?_,
      hcount, ?_⟩
    · rw [hstream.eq]
    · rw [hstream.eq]
      exact ⟨rfl, rfl, rfl, rfl, rfl⟩
  · exact exec_of_raised_rangeError (hhalt.pipeStreamRun_eq hmem hchan hsps)
  · exact run_raised_of_flag_range (i := .pipeStream ug) hs hexec hflag (pipeStreamRun_cases hmem hchan hsps)

end Sys2Proof.Machine

/-! PROOFS. `OUTCLR` discards the records (rule R260; O19). -/

namespace Sys2Proof.Machine

/-- The elements of `OUT` begin a new generation, whose values are open (rule R87; log entry 5). -/
theorem exec_outclr (s : State) :
    exec .outclr s = .next { s with outCnt := 0, mem := { s.mem with out := s.mem.out.forget } } :=
  exec_of_done rfl

/-- Settles O19: the run of `OUTCLR` has no check to pass, and of the memory it writes `OUT` alone. -/
theorem outclrDiscardsTheRecords : Obligations.OutclrDiscardsTheRecords :=
  fun s => ⟨_, exec_outclr s, rfl⟩

end Sys2Proof.Machine

/-! PROOFS. The checks an operation makes before it writes (rules R278, R279, R285): the channel first, the configuration
second, and past both of them no run of any operation raises anything but RangeError (O12, O13). -/

namespace Sys2Proof.Machine

/-! What a run raises. -/

/-- The run raises RangeError, if anything. -/
def Run.RangeOnly (r : Run) : Prop := ∀ x u, r = .raised x u → x = .rangeError

theorem Run.rangeOnly_done (t : State) : (Run.done t).RangeOnly := nofun

theorem Run.rangeOnly_raised (u : State) : (Run.raised .rangeError u).RangeOnly := by
  intro x t h
  cases h
  rfl

/-- A test of rule R280 and the writes after it. -/
theorem Run.rangeOnly_rangeTest {c : Prop} [Decidable c] (s t : State) :
    (if c then Run.raised .rangeError s else .done t).RangeOnly := by
  split
  · exact Run.rangeOnly_raised s
  · exact Run.rangeOnly_done t

/-- Rule R285: the run of an operation on `s` that checks the channel, which is illegal if `chan`, and then the
configuration, which is illegal if `config`. -/
inductive Run.Checked (chan config : Prop) (s : State) : Run → Prop
  | channel (hchan : chan) : Checked chan config s (.raised .invalidChannel s)
  | config (hchan : ¬ chan) (hconfig : config) : Checked chan config s (.raised .configError s)
  | passed {r : Run} (hchan : ¬ chan) (hconfig : ¬ config) (hr : r.RangeOnly) : Checked chan config s r

section Checked

variable {chan config : Prop} {s u : State} {r : Run}

theorem Run.Checked.eq_invalidChannel (h : r.Checked chan config s) (hchan : chan) : r = .raised .invalidChannel s := by
  cases h with
  | channel => rfl
  | config hn | passed hn => exact absurd hchan hn

theorem Run.Checked.of_invalidChannel (h : (Run.raised .invalidChannel u).Checked chan config s) : chan := by
  cases h with
  | channel hchan => exact hchan
  | passed _ _ hr => cases hr _ _ rfl

theorem Run.Checked.eq_configError (h : r.Checked chan config s) (hconfig : config) (hchan : ¬ chan) :
    r = .raised .configError s := by
  cases h with
  | channel h => exact absurd h hchan
  | config => rfl
  | passed _ hn => exact absurd hconfig hn

theorem Run.Checked.of_configError (h : (Run.raised .configError u).Checked chan config s) : config ∧ ¬ chan := by
  cases h with
  | config hchan hconfig => exact ⟨hconfig, hchan⟩
  | passed _ _ hr => cases hr _ _ rfl

theorem Run.Checked.of_rangeError (h : (Run.raised .rangeError u).Checked chan config s) : ¬ chan ∧ ¬ config := by
  cases h with
  | passed hchan hconfig => exact ⟨hchan, hconfig⟩

theorem Run.Checked.rangeOnly (h : r.Checked chan config s) (hchan : ¬ chan) (hconfig : ¬ config) : r.RangeOnly := by
  cases h with
  | channel h => exact absurd h hchan
  | config _ h => exact absurd h hconfig
  | passed _ _ hr => exact hr

/-- An operation without a check. -/
theorem Run.RangeOnly.checked (hr : r.RangeOnly) : r.Checked False False s := .passed id id hr

/-- An operation that begins with the test of the channel. -/
theorem Run.checked_channelTest {c : Prop} [Decidable c] (hc : c ↔ chan)
    (hr : ¬ chan → r.Checked False config s) :
    (if c then .raised .invalidChannel s else r).Checked chan config s := by
  split
  · next h => exact .channel (hc.1 h)
  · next h =>
    have hchan : ¬ chan := hc.not.1 h
    cases hr hchan with
    | channel h => exact h.elim
    | config _ hconfig => exact .config hchan hconfig
    | passed _ hconfig hr => exact .passed hchan hconfig hr

/-- An operation that begins with the test of the configuration. -/
theorem Run.checked_configTest {c : Prop} [Decidable c] (hc : c ↔ config) (hr : ¬ config → r.RangeOnly) :
    (if c then .raised .configError s else r).Checked False config s := by
  split
  · next h => exact .config id (hc.1 h)
  · next h => exact .passed id (hc.not.1 h) (hr (hc.not.1 h))

end Checked

/-! The operations that are no pipelines. -/

theorem State.detectorIllegal_iff (s : State) : s.detectorIllegal = true ↔ ¬ s.detectorReady := by
  rw [← State.detectorIllegal_eq_false_iff, Bool.not_eq_false]

theorem State.channelIllegal_iff (s : State) : s.channelIllegal = true ↔ 39 < s.cfgChan.toNat := decide_eq_true_iff

theorem toNat_eq_zero_iff {w : Word} : w.toNat = 0 ↔ w = 0 := BitVec.toNat_inj (y := 0#32)

/-- Past the configuration `FD.DEMOD` checks the segment (rules R158, R280). -/
theorem fdDemodRun_cases_of_config {ug ck : Bool} {s : State} (hconfig : ¬ configCause s (.fdDemod ug ck)) :
    (s.segmentIllegal = true ∧ fdDemodRun ug ck s = .raised .rangeError s)
      ∨ s.segmentIllegal = false ∧ ∃ t, fdDemodRun ug ck s = .done t := by
  obtain ⟨hsps, hskip⟩ := not_or.1 hconfig
  cases hseg : s.segmentIllegal with
  | true =>
    refine .inl ⟨rfl, ?_⟩
    rw [fdDemodRun, if_neg (not_or.2 ⟨toNat_ne_zero hsps, hskip⟩), if_pos hseg]
  | false =>
    exact .inr ⟨rfl, _, fdDemodRun_of_legal ug hsps (fun hck => not_lt.1 fun hlt => hskip ⟨hck, hlt⟩) hseg⟩

section Primitive

variable (s : State)

theorem setthrRun_checked (single : Bool) :
    (setthrRun single s).Checked False (configCause s (.setthr single)) s := by
  refine Run.checked_configTest s.cfgThresh.isNegative_iff fun _ => ?_
  cases single <;> exact Run.rangeOnly_done _

theorem setrefC_checked : (s.run .setrefC).Checked False (configCause s .setrefC) s := by
  obtain h | h := le_or_gt s.cfgFs.toReal 0
  · rw [setrefC_run_of_not_positive h]
    exact .config id h
  · rw [setrefC_run_of_positive h]
    exact .passed id h.not_ge (Run.rangeOnly_done _)

theorem bdNextRun_checked : (bdNextRun s).Checked False (configCause s .bdNext) s := by
  have hready := s.detectorIllegal_iff
  obtain ⟨hbad, h⟩ | ⟨hok, -, h⟩ | ⟨hok, -, -, h⟩ | ⟨b, hok, -, -, ⟨-, h⟩ | ⟨-, h⟩⟩ := bdNextRun_cases s <;> rw [h]
  · exact .config id (hready.1 hbad)
  all_goals
    refine .passed id (hready.not.1 (Bool.eq_false_iff.1 hok)) ?_
  exacts [Run.rangeOnly_raised s, Run.rangeOnly_done _, Run.rangeOnly_raised s, Run.rangeOnly_done _]

theorem bdAllRun_checked : (bdAllRun s).Checked False (configCause s .bdAll) s := by
  refine Run.checked_configTest s.detectorIllegal_iff fun hconfig => ?_
  split
  · exact Run.rangeOnly_raised s
  · next hroom =>
    obtain ⟨t, ht⟩ := bdLoop_done (s.sampLen.toNat + 1) (bdRstOp s)
      (s.detectorIllegal_eq_false_iff.2 (not_not.1 hconfig)) (Nat.zero_le _) ((Nat.zero_add _).le.trans (not_lt.1 hroom))
    rw [ht]
    exact Run.rangeOnly_done t

/-- `SQUELCH` raises what its pass raises (rule R134). -/
theorem squelchRun_checked : (squelchRun s).Checked False (configCause s .squelch) s := by
  have h := bdAllRun_checked s
  rw [squelchRun]
  cases hr : bdAllRun s with
  | raised x u => rwa [hr] at h
  | done t =>
    rw [hr] at h
    cases h with
    | passed _ hconfig => exact .passed id hconfig (Run.rangeOnly_done _)

theorem fdFreqRun_rangeOnly (ug : Bool) : (fdFreqRun ug s).RangeOnly := Run.rangeOnly_rangeTest _ _

theorem fdClkRun_checked : (fdClkRun s).Checked False (configCause s .fdClk) s :=
  Run.checked_configTest (or_congr_left toNat_eq_zero_iff) fun _ => Run.rangeOnly_done _

theorem fdSliceRun_checked : (fdSliceRun s).Checked False (configCause s .fdSlice) s :=
  Run.checked_configTest toNat_eq_zero_iff fun _ => Run.rangeOnly_done _

theorem fdDemodRun_checked (ug ck : Bool) :
    (fdDemodRun ug ck s).Checked False (configCause s (.fdDemod ug ck)) s := by
  have hcfg : s.cfgSps.toNat = 0 ∨ (ck = true ∧ s.cfgSkip.toNat < 2) ↔ configCause s (.fdDemod ug ck) :=
    or_congr_left toNat_eq_zero_iff
  by_cases hconfig : configCause s (.fdDemod ug ck)
  · rw [fdDemodRun, if_pos (hcfg.2 hconfig)]
    exact .config id hconfig
  · refine .passed id hconfig ?_
    obtain ⟨-, h⟩ | ⟨-, u, h⟩ := fdDemodRun_cases_of_config hconfig <;> rw [h]
    · exact Run.rangeOnly_raised s
    · exact Run.rangeOnly_done u

theorem syScanRun_checked : (syScanRun s).Checked False (configCause s .syScan) s :=
  Run.checked_configTest toNat_eq_zero_iff fun _ => Run.rangeOnly_rangeTest _ _

theorem syDedupRun_checked : (syDedupRun s).Checked False (configCause s .syDedup) s :=
  Run.checked_configTest toNat_eq_zero_iff fun _ => Run.rangeOnly_rangeTest _ _

theorem syGetbRRun_checked (index : Nat) :
    (syGetbRRun index s).Checked False (configCause s (.syGetbR index)) s :=
  Run.checked_configTest toNat_eq_zero_iff fun _ => Run.rangeOnly_rangeTest _ _

theorem dwRunRun_checked : (dwRunRun s).Checked (channelCause s .dwRun) False s :=
  Run.checked_channelTest s.channelIllegal_iff fun _ => (Run.rangeOnly_done _).checked

theorem pfFrameRun_rangeOnly : (pfFrameRun s).RangeOnly := Run.rangeOnly_rangeTest _ _

end Primitive
/-- What an operation that is no pipeline checks (rules R278, R279, R285). -/
theorem run_checked_of_primitive {i : Instr} (hi : isPipeline i = false) (s : State) :
    (s.run i).Checked (channelCause s i) (configCause s i) s := by
  cases i with
  | nop | clrst | clrcnt | setrefZ | setrefD | outclr | bdRst | fdBin | syExact | syCorr | syGetb =>
    exact (Run.rangeOnly_done _).checked
  | setthr single => exact setthrRun_checked s single
  | setrefC => exact setrefC_checked s
  | bdNext => exact bdNextRun_checked s
  | bdAll => exact bdAllRun_checked s
  | squelch => exact squelchRun_checked s
  | fdFreq ug => exact (fdFreqRun_rangeOnly s ug).checked
  | fdClk => exact fdClkRun_checked s
  | fdSlice => exact fdSliceRun_checked s
  | fdDemod ug ck => exact fdDemodRun_checked s ug ck
  | syScan => exact syScanRun_checked s
  | syDedup => exact syDedupRun_checked s
  | syGetbR index => exact syGetbRRun_checked s index
  | dwRun => exact dwRunRun_checked s
  | pfFrame => exact (pfFrameRun_rangeOnly s).checked
  | pipeBurst | pipeStream => cases hi

/-! The pipelines: the checks of the operations they call are among their own, and no write changes what is checked
(rules R241 to R244). -/

/-- The instruction has no cause of InvalidChannel and none of ConfigError in the state (rules R278, R279). -/
structure State.Passes (s : State) (i : Instr) : Prop where
  channel : ¬ channelCause s i
  config : ¬ configCause s i

theorem State.Passes.rangeOnly {s : State} {i : Instr} (hs : s.Passes i) (hi : isPipeline i = false) :
    (s.run i).RangeOnly :=
  (run_checked_of_primitive hi s).rangeOnly hs.channel hs.config

/-- A pipeline writes nothing that its checks read. -/
theorem State.Passes.write {i : Instr} (hi : isPipeline i = true) {s t : State} (hs : s.Passes i) (h : Write i s t) :
    t.Passes i := by
  obtain ⟨hchannel, hconfig⟩ := hs
  cases h with
  | thresholds single e => subst e; cases hi
  | _ => exact ⟨hchannel, hconfig⟩

theorem State.Passes.writes {i : Instr} (hi : isPipeline i = true) {s t : State} (hs : s.Passes i)
    (h : Writes i s t) : t.Passes i :=
  h.keeps (fun hw hu => State.Passes.write hi hu hw) hs

/-- A part of a pipeline and what comes after it. -/
theorem Run.RangeOnly.andThen {i : Instr} (hi : isPipeline i = true) {s : State} (hs : s.Passes i) {r : Run}
    (hw : Writes i s r.state) (hr : r.RangeOnly) {f : State → Run} (hf : ∀ t, t.Passes i → (f t).RangeOnly) :
    (r.andThen f).RangeOnly := by
  cases r with
  | done t => exact hf t (hs.writes hi hw)
  | raised x u => exact hr

/-- Both pipelines check the channel as `DW.RUN` does (rule R278). -/
theorem State.Passes.whitening {i : Instr} (hi : isPipeline i = true) {s : State} (hs : s.Passes i) :
    s.Passes .dwRun := by
  cases i with
  | pipeBurst | pipeStream => exact ⟨hs.channel, id⟩
  | _ => cases hi

theorem State.searched_writes {i : Instr} (hi : owns i .syncnf = true) (cr : Bool) (s : State) :
    Writes i s (s.searched cr) := by
  cases cr with
  | true => exact syCorrOp_writes hi s
  | false => exact syExactOp_writes hi s

section BurstPipeline

variable {ug ck cr : Bool}

theorem State.Passes.detector {s : State} (hs : s.Passes (.pipeBurst ug ck cr)) : s.Passes .bdNext :=
  ⟨id, fun h => hs.config (.inr (.inr h))⟩

theorem State.Passes.demod {s : State} (hs : s.Passes (.pipeBurst ug ck cr)) : s.Passes (.fdDemod ug ck) :=
  ⟨id, fun h => hs.config (h.imp_right .inl)⟩

theorem burstBody_rangeOnly {s : State} (hs : s.Passes (.pipeBurst ug ck cr)) : (burstBody ug ck cr s).RangeOnly := by
  refine .andThen rfl hs (fdDemodRun_atomic rfl ug ck s).writes (hs.demod.rangeOnly rfl) fun t ht => ?_
  have hscan : (t.searched cr).Passes (.pipeBurst ug ck cr) := ht.writes rfl (State.searched_writes rfl cr t)
  change (if (t.searched cr).flag .syncnf then Run.done (t.searched cr)
    else (dwRunRun (syGetbOp (t.searched cr))).andThen pfFrameRun).RangeOnly
  split
  · exact Run.rangeOnly_done _
  · have hbytes := hscan.write rfl (syGetbOp_write _)
    exact .andThen rfl hbytes (dwRunRun_atomic _).writes ((hbytes.whitening rfl).rangeOnly rfl)
      fun u _ => pfFrameRun_rangeOnly u

theorem burstLoop_rangeOnly (n : Nat) :
    ∀ {s : State}, s.Passes (.pipeBurst ug ck cr) → (burstLoop ug ck cr n s).RangeOnly := by
  induction n with
  | zero => exact fun _ => Run.rangeOnly_done _
  | succ n ih =>
    refine fun {s} hs => .andThen rfl hs (bdNextRun_atomic rfl s).writes (hs.detector.rangeOnly rfl) fun t ht => ?_
    split
    · exact Run.rangeOnly_done t
    · exact .andThen rfl ht (burstBody_writes ug ck cr t) (burstBody_rangeOnly ht) fun u hu => ih hu

theorem pipeBurstRun_checked (s : State) :
    (pipeBurstRun ug ck cr s).Checked (channelCause s (.pipeBurst ug ck cr)) (configCause s (.pipeBurst ug ck cr))
      s := by
  have hcfg : (s.cfgSps.toNat = 0 ∨ (ck = true ∧ s.cfgSkip.toNat < 2)) ∨ s.detectorIllegal = true ↔
      configCause s (.pipeBurst ug ck cr) := by
    rw [toNat_eq_zero_iff, s.detectorIllegal_iff, or_assoc]
    rfl
  refine Run.checked_channelTest s.channelIllegal_iff fun hchan => ?_
  rw [← ite_or]
  refine Run.checked_configTest hcfg fun hconfig => burstLoop_rangeOnly _ ?_
  exact State.Passes.writes rfl ⟨hchan, hconfig⟩ (bdRstOp_writes rfl s)

end BurstPipeline

section StreamPipeline

variable {ug : Bool}

theorem matchLoop_rangeOnly (n : Nat) :
    ∀ {k : Nat} {s : State}, s.Passes (.pipeStream ug) → (matchLoop n k s).RangeOnly := by
  induction n with
  | zero => exact fun _ => Run.rangeOnly_done _
  | succ n ih =>
    intro k s hs
    have hbytes : s.Passes (.syGetbR k) := ⟨id, hs.config⟩
    refine .andThen rfl hs (syGetbRRun_atomic k s).writes (hbytes.rangeOnly rfl) fun t ht => ?_
    refine .andThen rfl ht (dwRunRun_atomic t).writes ((ht.whitening rfl).rangeOnly rfl) fun u hu => ?_
    exact .andThen rfl hu (pfFrameRun_atomic rfl u).writes (pfFrameRun_rangeOnly u) fun v hv => ih hv

theorem pipeStreamRun_checked (s : State) :
    (pipeStreamRun ug s).Checked (channelCause s (.pipeStream ug)) (configCause s (.pipeStream ug)) s := by
  refine Run.checked_channelTest s.channelIllegal_iff fun hchan => ?_
  refine Run.checked_configTest toNat_eq_zero_iff fun hconfig => ?_
  have hs : s.selectChunk.Passes (.pipeStream ug) := ⟨hchan, hconfig⟩
  refine .andThen rfl hs (fdFreqRun_atomic ug _).writes (fdFreqRun_rangeOnly _ ug) fun t ht => ?_
  have hbits : (fdBinOp t).Passes (.pipeStream ug) := ht.write rfl (fdBinOp_write t)
  have hscan : (fdBinOp t).Passes .syScan := ⟨id, hbits.config⟩
  refine .andThen rfl hbits (syScanRun_atomic _).writes (hscan.rangeOnly rfl) fun u hu => ?_
  have hdedup : u.Passes .syDedup := ⟨id, hu.config⟩
  exact .andThen rfl hu (syDedupRun_atomic rfl u).writes (hdedup.rangeOnly rfl) fun v hv => matchLoop_rangeOnly _ hv

end StreamPipeline

/-! All operations. -/

/-- Rules R278, R279 and R285 for every operation. -/
theorem run_checked (i : Instr) (s : State) : (s.run i).Checked (channelCause s i) (configCause s i) s := by
  cases hi : isPipeline i with
  | false => exact run_checked_of_primitive hi s
  | true =>
    cases i with
    | pipeBurst ug ck cr => exact pipeBurstRun_checked s
    | pipeStream ug => exact pipeStreamRun_checked s
    | _ => cases hi

theorem Fatal.flag_injective {x y : Fatal} (h : x.flag = y.flag) : x = y := by
  cases x <;> cases y <;> trivial

theorem State.flag_of_fatalBits {s : State} (h : s.fatalBits = 0) (x : Fatal) : s.flag x.flag = false := by
  rw [State.fatalBits_eq_zero_iff, ← Bool.not_eq_true, State.fatalPending_iff] at h
  exact Bool.eq_false_iff.2 fun hx => h ⟨x, hx⟩

/-- The fatal flag that an operation leaves set is the one of the condition its run raised. -/
theorem run_raised_of_flag {i : Instr} {s t : State} {x : Fatal} (hs : s.fatalBits = 0) (h : exec i s = .next t)
    (hflag : t.flag x.flag = true) : ∃ u, s.run i = .raised x u := by
  have hbits : (s.run i).state.fatalBits = 0 := (run_writes i s).fatalBits_eq.elim (fun e => e.trans hs) id
  have hclear := State.flag_of_fatalBits hbits x
  rw [exec_eq_finish] at h
  cases hr : s.run i with
  | done u =>
    rw [hr] at h hclear
    cases h
    exact absurd hflag (Bool.eq_false_iff.1 hclear)
  | raised y u =>
    rw [hr] at h hclear
    cases h
    rw [Run.state_raised] at hclear
    have heq : x.flag = y.flag := by
      by_contra hne
      rw [State.flag_raise, if_neg hne, hclear] at hflag
      cases hflag
    exact ⟨u, by rw [Fatal.flag_injective heq]⟩

/-- A run that raises ends in the fatal entry of its condition (rule R291). -/
theorem eq_entered_of_raised {i : Instr} {s t u : State} {x : Fatal} (h : exec i s = .next t)
    (hrun : s.run i = .raised x u) : t = u.entered x.flag.bit x.code i.opc := by
  rw [exec_eq_finish, hrun, Run.finish_raised, State.raise_eq_entered] at h
  exact (Host.Outcome.next.inj h).symm

/-- Settles O12: the channel is the first check of the operations that have one, and no other check raises
InvalidChannel. -/
theorem invalidChannelCauses : Obligations.InvalidChannelCauses := by
  intro i s t hs h
  have hchecked := run_checked i s
  refine ⟨fun hchan => eq_entered_of_raised h (hchecked.eq_invalidChannel hchan), fun hflag => ?_⟩
  obtain ⟨u, hu⟩ := run_raised_of_flag (x := .invalidChannel) hs h hflag
  rw [hu] at hchecked
  exact hchecked.of_invalidChannel

/-- Settles O13: the configuration is checked next, and past the checks an operation raises RangeError alone. -/
theorem configErrorCauses : Obligations.ConfigErrorCauses := by
  intro i s t hs h
  have hchecked := run_checked i s
  refine ⟨fun hconfig hchan => eq_entered_of_raised h (hchecked.eq_configError hconfig hchan), fun hflag => ?_⟩
  obtain ⟨u, hu⟩ := run_raised_of_flag (x := .configError) hs h hflag
  rw [hu] at hchecked
  exact hchecked.of_configError

end Sys2Proof.Machine

/-! PROOFS. RangeError in the operations that are no pipelines (rules R88, R280, R285; O14): past the checks of the channel
and the configuration, the causes of the rule are the test each operation makes of its lists and its segment. -/

namespace Sys2Proof.Machine

/-- The run of an operation on `s` past its other checks: it raises RangeError if `range`, and is done otherwise. -/
def Run.Ranged (range : Prop) (s : State) (r : Run) : Prop :=
  (range ∧ r = .raised .rangeError s) ∨ (¬ range ∧ ∃ t, r = .done t)

section Ranged

variable {range : Prop} {s u : State} {r : Run}

theorem Run.Ranged.of_done {t : State} (h : r = .done t) : r.Ranged False s := .inr ⟨id, t, h⟩

/-- An operation with one test left. -/
theorem Run.Ranged.of_full_of_room (hfull : range → r = .raised .rangeError s) (hroom : ¬ range → ∃ t, r = .done t) :
    r.Ranged range s :=
  (em range).imp (fun h => ⟨h, hfull h⟩) fun h => ⟨h, hroom h⟩

theorem Run.Ranged.eq_rangeError (h : r.Ranged range s) (hrange : range) : r = .raised .rangeError s :=
  h.elim And.right fun hn => absurd hrange hn.1

theorem Run.Ranged.of_rangeError (h : (Run.raised .rangeError u).Ranged range s) : range := by
  obtain ⟨hrange, -⟩ | ⟨-, t, ht⟩ := h
  · exact hrange
  · cases ht

end Ranged

/-! The pass over the stream (rules R132, R133). -/

section Pass

variable {s : State} (hwf : s.mem.samp.wf = true) (hr : s.detectorReady)
include hwf hr

/-- The scan of rule R132 finds one burst, or none. -/
theorem State.burstFrom_unique {c : Nat} {b d : Span} (hb : s.burstFrom c b) (hd : s.burstFrom c d) : b = d := by
  rw [← nextBurst_eq_some_iff hwf hr] at hb hd
  obtain ⟨hstart, hstop⟩ := Prod.mk.inj (Option.some.inj (hb.symm.trans hd))
  exact (Span.mk.injEq ..).mpr ⟨BitVec.eq_of_toNat_eq hstart, BitVec.eq_of_toNat_eq hstop⟩

theorem State.not_burstFrom_of_noBurstFrom {c : Nat} (h : s.noBurstFrom c) (b : Span) : ¬ s.burstFrom c b := by
  rw [← nextBurst_eq_some_iff hwf hr, (nextBurst_eq_none_iff hwf hr).2 h]
  nofun

/-- Every list of bursts that follow one another is the beginning of the complete pass. -/
theorem State.burstsFrom.begins_pass {bs : List Span} :
    ∀ {c : Nat} {all : List Span}, s.burstsFrom c bs → s.passFrom c all → bs <+: all := by
  induction bs with
  | nil => exact fun _ _ => List.nil_prefix
  | cons b rest ih =>
    rintro c (_ | ⟨d, tail⟩) ⟨hb, hrest⟩ hpass
    · exact absurd hb (State.not_burstFrom_of_noBurstFrom hwf hr hpass b)
    · obtain ⟨hd, htail⟩ := hpass
      obtain rfl := State.burstFrom_unique hwf hr hb hd
      exact List.cons_prefix_cons.2 ⟨rfl, ih hrest htail⟩

/-- `BD.ALL` counts the bursts of the complete pass before it writes the first (rule R133). -/
theorem bdAllRun_of_full (hfull : rangeCause s .bdAll) : bdAllRun s = .raised .rangeError s := by
  obtain ⟨bs, hbs, hlong⟩ := hfull
  obtain ⟨all, hpass⟩ := State.exists_passFrom hwf hr 0
  have hlen := State.length_burstsFrom_le hr all 0 (Nat.zero_le _) hpass.burstsFrom
  rw [Nat.zero_add] at hlen
  have hcap := hlong.trans_le (State.burstsFrom.begins_pass hwf hr hbs hpass).length_le
  rw [bdAllRun, s.detectorIllegal_eq_false_iff.2 hr, if_neg Bool.false_ne_true,
    burstCount_of_passFrom hwf hr hpass (Nat.lt_succ_of_le hlen), if_pos hcap]

theorem bdAllRun_ranged : (bdAllRun s).Ranged (rangeCause s .bdAll) s :=
  .of_full_of_room (bdAllRun_of_full hwf hr) fun hroom =>
    let ⟨_, _, _, h⟩ := bdAllRun_of_room hwf hr hroom
    ⟨_, h⟩

theorem squelchRun_ranged : (squelchRun s).Ranged (rangeCause s .squelch) s := by
  obtain ⟨hfull, h⟩ | ⟨hroom, t, h⟩ := bdAllRun_ranged hwf hr
  · exact .inl ⟨hfull, by rw [squelchRun, h, Run.raised_andThen]⟩
  · exact .inr ⟨hroom, _, by rw [squelchRun, h, Run.done_andThen]⟩

/-- `BD.NEXT` raises RangeError for a cursor beyond the stream, and for a burst that has no place in `BURST`
(rule R132). -/
theorem bdNextRun_ranged : (bdNextRun s).Ranged (rangeCause s .bdNext) s := by
  have hlegal := s.detectorIllegal_eq_false_iff.2 hr
  have hfound := nextBurst_eq_none_iff (c := s.bdCur.toNat) hwf hr
  obtain ⟨h, -⟩ | ⟨-, hcur, h⟩ | ⟨-, hcur, hnone, h⟩ | ⟨b, -, hcur, hsome, ⟨hcap, h⟩ | ⟨hcap, h⟩⟩ :=
    bdNextRun_cases s
  · rw [hlegal] at h
    cases h
  · exact .inl ⟨.inl hcur, h⟩
  · exact .inr ⟨not_or.2 ⟨hcur, fun hc => hc.2 (hfound.1 hnone)⟩, _, h⟩
  · exact .inl ⟨.inr ⟨hcap, fun hn => by rw [hfound.2 hn] at hsome; cases hsome⟩, h⟩
  · exact .inr ⟨not_or.2 ⟨hcur, fun hc => hcap hc.1⟩, _, h⟩

end Pass

/-! The segment (rules R151, R158). -/

theorem State.segmentIllegal_iff (s : State) :
    s.segmentIllegal = true ↔ s.segStop.toNat < s.segStart.toNat ∨ s.sampLen.toNat < s.segStop.toNat := by
  rw [← Bool.not_eq_false, State.segmentIllegal_eq_false_iff, not_and_or, not_le, not_le]

theorem fdFreqRun_ranged (ug : Bool) (s : State) : (fdFreqRun ug s).Ranged (rangeCause s (.fdFreq ug)) s :=
  have hseg : rangeCause s (.fdFreq ug) ↔ s.segmentIllegal = true := s.segmentIllegal_iff.symm
  .of_full_of_room (fun h => if_pos (hseg.1 h)) fun h => ⟨_, if_neg (hseg.not.1 h)⟩

theorem fdDemodRun_ranged {ug ck : Bool} {s : State} (hconfig : ¬ configCause s (.fdDemod ug ck)) :
    (fdDemodRun ug ck s).Ranged (rangeCause s (.fdDemod ug ck)) s := by
  have hseg : s.segmentIllegal = true ↔ rangeCause s (.fdDemod ug ck) := s.segmentIllegal_iff
  obtain ⟨h, hrun⟩ | ⟨h, hrun⟩ := fdDemodRun_cases_of_config hconfig
  · exact .inl ⟨hseg.1 h, hrun⟩
  · exact .inr ⟨hseg.not.1 (Bool.eq_false_iff.1 h), hrun⟩

/-! All operations that are no pipelines. -/

theorem syGetbRRun_ranged {index : Nat} {s : State} (hsps : s.cfgSps ≠ 0) :
    (syGetbRRun index s).Ranged (rangeCause s (.syGetbR index)) s := by
  refine .of_full_of_room (fun h => ?_) fun h => ⟨_, syGetbRRun_of_match hsps (not_le.1 h)⟩
  rw [syGetbRRun, if_neg (toNat_ne_zero hsps)]
  exact if_pos h

/-- The thresholds are derived without a test of a list. -/
theorem setthrRun_done {single : Bool} {s : State} (h : 0 ≤ s.cfgThresh.toReal) : ∃ t, setthrRun single s = .done t := by
  cases single with
  | true => exact ⟨_, setthrRun_single h⟩
  | false => exact ⟨_, setthrRun_pair h⟩

/-- Past its other checks an operation that is no pipeline raises RangeError for the causes of rule R280 and is done
without one. -/
theorem run_ranged {i : Instr} (hi : isPipeline i = false) {s : State} (hwf : s.mem.wf = true) (hs : s.Passes i) :
    (s.run i).Ranged (rangeCause s i) s := by
  obtain ⟨hchannel, hconfig⟩ := hs
  cases i with
  | nop | clrst | clrcnt | setrefZ | setrefD | outclr | bdRst | fdBin | syExact | syCorr | syGetb => exact .of_done rfl
  | setthr single =>
    obtain ⟨t, ht⟩ := setthrRun_done (not_lt.1 hconfig)
    exact .of_done ht
  | setrefC => exact .of_done (setrefC_run_of_positive (not_le.1 hconfig))
  | bdNext => exact bdNextRun_ranged (Memory.samp_wf hwf) (not_not.1 hconfig)
  | bdAll => exact bdAllRun_ranged (Memory.samp_wf hwf) (not_not.1 hconfig)
  | squelch => exact squelchRun_ranged (Memory.samp_wf hwf) (not_not.1 hconfig)
  | fdFreq ug => exact fdFreqRun_ranged ug s
  | fdClk =>
    obtain ⟨hsps, hskip⟩ := not_or.1 hconfig
    exact .of_done (fdClkRun_of_legal hsps (not_lt.1 hskip))
  | fdSlice => exact .of_done (fdSliceRun_of_legal hconfig)
  | fdDemod ug ck => exact fdDemodRun_ranged hconfig
  | syScan =>
    exact .of_full_of_room (syScanRun_of_full (Memory.raw_wf hwf) hconfig) fun h =>
      ⟨_, syScanRun_of_room (Memory.raw_wf hwf) hconfig h⟩
  | syDedup =>
    exact .of_full_of_room (syDedupRun_of_full (Memory.cand_wf hwf) hconfig) fun h =>
      ⟨_, syDedupRun_of_room (Memory.cand_wf hwf) hconfig h⟩
  | syGetbR index => exact syGetbRRun_ranged hconfig
  | dwRun => exact .of_done (dwRunRun_of_legal (not_lt.1 hchannel))
  | pfFrame => exact .of_full_of_room pfFrameRun_of_full fun h => ⟨_, pfFrameRun_of_room h⟩
  | pipeBurst | pipeStream => cases hi

/-- No operation has a cause of InvalidChannel and one of RangeError (rules R278, R280). -/
theorem not_channelCause_of_rangeCause {s : State} {i : Instr} (h : rangeCause s i) : ¬ channelCause s i := by
  cases i with
  | dwRun | pipeBurst | pipeStream => exact h.elim
  | _ => exact id

/-- Settles O14: past the checks of the channel and the configuration the model's test of each list is the cause in the
rule's words. -/
theorem rangeErrorCauses : Obligations.RangeErrorCauses := by
  intro i s t hi hwf hs h
  refine ⟨fun hrange hconfig => ?_, fun hflag => ?_⟩
  · have hpass : s.Passes i := ⟨not_channelCause_of_rangeCause hrange, hconfig⟩
    exact eq_entered_of_raised h ((run_ranged hi hwf hpass).eq_rangeError hrange)
  · obtain ⟨u, hu⟩ := run_raised_of_flag (x := .rangeError) hs h hflag
    have hchecked := run_checked i s
    rw [hu] at hchecked
    obtain ⟨hchannel, hconfig⟩ := hchecked.of_rangeError
    have hranged := run_ranged hi hwf ⟨hchannel, hconfig⟩
    rw [hu] at hranged
    exact ⟨hranged.of_rangeError, hconfig⟩

end Sys2Proof.Machine

/-! PROOFS. Command words and the reset (rules R95, R281, R292, R301, R311, R325): every word has an effect (O15), an
illegal one raises IllegalCommand (O4), a blocked one does nothing (O6), the fatal entry in plain words (O10), the table
sizes (O48), and the state a `Reset` event leaves (O8). -/

namespace Sys2Proof

/-- A buffer whose contents became unspecified holds an open value of the next generation everywhere. -/
theorem Buf.get_forget {α : Type} (free : Nat → Nat → α) (b : Buf α) (i : Nat) :
    b.forget.get free i = free (b.gen + 1) i := rfl

namespace Machine

/-! Command words. -/

theorem hostCmd_of_blocks {s : State} {w : Word} (h : s.blocks w = true) : hostCmd w s = .next s := if_pos h

theorem hostCmd_of_illegal {s : State} {w : Word} {e : DecodeError} (hb : s.blocks w = false)
    (hd : decode w = .error e) : hostCmd w s = .next (s.raise .illegalCommand (opcField w)) := by
  rw [hostCmd, hb, hd]
  rfl

/-- Every operation ends, done or with a fatal entry (rule R325). -/
theorem exec_eq_next (i : Instr) (s : State) : ∃ t, exec i s = .next t := by
  rw [exec_eq_finish]
  obtain ⟨t, -, h⟩ | ⟨x, t, -, h⟩ := (s.run i).finish_cases i.opc
  · exact ⟨t, h⟩
  · exact ⟨_, h⟩

/-- Settles O15: a word is blocked, or it decodes to an operation, or it is illegal, and each has its next state. -/
theorem everyCommandWordHasANextState : Obligations.EveryCommandWordHasANextState := by
  intro w s
  cases hb : s.blocks w with
  | true => exact ⟨s, hostCmd_of_blocks hb⟩
  | false =>
    cases hd : decode w with
    | ok i =>
      rw [hostCmd_of_decode hb hd]
      exact exec_eq_next i s
    | error e => exact ⟨_, hostCmd_of_illegal hb hd⟩

/-- A word that is no instruction's encoding does not decode (rules R99, R103). -/
theorem decode_eq_error {w : Word} (h : ∀ i : Instr, i.wellFormed = true → encode i ≠ w) :
    ∃ e, decode w = .error e := by
  cases hd : decode w with
  | ok i =>
    obtain ⟨hwf, hw⟩ := encodeOfDecode w i hd
    exact absurd hw (h i hwf)
  | error e => exact ⟨e, rfl⟩

/-- Settles O4: a word that is no encoding does not decode. -/
theorem illegalWordRaisesIllegalCommand : Obligations.IllegalWordRaisesIllegalCommand := by
  intro w s hw hfree
  obtain ⟨e, hd⟩ := decode_eq_error hw
  rw [hostCmd_of_illegal ((s.blocks_eq_false_iff w).2 hfree) hd, State.raise_eq_entered]
  rfl

/-- Settles O6: a blocked word leaves only the list of transactions shorter, and an empty list leaves the state. -/
theorem blockedOrIdleBlockKeepsItsState : Obligations.BlockedOrIdleBlockKeepsItsState := by
  refine ⟨fun s w rest hpending hfatal hopc => ?_, fun s hpending => ?_⟩
  · have hb : (s.await rest).blocks w = true := by
      rw [← Bool.not_eq_false, State.blocks_eq_false_iff]
      exact not_or.2 ⟨hfatal, hopc⟩
    rw [step_of_pending hpending]
    exact hostCmd_of_blocks hb
  · rw [step, nextTransaction, hpending]

/-- Settles O10: the fatal entry in plain words, for each of the five conditions. -/
theorem fatalEntryRecordsTheFirstCondition : Obligations.FatalEntryRecordsTheFirstCondition := by
  intro s src
  exact ⟨s.raise_eq_entered .invalidChannel src, s.raise_eq_entered .configError src,
    s.raise_eq_entered .rangeError src, s.raise_eq_entered .illegalCommand src, s.raise_eq_entered .accessFault src⟩

/-! The tables (rule R283). -/

theorem length_wseq (b : Build) : b.wseq.length = b.wLen := by
  unfold Build.wseq Build.wLen
  cases b.lastBit with
  | none => rfl
  | some v => rfl

/-- Settles O48: the start indices are the entries of `CHIDX`, which lie below the shorter length already. -/
theorem tableSizesMatch : Obligations.TableSizesMatch := by
  refine fun b => ⟨length_wseq b, rfl, fun x hx => ?_⟩
  obtain ⟨ch, hch, rfl⟩ := List.mem_iff_getElem.1 hx
  have hlt := startIndex_lt_wLen b (Nat.le_of_lt_succ hch)
  rwa [startIndex, List.getD_eq_getElem _ _ hch] at hlt

/-! The reset (rules R310, R311). -/

/-- The registers after a `Reset` are those of the reset state; the build parameters are in none of them. -/
theorem readReg_resetEvent (s : State) (r : Reg) : s.resetEvent.readReg r = State.reset.readReg r := by
  cases r <;> rfl

/-- Settles O8: the `Reset` event writes the reset values of the registers and forgets every buffer. -/
theorem resetEventGivesResetValues : Obligations.ResetEventGivesResetValues := by
  intro s rest hpending
  refine ⟨(s.await rest).resetEvent, step_of_pending hpending, readReg_resetEvent _, rfl, rfl, rfl, fun i => ?_⟩
  exact ⟨Buf.get_forget _ s.mem.samp i, Buf.get_forget _ s.mem.sql i, Buf.get_forget _ s.mem.burst i,
    Buf.get_forget _ s.mem.freq i, Buf.get_forget _ s.mem.bits i, Buf.get_forget _ s.mem.raw i,
    Buf.get_forget _ s.mem.cand i, Buf.get_forget _ s.mem.hits i, Buf.get_forget _ s.mem.rb i,
    Buf.get_forget _ s.mem.dw i, Buf.get_forget _ s.mem.out i⟩

end Machine

end Sys2Proof
